-- ==== Sys2Proof/Word.lean ====
section
/-! DEFINITION. The word types of CORE: what the spec treats as bits (00_scope R13). -/

namespace Sys2Proof

/-- A register, a command word, or an element of a 32-bit space. -/
abbrev Word := BitVec 32

/-- A pixel: an opaque 32-bit symbol, A [31:24], R [23:16], G [15:8], B [7:0] (10_state R31). -/
abbrev Pixel := BitVec 32

/-- A byte of OUT. -/
abbrev Byte := BitVec 8

/-- A `Cost` as its binary64 image (00_scope R16, 30_encoding R115). -/
abbrev Cost := BitVec 64

end Sys2Proof
end

