-- ==== Sys2Proof/Config.lean ====
section
/-! DEFINITION. What an implementation fixes: the constants of 00_scope R7 and R8, the open capacities,
the marks that say which configuration functions are the spec's defaults, and the free values. -/

namespace Sys2Proof

/-- MAX_LENGTH, the largest copy length (00_scope R7). -/
def Config.maxLength : Nat := 4095
/-- MIN_LENGTH, the smallest copy length the builders emit (00_scope R7). -/
def Config.minLength : Nat := 4
/-- DP_MIN_LENGTH, the smallest copy length of the solver (00_scope R8). -/
def Config.dpMinLength : Nat := 2
/-- WINDOW_SIZE, 2^20 - 120 (00_scope R8). -/
def Config.windowSize : Nat := 1048456
/-- HASH_BITS (00_scope R8). -/
def Config.hashBits : Nat := 18
/-- MAX_CACHE_BITS (00_scope R7). -/
def Config.maxCacheBits : Nat := 10
/-- MAX_CODE_LENGTH (00_scope R7). -/
def Config.maxCodeLength : Nat := 15
/-- Elements from one histogram slot to the next (10_state R30). -/
def Config.slotStride : Nat := 2584
/-- Elements of a slot that HIST_ADD sums: the five tables (45_histogram R226). -/
def Config.slotUsed : Nat := 2112
/-- Entries reserved for the combined table, 256 + 24 + 2^10 (10_state R30). -/
def Config.combinedRoom : Nat := 1304
/-- Slots of the space CC (10_state R30). -/
def Config.cacheSlots : Nat := 1024

/-- The capacities the spec leaves open (00_scope R8, 92_eei_decisions section 1). -/
structure Caps where
  /-- N_MAX, pixels. -/
  nMax : Nat
  /-- TOK_CAP, tokens of one buffer. -/
  tokCap : Nat
  /-- H_MAX, histogram slots. -/
  hMax : Nat
  /-- OUT_CAP, bytes of OUT. -/
  outCap : Nat
deriving DecidableEq, Repr

/-- The constraints the spec puts on the capacities (00_scope R8, 92_eei_decisions section 1). -/
def Caps.wf (c : Caps) : Bool :=
  decide (1 ≤ c.nMax ∧ c.nMax ≤ 2 ^ 28 ∧ 1 ≤ c.tokCap ∧ c.tokCap < 2 ^ 32 ∧
    1 ≤ c.hMax ∧ c.hMax ≤ 65535 ∧ 4 ≤ c.outCap ∧ c.outCap < 2 ^ 32)

/-- Where a configuration function comes from: the spec's default, or the implementation's own
(93_implementation_defined U2). -/
inductive Source where
  | byDefault
  | own
deriving DecidableEq, Repr

/-- The configuration functions of 00_scope R8, each marked with its source. -/
structure Fns where
  window   : Source
  pairHash : Source
  cacheHash : Source
  distance : Source
  symCost  : Source
  estimate : Source
  log2     : Source
  rleSmooth : Source
  cluster  : Source
deriving DecidableEq, Repr

/-- Every configuration function at the spec's default. -/
def Fns.defaults : Fns :=
  ⟨.byDefault, .byDefault, .byDefault, .byDefault, .byDefault, .byDefault, .byDefault, .byDefault, .byDefault⟩

/-- Free value: element `index` of space `space`, unwritten since its content last became unspecified
(10_state R51, 93_implementation_defined U3, U4). `gen` counts how often that happened. -/
opaque Config.unwritten (space gen index : Nat) : BitVec 64

/-- Free value number `n`: a read whose result the spec leaves open (20_memory R71, R73), or a byte of OUT
that a failed command wrote (60_exceptions R346). -/
opaque Config.freeValue (n : Nat) : BitVec 64

/-- An implementation's own `WindowFor` (41_hash_chain R132). -/
opaque Config.ownWindowFor (quality xsize : Nat) : Nat
/-- An implementation's own `PairHash` (41_hash_chain R133). -/
opaque Config.ownPairHash (a b : Word) : Nat
/-- An implementation's own `CacheHash` (43_color_cache R181). -/
opaque Config.ownCacheHash (p : Pixel) : Word
/-- An implementation's own `DistanceCode` (30_encoding R108). -/
opaque Config.ownDistanceCode (xsize d : Nat) : Nat
/-- An implementation's own `SymCost` (44_optimal_parse R202). -/
opaque Config.ownSymCost (table : List Nat) (s : Nat) : Cost
/-- An implementation's own `EstimateTable` (45_histogram R228). -/
opaque Config.ownEstimateTable (table : List Nat) : Cost
/-- An implementation's own `log2` (49_system R337). -/
opaque Config.ownLog2 (n : Nat) : Cost
/-- An implementation's own `RleSmooth` (47_huffman R267). -/
opaque Config.ownRleSmooth (counts : List Nat) : List Nat
/-- An implementation's own `ClusterChoice` (46_clustering R252), on the five tables of each tile. -/
opaque Config.ownClusterChoice (tiles : List (List (List Nat))) : Nat × List Nat

end Sys2Proof
end

