-- ==== Sys2Proof/Syntax.lean ====
section
/-! DEFINITION. The commands of CORE: one constructor of `Instr` for each row of spec/opcode_table.json
(30_encoding R92), with the operands that travel in the command word. -/

namespace Sys2Proof

/-- The table a builder or the solver reads, `a`[0] (30_encoding R92). -/
inductive TableSel where
  | hc0
  | hc1
deriving DecidableEq, Repr

/-- How tokens map to slots, `a`[1:0] (45_histogram R223, 48_bit_writer R300). -/
inductive SlotMode where
  | one
  | perTile
  | perGroup
deriving DecidableEq, Repr

/-- The command set (30_encoding R92). -/
inductive Instr where
  | nop
  | softReset
  | attemptBegin
  | hcBuild
  | hcBox
  | brGreedy (sel : TableSel)
  | brRle
  | cacheApply
  | cacheSearch
  | tokSwap
  | dpSolve (sel : TableSel)
  | histClear (slot : BitVec 16)
  | histBuild (mode : SlotMode) (slot : BitVec 16)
  | histAdd (slot : BitVec 16)
  | histEst (slot : BitVec 16)
  | histCombine (slot : BitVec 16)
  | cluster (slot : BitVec 16)
  | huffLen (slot : BitVec 16)
  | huffCode (slot : BitVec 16)
  | bwInit
  | bwPut (n : BitVec 6)
  | bwFinish
  | emitTokens (mode : SlotMode) (slot : BitVec 16)
  | ccInit (bits : BitVec 4)
  | ccLookup
  | ccInsert
deriving DecidableEq, Repr

/-- The opcodes, one per command (30_encoding R92). -/
inductive Opcode where
  | nop | softReset | attemptBegin
  | hcBuild | hcBox
  | brGreedy | brRle | cacheApply | cacheSearch | tokSwap
  | dpSolve
  | histClear | histBuild | histAdd | histEst | histCombine | cluster
  | huffLen | huffCode
  | bwInit | bwPut | bwFinish | emitTokens
  | ccInit | ccLookup | ccInsert
deriving DecidableEq, Repr

/-- The opcode of a command. -/
def Instr.opcode : Instr → Opcode
  | .nop => .nop
  | .softReset => .softReset
  | .attemptBegin => .attemptBegin
  | .hcBuild => .hcBuild
  | .hcBox => .hcBox
  | .brGreedy _ => .brGreedy
  | .brRle => .brRle
  | .cacheApply => .cacheApply
  | .cacheSearch => .cacheSearch
  | .tokSwap => .tokSwap
  | .dpSolve _ => .dpSolve
  | .histClear _ => .histClear
  | .histBuild _ _ => .histBuild
  | .histAdd _ => .histAdd
  | .histEst _ => .histEst
  | .histCombine _ => .histCombine
  | .cluster _ => .cluster
  | .huffLen _ => .huffLen
  | .huffCode _ => .huffCode
  | .bwInit => .bwInit
  | .bwPut _ => .bwPut
  | .bwFinish => .bwFinish
  | .emitTokens _ _ => .emitTokens
  | .ccInit _ => .ccInit
  | .ccLookup => .ccLookup
  | .ccInsert => .ccInsert

end Sys2Proof
end

