-- ==== Sys2Proof/WellFormed.lean ====
section
/-! DEFINITION. Which command terms are well formed: the operand sets of 30_encoding R94 that the types
of `Instr` do not already enforce. A slot number is not checked here: H_MAX is the machine's
(check 11 of 60_exceptions R349). -/

namespace Sys2Proof

/-- Check 2 of 60_exceptions R349 on a term: BW_PUT's bit count is at most 32, CC_INIT's width at most 10. -/
def Instr.wf : Instr → Bool
  | .nop => true
  | .softReset => true
  | .attemptBegin => true
  | .hcBuild => true
  | .hcBox => true
  | .brGreedy _ => true
  | .brRle => true
  | .cacheApply => true
  | .cacheSearch => true
  | .tokSwap => true
  | .dpSolve _ => true
  | .histClear _ => true
  | .histBuild _ _ => true
  | .histAdd _ => true
  | .histEst _ => true
  | .histCombine _ => true
  | .cluster _ => true
  | .huffLen _ => true
  | .huffCode _ => true
  | .bwInit => true
  | .bwPut n => decide (n.toNat ≤ 32)
  | .bwFinish => true
  | .emitTokens _ _ => true
  | .ccInit bits => decide (bits.toNat ≤ 10)
  | .ccLookup => true
  | .ccInsert => true

end Sys2Proof
end

