-- ==== Sys2Proof/Decode.lean ====
section
/-! DEFINITION. The command word (30_encoding R91 to R94): decoding, total on every word and rejecting by
name, and after it the encoder. -/

namespace Sys2Proof

/-- The opcode byte of each command (30_encoding R92). -/
def Opcode.byte : Opcode → BitVec 8
  | .nop => 0x00 | .softReset => 0x01 | .attemptBegin => 0x02
  | .hcBuild => 0x10 | .hcBox => 0x11
  | .brGreedy => 0x20 | .brRle => 0x21 | .cacheApply => 0x23 | .cacheSearch => 0x24 | .tokSwap => 0x25
  | .dpSolve => 0x30
  | .histClear => 0x40 | .histBuild => 0x41 | .histAdd => 0x42 | .histEst => 0x43
  | .histCombine => 0x44 | .cluster => 0x45
  | .huffLen => 0x50 | .huffCode => 0x51
  | .bwInit => 0x60 | .bwPut => 0x61 | .bwFinish => 0x62 | .emitTokens => 0x63
  | .ccInit => 0x70 | .ccLookup => 0x71 | .ccInsert => 0x72

/-- The 26 opcodes (30_encoding R92). -/
def Opcode.all : List Opcode :=
  [.nop, .softReset, .attemptBegin, .hcBuild, .hcBox, .brGreedy, .brRle, .cacheApply, .cacheSearch,
   .tokSwap, .dpSolve, .histClear, .histBuild, .histAdd, .histEst, .histCombine, .cluster, .huffLen,
   .huffCode, .bwInit, .bwPut, .bwFinish, .emitTokens, .ccInit, .ccLookup, .ccInsert]

/-- The opcode with a given byte, if one is assigned. -/
def Opcode.ofByte (b : BitVec 8) : Option Opcode :=
  Opcode.all.find? (fun o => o.byte == b)

/-- Bits [31:24] of a command word (30_encoding R91). -/
def opField (w : Word) : BitVec 8 := w.extractLsb' 24 8
/-- Bits [23:20] of a command word. -/
def aField (w : Word) : BitVec 4 := w.extractLsb' 20 4
/-- Bits [19:16] of a command word, reserved zero. -/
def bField (w : Word) : BitVec 4 := w.extractLsb' 16 4
/-- Bits [15:0] of a command word. -/
def immField (w : Word) : BitVec 16 := w.extractLsb' 0 16

/-- `a`[0] selects the table, `a`[3:1] must be zero (30_encoding R93). -/
def decodeSel (a : BitVec 4) : Option TableSel :=
  if a = 0 then some .hc0 else if a = 1 then some .hc1 else none

/-- `a`[1:0] is the mode 0, 1 or 2, `a`[3:2] must be zero (30_encoding R93, R94). -/
def decodeMode (a : BitVec 4) : Option SlotMode :=
  if a = 0 then some .one else if a = 1 then some .perTile else if a = 2 then some .perGroup else none

/-- Format Z: `a` and `imm` are zero. -/
def formatZ (a : BitVec 4) (imm : BitVec 16) (i : Instr) : Option Instr :=
  if a = 0 ∧ imm = 0 then some i else none

/-- Format A: `imm` is zero, `a` selects the table. -/
def formatA (a : BitVec 4) (imm : BitVec 16) (f : TableSel → Instr) : Option Instr :=
  if imm = 0 then (decodeSel a).map f else none

/-- Format I: `a` is zero, `imm` is a slot number. -/
def formatI (a : BitVec 4) (imm : BitVec 16) (f : BitVec 16 → Instr) : Option Instr :=
  if a = 0 then some (f imm) else none

/-- Format AI: `a` is a mode, `imm` a slot number. -/
def formatAI (a : BitVec 4) (imm : BitVec 16) (f : SlotMode → BitVec 16 → Instr) : Option Instr :=
  (decodeMode a).map (fun m => f m imm)

/-- The operands of a command word whose opcode is known; `none` where check 2 of 60_exceptions R349
fails: an unused field or sub-field is not zero, or a used one is outside its set. -/
def decodeOperands (o : Opcode) (a b : BitVec 4) (imm : BitVec 16) : Option Instr :=
  if b ≠ 0 then none else
  match o with
  | .nop => formatZ a imm .nop
  | .softReset => formatZ a imm .softReset
  | .attemptBegin => formatZ a imm .attemptBegin
  | .hcBuild => formatZ a imm .hcBuild
  | .hcBox => formatZ a imm .hcBox
  | .brGreedy => formatA a imm .brGreedy
  | .brRle => formatZ a imm .brRle
  | .cacheApply => formatZ a imm .cacheApply
  | .cacheSearch => formatZ a imm .cacheSearch
  | .tokSwap => formatZ a imm .tokSwap
  | .dpSolve => formatA a imm .dpSolve
  | .histClear => formatI a imm .histClear
  | .histBuild => formatAI a imm .histBuild
  | .histAdd => formatI a imm .histAdd
  | .histEst => formatI a imm .histEst
  | .histCombine => formatI a imm .histCombine
  | .cluster => formatI a imm .cluster
  | .huffLen => formatI a imm .huffLen
  | .huffCode => formatI a imm .huffCode
  | .bwInit => formatZ a imm .bwInit
  | .bwPut => if a = 0 ∧ imm.toNat ≤ 32 then some (.bwPut (imm.setWidth 6)) else none
  | .bwFinish => formatZ a imm .bwFinish
  | .emitTokens => formatAI a imm .emitTokens
  | .ccInit => if a = 0 ∧ imm.toNat ≤ 10 then some (.ccInit (imm.setWidth 4)) else none
  | .ccLookup => formatZ a imm .ccLookup
  | .ccInsert => formatZ a imm .ccInsert

/-- Why a command word is illegal (30_encoding R94), with its opcode byte. -/
inductive DecodeError where
  /-- The opcode is not one of the 26: check 1 of 60_exceptions R349. -/
  | unknownOpcode (op : BitVec 8)
  /-- A field breaks its format: check 2 of 60_exceptions R349. -/
  | illegalField (op : BitVec 8)
deriving DecidableEq, Repr

/-- The opcode byte of an illegal word, which ERR_OP records. -/
def DecodeError.op : DecodeError → BitVec 8
  | .unknownOpcode op => op
  | .illegalField op => op

/-- The number of the check an illegal word fails (60_exceptions R349). -/
def DecodeError.check : DecodeError → Nat
  | .unknownOpcode _ => 1
  | .illegalField _ => 2

/-- Decoding of a command word (30_encoding R91 to R94). -/
def decodeWord (w : Word) : Except DecodeError Instr :=
  match Opcode.ofByte (opField w) with
  | none => .error (.unknownOpcode (opField w))
  | some o =>
    match decodeOperands o (aField w) (bField w) (immField w) with
    | none => .error (.illegalField (opField w))
    | some i => .ok i

/-- The field `a` of a table select. -/
def TableSel.bits : TableSel → BitVec 4
  | .hc0 => 0
  | .hc1 => 1

/-- The field `a` of a mode. -/
def SlotMode.bits : SlotMode → BitVec 4
  | .one => 0
  | .perTile => 1
  | .perGroup => 2

/-- The field `a` of a command. -/
def Instr.aBits : Instr → BitVec 4
  | .brGreedy sel => sel.bits
  | .dpSolve sel => sel.bits
  | .histBuild mode _ => mode.bits
  | .emitTokens mode _ => mode.bits
  | .nop | .softReset | .attemptBegin | .hcBuild | .hcBox | .brRle | .cacheApply | .cacheSearch
  | .tokSwap | .histClear _ | .histAdd _ | .histEst _ | .histCombine _ | .cluster _ | .huffLen _
  | .huffCode _ | .bwInit | .bwPut _ | .bwFinish | .ccInit _ | .ccLookup | .ccInsert => 0

/-- The field `imm` of a command. -/
def Instr.immBits : Instr → BitVec 16
  | .histClear h => h
  | .histBuild _ h => h
  | .histAdd h => h
  | .histEst h => h
  | .histCombine h => h
  | .cluster h => h
  | .huffLen h => h
  | .huffCode h => h
  | .emitTokens _ h => h
  | .bwPut n => n.setWidth 16
  | .ccInit b => b.setWidth 16
  | .nop | .softReset | .attemptBegin | .hcBuild | .hcBox | .brGreedy _ | .brRle | .cacheApply
  | .cacheSearch | .tokSwap | .dpSolve _ | .bwInit | .bwFinish | .ccLookup | .ccInsert => 0

/-- A command word from its fields (30_encoding R91). -/
def packWord (op : BitVec 8) (a b : BitVec 4) (imm : BitVec 16) : Word :=
  ((op ++ a ++ b ++ imm : BitVec (8 + 4 + 4 + 16))).cast (by decide)

/-- The command word of a command (30_encoding R91, R92). -/
def encode (i : Instr) : Word := packWord i.opcode.byte i.aBits 0 i.immBits

/-- The command read from an instruction whose low `nbits` bits are `w`, every bit above them zero. -/
def decodeTableWord (nbits w : Nat) : Option Instr :=
  (decodeWord (BitVec.ofNat 32 (w % 2 ^ nbits))).toOption

end Sys2Proof
end

