-- ==== Sys2Proof/Machine/State.lean ====
section
/-! DEFINITION. The state of one CORE as plain data: everything of 10_state, the host's pending operations,
and the state after hardware reset (70_reset R380). Operations on it stand in Ops.lean. -/

namespace Sys2Proof.Machine

/-- The five tables of a histogram slot, numbered 0 to 4 in this order (10_state R36). -/
inductive Table where
  | combined
  | red
  | blue
  | alpha
  | distance
deriving DecidableEq, Repr

/-- One value for each of the five tables. -/
structure PerTable (α : Type) where
  combined : α
  red : α
  blue : α
  alpha : α
  distance : α
deriving DecidableEq, Repr

/-- The address spaces of 10_state R30. -/
inductive SpaceId where
  | pix | hc0 | hc1 | tokA | tokB | cc | hist | grpMap | htab | dpCost | dpEdge | out
deriving DecidableEq, Repr

/-- The content of an address space of elements of `w` bits: the elements written since the content last
became unspecified, addresses strictly rising. An unlisted element has no value here; reading one draws
the free value `Config.unwritten` (10_state R51, log 3). `gen` counts how often the whole content became
unspecified. -/
structure Mem (w : Nat) where
  gen : Nat
  cells : List (Nat × BitVec w)
deriving DecidableEq, Repr

/-- The 32-bit registers that hold a value of their own (10_state R21). STATUS, ID, TOK_COUNT and ABORT
have no storage here. -/
structure Regs where
  cmd : Word
  xsize : Word
  ysize : Word
  quality : Word
  ctrl : Word
  cacheBits : Word
  reqCacheBits : Word
  histoBits : Word
  numGroups : Word
  arg0 : Word
  arg1 : Word
  threshLo : Word
  threshHi : Word
  result0 : Word
  result1 : Word
  errInfo : Word
  cmdCount : Word
deriving DecidableEq, Repr

/-- The fields of STATUS (10_state R22). -/
structure Flags where
  busy : Bool
  done : Bool
  error : Bool
  bwErr : Bool
  hc0Valid : Bool
  hc1Valid : Bool
  curValid : Bool
  scrValid : Bool
  bwOpen : Bool
  abortPending : Bool
  ccHit : Bool
  combineOk : Bool
  dpImproved : Bool
  curHasCache : Bool
  errCode : BitVec 4
  errOp : BitVec 8
deriving DecidableEq, Repr

/-- Which buffer is current, and the lengths and cache widths of the two (10_state R33, R43).
`sel` is TOKSEL: false, CUR is TOKA; true, CUR is TOKB. -/
structure Buffers where
  sel : Bool
  curLen : Nat
  scrLen : Nat
  curBits : BitVec 4
  scrBits : BitVec 4
deriving DecidableEq, Repr

/-- BW_ACC, BW_USED and BW_POS of the bit writer (10_state R42). -/
structure Writer where
  acc : BitVec 64
  used : Nat
  pos : Nat
deriving DecidableEq, Repr

/-- The hidden fields of one slot (10_state R37, R38, R41) but for its costs, which stand in `Spaces`. -/
structure Slot where
  hbits : BitVec 4
  histValid : Bool
  costValid : Bool
  lenValid : Bool
  codeValid : Bool
  trivialSym : PerTable (Option Nat)
  single : PerTable (Option Nat)
deriving DecidableEq, Repr

/-- The twelve address spaces (10_state R30) and the two cost fields of the slots (10_state R37):
`bitCost` at slot `h`, `tableCost` at `5 * h + t`. -/
structure Spaces where
  pix : Mem 32
  hc0 : Mem 32
  hc1 : Mem 32
  tokA : Mem 64
  tokB : Mem 64
  cc : Mem 33
  hist : Mem 32
  grpMap : Mem 16
  htab : Mem 32
  dpCost : Mem 64
  dpEdge : Mem 16
  out : Mem 8
  bitCost : Mem 64
  tableCost : Mem 64
deriving DecidableEq, Repr

/-- What the world outside can do to CORE (20_memory R62, 60_exceptions R352, 70_reset R380). -/
inductive HostOp where
  | regRead (off : BitVec 8)
  | regWrite (off : BitVec 8) (v : Word)
  | spaceRead (sp : SpaceId) (i : Nat)
  | spaceWrite (sp : SpaceId) (i : Nat) (v : BitVec 64)
  | infoRead (sel : Nat)
  | abortLine (level : Bool)
  | hardReset
deriving DecidableEq, Repr

/-- One pending operation of the host. `early` says that it lands while a command still runs (log 2). -/
structure HostEvent where
  early : Bool
  op : HostOp
deriving DecidableEq, Repr

/-- Inputs, outputs and the model's own bookkeeping (log 1, 4, 17, 18, 26). -/
structure Env where
  /-- The host's pending operations, oldest first. -/
  host : List HostEvent
  /-- The level of the abort line (60_exceptions R352). -/
  abortLine : Bool
  /-- The abort request as sampled at the start of the running command (49_system R320). -/
  abortSampled : Bool
  /-- An abort request was raised since the running command sampled its own: it waits for the next command
  (60_exceptions R353, log 26). -/
  abortLate : Bool
  /-- The answer to the host's last read. -/
  readData : BitVec 64
  /-- The completion pulse: true in the state right after a command ended with DONE_IE set (49_system R333). -/
  irqPulse : Bool
  /-- How many free values have been drawn. -/
  freeCount : Nat
deriving DecidableEq, Repr

/-- The state of one CORE. -/
structure State where
  caps : Caps
  fns : Fns
  regs : Regs
  flags : Flags
  bufs : Buffers
  ccBits : BitVec 4
  writer : Writer
  /-- The slots by number, numbers strictly rising; an unlisted slot holds `Slot.reset`. -/
  slots : List (Nat × Slot)
  spaces : Spaces
  pc : Nat
  env : Env
deriving DecidableEq, Repr

/-- Why the machine stops. -/
inductive Fault where
  /-- Raised by a host SpaceRead or SpaceWrite of an element that the space does not have (20_memory R63).
  Safe: the spec describes no such access (log 15). No command raises it. -/
  | noSuchElement (sp : SpaceId) (i : Nat)
deriving DecidableEq, Repr

/-- Why an instruction is refused. -/
inductive Refusal where
  /-- Raised by `exec` for an instruction that has no meaning yet; safe. No arm of this model raises it. -/
  | notModelled (mnemonic : String)
deriving DecidableEq, Repr

/-- Registers after reset (10_state R21). -/
def Regs.reset : Regs :=
  { cmd := 0, xsize := 0, ysize := 0, quality := 0, ctrl := 0, cacheBits := 0, reqCacheBits := 0,
    histoBits := 2, numGroups := 1, arg0 := 0, arg1 := 0, threshLo := 0, threshHi := 0,
    result0 := 0, result1 := 0, errInfo := 0, cmdCount := 0 }

/-- STATUS after hardware reset, 0 (10_state R50). -/
def Flags.reset : Flags :=
  { busy := false, done := false, error := false, bwErr := false, hc0Valid := false, hc1Valid := false,
    curValid := false, scrValid := false, bwOpen := false, abortPending := false, ccHit := false,
    combineOk := false, dpImproved := false, curHasCache := false, errCode := 0, errOp := 0 }

/-- TOKSEL, lengths and widths after reset (10_state R50). -/
def Buffers.reset : Buffers := { sel := false, curLen := 0, scrLen := 0, curBits := 0, scrBits := 0 }

/-- The writer after reset (10_state R50). -/
def Writer.reset : Writer := { acc := 0, used := 0, pos := 0 }

/-- No marker on any table. -/
def noMarks : PerTable (Option Nat) := ⟨none, none, none, none, none⟩

/-- A slot after reset: every valid bit 0 (10_state R50); HBITS, TRIVIAL and SINGLE are
DESIGN CHOICE 0 and None (log 9). -/
def Slot.reset : Slot :=
  { hbits := 0, histValid := false, costValid := false, lenValid := false, codeValid := false,
    trivialSym := noMarks, single := noMarks }

/-- A space whose whole content is unspecified (10_state R51). -/
def Mem.unspecified (w gen : Nat) : Mem w := { gen := gen, cells := [] }

/-- The spaces after hardware reset: every content unspecified (10_state R51). -/
def Spaces.reset : Spaces :=
  { pix := .unspecified 32 0, hc0 := .unspecified 32 0, hc1 := .unspecified 32 0,
    tokA := .unspecified 64 0, tokB := .unspecified 64 0, cc := .unspecified 33 0,
    hist := .unspecified 32 0, grpMap := .unspecified 16 0, htab := .unspecified 32 0,
    dpCost := .unspecified 64 0, dpEdge := .unspecified 16 0, out := .unspecified 8 0,
    bitCost := .unspecified 64 0, tableCost := .unspecified 64 0 }

/-- Nothing pending, the abort line low: the model's own fields at reset (DESIGN CHOICE, log 25). -/
def Env.reset : Env :=
  { host := [], abortLine := false, abortSampled := false, abortLate := false, readData := 0, irqPulse := false,
    freeCount := 0 }

/-- The capacities of `State.reset`: DESIGN CHOICE, the largest the spec admits (log 5). -/
def Caps.atReset : Caps := { nMax := 2 ^ 28, tokCap := 2 ^ 28, hMax := 65535, outCap := 2 ^ 32 - 4 }

/-- CORE right after hardware reset (70_reset R380). -/
def State.reset : State :=
  { caps := Caps.atReset, fns := Fns.defaults, regs := Regs.reset, flags := Flags.reset,
    bufs := Buffers.reset, ccBits := 0, writer := Writer.reset, slots := [], spaces := Spaces.reset,
    pc := 0, env := Env.reset }

end Sys2Proof.Machine
end

