-- ==== Sys2Proof/Machine/Ops.lean ====
section
/-! DEFINITION. The shared operations: cells of a space, slots, the life cycle of a command (49_system R320),
the entry of an error outcome (60_exceptions R346) and the ways out of the error state (49_system R322, R323). -/

namespace Sys2Proof.Machine

/-- What `exec` and `step` answer. -/
abbrev Result := Host.Outcome State Fault Refusal

/-! ### Tables -/

/-- The entry of one table. -/
def PerTable.get {α : Type} (p : PerTable α) : Table → α
  | .combined => p.combined
  | .red => p.red
  | .blue => p.blue
  | .alpha => p.alpha
  | .distance => p.distance

/-- One entry for each table. -/
def PerTable.ofFn {α : Type} (f : Table → α) : PerTable α :=
  ⟨f .combined, f .red, f .blue, f .alpha, f .distance⟩

/-- Replacement of one entry. -/
def PerTable.set {α : Type} (p : PerTable α) (t : Table) (v : α) : PerTable α :=
  match t with
  | .combined => { p with combined := v }
  | .red => { p with red := v }
  | .blue => { p with blue := v }
  | .alpha => { p with alpha := v }
  | .distance => { p with distance := v }

/-- The table's number (10_state R36). -/
def Table.index : Table → Nat
  | .combined => 0
  | .red => 1
  | .blue => 2
  | .alpha => 3
  | .distance => 4

/-- The table's first element offset in a slot (10_state R36). -/
def Table.base : Table → Nat
  | .combined => 0
  | .red => 1304
  | .blue => 1560
  | .alpha => 1816
  | .distance => 2072

/-- `cache_size` of a width (10_state R36). -/
def cacheSize (bits : Nat) : Nat := if bits = 0 then 0 else 2 ^ bits

/-- The table's in-use size at a cache width (10_state R36, 47_huffman R265). -/
def Table.size (t : Table) (bits : Nat) : Nat :=
  match t with
  | .combined => 280 + cacheSize bits
  | .red => 256
  | .blue => 256
  | .alpha => 256
  | .distance => 40

/-! ### Cells: lists of (address, value) with strictly rising addresses -/

/-- The value listed at an address. -/
def cellAt {α : Type} : List (Nat × α) → Nat → Option α
  | [], _ => none
  | (k, v) :: rest, i => if k = i then some v else cellAt rest i

/-- Consecutive cells from an address on. -/
def cellsFrom {α : Type} : Nat → List α → List (Nat × α)
  | _, [] => []
  | i, v :: vs => (i, v) :: cellsFrom (i + 1) vs

/-- The cells with the values `vs` put at `base`, `base + 1`, ...; every other address keeps its cell. -/
def putCells {α : Type} (cells : List (Nat × α)) (base : Nat) (vs : List α) : List (Nat × α) :=
  cells.filter (fun c => decide (c.1 < base)) ++ cellsFrom base vs ++
    cells.filter (fun c => decide (base + vs.length ≤ c.1))

/-- Addresses strictly rising, all above a bound. -/
def risingFrom {α : Type} : Option Nat → List (Nat × α) → Bool
  | _, [] => true
  | none, (k, _) :: rest => risingFrom (some k) rest
  | some b, (k, _) :: rest => decide (b < k) && risingFrom (some k) rest

/-- The `n` values from `base` on, `none` where an address is not listed; one walk over the cells. -/
def cellRun {α : Type} : List (Nat × α) → Nat → Nat → List (Option α)
  | _, _, 0 => []
  | cells, base, n + 1 =>
    match cells.dropWhile (fun c => decide (c.1 < base)) with
    | [] => none :: cellRun [] (base + 1) n
    | (k, v) :: rest =>
      if k = base then some v :: cellRun rest (base + 1) n
      else none :: cellRun ((k, v) :: rest) (base + 1) n

/-! ### Spaces -/

/-- The number of a space (10_state R30), which also names its free values. -/
def SpaceId.index : SpaceId → Nat
  | .pix => 0 | .hc0 => 1 | .hc1 => 2 | .tokA => 3 | .tokB => 4 | .cc => 5 | .hist => 6 | .grpMap => 7
  | .htab => 8 | .dpCost => 9 | .dpEdge => 10 | .out => 11

/-- The canonical form of a space: addresses strictly rising. An unlisted element has no value, so no
listed one equals it. -/
def Mem.wf {w : Nat} (m : Mem w) : Bool := risingFrom none m.cells

/-- The free value of an element nothing has written (10_state R51). -/
def Mem.draw {w : Nat} (m : Mem w) (id i : Nat) : BitVec w := (Config.unwritten id m.gen i).setWidth w

/-- Reading element `i` of space number `id` (20_memory R63). -/
def Mem.read {w : Nat} (m : Mem w) (id i : Nat) : BitVec w := (cellAt m.cells i).getD (m.draw id i)

/-- The `n` elements from `base` on. -/
def Mem.run {w : Nat} (m : Mem w) (id base n : Nat) : List (BitVec w) :=
  (cellRun m.cells base n).zipIdx.map (fun c => c.1.getD (m.draw id (base + c.2)))

/-- Writing the elements `base`, `base + 1`, ... (20_memory R63). -/
def Mem.put {w : Nat} (m : Mem w) (base : Nat) (vs : List (BitVec w)) : Mem w :=
  { m with cells := putCells m.cells base vs }

/-- Writing one element. -/
def Mem.write {w : Nat} (m : Mem w) (i : Nat) (v : BitVec w) : Mem w := m.put i [v]

/-- The whole content becomes unspecified (10_state R51, 60_exceptions R346). -/
def Mem.redraw {w : Nat} (m : Mem w) : Mem w := .unspecified w (m.gen + 1)

/-- Every space and every cost in canonical form. -/
def Spaces.wf (p : Spaces) : Bool :=
  p.pix.wf && p.hc0.wf && p.hc1.wf && p.tokA.wf && p.tokB.wf && p.cc.wf && p.hist.wf && p.grpMap.wf &&
  p.htab.wf && p.dpCost.wf && p.dpEdge.wf && p.out.wf && p.bitCost.wf && p.tableCost.wf

/-- Memory in canonical form, the slots among it. -/
abbrev Memory.wf (s : State) : Bool := s.spaces.wf && risingFrom none s.slots

/-- Every content unspecified anew: hardware reset (70_reset R380, R381). -/
def Spaces.redraw (p : Spaces) : Spaces :=
  { pix := p.pix.redraw, hc0 := p.hc0.redraw, hc1 := p.hc1.redraw, tokA := p.tokA.redraw,
    tokB := p.tokB.redraw, cc := p.cc.redraw, hist := p.hist.redraw, grpMap := p.grpMap.redraw,
    htab := p.htab.redraw, dpCost := p.dpCost.redraw, dpEdge := p.dpEdge.redraw, out := p.out.redraw,
    bitCost := p.bitCost.redraw, tableCost := p.tableCost.redraw }

/-- The number of elements of each space (10_state R30). -/
def State.spaceSize (s : State) : SpaceId → Nat
  | .pix => s.caps.nMax | .hc0 => s.caps.nMax | .hc1 => s.caps.nMax
  | .tokA => s.caps.tokCap | .tokB => s.caps.tokCap
  | .cc => Config.cacheSlots
  | .hist => s.caps.hMax * Config.slotStride
  | .grpMap => s.caps.nMax
  | .htab => s.caps.hMax * Config.slotStride
  | .dpCost => s.caps.nMax | .dpEdge => s.caps.nMax
  | .out => s.caps.outCap

/-- Reading element `i` of a space as the host sees it, zero-extended to 64 bits (20_memory R62, R70);
offsets 2112 to 2583 of a HIST slot read 0 (10_state R36, log 21). -/
def State.readElem (s : State) (sp : SpaceId) (i : Nat) : BitVec 64 :=
  match sp with
  | .pix => (s.spaces.pix.read 0 i).setWidth 64
  | .hc0 => (s.spaces.hc0.read 1 i).setWidth 64
  | .hc1 => (s.spaces.hc1.read 2 i).setWidth 64
  | .tokA => s.spaces.tokA.read 3 i
  | .tokB => s.spaces.tokB.read 4 i
  | .cc => (s.spaces.cc.read 5 i).setWidth 64
  | .hist =>
    if Config.slotUsed ≤ i % Config.slotStride then 0 else (s.spaces.hist.read 6 i).setWidth 64
  | .grpMap => (s.spaces.grpMap.read 7 i).setWidth 64
  | .htab => (s.spaces.htab.read 8 i).setWidth 64
  | .dpCost => s.spaces.dpCost.read 9 i
  | .dpEdge => (s.spaces.dpEdge.read 10 i).setWidth 64
  | .out => (s.spaces.out.read 11 i).setWidth 64

/-! ### Slots -/

/-- The hidden fields of slot `h`. -/
def State.slot (s : State) (h : Nat) : Slot := (cellAt s.slots h).getD Slot.reset

/-- Replacing the hidden fields of slot `h`. -/
def State.setSlot (s : State) (h : Nat) (v : Slot) : State := { s with slots := putCells s.slots h [v] }

/-- Replacing the hidden fields of the slots `base`, `base + 1`, ... -/
def State.setSlots (s : State) (base : Nat) (vs : List Slot) : State :=
  { s with slots := putCells s.slots base vs }

/-- A slot with its four valid bits cleared (10_state R46, 60_exceptions R346). -/
def Slot.invalid (v : Slot) : Slot :=
  { v with histValid := false, costValid := false, lenValid := false, codeValid := false }

/-- Every slot's valid bits cleared. -/
def invalidSlots (l : List (Nat × Slot)) : List (Nat × Slot) := l.map (fun c => (c.1, c.2.invalid))

/-! ### Images of costs in register pairs -/

/-- RESULT1:RESULT0 take the image of a cost (30_encoding R115). -/
def State.setResultCost (s : State) (c : Cost) : State :=
  { s with regs := { s.regs with result0 := c.extractLsb' 0 32, result1 := c.extractLsb' 32 32 } }

/-- RESULT0 takes a number, RESULT1 is 0. -/
def State.setResult (s : State) (v : Word) : State :=
  { s with regs := { s.regs with result0 := v, result1 := 0 } }

/-! ### Life cycle of a command -/

/-- The error outcomes (60_exceptions R341). -/
inductive ErrorOutcome where
  | outOfMemory
  | invalidParam
  | internal
  | aborted
deriving DecidableEq, Repr

/-- ERRCODE of an outcome (60_exceptions R341). -/
def ErrorOutcome.code : ErrorOutcome → BitVec 4
  | .outOfMemory => 1
  | .invalidParam => 2
  | .internal => 3
  | .aborted => 4

/-- While the abort line is high it sets ABORT_PENDING at every instant (60_exceptions R352). -/
def State.latchAbort (s : State) : State :=
  { s with flags := { s.flags with abortPending := s.flags.abortPending || s.env.abortLine } }

/-- CTRL.DONE_IE (10_state R21). -/
def State.doneIE (s : State) : Bool := s.regs.ctrl.getLsbD 2

/-- The end of every command, with or without error (49_system R320): BUSY falls, CMD_COUNT and pc
advance, and the completion pulse follows CTRL.DONE_IE. -/
def State.endCommand (s : State) : State :=
  State.latchAbort
    { s with
      regs := { s.regs with cmdCount := s.regs.cmdCount + 1 }
      flags := { s.flags with busy := false }
      pc := s.pc + 1
      env := { s.env with abortSampled := false, abortLate := false, irqPulse := s.doneIE } }

/-- The end of a command without error (49_system R320). -/
def State.endOk (s : State) : State :=
  State.endCommand
    { s with
      regs := { s.regs with errInfo := 0 }
      flags := { s.flags with errCode := 0, done := true } }

/-- Discarding the attempt's state: what 60_exceptions R346 and 49_system R323 have in common. -/
def State.discardAttempt (s : State) : State :=
  { s with
    flags := { s.flags with hc1Valid := false, curValid := false, scrValid := false, curHasCache := false,
                            bwOpen := false }
    bufs := { s.bufs with curLen := 0, scrLen := 0, curBits := 0, scrBits := 0 }
    ccBits := 0
    slots := invalidSlots s.slots }

/-- `raise Outcome(info)` by the command with opcode byte `op` (60_exceptions R346): the one entry of every
error outcome. ABORTED clears the request that was taken; one raised since stays, as R353 says it waits
(log 26). -/
def State.raise (s : State) (op : BitVec 8) (o : ErrorOutcome) (info : Nat) : State :=
  let d := s.discardAttempt
  State.endCommand
    { d with
      regs := { d.regs with errInfo := BitVec.ofNat 32 info }
      flags := { d.flags with
        errCode := o.code, errOp := op, error := true, done := false
        abortPending := if o = .aborted then d.env.abortLate else d.flags.abortPending
        hc0Valid := if op = Opcode.hcBuild.byte then false else d.flags.hc0Valid } }

/-- Leaving the error state by ATTEMPT_BEGIN (49_system R323, 60_exceptions R358), before the end of the
command. It clears the abort request as it stood at its start; one that landed while it ran stays (60_exceptions
R353; DESIGN CHOICE, log 26). -/
def State.beginAttempt (s : State) : State :=
  let d := s.discardAttempt
  { d with
    flags := { d.flags with error := false, errOp := 0, abortPending := d.env.abortLate, bwErr := false,
                            ccHit := false, combineOk := false, dpImproved := false }
    writer := Writer.reset }

/-- SOFT_RESET (49_system R322, 10_state R50): registers and hidden fields take their reset values, the
content of the spaces stays; the command ends with DONE, is not counted, and raises no pulse. An abort request
that landed while it ran stays (60_exceptions R353; DESIGN CHOICE, log 26). -/
def State.softReset (s : State) : State :=
  State.latchAbort
    { s with
      regs := Regs.reset
      flags := { Flags.reset with done := true, abortPending := s.env.abortLate }
      bufs := Buffers.reset
      ccBits := 0
      writer := Writer.reset
      slots := []
      pc := s.pc + 1
      env := { s.env with abortSampled := false, abortLate := false, irqPulse := false } }

/-- Hardware reset (70_reset R380, R381): every register and hidden field at its reset value, every
content unspecified anew, `pc` 0; the configuration, the level of the line and the host's pending
operations are not CORE's and stay (log 20). -/
def State.hardReset (s : State) : State :=
  { State.reset with
    caps := s.caps
    fns := s.fns
    spaces := s.spaces.redraw
    env := { Env.reset with host := s.env.host, abortLine := s.env.abortLine, freeCount := s.env.freeCount } }

/-- How the pseudocode of a command ends: normally, or by a run-time raise with its ERRINFO. -/
inductive BodyEnd where
  | ok (s : State)
  | fail (o : ErrorOutcome) (info : Nat) (s : State)
deriving DecidableEq, Repr

/-- The first failing check of a list of (number, fails) in order (60_exceptions R348). -/
def firstFailing : List (Nat × Bool) → Option Nat
  | [] => none
  | (n, fails) :: rest => if fails then some n else firstFailing rest

/-- A command other than NOP, SOFT_RESET and ATTEMPT_BEGIN, in the order of 60_exceptions R348: check 2 on
the operands, check 3, the abort as sampled at the start, the numbered checks, the capacity test (the
space it names), then the pseudocode. -/
def runCommand (o : Opcode) (legal : Bool) (checks : List (Nat × Bool)) (capacity : Option Nat)
    (body : State → BodyEnd) (s : State) : Result :=
  .next <|
    if !legal then s.raise o.byte .invalidParam 2
    else if s.flags.error then s.raise o.byte .invalidParam 3
    else if s.env.abortSampled then s.raise o.byte .aborted 0
    else
      match firstFailing checks with
      | some n => s.raise o.byte .invalidParam n
      | none =>
        match capacity with
        | some space => s.raise o.byte .outOfMemory space
        | none =>
          match body s with
          | .ok t => t.endOk
          | .fail e info t => t.raise o.byte e info

end Sys2Proof.Machine
end

