-- ==== Sys2Proof/Machine/Operands.lean ====
section
/-! DEFINITION. What commands read as operands: the image geometry (00_scope R15, 10_state R39), pixels,
table entries, slot operands, and the numbered checks of 60_exceptions R349. -/

namespace Sys2Proof.Machine

/-! ### Image and tiles -/

/-- `xsize` (00_scope R15). -/
def State.xs (s : State) : Nat := s.regs.xsize.toNat
/-- `ysize` (00_scope R15). -/
def State.ys (s : State) : Nat := s.regs.ysize.toNat
/-- `N`, the pixel count (00_scope R15), on natural numbers (60_exceptions R343). -/
def State.pixelCount (s : State) : Nat := s.xs * s.ys
/-- `PIX[p]` (10_state R31). -/
def State.px (s : State) (p : Nat) : Pixel := s.spaces.pix.read 0 p
/-- CTRL.LOW_EFFORT (10_state R21). -/
def State.lowEffort (s : State) : Bool := s.regs.ctrl.getLsbD 0
/-- CTRL.RLE_OPT (10_state R21). -/
def State.rleOpt (s : State) : Bool := s.regs.ctrl.getLsbD 1

/-- `ceil_div` (00_scope R13). -/
def ceilDiv (a b : Nat) : Nat := (a + b - 1) / b

/-- HISTO_BITS as a number. -/
def State.histoExp (s : State) : Nat := s.regs.histoBits.toNat
/-- `tiles_x` (10_state R39). -/
def State.tilesX (s : State) : Nat := ceilDiv s.xs (2 ^ s.histoExp)
/-- `tiles_y` (10_state R39). -/
def State.tilesY (s : State) : Nat := ceilDiv s.ys (2 ^ s.histoExp)
/-- `tile_count` (10_state R39). -/
def State.tileCount (s : State) : Nat := s.tilesX * s.tilesY
/-- `tile(pos)` (45_histogram R225). -/
def State.tileOf (s : State) (pos : Nat) : Nat :=
  (pos / s.xs / 2 ^ s.histoExp) * s.tilesX + pos % s.xs / 2 ^ s.histoExp
/-- `GRPMAP[tile]` (10_state R39, 30_encoding R114). -/
def State.groupOf (s : State) (tile : Nat) : Nat := (s.spaces.grpMap.read 7 tile).toNat
/-- `SlotOf(mode, pos)` (45_histogram R225). -/
def State.slotOf (s : State) (mode : SlotMode) (pos : Nat) : Nat :=
  match mode with
  | .one => 0
  | .perTile => s.tileOf pos
  | .perGroup => s.groupOf (s.tileOf pos)
/-- `count`, the number of slots a mode uses (45_histogram R223). -/
def State.slotCount (s : State) (mode : SlotMode) : Nat :=
  match mode with
  | .one => 1
  | .perTile => s.tileCount
  | .perGroup => s.regs.numGroups.toNat

/-! ### Hash-chain tables (30_encoding R100) -/

/-- The packed entry: distance [31:12], length [11:0]. -/
def packEntry (dist len : Nat) : Word := BitVec.ofNat 32 (dist * 4096 + len)
/-- The pair of a packed entry. -/
def unpackEntry (w : Word) : Nat × Nat := (w.toNat / 4096, w.toNat % 4096)
/-- `HC[i]` of the selected table, as (distance, length). -/
def State.hcEntry (s : State) (sel : TableSel) (i : Nat) : Nat × Nat :=
  match sel with
  | .hc0 => unpackEntry (s.spaces.hc0.read 1 i)
  | .hc1 => unpackEntry (s.spaces.hc1.read 2 i)
/-- The valid bit of the selected table. -/
def State.hcValid (s : State) (sel : TableSel) : Bool :=
  match sel with
  | .hc0 => s.flags.hc0Valid
  | .hc1 => s.flags.hc1Valid

/-! ### Slots of HIST and HTAB (10_state R36, R40) -/

/-- The counts of table `t` of slot `h`, its in-use part. -/
def State.histTable (s : State) (h : Nat) (t : Table) : List Nat :=
  (s.spaces.hist.run 6 (h * Config.slotStride + t.base) (t.size (s.slot h).hbits.toNat)).map BitVec.toNat
/-- The first 2112 elements of slot `h` (45_histogram R226). -/
def State.histRaw (s : State) (h : Nat) : List Nat :=
  (s.spaces.hist.run 6 (h * Config.slotStride) Config.slotUsed).map BitVec.toNat
/-- The code-table elements of table `t` of slot `h`, its in-use part. -/
def State.codeTable (s : State) (h : Nat) (t : Table) : List Word :=
  s.spaces.htab.run 8 (h * Config.slotStride + t.base) (t.size (s.slot h).hbits.toNat)

/-- The slots `base + g` with `g < count` that exist (60_exceptions R349, last paragraph). -/
def State.existingSlots (s : State) (base count : Nat) : List Nat :=
  (List.range (min count (s.caps.hMax - base))).map (fun g => base + g)

/-! ### The numbered checks (60_exceptions R349); each is true where the check FAILS -/

/-- Check 4: a zero dimension. -/
def State.zeroDims (s : State) : Bool := s.xs == 0 || s.ys == 0
/-- Check 5: QUALITY out of 0..100, reserved bits included. -/
def State.badQuality (s : State) : Bool := decide (100 < s.regs.quality.toNat)
/-- Check 6: reserved bits of CTRL. -/
def State.badCtrl (s : State) : Bool := decide (8 ≤ s.regs.ctrl.toNat)
/-- Check 7: CACHE_BITS above 10. -/
def State.badCacheBits (s : State) : Bool := decide (10 < s.regs.cacheBits.toNat)
/-- Check 8: reserved bits of REQ_CACHE_BITS. -/
def State.badReqBits (s : State) : Bool := decide (16 ≤ s.regs.reqCacheBits.toNat)
/-- HISTO_BITS outside 2..9. -/
def State.badHistoBits (s : State) : Bool := decide (s.histoExp < 2 ∨ 9 < s.histoExp)
/-- Check 9 for a mode: modes 1 and 2 read HISTO_BITS. -/
def State.badHistoMode (s : State) (mode : SlotMode) : Bool := decide (mode ≠ .one) && s.badHistoBits
/-- Check 10 for a mode: mode 2 reads NUM_GROUPS. -/
def State.badGroups (s : State) (mode : SlotMode) : Bool :=
  decide (mode = .perGroup) &&
    decide (s.regs.numGroups.toNat = 0 ∨ s.caps.hMax < s.regs.numGroups.toNat)
/-- Check 11: a slot number not below H_MAX. -/
def State.badSlot (s : State) (h : Nat) : Bool := decide (s.caps.hMax ≤ h)
/-- Check 12: the selected table is not valid. -/
def State.badTable (s : State) (sel : TableSel) : Bool := !s.hcValid sel
/-- Check 13: no valid current buffer. -/
def State.badCur (s : State) : Bool := !s.flags.curValid
/-- Check 14: a histogram slot is not valid. -/
def State.badHist (s : State) (h : Nat) : Bool := !(s.slot h).histValid
/-- Check 18 of CACHE_APPLY and CACHE_SEARCH: the stream went through a cache. -/
def State.curCached (s : State) : Bool := decide (s.bufs.curBits ≠ 0)
/-- Check 20 for a mode: an element of GRPMAP below `tile_count` is not below NUM_GROUPS. Elements at and
above N_MAX do not exist. -/
def State.badMap (s : State) (mode : SlotMode) : Bool :=
  decide (mode = .perGroup) &&
    (List.range (min s.tileCount s.caps.nMax)).any (fun t => decide (s.regs.numGroups.toNat ≤ s.groupOf t))
/-- Check 21: no cache. -/
def State.badCache (s : State) : Bool := decide (s.ccBits = 0)

/-- The capacity test of a pass over the image: `N > N_MAX` names a space (60_exceptions R343). -/
def State.overImage (s : State) (space : Nat) : Option Nat :=
  if s.caps.nMax < s.pixelCount then some space else none
/-- The capacity test of a range of slots (60_exceptions R343): HIST is space 6. -/
def State.overSlots (s : State) (base count : Nat) : Option Nat :=
  if s.caps.hMax < base + count then some 6 else none

end Sys2Proof.Machine
end

