-- ==== Sys2Proof/Machine/Flags.lean ====
section
/-! DEFINITION. What the host sees and writes: the STATUS word (10_state R22), the register window (10_state
R21, 20_memory R71), the info window (20_memory R72), host writes to spaces (20_memory R73), staleness
(10_state R46), and the start of a command (49_system R320). -/

namespace Sys2Proof.Machine

/-- One bit as a bit vector. -/
def bit (b : Bool) : BitVec 1 := BitVec.ofBool b

/-- STATUS (10_state R22); bits 31:28 and 15:14 read 0. -/
def Flags.word (f : Flags) : Word :=
  (0#4 ++ f.errOp ++ f.errCode ++ 0#2 ++ bit f.curHasCache ++ bit f.dpImproved ++ bit f.combineOk ++
    bit f.ccHit ++ bit f.abortPending ++ bit f.bwOpen ++ bit f.scrValid ++ bit f.curValid ++
    bit f.hc1Valid ++ bit f.hc0Valid ++ bit f.bwErr ++ bit f.error ++ bit f.done ++ bit f.busy).setWidth 32

/-- The 21 registers (10_state R21). -/
inductive Reg where
  | cmd | status | id | xsize | ysize | quality | ctrl | cacheBits | reqCacheBits | histoBits | numGroups
  | arg0 | arg1 | threshLo | threshHi | result0 | result1 | tokCount | errInfo | abort | cmdCount
deriving DecidableEq, Repr

/-- The offset of a register (10_state R21). -/
def Reg.offset : Reg → BitVec 8
  | .cmd => 0x00 | .status => 0x04 | .id => 0x08 | .xsize => 0x0C | .ysize => 0x10 | .quality => 0x14
  | .ctrl => 0x18 | .cacheBits => 0x1C | .reqCacheBits => 0x20 | .histoBits => 0x24 | .numGroups => 0x28
  | .arg0 => 0x2C | .arg1 => 0x30 | .threshLo => 0x34 | .threshHi => 0x38 | .result0 => 0x3C
  | .result1 => 0x40 | .tokCount => 0x44 | .errInfo => 0x48 | .abort => 0x4C | .cmdCount => 0x50

/-- The registers in the order of their offsets. -/
def Reg.all : List Reg :=
  [.cmd, .status, .id, .xsize, .ysize, .quality, .ctrl, .cacheBits, .reqCacheBits, .histoBits, .numGroups,
   .arg0, .arg1, .threshLo, .threshHi, .result0, .result1, .tokCount, .errInfo, .abort, .cmdCount]

/-- The register at an offset, if there is one. -/
def Reg.ofOffset (off : BitVec 8) : Option Reg := Reg.all.find? (fun r => r.offset == off)

/-- The value of a register as the host reads it (10_state R21): CMD and ABORT read 0. -/
def State.regValue (s : State) : Reg → Word
  | .cmd => 0
  | .status => s.flags.word
  | .id => 0x4C5A3737
  | .xsize => s.regs.xsize
  | .ysize => s.regs.ysize
  | .quality => s.regs.quality
  | .ctrl => s.regs.ctrl
  | .cacheBits => s.regs.cacheBits
  | .reqCacheBits => s.regs.reqCacheBits
  | .histoBits => s.regs.histoBits
  | .numGroups => s.regs.numGroups
  | .arg0 => s.regs.arg0
  | .arg1 => s.regs.arg1
  | .threshLo => s.regs.threshLo
  | .threshHi => s.regs.threshHi
  | .result0 => s.regs.result0
  | .result1 => s.regs.result1
  | .tokCount => BitVec.ofNat 32 s.bufs.curLen
  | .errInfo => s.regs.errInfo
  | .abort => 0
  | .cmdCount => s.regs.cmdCount

/-- The result registers, whose value is any value while BUSY = 1 (20_memory R71). -/
def Reg.isResult : Reg → Bool
  | .result0 | .result1 | .tokCount | .errInfo => true
  | .cmd | .status | .id | .xsize | .ysize | .quality | .ctrl | .cacheBits | .reqCacheBits | .histoBits
  | .numGroups | .arg0 | .arg1 | .threshLo | .threshHi | .abort | .cmdCount => false

/-- The host's last read answers `v`. -/
def State.answer (s : State) (v : BitVec 64) : State := { s with env := { s.env with readData := v } }

/-- The host's last read answers any value (20_memory R71, R73): a free value. -/
def State.answerFree (s : State) : State :=
  { s with env := { s.env with readData := Config.freeValue s.env.freeCount
                               freeCount := s.env.freeCount + 1 } }

/-- `RegRead` (20_memory R64, R71): 0 at an unassigned offset; any value from a result register while
BUSY = 1. STATUS read while a command runs shows the command's start (BUSY = 1, DONE = 0, ERRCODE = 0) and every
other bit as the command found it, also a valid bit that the command clears first (R131, R150, R160, R201): R71 asks
for the true value and does not say when such a bit falls, a DESIGN CHOICE (log 27). -/
def State.hostRegRead (s : State) (off : BitVec 8) : State :=
  match Reg.ofOffset off with
  | none => s.answer 0
  | some r => if s.flags.busy && r.isResult then s.answerFree else s.answer ((s.regValue r).setWidth 64)

/-- The image changed (10_state R46): everything derived from it is invalid. -/
def State.imageChanged (s : State) : State :=
  { s with
    flags := { s.flags with hc0Valid := false, hc1Valid := false, curValid := false, scrValid := false,
                            curHasCache := false }
    slots := invalidSlots s.slots }

/-- The start of a command by a write of CMD (49_system R320): BUSY rises, DONE and ERRCODE clear, and the
abort request is sampled (70_reset R393); a line still high raises the request again at once (60_exceptions
R352). -/
def State.startCommand (s : State) (w : Word) : State :=
  { s with
    regs := { s.regs with cmd := w }
    flags := { s.flags with busy := true, done := false, errCode := 0 }
    env := { s.env with abortSampled := s.flags.abortPending || s.env.abortLine, abortLate := s.env.abortLine } }

/-- A write of ABORT: bit 0 set requests an abort (60_exceptions R352), of the next command while one runs
(60_exceptions R353). -/
def State.writeAbort (s : State) (v : Word) : State :=
  if v.getLsbD 0 then
    { s with flags := { s.flags with abortPending := true }
             env := { s.env with abortLate := s.env.abortLate || s.flags.busy } }
  else s

/-- `RegWrite` of a register while BUSY = 0 (20_memory R71): read-only registers ignore it, XSIZE and YSIZE
make the image stale (10_state R46), CMD starts a command. -/
def State.writeReg (s : State) (r : Reg) (v : Word) : State :=
  match r with
  | .cmd => s.startCommand v
  | .status => s
  | .id => s
  | .xsize => State.imageChanged { s with regs := { s.regs with xsize := v } }
  | .ysize => State.imageChanged { s with regs := { s.regs with ysize := v } }
  | .quality => { s with regs := { s.regs with quality := v } }
  | .ctrl => { s with regs := { s.regs with ctrl := v } }
  | .cacheBits => { s with regs := { s.regs with cacheBits := v } }
  | .reqCacheBits => { s with regs := { s.regs with reqCacheBits := v } }
  | .histoBits => { s with regs := { s.regs with histoBits := v } }
  | .numGroups => { s with regs := { s.regs with numGroups := v } }
  | .arg0 => { s with regs := { s.regs with arg0 := v } }
  | .arg1 => { s with regs := { s.regs with arg1 := v } }
  | .threshLo => { s with regs := { s.regs with threshLo := v } }
  | .threshHi => { s with regs := { s.regs with threshHi := v } }
  | .result0 => s
  | .result1 => s
  | .tokCount => s
  | .errInfo => s
  | .abort => s.writeAbort v
  | .cmdCount => s

/-- `RegWrite` (20_memory R64, R71): dropped at an unassigned offset; while BUSY = 1 dropped but for ABORT. -/
def State.hostRegWrite (s : State) (off : BitVec 8) (v : Word) : State :=
  match Reg.ofOffset off with
  | none => s
  | some r => if s.flags.busy then (if r = .abort then s.writeAbort v else s) else s.writeReg r v

/-- `SpaceWrite` of an element that exists, while BUSY = 0 (20_memory R73): only PIX, GRPMAP and OUT are the
host's to write, and a write of PIX makes the image stale (10_state R46). The spec's value is one whole element; of a
value with bits above the element's width the low 32, 16 or 8 bits are stored, a DESIGN CHOICE (log 28). -/
def State.writeElem (s : State) (sp : SpaceId) (i : Nat) (v : BitVec 64) : State :=
  match sp with
  | .pix =>
    State.imageChanged { s with spaces := { s.spaces with pix := s.spaces.pix.write i (v.setWidth 32) } }
  | .grpMap => { s with spaces := { s.spaces with grpMap := s.spaces.grpMap.write i (v.setWidth 16) } }
  | .out => { s with spaces := { s.spaces with out := s.spaces.out.write i (v.setWidth 8) } }
  | .hc0 | .hc1 | .tokA | .tokB | .cc | .hist | .htab | .dpCost | .dpEdge => s

/-- The format of TRIVIAL and SINGLE in the info window (20_memory R72). -/
def markWord : Option Nat → Word
  | none => 0
  | some sym => BitVec.ofNat 32 (2 ^ 31 + sym % 2 ^ 11)

/-- BIT_COST[h] (10_state R37). -/
def State.bitCostOf (s : State) (h : Nat) : Cost := s.spaces.bitCost.read 12 h

/-- TABLE_COST[h][t] (10_state R37). -/
def State.tableCostOf (s : State) (h : Nat) (t : Nat) : Cost := s.spaces.tableCost.read 13 (5 * h + t)

/-- The low or the high half of a cost (30_encoding R115). -/
def costHalf (c : Cost) (high : Bool) : Word :=
  if high then c.extractLsb' 32 32 else c.extractLsb' 0 32

/-- The table with a number, 0 to 4 (10_state R36). -/
def Table.ofIndex (n : Nat) : Table :=
  if n = 0 then .combined else if n = 1 then .red else if n = 2 then .blue
  else if n = 3 then .alpha else .distance

/-- The flags of a slot at its first selector (20_memory R72). -/
def Slot.word (v : Slot) : Word :=
  (bit v.codeValid ++ bit v.lenValid ++ bit v.costValid ++ bit v.histValid ++ 0#4 ++ v.hbits).setWidth 32

/-- The slot part of the info window (20_memory R72): selector offset `k` of slot `h`. -/
def State.slotInfo (s : State) (h k : Nat) : Word :=
  if k = 0 then (s.slot h).word
  else if k = 2 ∨ k = 3 then costHalf (s.bitCostOf h) (k == 3)
  else if 4 ≤ k ∧ k ≤ 13 then costHalf (s.tableCostOf h ((k - 4) / 2)) (k % 2 == 1)
  else if 16 ≤ k ∧ k ≤ 20 then markWord ((s.slot h).trivialSym.get (Table.ofIndex (k - 16)))
  else if 24 ≤ k ∧ k ≤ 28 then markWord ((s.slot h).single.get (Table.ofIndex (k - 24)))
  else 0

/-- `InfoRead(sel)` (20_memory R72); any other selector returns 0. -/
def State.infoValue (s : State) (sel : Nat) : Word :=
  if sel = 0x000 then BitVec.ofNat 32 s.bufs.sel.toNat
  else if sel = 0x001 then BitVec.ofNat 32 s.bufs.curLen
  else if sel = 0x002 then BitVec.ofNat 32 s.bufs.scrLen
  else if sel = 0x003 then s.ccBits.setWidth 32
  else if sel = 0x004 then costHalf s.writer.acc false
  else if sel = 0x005 then costHalf s.writer.acc true
  else if sel = 0x006 then BitVec.ofNat 32 s.writer.used
  else if sel = 0x007 then BitVec.ofNat 32 s.writer.pos
  else if sel = 0x008 then BitVec.ofNat 32 s.caps.nMax
  else if sel = 0x009 then BitVec.ofNat 32 s.caps.tokCap
  else if sel = 0x00A then BitVec.ofNat 32 s.caps.hMax
  else if sel = 0x00B then BitVec.ofNat 32 s.caps.outCap
  else if sel = 0x00C then (s.bufs.scrBits ++ s.bufs.curBits).setWidth 32
  else if 0x100 ≤ sel ∧ (sel - 0x100) / 32 < s.caps.hMax then
    s.slotInfo ((sel - 0x100) / 32) ((sel - 0x100) % 32)
  else 0

end Sys2Proof.Machine
end

