-- ==== Sys2Proof/Machine/Cost.lean ====
section
/-! DEFINITION. `Cost` numerics (49_system R337, 00_scope R16): IEEE 754 binary64 images, every operation
computed exactly on integers and rounded once, to nearest even; and the `log2` of the estimators. -/

namespace Sys2Proof.Machine

/-- What a binary64 image stands for: a signed integer times a power of two, an infinity, or no number. -/
inductive Real64 where
  | fin (neg : Bool) (m : Nat) (e : Int)
  | inf (neg : Bool)
  | nan
deriving DecidableEq, Repr

/-- The value of an image. -/
def Bin64.value (x : Cost) : Real64 :=
  let neg := x.getLsbD 63
  let ex := (x.extractLsb' 52 11).toNat
  let fr := (x.extractLsb' 0 52).toNat
  if ex = 2047 then (if fr = 0 then .inf neg else .nan)
  else if ex = 0 then .fin neg fr (-1074)
  else .fin neg (2 ^ 52 + fr) ((ex : Int) - 1075)

/-- The image of a sign, a biased exponent with hidden bit, and a fraction as one number. -/
def Bin64.signed (neg : Bool) (n : Nat) : Cost := BitVec.ofNat 64 ((if neg then 2 ^ 63 else 0) + n)

/-- Infinity. -/
def Bin64.infinity (neg : Bool) : Cost := Bin64.signed neg (2047 * 2 ^ 52)

/-- The quiet NaN this model answers where no number results; the rules never do (49_system R337, log 8). -/
def Bin64.nanImage : Cost := 0x7FF8000000000000

/-- `m / 2^k` rounded to the nearest integer, ties to even. -/
def Bin64.roundShift (m k : Nat) : Nat :=
  let q := m / 2 ^ k
  let r := m % 2 ^ k
  if 2 * r < 2 ^ k then q
  else if 2 ^ k < 2 * r then q + 1
  else q + q % 2

/-- The binary64 image nearest to `m * 2^e`, ties to even (49_system R337). -/
def Bin64.round (neg : Bool) (m : Nat) (e : Int) : Cost :=
  if m = 0 then Bin64.signed neg 0
  else
    let q : Int := max (e + (Nat.log2 m : Int) - 52) (-1074)
    let r : Nat := if q ≤ e then m * 2 ^ (e - q).toNat else Bin64.roundShift m (q - e).toNat
    let n : Nat := if r < 2 ^ 52 then r else (q + 1075).toNat * 2 ^ 52 + (r - 2 ^ 52)
    if 2047 * 2 ^ 52 ≤ n then Bin64.infinity neg else Bin64.signed neg n

/-- The integer a finite value is at a smaller exponent. -/
def Bin64.scaled (neg : Bool) (m : Nat) (e lo : Int) : Int :=
  let v : Int := (m : Int) * (2 : Int) ^ (e - lo).toNat
  if neg then -v else v

/-- Sum. -/
def Bin64.add (x y : Cost) : Cost :=
  match Bin64.value x, Bin64.value y with
  | .nan, _ => Bin64.nanImage
  | _, .nan => Bin64.nanImage
  | .inf a, .inf b => if a = b then Bin64.infinity a else Bin64.nanImage
  | .inf a, .fin _ _ _ => Bin64.infinity a
  | .fin _ _ _, .inf b => Bin64.infinity b
  | .fin a m d, .fin b n e =>
    let lo := min d e
    let t := Bin64.scaled a m d lo + Bin64.scaled b n e lo
    if t = 0 then Bin64.signed (a && b) 0 else Bin64.round (decide (t < 0)) t.natAbs lo

/-- Sign change. -/
def Bin64.neg (x : Cost) : Cost := x ^^^ (BitVec.ofNat 64 (2 ^ 63))

/-- Difference. -/
def Bin64.sub (x y : Cost) : Cost := Bin64.add x (Bin64.neg y)

/-- Product. -/
def Bin64.mul (x y : Cost) : Cost :=
  match Bin64.value x, Bin64.value y with
  | .nan, _ => Bin64.nanImage
  | _, .nan => Bin64.nanImage
  | .inf a, .inf b => Bin64.infinity (a != b)
  | .inf a, .fin b n _ => if n = 0 then Bin64.nanImage else Bin64.infinity (a != b)
  | .fin a m _, .inf b => if m = 0 then Bin64.nanImage else Bin64.infinity (a != b)
  | .fin a m d, .fin b n e => Bin64.round (a != b) (m * n) (d + e)

/-- Strictly below; false with a NaN (49_system R337). -/
def Bin64.lt (x y : Cost) : Bool :=
  match Bin64.value x, Bin64.value y with
  | .nan, _ => false
  | _, .nan => false
  | .inf a, .inf b => a && !b
  | .inf a, .fin _ _ _ => a
  | .fin _ _ _, .inf b => !b
  | .fin a m d, .fin b n e => decide (Bin64.scaled a m d (min d e) < Bin64.scaled b n e (min d e))

/-- A natural number as a cost. -/
def Bin64.ofNat (n : Nat) : Cost := Bin64.round false n 0

/-- A cost the contracts admit: finite and not negative, so not negative zero either, which 49_system R337 says
never arises (45_histogram R228, log 6). -/
def Bin64.admissible (x : Cost) : Bool :=
  match Bin64.value x with
  | .fin neg _ _ => !neg
  | .inf _ => false
  | .nan => false

/-- An implementation's own cost, held to the contract "a non-negative `Cost`": anything else, negative zero
too, counts as +0 (DESIGN CHOICE, log 6). -/
def Bin64.toContract (x : Cost) : Cost := if Bin64.admissible x then x else 0

/-- One bit of a binary logarithm: square `x`, a number in [1, 2) with 256 fraction bits. -/
def log2Bits : Nat → Nat → Nat → Nat
  | 0, _, acc => acc
  | n + 1, x, acc =>
    let y := x * x / 2 ^ 256
    if 2 ^ 257 ≤ y then log2Bits n (y / 2) (2 * acc + 1) else log2Bits n y (2 * acc)

/-- The spec's `log2` where an implementation has none of its own: the binary64 number nearest to the
logarithm, exact on powers of two (49_system R337, 95_test_vectors, log 7). 128 fraction bits and a
sticky bit decide the rounding; the logarithm of any other number is irrational. -/
def log2Nearest (n : Nat) : Cost :=
  let k := Nat.log2 n
  if n = 2 ^ k then Bin64.ofNat k
  else Bin64.round false (2 * log2Bits 128 (n * 2 ^ 256 / 2 ^ k) k + 1) (-129)

/-- The larger of two costs. -/
def costMax (x y : Cost) : Cost := if Bin64.lt x y then y else x
/-- The smaller of two costs. -/
def costMin (x y : Cost) : Cost := if Bin64.lt y x then y else x

/-- An implementation's own `log2` held to its contract: exact on powers of two and monotone between them
(49_system R337, log 6). -/
def log2Own (n : Nat) : Cost :=
  let k := Nat.log2 n
  if n = 2 ^ k then Bin64.ofNat k
  else
    (List.range (n - 2 ^ k)).foldl
      (fun best j => costMax best (costMin (Bin64.toContract (Config.ownLog2 (2 ^ k + j + 1))) (Bin64.ofNat (k + 1))))
      (Bin64.ofNat k)

/-- `log2` of a count, at least 1 (49_system R337). -/
def log2Cost (f : Fns) (n : Nat) : Cost :=
  match f.log2 with
  | .byDefault => log2Nearest n
  | .own => log2Own n

end Sys2Proof.Machine
end

