-- ==== Sys2Proof/Machine/Coding.lean ====
section
/-! DEFINITION. The encodings CORE produces (30_encoding): prefix codes with extra bits, distance codes,
token records, and the configuration functions of the matcher and the cache. -/

namespace Sys2Proof.Machine

/-! ### Prefix codes (30_encoding R106) -/

/-- A prefix code with its extra bits. -/
structure PrefixCode where
  code : Nat
  nbits : Nat
  value : Nat
deriving DecidableEq, Repr

/-- `PrefixEncode(v)` for `v ≥ 1` (30_encoding R106). -/
def prefixEncode (v : Nat) : PrefixCode :=
  if v ≤ 2 then ⟨v - 1, 0, 0⟩
  else
    let d := v - 1
    let hb := Nat.log2 d
    let shb := d / 2 ^ (hb - 1) % 2
    ⟨2 * hb + shb, hb - 1, d % 2 ^ (hb - 1)⟩

/-- `ExtraBits(c)` (30_encoding R107). -/
def extraBits (c : Nat) : Nat := if c < 4 then 0 else c / 2 - 1

/-! ### Distance codes (30_encoding R108, R109) -/

/-- Row 0 of `PLANE_LUT` (30_encoding R109). -/
def planeRow0 : List Nat := [96, 73, 55, 39, 23, 13, 5, 1, 255, 255, 255, 255, 255, 255, 255, 255]
/-- Row 1 of `PLANE_LUT` (30_encoding R109). -/
def planeRow1 : List Nat := [101, 78, 58, 42, 26, 16, 8, 2, 0, 3, 9, 17, 27, 43, 59, 79]
/-- Row 2 of `PLANE_LUT` (30_encoding R109). -/
def planeRow2 : List Nat := [102, 86, 62, 46, 32, 20, 10, 6, 4, 7, 11, 21, 33, 47, 63, 87]
/-- Row 3 of `PLANE_LUT` (30_encoding R109). -/
def planeRow3 : List Nat := [105, 90, 70, 52, 37, 28, 18, 14, 12, 15, 19, 29, 38, 53, 71, 91]
/-- Row 4 of `PLANE_LUT` (30_encoding R109). -/
def planeRow4 : List Nat := [110, 99, 82, 66, 48, 35, 30, 24, 22, 25, 31, 36, 49, 67, 83, 100]
/-- Row 5 of `PLANE_LUT` (30_encoding R109). -/
def planeRow5 : List Nat := [115, 108, 94, 76, 64, 50, 44, 40, 34, 41, 45, 51, 65, 77, 95, 109]
/-- Row 6 of `PLANE_LUT` (30_encoding R109). -/
def planeRow6 : List Nat := [118, 113, 103, 92, 80, 68, 60, 56, 54, 57, 61, 69, 81, 93, 104, 114]
/-- Row 7 of `PLANE_LUT` (30_encoding R109). -/
def planeRow7 : List Nat := [119, 116, 111, 106, 97, 88, 84, 74, 72, 75, 85, 89, 98, 107, 112, 117]

/-- `PLANE_LUT`, 128 entries (30_encoding R109). -/
def planeLut : List Nat :=
  planeRow0 ++ planeRow1 ++ planeRow2 ++ planeRow3 ++ planeRow4 ++ planeRow5 ++ planeRow6 ++ planeRow7

/-- The default `DistanceCode(xsize, d)` (30_encoding R108). -/
def distanceCodeDefault (xsize d : Nat) : Nat :=
  let yo := d / xsize
  let xo := d - yo * xsize
  if xo ≤ 8 ∧ yo < 8 then planeLut.getD (yo * 16 + 8 - xo) 255 + 1
  else if xsize < xo + 8 ∧ yo < 7 then planeLut.getD ((yo + 1) * 16 + 8 + (xsize - xo)) 255 + 1
  else d + 120

/-- `DistanceCode(xsize, d)`: the default, or an implementation's own held to the contract
`1 ≤ result ≤ d + 120` (30_encoding R108, log 6). -/
def distanceCode (f : Fns) (xsize d : Nat) : Nat :=
  match f.distance with
  | .byDefault => distanceCodeDefault xsize d
  | .own => max 1 (min (d + 120) (Config.ownDistanceCode xsize d))

/-- The prefix code of a raster distance (30_encoding R103). -/
def distancePrefix (f : Fns) (xsize d : Nat) : PrefixCode := prefixEncode (distanceCode f xsize d)

/-! ### Token records (30_encoding R96) -/

/-- A token (10_state R33). -/
inductive Token where
  | literal (p : Pixel)
  | cacheRef (index : Nat)
  | copy (distance length : Nat)
deriving DecidableEq, Repr

/-- `toklen(t)` (30_encoding R97). -/
def Token.len : Token → Nat
  | .literal _ => 1
  | .cacheRef _ => 1
  | .copy _ l => l

/-- A record from its fields: mode [49:48], len [47:32], val [31:0]. -/
def packRecord (mode len val : Nat) : BitVec 64 :=
  BitVec.ofNat 64 (mode * 2 ^ 48 + len % 2 ^ 16 * 2 ^ 32 + val % 2 ^ 32)

/-- The record of a token (30_encoding R96). -/
def Token.record : Token → BitVec 64
  | .literal p => packRecord 0 1 p.toNat
  | .cacheRef k => packRecord 1 1 k
  | .copy d l => packRecord 2 l d

/-- The token of the fields of a record; mode 3 never occurs in a valid buffer (30_encoding R96). -/
def tokenOfFields (mode len val : Nat) : Option Token :=
  if mode = 0 then some (.literal (BitVec.ofNat 32 val))
  else if mode = 1 then some (.cacheRef val)
  else if mode = 2 then some (.copy val len)
  else none

/-- The token of a record, `none` for a record that is no token's (log 14). -/
def tokenOfRecord (w : BitVec 64) : Option Token :=
  match tokenOfFields (w.extractLsb' 48 2).toNat (w.extractLsb' 32 16).toNat (w.extractLsb' 0 32).toNat with
  | none => none
  | some t => if t.record = w then some t else none

/-- The tokens of consecutive records from number `k` on, or the number of the first that is no token. -/
def tokensOf : Nat → List (BitVec 64) → Except Nat (List Token)
  | _, [] => .ok []
  | k, w :: rest =>
    match tokenOfRecord w with
    | none => .error k
    | some t =>
      match tokensOf (k + 1) rest with
      | .error e => .error e
      | .ok ts => .ok (t :: ts)

/-- The total of the token lengths (30_encoding R97). -/
def tokensLen : List Token → Nat
  | [] => 0
  | t :: ts => t.len + tokensLen ts

/-- The records of buffer `b` (TOKA for false, TOKB for true) up to a length. -/
def State.bufferRun (s : State) (b : Bool) (n : Nat) : List (BitVec 64) :=
  if b then s.spaces.tokB.run 4 0 n else s.spaces.tokA.run 3 0 n

/-- The tokens of the current buffer CUR (10_state R33). -/
def State.curTokens (s : State) : Except Nat (List Token) := tokensOf 0 (s.bufferRun s.bufs.sel s.bufs.curLen)

/-- Storing a token list from element 0 of buffer `b` on. -/
def State.putTokens (s : State) (b : Bool) (ts : List Token) : State :=
  if b then { s with spaces := { s.spaces with tokB := s.spaces.tokB.put 0 (ts.map Token.record) } }
  else { s with spaces := { s.spaces with tokA := s.spaces.tokA.put 0 (ts.map Token.record) } }

/-- The content of buffer `b` becomes unspecified: a run-time raise (60_exceptions R346). -/
def State.redrawBuffer (s : State) (b : Bool) : State :=
  if b then { s with spaces := { s.spaces with tokB := s.spaces.tokB.redraw } }
  else { s with spaces := { s.spaces with tokA := s.spaces.tokA.redraw } }

/-- The space number of buffer `b`: 3 for TOKA, 4 for TOKB (10_state R30). -/
def bufferSpace (b : Bool) : Nat := if b then 4 else 3

/-! ### Runs of equal pixels -/

/-- `lcp(a, b, m)`: the largest `k ≤ m` with `px (a + j) = px (b + j)` for all `j < k` (00_scope R14). -/
def lcp (px : Nat → Pixel) (a b : Nat) : Nat → Nat
  | 0 => 0
  | m + 1 => if px a = px b then lcp px (a + 1) (b + 1) m + 1 else 0

/-! ### Configuration functions of the matcher and the cache -/

/-- The default `WindowFor(quality, xsize)` (41_hash_chain R132). -/
def windowDefault (q xs : Nat) : Nat :=
  min Config.windowSize
    (if 75 < q then Config.windowSize
     else if 50 < q then xs * 2 ^ 8
     else if 25 < q then xs * 2 ^ 6
     else xs * 2 ^ 4)

/-- `WindowFor(quality, xsize)`: the default, or an implementation's own held to the contract: in
1..WINDOW_SIZE, not decreasing in the quality, WINDOW_SIZE above 75 (41_hash_chain R132, log 6). -/
def windowFor (f : Fns) (q xs : Nat) : Nat :=
  match f.window with
  | .byDefault => windowDefault q xs
  | .own =>
    if 75 < q then Config.windowSize
    else (List.range (q + 1)).foldl
      (fun w k => max w (min Config.windowSize (Config.ownWindowFor k xs))) 1

/-- `PairHash(a, b)`: the default, or an implementation's own, a bucket below 2^HASH_BITS (41_hash_chain R133). -/
def pairHash (f : Fns) (a b : Word) : Nat :=
  match f.pairHash with
  | .byDefault => ((b * 0xC6A4A793 + a * 0x5BD1E996) >>> (32 - Config.hashBits)).toNat
  | .own => Config.ownPairHash a b % 2 ^ Config.hashBits

/-- `CacheHash(p)` (43_color_cache R181). -/
def cacheHash (f : Fns) (p : Pixel) : Word :=
  match f.cacheHash with
  | .byDefault => p * 0x1E35A7BD
  | .own => Config.ownCacheHash p

/-- `CcIndex(p, bits)`, the top `bits` bits of the hash, for `1 ≤ bits ≤ 10` (43_color_cache R181). -/
def ccIndex (f : Fns) (p : Pixel) (bits : Nat) : Nat := (cacheHash f p >>> (32 - bits)).toNat

end Sys2Proof.Machine
end

