-- ==== Sys2Proof/Machine/HashChain.lean ====
section
/-! DEFINITION. The hash-chain matcher, HC_BUILD (41_hash_chain). -/

namespace Sys2Proof.Machine

/-- `R[p]` for consecutive pixels: the number of equal pixels starting at each (41_hash_chain R134). -/
def runLengths : List Pixel → List Nat
  | [] => []
  | p :: rest =>
    match rest, runLengths rest with
    | q :: _, r :: rs => (if p = q then r + 1 else 1) :: r :: rs
    | _, _ => [1]

/-- `key[p]` from `R[p]`, `PIX[p]` and `PIX[p+1]` (41_hash_chain R134). -/
def chainKey (f : Fns) (r : Nat) (p q : Pixel) : Option Nat :=
  if 3 ≤ r then
    if Config.maxLength < r - 2 then none else some (pairHash f p (BitVec.ofNat 32 (r - 2)))
  else some (pairHash f p q)

/-- `key[p]` for every `p` but the last (41_hash_chain R134). -/
def chainKeys (f : Fns) : List Pixel → List Nat → List (Option Nat)
  | p :: q :: rest, r :: rs => chainKey f r p q :: chainKeys f (q :: rest) rs
  | _, _ => []

/-- `prev[p]` for consecutive positions from `p` on: the most recent earlier position with the same key.
`head` maps a bucket to a position, newest first; position `N - 2` is not inserted (41_hash_chain R134). -/
def chainPrevs (n : Nat) : Nat → List (Nat × Nat) → List (Option Nat) → List (Option Nat)
  | _, _, [] => []
  | p, head, none :: ks => none :: chainPrevs n (p + 1) head ks
  | p, head, some k :: ks =>
    cellAt head k :: chainPrevs n (p + 1) (if p + 3 ≤ n then (k, p) :: head else head) ks

/-- The best candidate so far, `(distance, length)`, after `Consider(d)` (41_hash_chain R136, R137). -/
def consider (px : Nat → Pixel) (base maxLen : Nat) (best : Nat × Nat) (d : Nat) : Nat × Nat :=
  let l := lcp px (base - d) base maxLen
  if best.2 < l ∨ (l = best.2 ∧ 0 < l ∧ d < best.1) then (d, l) else best

/-- The walk along the chain, one step of the budget per candidate (41_hash_chain R136). -/
def chainWalk (px : Nat → Pixel) (prev : Nat → Option Nat) (base maxLen minPos : Nat) :
    Nat → Option Nat → Nat × Nat → Nat × Nat
  | 0, _, best => best
  | _ + 1, none, best => best
  | budget + 1, some q, best =>
    if q < minPos then best
    else chainWalk px prev base maxLen minPos budget (prev q) (consider px base maxLen best (base - q))

/-- What a search needs: the pixels, their number, `xsize`, the step budget, the window, LOW_EFFORT and the
chain (41_hash_chain R131). -/
structure MatchInput where
  px : Nat → Pixel
  n : Nat
  xs : Nat
  im : Nat
  win : Nat
  low : Bool
  prev : Nat → Option Nat

/-- `Search(base, im, win, low)`, as (distance, length) (41_hash_chain R136). -/
def matchSearch (m : MatchInput) (base : Nat) : Nat × Nat :=
  let maxLen := min (m.n - base) Config.maxLength
  let minPos := if m.win < base then base - m.win else 0
  let try1 := fun best => consider m.px base maxLen best 1
  let tryRow := fun best => consider m.px base maxLen best m.xs
  let start : Nat × (Nat × Nat) :=
    if m.low then (m.im, (0, 0))
    else if m.xs ≤ base ∧ m.xs ≤ m.win then (m.im - 2, try1 (tryRow (0, 0)))
    else (m.im - 1, try1 (0, 0))
  chainWalk m.px m.prev base maxLen minPos start.1 (m.prev base) start.2

/-- The match carried to the left by propagation: distance, length, and where it was last lengthened
(41_hash_chain R138). -/
structure CarriedMatch where
  dist : Nat
  len : Nat
  maxBase : Nat
deriving DecidableEq, Repr

/-- `StoreAndPropagate` after storing `c` one position to the right of `base`: the match position `base`
takes without a search, if any (41_hash_chain R138). -/
def propagate (px : Nat → Pixel) (base : Nat) (c : CarriedMatch) : Option CarriedMatch :=
  if c.dist = 0 ∨ base = 0 then none
  else if base < c.dist ∨ px (base - c.dist) ≠ px base then none
  else if c.len = Config.maxLength ∧ c.dist ≠ 1 ∧ base + Config.maxLength < c.maxBase then none
  else if c.len < Config.maxLength then some ⟨c.dist, c.len + 1, base⟩
  else some c

/-- The entries of positions `1 .. base`, put before `acc`: the `while base >= 1` loop of 41_hash_chain R131
with the inner loop of R138; every position from `N - 2` down to 1 is stored exactly once. -/
def matchLoop (m : MatchInput) : Nat → Option CarriedMatch → List (Nat × Nat) → List (Nat × Nat)
  | 0, _, acc => acc
  | b + 1, carried, acc =>
    let c : CarriedMatch :=
      match carried with
      | some c => c
      | none => ⟨(matchSearch m (b + 1)).1, (matchSearch m (b + 1)).2, b + 1⟩
    matchLoop m b (propagate m.px b c) ((c.dist, c.len) :: acc)

/-- `iter_max` (41_hash_chain R135). -/
def iterMax (q : Nat) : Nat := 8 + q * q / 128

/-- The inputs of the search loop for the present image (41_hash_chain R131). -/
def State.matchInput (s : State) : MatchInput :=
  let n := s.pixelCount
  let pixels := s.spaces.pix.run 0 0 n
  let prevs := chainPrevs n 0 [] (chainKeys s.fns pixels (runLengths pixels))
  { px := fun p => pixels.getD p 0
    n := n
    xs := s.xs
    im := iterMax s.regs.quality.toNat
    win := windowFor s.fns s.regs.quality.toNat s.xs
    low := s.lowEffort
    prev := fun p => prevs.getD p none }

/-- The entries HC_BUILD leaves in HC0[0 .. N-1], as (distance, length): zero at both ends
(41_hash_chain R131, R139). -/
def State.hcTable (s : State) : List (Nat × Nat) :=
  let n := s.pixelCount
  if n < 3 then List.replicate n (0, 0)
  else (0, 0) :: matchLoop s.matchInput (n - 2) none [(0, 0)]

/-- Packed entries of a table (30_encoding R100). -/
def packEntries (t : List (Nat × Nat)) : List Word := t.map (fun e => packEntry e.1 e.2)

/-- The pseudocode of HC_BUILD (41_hash_chain R131). -/
def hcBuildBody (s : State) : BodyEnd :=
  .ok { s with spaces := { s.spaces with hc0 := s.spaces.hc0.put 0 (packEntries s.hcTable) }
               flags := { s.flags with hc0Valid := true } }

/-- HC_BUILD (41_hash_chain R131). -/
def execHcBuild (s : State) : Result :=
  runCommand .hcBuild true [(4, s.zeroDims), (5, s.badQuality), (6, s.badCtrl)] (s.overImage 1) hcBuildBody s

end Sys2Proof.Machine
end

