-- ==== Sys2Proof/Machine/BackRefs.lean ====
section
/-! DEFINITION. The backward-reference builders HC_BOX, BR_GREEDY, BR_RLE, the cache replay CACHE_APPLY, and
TOK_SWAP (42_backward_refs). -/

namespace Sys2Proof.Machine

/-! ### Common parts (42_backward_refs R150, R153) -/

/-- The end of a builder with the tokens it emitted: OUT_OF_MEMORY when a token would be stored at index
TOK_CAP, else CUR holds them (42_backward_refs R150, R153). -/
def State.endBuilder (s : State) (ts : List Token) : BodyEnd :=
  if s.caps.tokCap < ts.length then
    .fail .outOfMemory (bufferSpace s.bufs.sel) (s.redrawBuffer s.bufs.sel)
  else
    let t := s.putTokens s.bufs.sel ts
    .ok { t with bufs := { t.bufs with curLen := ts.length, curBits := 0 }
                 flags := { t.flags with curValid := true, curHasCache := false } }

/-- An element index at or above N_MAX: the image has more pixels than PIX has elements (20_memory R63,
60_exceptions R345, log 16). -/
def State.outsideImage (s : State) : Bool := decide (s.caps.nMax < s.pixelCount)

/-! ### BR_GREEDY (42_backward_refs R151) -/

/-- The loop of BR_GREEDY from position `i` on; `fuel` is at least the pixels left. -/
def greedyTokens (px : Nat → Pixel) (hc : Nat → Nat × Nat) (n : Nat) : Nat → Nat → List Token
  | 0, _ => []
  | fuel + 1, i =>
    if i < n then
      if Config.minLength ≤ (hc i).2 then
        if i + 1 < n ∧ Config.minLength ≤ (hc (i + 1)).2 ∧ i + (hc i).2 < i + 1 + (hc (i + 1)).2 then
          .literal (px i) :: greedyTokens px hc n fuel (i + 1)
        else .copy (hc i).1 (hc i).2 :: greedyTokens px hc n fuel (i + (hc i).2)
      else .literal (px i) :: greedyTokens px hc n fuel (i + 1)
    else []

/-- The pseudocode of BR_GREEDY. -/
def brGreedyBody (sel : TableSel) (s : State) : BodyEnd :=
  if s.outsideImage then .fail .internal s.caps.nMax (s.redrawBuffer s.bufs.sel)
  else s.endBuilder (greedyTokens s.px (s.hcEntry sel) s.pixelCount s.pixelCount 0)

/-- BR_GREEDY (42_backward_refs R151). -/
def execBrGreedy (sel : TableSel) (s : State) : Result :=
  runCommand .brGreedy true [(4, s.zeroDims), (12, s.badTable sel)] none (brGreedyBody sel) s

/-! ### BR_RLE (42_backward_refs R155) -/

/-- The loop of BR_RLE from position `i ≥ 1` on. -/
def rleTokens (px : Nat → Pixel) (n xs : Nat) : Nat → Nat → List Token
  | 0, _ => []
  | fuel + 1, i =>
    if i < n then
      let maxLen := min (n - i) Config.maxLength
      let r := lcp px (i - 1) i maxLen
      let u := if i < xs ∨ Config.windowSize < xs then 0 else lcp px (i - xs) i maxLen
      if u ≤ r ∧ Config.minLength ≤ r then .copy 1 r :: rleTokens px n xs fuel (i + r)
      else if Config.minLength ≤ u then .copy xs u :: rleTokens px n xs fuel (i + u)
      else .literal (px i) :: rleTokens px n xs fuel (i + 1)
    else []

/-- The pseudocode of BR_RLE. -/
def brRleBody (s : State) : BodyEnd :=
  s.endBuilder (.literal (s.px 0) :: rleTokens s.px s.pixelCount s.xs s.pixelCount 1)

/-- BR_RLE (42_backward_refs R155). -/
def execBrRle (s : State) : Result :=
  runCommand .brRle true [(4, s.zeroDims)] (s.overImage 0) brRleBody s

/-! ### HC_BOX (42_backward_refs R160, R161) -/

/-- The distances `1 .. bound` whose distance code is at most 32, with their codes. -/
def nearDistances (f : Fns) (xs bound : Nat) : List (Nat × Nat) :=
  (List.range bound).filterMap
    (fun k => if distanceCode f xs (k + 1) ≤ 32 then some (distanceCode f xs (k + 1), k + 1) else none)

/-- `BoxOffsets(xs)` up to a bound, ordered by increasing distance code, equal codes by increasing distance
(42_backward_refs R161, log 22). -/
def boxOffsets (f : Fns) (xs bound : Nat) : List Nat :=
  (List.range 32).flatMap
    (fun c => ((nearDistances f xs bound).filter (fun e => e.1 == c + 1)).map Prod.snd)

/-- The best offset at position `i`, as (offset, length): the first in list order among the longest. -/
def boxBest (px : Nat → Pixel) (i maxLen : Nat) : List Nat → Nat × Nat → Nat × Nat
  | [], best => best
  | o :: rest, best =>
    if o ≤ i ∧ best.2 < lcp px (i - o) i maxLen then
      boxBest px i maxLen rest (o, lcp px (i - o) i maxLen)
    else boxBest px i maxLen rest best

/-- `HC1[i]`, as (offset, length): matches shorter than MIN_LENGTH are stored as (0, 0). -/
def boxEntry (px : Nat → Pixel) (n : Nat) (offsets : List Nat) (i : Nat) : Nat × Nat :=
  if i = 0 then (0, 0)
  else
    let best := boxBest px i (min (n - i) Config.maxLength) offsets (0, 0)
    if Config.minLength ≤ best.2 then best else (0, 0)

/-- The entries HC_BOX leaves in HC1[0 .. N-1]. Offsets above N - 1 are never tried, so the list stops there. -/
def State.boxTable (s : State) : List (Nat × Nat) :=
  let offsets := boxOffsets s.fns s.xs (min Config.windowSize (s.pixelCount - 1))
  (List.range s.pixelCount).map (boxEntry s.px s.pixelCount offsets)

/-- The pseudocode of HC_BOX. -/
def hcBoxBody (s : State) : BodyEnd :=
  .ok { s with spaces := { s.spaces with hc1 := s.spaces.hc1.put 0 (packEntries s.boxTable) }
               flags := { s.flags with hc1Valid := true } }

/-- HC_BOX (42_backward_refs R160). -/
def execHcBox (s : State) : Result :=
  runCommand .hcBox true [(4, s.zeroDims)] (s.overImage 2) hcBoxBody s

/-! ### The color cache as a value, and its replay (43_color_cache R182, 42_backward_refs R165) -/

/-- A cache of some width: its `2^width` slots, `none` where the valid bit is clear. -/
abbrev CacheSlots := List (Option Pixel)

/-- `CcInit(b)` for `b ≥ 1` (43_color_cache R182). -/
def cacheInit (b : Nat) : CacheSlots := List.replicate (2 ^ b) none

/-- `CcLookup(p)` (43_color_cache R182). -/
def cacheLookup (f : Fns) (b : Nat) (c : CacheSlots) (p : Pixel) : Option Nat :=
  if c.getD (ccIndex f p b) none = some p then some (ccIndex f p b) else none

/-- `CcInsert(p)` (43_color_cache R182). -/
def cacheInsert (f : Fns) (b : Nat) (c : CacheSlots) (p : Pixel) : CacheSlots :=
  c.set (ccIndex f p b) (some p)

/-- `CcInsert(PIX[pos + j])` for `j` in `0 .. l - 1` ascending (42_backward_refs R165). -/
def cacheInsertRun (f : Fns) (b : Nat) (px : Nat → Pixel) : CacheSlots → Nat → Nat → CacheSlots
  | c, _, 0 => c
  | c, pos, l + 1 => cacheInsertRun f b px (cacheInsert f b c (px pos)) (pos + 1) l

/-- Where a replay ended: the tokens it left, the cache, and the position after the last token. -/
structure ReplayEnd where
  tokens : List Token
  cache : CacheSlots
  pos : Nat
deriving DecidableEq, Repr

/-- A token put before those of a replay. -/
def ReplayEnd.push (t : Token) (r : ReplayEnd) : ReplayEnd := { r with tokens := t :: r.tokens }

/-- The loop of CACHE_APPLY from token `k` at position `pos` on; the number of a CacheRef token is an
internal error (42_backward_refs R165). -/
def cacheReplay (f : Fns) (b : Nat) (px : Nat → Pixel) :
    Nat → CacheSlots → Nat → List Token → Except Nat ReplayEnd
  | _, c, pos, [] => .ok ⟨[], c, pos⟩
  | k, c, pos, .literal v :: rest =>
    match cacheLookup f b c v with
    | some idx => (cacheReplay f b px (k + 1) c (pos + 1) rest).map (ReplayEnd.push (.cacheRef idx))
    | none =>
      (cacheReplay f b px (k + 1) (cacheInsert f b c v) (pos + 1) rest).map (ReplayEnd.push (.literal v))
  | k, c, pos, .copy d l :: rest =>
    (cacheReplay f b px (k + 1) (cacheInsertRun f b px c pos l) (pos + l) rest).map
      (ReplayEnd.push (.copy d l))
  | k, _, _, .cacheRef _ :: _ => .error k

/-- The element of CC that holds a slot: valid bit 32, pixel 31:0 (30_encoding R114). -/
def slotElem : Option Pixel → BitVec 33
  | none => 0
  | some p => (1#1 ++ p : BitVec (1 + 32)).cast (by decide)

/-- Storing a whole cache value in CC, with its width in CC_BITS (43_color_cache R182). -/
def State.putCache (s : State) (b : Nat) (c : CacheSlots) : State :=
  { s with ccBits := BitVec.ofNat 4 b
           spaces := { s.spaces with cc := s.spaces.cc.put 0 (c.map slotElem) } }

/-- A run-time raise of CACHE_APPLY leaves CUR and CC unspecified (60_exceptions R346, 20_memory R66). -/
def State.failReplay (s : State) (info : Nat) : BodyEnd :=
  let t := s.redrawBuffer s.bufs.sel
  .fail .internal info { t with spaces := { t.spaces with cc := t.spaces.cc.redraw } }

/-- The pseudocode of CACHE_APPLY (42_backward_refs R165). -/
def cacheApplyBody (s : State) : BodyEnd :=
  let b := s.regs.cacheBits.toNat
  if b = 0 then .ok s
  else if s.outsideImage then s.failReplay s.caps.nMax
  else
    match s.curTokens with
    | .error k => s.failReplay k
    | .ok ts =>
      match cacheReplay s.fns b s.px 0 (cacheInit b) 0 ts with
      | .error k => s.failReplay k
      | .ok r =>
        if r.pos ≠ s.pixelCount then s.failReplay s.bufs.curLen
        else
          let t := (s.putTokens s.bufs.sel r.tokens).putCache b r.cache
          .ok { t with bufs := { t.bufs with curBits := BitVec.ofNat 4 b }
                       flags := { t.flags with curHasCache := true } }

/-- CACHE_APPLY (42_backward_refs R165). -/
def execCacheApply (s : State) : Result :=
  runCommand .cacheApply true [(7, s.badCacheBits), (13, s.badCur), (18, s.curCached)] none cacheApplyBody s

/-! ### TOK_SWAP (42_backward_refs R170) -/

/-- The swap of the two buffers: ownership moves, no record does (42_backward_refs R170, 20_memory R86). -/
def State.swapBuffers (s : State) : State :=
  { s with
    bufs := { sel := !s.bufs.sel, curLen := s.bufs.scrLen, scrLen := s.bufs.curLen,
              curBits := s.bufs.scrBits, scrBits := s.bufs.curBits }
    flags := { s.flags with curValid := s.flags.scrValid, scrValid := s.flags.curValid,
                            curHasCache := decide (s.bufs.scrBits ≠ 0) } }

/-- TOK_SWAP (42_backward_refs R170). -/
def execTokSwap (s : State) : Result :=
  runCommand .tokSwap true [] none (fun t => .ok t.swapBuffers) s

end Sys2Proof.Machine
end

