-- ==== Sys2Proof/Machine/Histogram.lean ====
section
/-! DEFINITION. The histogram and entropy model: HIST_CLEAR, HIST_BUILD, HIST_ADD, HIST_EST, HIST_COMBINE and
the estimator they use (45_histogram). -/

namespace Sys2Proof.Machine

/-! ### Histogram values -/

/-- A histogram value: the cache width and the in-use counts of the five tables (45_histogram R220). -/
structure Histo where
  bits : Nat
  counts : PerTable (List Nat)
deriving DecidableEq, Repr

/-- Five all-zero tables at a width (45_histogram R224). -/
def histoZero (bits : Nat) : Histo :=
  ⟨bits, PerTable.ofFn (fun t => List.replicate (t.size bits) 0)⟩

/-- One more occurrence of a symbol. -/
def Histo.bump (h : Histo) (t : Table) (sym : Nat) : Histo :=
  { h with counts := h.counts.set t ((h.counts.get t).modify sym (· + 1)) }

/-- `X ⊕ Y`, the element-wise sum on natural numbers (46_clustering R253). -/
def Histo.sum (x y : Histo) : Histo :=
  ⟨x.bits, PerTable.ofFn (fun t => List.zipWith (· + ·) (x.counts.get t) (y.counts.get t))⟩

/-- The green channel (10_state R31). -/
def greenOf (p : Pixel) : Nat := (p.extractLsb' 8 8).toNat
/-- The red channel (10_state R31). -/
def redOf (p : Pixel) : Nat := (p.extractLsb' 16 8).toNat
/-- The blue channel (10_state R31). -/
def blueOf (p : Pixel) : Nat := (p.extractLsb' 0 8).toNat
/-- The alpha channel (10_state R31). -/
def alphaOf (p : Pixel) : Nat := (p.extractLsb' 24 8).toNat

/-- `AddToken(H, tok, xs)`; a cache index outside the width is an internal error (45_histogram R222). -/
def addToken (f : Fns) (xs : Nat) (h : Histo) : Token → Except Nat Histo
  | .literal p =>
    .ok ((((h.bump .combined (greenOf p)).bump .red (redOf p)).bump .blue (blueOf p)).bump .alpha (alphaOf p))
  | .cacheRef k => if cacheSize h.bits ≤ k then .error k else .ok (h.bump .combined (280 + k))
  | .copy d l =>
    .ok ((h.bump .combined (256 + (prefixEncode l).code)).bump .distance (distancePrefix f xs d).code)

/-- All tokens added in order. -/
def addTokens (f : Fns) (xs : Nat) : Histo → List Token → Except Nat Histo
  | h, [] => .ok h
  | h, t :: ts =>
    match addToken f xs h t with
    | .error k => .error k
    | .ok h' => addTokens f xs h' ts

/-- `HistogramOf(T, b)` (45_histogram R224). -/
def histogramOf (f : Fns) (xs : Nat) (ts : List Token) (b : Nat) : Except Nat Histo :=
  addTokens f xs (histoZero b) ts

/-- `Some s` exactly when `s` is the one entry that is not zero (10_state R38). -/
def soleSymbol (counts : List Nat) : Option Nat :=
  match (counts.zipIdx.filter (fun c => c.1 != 0)) with
  | [c] => some c.2
  | _ => none

/-- TRIVIAL for the five tables of a value (10_state R38). -/
def Histo.marks (h : Histo) : PerTable (Option Nat) := PerTable.ofFn (fun t => soleSymbol (h.counts.get t))

/-- The 2584 elements of a slot that holds a value: every table at its base, the rest zero (10_state R36). -/
def Histo.elements (h : Histo) : List Nat :=
  let pad := fun (t : Table) (room : Nat) =>
    h.counts.get t ++ List.replicate (room - (h.counts.get t).length) 0
  pad .combined Config.combinedRoom ++ pad .red 256 ++ pad .blue 256 ++ pad .alpha 256 ++ pad .distance 40 ++
    List.replicate (Config.slotStride - Config.slotUsed) 0

/-- The first element whose count is 2^32 or more, as an element offset (45_histogram R226, 93 U23). -/
def overflowAt (elements : List Nat) : Option Nat :=
  (elements.zipIdx.find? (fun c => decide (2 ^ 32 ≤ c.1))).map Prod.snd

/-- The first element offset that overflows in any of a list of values. -/
def histosOverflow (hs : List Histo) : Option Nat := hs.findSome? (fun h => overflowAt h.elements)

/-- The hidden fields of a slot whose counts a command has just changed to a value: valid, the costs and code
tables no longer valid, TRIVIAL recomputed (45_histogram R220). -/
def Slot.counted (v : Slot) (h : Histo) : Slot :=
  { v with hbits := BitVec.ofNat 4 h.bits, histValid := true, costValid := false, lenValid := false,
           codeValid := false, trivialSym := h.marks }

/-- Storing values in the slots `base`, `base + 1`, ... (45_histogram R220, R223). -/
def State.putHistos (s : State) (base : Nat) (hs : List Histo) : State :=
  let t := s.setSlots base (hs.zipIdx.map (fun c => (s.slot (base + c.2)).counted c.1))
  { t with spaces := { t.spaces with
      hist := t.spaces.hist.put (base * Config.slotStride)
        (hs.flatMap (fun h => h.elements.map (BitVec.ofNat 32))) } }

/-- The histogram value of slot `h` (45_histogram R227). -/
def State.histo (s : State) (h : Nat) : Histo :=
  ⟨(s.slot h).hbits.toNat, PerTable.ofFn (fun t => s.histTable h t)⟩

/-- A run-time raise of a command that writes HIST leaves HIST unspecified (60_exceptions R346). -/
def State.failHist (s : State) (info : Nat) : BodyEnd :=
  .fail .internal info { s with spaces := { s.spaces with hist := s.spaces.hist.redraw } }

/-! ### HIST_CLEAR (45_histogram R221) -/

/-- The pseudocode of HIST_CLEAR. -/
def histClearBody (h : Nat) (s : State) : BodyEnd := .ok (s.putHistos h [histoZero s.regs.cacheBits.toNat])

/-- HIST_CLEAR (45_histogram R221). -/
def execHistClear (slot : BitVec 16) (s : State) : Result :=
  runCommand .histClear true [(7, s.badCacheBits), (11, s.badSlot slot.toNat)] none
    (histClearBody slot.toNat) s

/-! ### HIST_BUILD (45_histogram R223) -/

/-- The counting loop from position `pos` on: each token counted in the value of its first pixel's slot; a
slot outside the range is an internal error (20_memory R63). -/
def countTokens (f : Fns) (xs : Nat) (slotOf : Nat → Nat) :
    List Histo → Nat → List Token → Except Nat (List Histo)
  | hs, _, [] => .ok hs
  | hs, pos, t :: ts =>
    match hs[slotOf pos]? with
    | none => .error (slotOf pos)
    | some h =>
      match addToken f xs h t with
      | .error k => .error k
      | .ok h' => countTokens f xs slotOf (hs.set (slotOf pos) h') (pos + t.len) ts

/-- The pseudocode of HIST_BUILD. -/
def histBuildBody (mode : SlotMode) (base : Nat) (s : State) : BodyEnd :=
  match s.curTokens with
  | .error k => s.failHist k
  | .ok ts =>
    match countTokens s.fns s.xs (s.slotOf mode)
        (List.replicate (s.slotCount mode) (histoZero s.bufs.curBits.toNat)) 0 ts with
    | .error k => s.failHist k
    | .ok hs =>
      match histosOverflow hs with
      | some e => s.failHist e
      | none => .ok (s.putHistos base hs)

/-- HIST_BUILD (45_histogram R223). -/
def execHistBuild (mode : SlotMode) (slot : BitVec 16) (s : State) : Result :=
  runCommand .histBuild true
    [(4, s.zeroDims), (9, s.badHistoMode mode), (10, s.badGroups mode), (11, s.badSlot slot.toNat),
     (13, s.badCur), (20, s.badMap mode)]
    (s.overSlots slot.toNat (s.slotCount mode)) (histBuildBody mode slot.toNat) s

/-! ### HIST_ADD (45_histogram R226) -/

/-- TRIVIAL of a slot from its present counts (10_state R38). -/
def State.marksOf (s : State) (h : Nat) : PerTable (Option Nat) :=
  PerTable.ofFn (fun t => soleSymbol (s.histTable h t))

/-- The pseudocode of HIST_ADD: all sums are tested before any is written. -/
def histAddBody (dst src : Nat) (s : State) : BodyEnd :=
  let sums := List.zipWith (· + ·) (s.histRaw dst) (s.histRaw src)
  match overflowAt sums with
  | some e => s.failHist e
  | none =>
    let t : State := { s with spaces := { s.spaces with
      hist := s.spaces.hist.put (dst * Config.slotStride) (sums.map (BitVec.ofNat 32)) } }
    .ok (t.setSlot dst { t.slot dst with
      costValid := false, lenValid := false, codeValid := false, trivialSym := t.marksOf dst })

/-- HIST_ADD (45_histogram R226). -/
def execHistAdd (slot : BitVec 16) (s : State) : Result :=
  let dst := slot.toNat
  let src := s.regs.arg0.toNat
  runCommand .histAdd true
    [(11, s.badSlot dst || s.badSlot src), (14, s.badHist dst || s.badHist src),
     (18, decide ((s.slot dst).hbits ≠ (s.slot src).hbits)), (19, decide (dst = src))]
    none (histAddBody dst src) s

/-! ### The estimator (45_histogram R227 to R229) -/

/-- 0.99 as binary64 (45_histogram R228). -/
def k099 : Cost := 0x3FEFAE147AE147AE
/-- 0.01. -/
def k001 : Cost := 0x3F847AE147AE147B
/-- 0.95, the blend for 3 symbols. -/
def kMix3 : Cost := 0x3FEE666666666666
/-- 0.7, the blend for 4 symbols. -/
def kMix4 : Cost := 0x3FE6666666666666
/-- 0.627, the blend for 5 and more symbols. -/
def kMix5 : Cost := 0x3FE410624DD2F1AA
/-- 1. -/
def kOne : Cost := 0x3FF0000000000000
/-- 47.9, the base of the overhead. -/
def kBase : Cost := 0x4047F33333333333
/-- 1.5625. -/
def kZeroRuns : Cost := 0x3FF9000000000000
/-- 0.234375. -/
def kZeroLong : Cost := 0x3FCE000000000000
/-- 2.578125. -/
def kRuns : Cost := 0x4004A00000000000
/-- 0.703125. -/
def kLong : Cost := 0x3FE6800000000000
/-- 1.796875. -/
def kZeroShort : Cost := 0x3FFCC00000000000
/-- 3.28125. -/
def kShort : Cost := 0x400A400000000000

/-- The entries that are not zero. -/
def nonzeroCounts (t : List Nat) : List Nat := t.filter (· != 0)

/-- `n * log2(n)` for `n ≥ 1`. -/
def entropyTerm (f : Fns) (n : Nat) : Cost := Bin64.mul (Bin64.ofNat n) (log2Cost f n)

/-- `ent` of 45_histogram R228: the terms summed in the order of the table, then taken from the total's. -/
def entropyOf (f : Fns) (t : List Nat) : Cost :=
  if t.sum = 0 then 0
  else Bin64.sub (entropyTerm f t.sum)
    ((nonzeroCounts t).foldl (fun acc n => Bin64.add acc (entropyTerm f n)) 0)

/-- `Refined(T)` (45_histogram R228). -/
def refinedEntropy (f : Fns) (t : List Nat) : Cost :=
  let nz := (nonzeroCounts t).length
  let total := t.sum
  let mx := t.foldl max 0
  let ent := entropyOf f t
  if nz ≤ 1 then 0
  else if nz = 2 then Bin64.add (Bin64.mul k099 (Bin64.ofNat total)) (Bin64.mul k001 ent)
  else
    let mix := if nz = 3 then kMix3 else if nz = 4 then kMix4 else kMix5
    let lim := Bin64.add (Bin64.mul mix (Bin64.ofNat (2 * total - mx)))
      (Bin64.mul (Bin64.sub kOne mix) ent)
    if Bin64.lt ent lim then lim else ent

/-- What `HuffOverhead` counts: runs longer than 3 and their lengths, and the lengths of the others, for
zero and for nonzero values (45_histogram R228). -/
structure RunStats where
  zeroRuns : Nat
  zeroLong : Nat
  zeroShort : Nat
  runs : Nat
  long : Nat
  short : Nat
deriving DecidableEq, Repr

/-- One more maximal run of value `v` and length `r`. -/
def RunStats.addRun (st : RunStats) (v r : Nat) : RunStats :=
  if v = 0 then
    if 3 < r then { st with zeroRuns := st.zeroRuns + 1, zeroLong := st.zeroLong + r }
    else { st with zeroShort := st.zeroShort + r }
  else
    if 3 < r then { st with runs := st.runs + 1, long := st.long + r }
    else { st with short := st.short + r }

/-- The runs of a table, `r` entries of value `v` already seen. -/
def runStats : RunStats → Nat → Nat → List Nat → RunStats
  | st, v, r, [] => if r = 0 then st else st.addRun v r
  | st, v, r, x :: rest =>
    if r = 0 then runStats st x 1 rest
    else if x = v then runStats st v (r + 1) rest
    else runStats (st.addRun v r) x 1 rest

/-- `HuffOverhead(T)` (45_histogram R228), the additions in the order written. -/
def huffOverhead (t : List Nat) : Cost :=
  let st := runStats ⟨0, 0, 0, 0, 0, 0⟩ 0 0 t
  let r1 := Bin64.add kBase (Bin64.add (Bin64.mul (Bin64.ofNat st.zeroRuns) kZeroRuns)
    (Bin64.mul kZeroLong (Bin64.ofNat st.zeroLong)))
  let r2 := Bin64.add r1 (Bin64.add (Bin64.mul (Bin64.ofNat st.runs) kRuns)
    (Bin64.mul kLong (Bin64.ofNat st.long)))
  let r3 := Bin64.add r2 (Bin64.mul kZeroShort (Bin64.ofNat st.zeroShort))
  Bin64.add r3 (Bin64.mul kShort (Bin64.ofNat st.short))

/-- `EstimateTable(T)`: the default, or an implementation's own held to "a non-negative `Cost`"
(45_histogram R228, log 6). -/
def estimateTable (f : Fns) (t : List Nat) : Cost :=
  match f.estimate with
  | .byDefault => Bin64.add (refinedEntropy f t) (huffOverhead t)
  | .own => Bin64.toContract (Config.ownEstimateTable t)

/-- `ExtraBitsCost(P)`, an exact natural number (45_histogram R229). -/
def extraBitsCost (p : List Nat) : Nat := (p.zipIdx.map (fun c => extraBits c.2 * c.1)).sum

/-- `tc[t]` for the five tables (45_histogram R227). -/
def Histo.tableCosts (f : Fns) (h : Histo) : PerTable Cost :=
  PerTable.ofFn (fun t => estimateTable f (h.counts.get t))

/-- `EstimateBits(H)`, the additions in the order written (45_histogram R227). -/
def Histo.estimateBits (f : Fns) (h : Histo) : Cost :=
  let tc := h.tableCosts f
  let e0 := Bin64.ofNat (extraBitsCost ((h.counts.combined.drop 256).take 24))
  let e4 := Bin64.ofNat (extraBitsCost (h.counts.distance.take 40))
  Bin64.add (Bin64.add (Bin64.add (Bin64.add (Bin64.add (Bin64.add tc.combined tc.red) tc.blue)
    tc.alpha) tc.distance) e0) e4

/-! ### HIST_EST (45_histogram R227) -/

/-- The pseudocode of HIST_EST. -/
def histEstBody (h : Nat) (s : State) : BodyEnd :=
  let v := s.histo h
  let tc := v.tableCosts s.fns
  let c := v.estimateBits s.fns
  let t : State := s.setSlot h { s.slot h with costValid := true }
  .ok (State.setResultCost { t with spaces := { t.spaces with
    bitCost := t.spaces.bitCost.write h c
    tableCost := t.spaces.tableCost.put (5 * h) [tc.combined, tc.red, tc.blue, tc.alpha, tc.distance] } } c)

/-- HIST_EST (45_histogram R227). -/
def execHistEst (slot : BitVec 16) (s : State) : Result :=
  runCommand .histEst true [(11, s.badSlot slot.toNat), (14, s.badHist slot.toNat)] none
    (histEstBody slot.toNat) s

/-! ### HIST_COMBINE (45_histogram R232) -/

/-- The threshold THRESH_HI:THRESH_LO (10_state R21). -/
def State.threshold (s : State) : Cost :=
  ((s.regs.threshHi ++ s.regs.threshLo : BitVec (32 + 32))).cast (by decide)

/-- The pseudocode of HIST_COMBINE. -/
def histCombineBody (a b : Nat) (s : State) : BodyEnd :=
  let c := ((s.histo a).sum (s.histo b)).estimateBits s.fns
  let under := Bin64.lt c s.threshold
  let t : State := { s with flags := { s.flags with combineOk := under } }
  .ok (t.setResultCost (if under then c else s.threshold))

/-- HIST_COMBINE (45_histogram R232). -/
def execHistCombine (slot : BitVec 16) (s : State) : Result :=
  let a := slot.toNat
  let b := s.regs.arg0.toNat
  runCommand .histCombine true
    [(11, s.badSlot a || s.badSlot b), (14, s.badHist a || s.badHist b),
     (18, decide ((s.slot a).hbits ≠ (s.slot b).hbits)), (19, decide (a = b))]
    none (histCombineBody a b) s

end Sys2Proof.Machine
end

