-- ==== Sys2Proof/Machine/ColorCache.lean ====
section
/-! DEFINITION. The color cache: CC_INIT, CC_LOOKUP, CC_INSERT and the width search CACHE_SEARCH
(43_color_cache). -/

namespace Sys2Proof.Machine

/-- `CC[k]` as a slot: the pixel when the valid bit is set (30_encoding R114). -/
def State.ccSlot (s : State) (k : Nat) : Option Pixel :=
  let e := s.spaces.cc.read 5 k
  if e.getLsbD 32 then some (e.setWidth 32) else none

/-! ### CC_INIT (43_color_cache R184) -/

/-- The pseudocode of CC_INIT. -/
def ccInitBody (b : Nat) (s : State) : BodyEnd :=
  if b = 0 then .ok { s with ccBits := 0 } else .ok (s.putCache b (cacheInit b))

/-- CC_INIT (43_color_cache R184). -/
def execCcInit (bits : BitVec 4) (s : State) : Result :=
  runCommand .ccInit (Instr.ccInit bits).wf [] none (ccInitBody bits.toNat) s

/-! ### CC_LOOKUP (43_color_cache R185) -/

/-- The pseudocode of CC_LOOKUP: on a miss RESULT0 still holds the index. -/
def ccLookupBody (s : State) : BodyEnd :=
  let k := ccIndex s.fns s.regs.arg0 s.ccBits.toNat
  let hit := decide (s.ccSlot k = some s.regs.arg0)
  let t : State := { s with flags := { s.flags with ccHit := hit } }
  .ok (t.setResult (BitVec.ofNat 32 k))

/-- CC_LOOKUP (43_color_cache R185). -/
def execCcLookup (s : State) : Result :=
  runCommand .ccLookup true [(21, s.badCache)] none ccLookupBody s

/-! ### CC_INSERT (43_color_cache R186) -/

/-- The pseudocode of CC_INSERT. -/
def ccInsertBody (s : State) : BodyEnd :=
  let k := ccIndex s.fns s.regs.arg0 s.ccBits.toNat
  .ok { s with spaces := { s.spaces with cc := s.spaces.cc.write k (slotElem (some s.regs.arg0)) } }

/-- CC_INSERT (43_color_cache R186). -/
def execCcInsert (s : State) : Result :=
  runCommand .ccInsert true [(21, s.badCache)] none ccInsertBody s

/-! ### CACHE_SEARCH (43_color_cache R190) -/

/-- `Replayed(CUR, b)`: the tokens CACHE_APPLY would leave at width `b`; `T_0` is CUR. -/
def replayedTokens (f : Fns) (px : Nat → Pixel) (ts : List Token) (b : Nat) : Except Nat (List Token) :=
  if b = 0 then .ok ts
  else (cacheReplay f b px 0 (cacheInit b) 0 ts).map ReplayEnd.tokens

/-- `e_b`, the estimate at width `b`. -/
def widthCost (f : Fns) (px : Nat → Pixel) (xs : Nat) (ts : List Token) (b : Nat) : Except Nat Cost :=
  match replayedTokens f px ts b with
  | .error k => .error k
  | .ok rs => (histogramOf f xs rs b).map (Histo.estimateBits f)

/-- The widths `b`, `b + 1`, ... tried in ascending order, `n` of them; a strictly smaller cost wins. -/
def searchWidths (cost : Nat → Except Nat Cost) : Nat → Nat → Option (Nat × Cost) → Except Nat Nat
  | 0, _, best => .ok ((best.map Prod.fst).getD 0)
  | n + 1, b, best =>
    match cost b with
    | .error k => .error k
    | .ok e =>
      match best with
      | none => searchWidths cost n (b + 1) (some (b, e))
      | some (w, c) =>
        if Bin64.lt e c then searchWidths cost n (b + 1) (some (b, e))
        else searchWidths cost n (b + 1) (some (w, c))

/-- `bmax` (43_color_cache R190). -/
def State.maxWidth (s : State) : Nat := min Config.maxCacheBits s.regs.reqCacheBits.toNat

/-- The pseudocode of CACHE_SEARCH. CUR, CC and every slot stay as they are, so an internal error (never
reached from a valid CUR) makes no content unspecified. -/
def cacheSearchBody (s : State) : BodyEnd :=
  if s.outsideImage then .fail .internal s.caps.nMax s
  else
    match s.curTokens with
    | .error k => .fail .internal k s
    | .ok ts =>
      match searchWidths (widthCost s.fns s.px s.xs ts) (s.maxWidth + 1) 0 none with
      | .error k => .fail .internal k s
      | .ok best =>
        let t := s.setResult (BitVec.ofNat 32 best)
        .ok { t with regs := { t.regs with cacheBits := BitVec.ofNat 32 best } }

/-- CACHE_SEARCH (43_color_cache R190). -/
def execCacheSearch (s : State) : Result :=
  runCommand .cacheSearch true
    [(4, s.zeroDims), (8, s.badReqBits), (13, s.badCur), (18, s.curCached)] none cacheSearchBody s

end Sys2Proof.Machine
end

