-- ==== Sys2Proof/Machine/OptimalParse.lean ====
section
/-! DEFINITION. The optimal-parse solver, DP_SOLVE (44_optimal_parse). -/

namespace Sys2Proof.Machine

/-! ### The cost model (44_optimal_parse R202) -/

/-- The default `SymCost(T, s)`. -/
def symCostDefault (f : Fns) (t : List Nat) (s : Nat) : Cost :=
  if (nonzeroCounts t).length ≤ 1 then 0
  else if t.getD s 0 = 0 then log2Cost f t.sum
  else Bin64.sub (log2Cost f t.sum) (log2Cost f (t.getD s 0))

/-- `SymCost(T, s)`: the default, or an implementation's own held to "a non-negative `Cost`" (log 6). -/
def symCost (f : Fns) (t : List Nat) (s : Nat) : Cost :=
  match f.symCost with
  | .byDefault => symCostDefault f t s
  | .own => Bin64.toContract (Config.ownSymCost t s)

/-- The four cost functions of one histogram. -/
structure CostModel where
  lit : Pixel → Cost
  cache : Nat → Cost
  len : Nat → Cost
  dist : Nat → Cost

/-- `CostModelBuild(H)` (44_optimal_parse R202), the additions in the order written. -/
def costModelBuild (f : Fns) (h : Histo) : CostModel :=
  let c := fun t s => symCost f (h.counts.get t) s
  let withExtra := fun t base v =>
    Bin64.add (c t (base + (prefixEncode v).code)) (Bin64.ofNat (prefixEncode v).nbits)
  { lit := fun p =>
      Bin64.add (Bin64.add (Bin64.add (c .combined (greenOf p)) (c .red (redOf p))) (c .blue (blueOf p)))
        (c .alpha (alphaOf p))
    cache := fun k => c .combined (280 + k)
    len := fun l => withExtra .combined 256 l
    dist := fun code => withExtra .distance 0 code }

/-! ### Forward pass (44_optimal_parse R204) -/

/-- DPCOST and DPEDGE of one position. -/
structure DpCell where
  cost : Cost
  edge : Nat
deriving DecidableEq, Repr

/-- A position no edge has reached. -/
def dpUnreached : DpCell := ⟨Bin64.infinity false, 0⟩

/-- A candidate edge: kept only when strictly cheaper, so the first of equal costs stays. -/
def DpCell.relax (c : DpCell) (cost : Cost) (edge : Nat) : DpCell :=
  if Bin64.lt cost c.cost then ⟨cost, edge⟩ else c

/-- The copy edges of lengths `k`, `k + 1`, ..., `l` into consecutive positions. -/
def relaxCopies (start : Cost) (lenCost : Nat → Cost) (l : Nat) : Nat → List DpCell → List DpCell
  | _, [] => []
  | k, c :: rest =>
    if k ≤ l then c.relax (Bin64.add start (lenCost k)) k :: relaxCopies start lenCost l (k + 1) rest
    else c :: rest

/-- What the forward pass reads: pixels, table, `xsize`, cache width, cost model. -/
structure DpInput where
  fns : Fns
  px : Nat → Pixel
  hc : Nat → Nat × Nat
  xs : Nat
  bits : Nat
  model : CostModel

/-- One literal or cached pixel at the cache before it: the hit, if any, and the cache after it
(44_optimal_parse R204, R210). -/
def stepCache (f : Fns) (b : Nat) (c : CacheSlots) (p : Pixel) : Option Nat × CacheSlots :=
  if b = 0 then (none, c)
  else
    match cacheLookup f b c p with
    | some k => (some k, c)
    | none => (none, cacheInsert f b c p)

/-- `Forward(M, b)` from position `i` on: `before` is DPCOST[i - 1], or 0 for `i = 0`; `fuel` is the number
of cells left (44_optimal_parse R204). -/
def dpForward (d : DpInput) : Nat → Nat → Cost → CacheSlots → List DpCell → List DpCell
  | 0, _, _, _, cells => cells
  | _ + 1, _, _, _, [] => []
  | fuel + 1, i, before, cache, cell :: rest =>
    let sc := stepCache d.fns d.bits cache (d.px i)
    let edgeCost :=
      match sc.1 with
      | some k => d.model.cache k
      | none => d.model.lit (d.px i)
    let here := cell.relax (Bin64.add before edgeCost) 1
    let entry := d.hc i
    let rest' :=
      if 1 ≤ i ∧ Config.dpMinLength ≤ entry.2 then
        relaxCopies (Bin64.add before (d.model.dist (distanceCode d.fns d.xs entry.1))) d.model.len entry.2
          Config.dpMinLength rest
      else rest
    here :: dpForward d fuel (i + 1) here.cost sc.2 rest'

/-! ### Trace and replay (44_optimal_parse R208, R210) -/

/-- `Trace()` with `cur + 1 = left`: the edge lengths in forward order before `path`, or the position where
an edge is 0 or passes position 0. -/
def dpTrace (edge : Nat → Nat) : Nat → Nat → List Nat → Except Nat (List Nat)
  | _, 0, path => .ok path
  | 0, left + 1, _ => .error left
  | fuel + 1, left + 1, path =>
    if edge left = 0 ∨ left + 1 < edge left then .error left
    else dpTrace edge fuel (left + 1 - edge left) (edge left :: path)

/-- `Replay(path, b)` from position `i` on: the tokens, the cache and the end position. -/
def dpReplay (d : DpInput) : Nat → CacheSlots → List Nat → ReplayEnd
  | i, cache, [] => ⟨[], cache, i⟩
  | i, cache, k :: path =>
    if k = 1 then
      let sc := stepCache d.fns d.bits cache (d.px i)
      let tok := match sc.1 with
        | some idx => Token.cacheRef idx
        | none => Token.literal (d.px i)
      (dpReplay d (i + 1) sc.2 path).push tok
    else
      let cache' := if d.bits = 0 then cache else cacheInsertRun d.fns d.bits d.px cache i k
      (dpReplay d (i + k) cache' path).push (.copy (d.hc i).1 k)

/-- The solver's input for the present image and a histogram of the reference stream. -/
def State.dpInput (s : State) (sel : TableSel) (h : Histo) : DpInput :=
  { fns := s.fns, px := s.px, hc := s.hcEntry sel, xs := s.xs, bits := s.regs.cacheBits.toNat,
    model := costModelBuild s.fns h }

/-- A run-time raise of DP_SOLVE leaves what it may write unspecified: both buffers, CC, DPCOST and DPEDGE
(60_exceptions R346, 20_memory R66). -/
def State.failSolve (s : State) (o : ErrorOutcome) (info : Nat) : BodyEnd :=
  .fail o info { s with spaces := { s.spaces with
    tokA := s.spaces.tokA.redraw, tokB := s.spaces.tokB.redraw, cc := s.spaces.cc.redraw,
    dpCost := s.spaces.dpCost.redraw, dpEdge := s.spaces.dpEdge.redraw } }

/-- The new stream in SCR, the forward pass in DPCOST and DPEDGE, and the cache of the replay in CC when
the width is not 0 (44_optimal_parse R201). -/
def State.putSolution (s : State) (cells : List DpCell) (r : ReplayEnd) : State :=
  let b := s.regs.cacheBits.toNat
  let t := s.putTokens (!s.bufs.sel) r.tokens
  let t : State := { t with
    spaces := { t.spaces with
      dpCost := t.spaces.dpCost.put 0 (cells.map DpCell.cost)
      dpEdge := t.spaces.dpEdge.put 0 (cells.map (fun c => BitVec.ofNat 16 c.edge)) }
    bufs := { t.bufs with scrLen := r.tokens.length, scrBits := BitVec.ofNat 4 b }
    flags := { t.flags with scrValid := true } }
  if b = 0 then t else t.putCache b r.cache

/-- The end of DP_SOLVE: the stream with the strictly smaller estimate becomes CUR, RESULT the smaller
(44_optimal_parse R201, R212). -/
def State.keepBetter (s : State) (new old : Cost) : State :=
  if Bin64.lt new old then
    let t := s.swapBuffers
    State.setResultCost { t with flags := { t.flags with dpImproved := true } } new
  else State.setResultCost { s with flags := { s.flags with dpImproved := false } } old

/-- The pseudocode of DP_SOLVE (44_optimal_parse R201). -/
def dpSolveBody (sel : TableSel) (s : State) : BodyEnd :=
  let n := s.pixelCount
  let b := s.regs.cacheBits.toNat
  match s.curTokens with
  | .error k => s.failSolve .internal k
  | .ok cur =>
    match histogramOf s.fns s.xs cur b with
    | .error k => s.failSolve .internal k
    | .ok hCur =>
      let d := s.dpInput sel hCur
      let cells := dpForward d n 0 0 (cacheInit b) (List.replicate n dpUnreached)
      match dpTrace (fun i => (cells.getD i dpUnreached).edge) n n [] with
      | .error i => s.failSolve .internal i
      | .ok path =>
        let r := dpReplay d 0 (cacheInit b) path
        if s.caps.tokCap < r.tokens.length then s.failSolve .outOfMemory (bufferSpace (!s.bufs.sel))
        else if r.pos ≠ n then s.failSolve .internal r.tokens.length
        else
          match histogramOf s.fns s.xs r.tokens b with
          | .error k => s.failSolve .internal k
          | .ok hNew =>
            .ok ((s.putSolution cells r).keepBetter (hNew.estimateBits s.fns) (hCur.estimateBits s.fns))

/-- DP_SOLVE (44_optimal_parse R201). -/
def execDpSolve (sel : TableSel) (s : State) : Result :=
  runCommand .dpSolve true
    [(4, s.zeroDims), (7, s.badCacheBits), (12, s.badTable sel), (13, s.badCur),
     (18, decide (s.bufs.curBits.toNat ≠ s.regs.cacheBits.toNat))]
    (s.overImage 9) (dpSolveBody sel) s

end Sys2Proof.Machine
end

