-- ==== Sys2Proof/Machine/Clustering.lean ====
section
/-! DEFINITION. Histogram clustering, CLUSTER (46_clustering). -/

namespace Sys2Proof.Machine

/-! ### Stage 3, greedy agglomeration (46_clustering R256) -/

/-- A cluster: a histogram value, its cost, and whether it is alive. -/
structure Centroid where
  hist : Histo
  cost : Cost
  alive : Bool
deriving DecidableEq, Repr

/-- A candidate pair with its merged and its separate cost. -/
structure ClusterPair where
  i : Nat
  j : Nat
  merged : Cost
  apart : Cost
deriving DecidableEq, Repr

/-- A pair tried against the best so far: beneficial, and of strictly greater saving. -/
def tryPair (f : Fns) (best : Option ClusterPair) (i : Nat) (x : Centroid) (j : Nat) (y : Centroid) :
    Option ClusterPair :=
  if x.alive && y.alive then
    let cm := (x.hist.sum y.hist).estimateBits f
    let sep := Bin64.add x.cost y.cost
    if Bin64.lt cm sep then
      match best with
      | none => some ⟨i, j, cm, sep⟩
      | some p =>
        if Bin64.lt (Bin64.add cm p.apart) (Bin64.add p.merged sep) then some ⟨i, j, cm, sep⟩ else some p
    else best
  else best

/-- The partners `j`, `j + 1`, ... of cluster `i`, ascending. -/
def tryPartners (f : Fns) (i : Nat) (x : Centroid) :
    Nat → List Centroid → Option ClusterPair → Option ClusterPair
  | _, [], best => best
  | j, y :: rest, best => tryPartners f i x (j + 1) rest (tryPair f best i x j y)

/-- All pairs `(i, j)` with `i < j`, in lexicographic order. -/
def bestPair (f : Fns) : Nat → List Centroid → Option ClusterPair → Option ClusterPair
  | _, [], best => best
  | i, x :: rest, best => bestPair f (i + 1) rest (tryPartners f i x (i + 1) rest best)

/-- The merge of a pair: the cluster keeps the smaller index. -/
def mergePair (cs : List Centroid) (p : ClusterPair) : List Centroid :=
  match cs[p.i]?, cs[p.j]? with
  | some x, some y =>
    (cs.set p.i { x with hist := x.hist.sum y.hist, cost := p.merged }).set p.j { y with alive := false }
  | _, _ => cs

/-- The merge loop; `fuel` bounds the merges. -/
def agglomerateLoop (f : Fns) : Nat → List Centroid → List Centroid
  | 0, cs => cs
  | fuel + 1, cs =>
    match bestPair f 0 cs none with
    | none => cs
    | some p => agglomerateLoop f fuel (mergePair cs p)

/-- `Agglomerate(tiles)`: the alive clusters in ascending index (46_clustering R256). -/
def agglomerate (f : Fns) (tiles : List Histo) : List Centroid :=
  (agglomerateLoop f tiles.length (tiles.map (fun h => ⟨h, h.estimateBits f, true⟩))).filter Centroid.alive

/-! ### The remap pass (46_clustering R257) -/

/-- The centroids `k`, `k + 1`, ... tried for one tile: (index, its cost, cost with the tile). -/
def remapTile (f : Fns) (tile : Histo) : Nat → List Centroid → Nat × Cost × Cost → Nat
  | _, [], best => best.1
  | k, c :: rest, (bi, bc, ba) =>
    let add := (c.hist.sum tile).estimateBits f
    if Bin64.lt (Bin64.add add bc) (Bin64.add ba c.cost) then remapTile f tile (k + 1) rest (k, c.cost, add)
    else remapTile f tile (k + 1) rest (bi, bc, ba)

/-- `Remap(C, tiles)` (46_clustering R257). -/
def remapTiles (f : Fns) (cs : List Centroid) (tiles : List Histo) : List Nat :=
  match cs with
  | [] => tiles.map (fun _ => 0)
  | c :: rest =>
    tiles.map (fun tile => remapTile f tile 1 rest (0, c.cost, (c.hist.sum tile).estimateBits f))

/-- `ClusterDefault(tiles)`: the used clusters renumbered in ascending order (46_clustering R253). -/
def clusterDefault (f : Fns) (tiles : List Histo) : Nat × List Nat :=
  let cs := agglomerate f tiles
  let a := remapTiles f cs tiles
  let used := (List.range tiles.length).filter (fun u => a.contains u)
  (used.length, a.map (fun u => used.idxOf u))

/-- The contract of `ClusterChoice` on `n` tiles: `1 ≤ K ≤ n`, and the map is from the tiles onto `0 .. K-1`
(46_clustering R252). -/
def clusterContract (n : Nat) (c : Nat × List Nat) : Bool :=
  decide (1 ≤ c.1 ∧ c.1 ≤ n ∧ c.2.length = n) && c.2.all (fun k => decide (k < c.1)) &&
    (List.range c.1).all (fun k => c.2.contains k)

/-- The five tables of a value as a list. -/
def Histo.tables (h : Histo) : List (List Nat) :=
  [h.counts.combined, h.counts.red, h.counts.blue, h.counts.alpha, h.counts.distance]

/-- `ClusterChoice(tiles)`: the default, or an implementation's own where it meets the contract
(46_clustering R252, log 6). -/
def clusterChoice (f : Fns) (tiles : List Histo) : Nat × List Nat :=
  match f.cluster with
  | .byDefault => clusterDefault f tiles
  | .own =>
    let c := Config.ownClusterChoice (tiles.map Histo.tables)
    if clusterContract tiles.length c then c else clusterDefault f tiles

/-! ### CLUSTER (46_clustering R251) -/

/-- The tiles of group `k`, ascending. -/
def groupTiles (k : Nat) (tiles : List Histo) (map : List Nat) : List Histo :=
  ((tiles.zip map).filter (fun c => c.2 == k)).map Prod.fst

/-- Tiles added one after the other as HIST_ADD adds two slots: the first addition with a sum of 2^32 or more
raises the lowest element offset at which it overflows (46_clustering R251, 45_histogram R226). -/
def addTiles : Histo → List Histo → Except Nat Histo
  | acc, [] => .ok acc
  | acc, tile :: rest =>
    match overflowAt (acc.sum tile).elements with
    | some e => .error e
    | none => addTiles (acc.sum tile) rest

/-- The values of the groups `ks` in order, each summed from zero, or the first overflow (46_clustering R251). -/
def groupHistos (bits : Nat) (tiles : List Histo) (map : List Nat) : List Nat → Except Nat (List Histo)
  | [] => .ok []
  | k :: ks =>
    match addTiles (histoZero bits) (groupTiles k tiles map) with
    | .error e => .error e
    | .ok h =>
      match groupHistos bits tiles map ks with
      | .error e => .error e
      | .ok hs => .ok (h :: hs)

/-- A run-time raise of CLUSTER leaves HIST and GRPMAP unspecified (60_exceptions R346, 20_memory R66). -/
def State.failCluster (s : State) (info : Nat) : BodyEnd :=
  .fail .internal info { s with spaces := { s.spaces with
    hist := s.spaces.hist.redraw, grpMap := s.spaces.grpMap.redraw } }

/-- The pseudocode of CLUSTER. A tile number at or above N_MAX is outside GRPMAP (20_memory R63, 60_exceptions
R345, log 16). A sum of 2^32 or more is an internal error, the first in the order of the additions (60_exceptions
R348). -/
def clusterBody (first group : Nat) (s : State) : BodyEnd :=
  let n := s.tileCount
  if s.caps.nMax < n then s.failCluster s.caps.nMax else
  let tiles := (List.range n).map (fun g => s.histo (first + g))
  let choice := clusterChoice s.fns tiles
  match groupHistos (s.slot first).hbits.toNat tiles choice.2 (List.range choice.1) with
  | .error e => s.failCluster e
  | .ok hs =>
    let t := s.putHistos group hs
    let t : State := { t with
      spaces := { t.spaces with grpMap := t.spaces.grpMap.put 0 (choice.2.map (BitVec.ofNat 16)) }
      regs := { t.regs with numGroups := BitVec.ofNat 32 choice.1 } }
    .ok (t.setResult (BitVec.ofNat 32 choice.1))

/-- Check 18 of CLUSTER: two existing tile slots differ in HBITS. -/
def State.tileWidthsDiffer (s : State) (first n : Nat) : Bool :=
  (s.existingSlots first n).any (fun h => decide ((s.slot h).hbits ≠ (s.slot first).hbits))

/-- CLUSTER (46_clustering R251). -/
def execCluster (slot : BitVec 16) (s : State) : Result :=
  let first := slot.toNat
  let group := s.regs.arg1.toNat
  let n := s.tileCount
  runCommand .cluster true
    [(4, s.zeroDims), (9, s.badHistoBits), (11, s.badSlot first || s.badSlot group),
     (14, (s.existingSlots first n).any s.badHist), (18, s.tileWidthsDiffer first n),
     (19, decide (first < group + n ∧ group < first + n))]
    (if s.caps.hMax < first + n ∨ s.caps.hMax < group + n then some 6 else none)
    (clusterBody first group) s

end Sys2Proof.Machine
end

