-- ==== Sys2Proof/Machine/Huffman.lean ====
section
/-! DEFINITION. The code-length optimizer HUFF_LEN and the canonical encoder HUFF_CODE (47_huffman). -/

namespace Sys2Proof.Machine

/-! ### Code lengths (47_huffman R267 to R271) -/

/-- A Huffman tree over symbols. -/
inductive HuffTree where
  | leaf (sym : Nat)
  | node (left right : HuffTree)
deriving DecidableEq, Repr

/-- A tree with its weight. -/
structure WeightedTree where
  weight : Nat
  tree : HuffTree
deriving DecidableEq, Repr

/-- The leaves in the order they are removed: weight ascending, among equals the larger symbol first
(47_huffman R269, whose list is the reverse of this one). -/
def insertLeaf (w sym : Nat) : List WeightedTree → List WeightedTree
  | [] => [⟨w, .leaf sym⟩]
  | x :: rest => if w ≤ x.weight then ⟨w, .leaf sym⟩ :: x :: rest else x :: insertLeaf w sym rest

/-- A merged tree goes behind every entry of its weight or less (47_huffman R269, seen from the end of the
list). -/
def insertMerged (m : WeightedTree) : List WeightedTree → List WeightedTree
  | [] => [m]
  | x :: rest => if x.weight ≤ m.weight then x :: insertMerged m rest else m :: x :: rest

/-- The two smallest merged until one tree is left; `fuel` is the number of trees. -/
def mergeTrees : Nat → List WeightedTree → List WeightedTree
  | fuel + 1, a :: b :: rest =>
    mergeTrees fuel (insertMerged ⟨a.weight + b.weight, .node a.tree b.tree⟩ rest)
  | _, l => l

/-- The depth of each symbol under a root at depth `d`. -/
def treeDepths : Nat → HuffTree → List (Nat × Nat)
  | d, .leaf sym => [(sym, d)]
  | d, .node l r => treeDepths (d + 1) l ++ treeDepths (d + 1) r

/-- The symbols with a nonzero count, with their counts, ascending. -/
def usedSymbols (c : List Nat) : List (Nat × Nat) :=
  (c.zipIdx.filter (fun e => e.1 != 0)).map (fun e => (e.2, e.1))

/-- `TreeDepths(c, nz, floor)`, as (symbol, depth) (47_huffman R269). -/
def depthsAt (used : List (Nat × Nat)) (floor : Nat) : List (Nat × Nat) :=
  let leaves := used.foldl (fun l e => insertLeaf (max e.2 floor) e.1 l) []
  match mergeTrees leaves.length leaves with
  | t :: _ => treeDepths 0 t.tree
  | [] => []

/-- The retry loop: the floor doubles until no depth is above the limit (47_huffman R268). -/
def limitDepths (used : List (Nat × Nat)) (limit : Nat) : Nat → Nat → List (Nat × Nat)
  | 0, _ => []
  | fuel + 1, floor =>
    let d := depthsAt used floor
    if d.all (fun e => decide (e.2 ≤ limit)) then d else limitDepths used limit fuel (2 * floor)

/-- How often the retry loop may run: 33 times at most (47_huffman R271, log 23). -/
def maxRetries : Nat := 34

/-- `CodeLengths(c, limit)` (47_huffman R268). -/
def codeLengths (c : List Nat) (limit : Nat) : List Nat × Option Nat :=
  match usedSymbols c with
  | [] => (c.map (fun _ => 0), none)
  | [e] => (c.map (fun _ => 0), some e.1)
  | used =>
    let d := limitDepths used limit maxRetries 1
    ((List.range c.length).map (fun s => (cellAt d s).getD 0), none)

/-- `RleSmooth(c)`: the default is the identity; an implementation's own is held to the contract: as many
entries, zero exactly where the count is zero, below 2^32 (47_huffman R267, log 6). -/
def rleSmooth (f : Fns) (c : List Nat) : List Nat :=
  match f.rleSmooth with
  | .byDefault => c
  | .own =>
    let o := Config.ownRleSmooth c
    c.zipIdx.map (fun e => if e.1 = 0 then 0 else max 1 (o.getD e.2 1 % 2 ^ 32))

/-- The lengths and the single symbol of one table of slot `h` (47_huffman R266). -/
def State.tableLengths (s : State) (h : Nat) (t : Table) : List Nat × Option Nat :=
  let c := s.histTable h t
  codeLengths (if s.rleOpt then rleSmooth s.fns c else c) Config.maxCodeLength

/-- A code-table element: code_length [19:16], code [15:0] (30_encoding R101). -/
def packCode (len code : Nat) : Word := BitVec.ofNat 32 (len % 16 * 2 ^ 16 + code % 2 ^ 16)
/-- `code_length` of an element. -/
def codeLen (e : Word) : Nat := (e.extractLsb' 16 4).toNat
/-- `code` of an element. -/
def codeBits (e : Word) : Nat := (e.extractLsb' 0 16).toNat

/-- The 2584 elements of an HTAB slot from its five tables; elements outside are 0 (47_huffman R265). -/
def slotElements (p : PerTable (List Word)) : List Word :=
  let pad := fun (t : Table) (room : Nat) => p.get t ++ List.replicate (room - (p.get t).length) 0
  pad .combined Config.combinedRoom ++ pad .red 256 ++ pad .blue 256 ++ pad .alpha 256 ++ pad .distance 40 ++
    List.replicate (Config.slotStride - Config.slotUsed) 0

/-- Storing a whole HTAB slot. -/
def State.putCodes (s : State) (h : Nat) (p : PerTable (List Word)) : State :=
  { s with spaces := { s.spaces with htab := s.spaces.htab.put (h * Config.slotStride) (slotElements p) } }

/-- The pseudocode of HUFF_LEN (47_huffman R266). -/
def huffLenBody (h : Nat) (s : State) : BodyEnd :=
  let r := PerTable.ofFn (fun t => s.tableLengths h t)
  let t := s.putCodes h (PerTable.ofFn (fun t => (r.get t).1.map (fun l => packCode l 0)))
  .ok (t.setSlot h { t.slot h with
    lenValid := true, codeValid := false, single := PerTable.ofFn (fun t => (r.get t).2) })

/-- HUFF_LEN (47_huffman R266). -/
def execHuffLen (slot : BitVec 16) (s : State) : Result :=
  runCommand .huffLen true [(6, s.badCtrl), (11, s.badSlot slot.toNat), (14, s.badHist slot.toNat)] none
    (huffLenBody slot.toNat) s

/-! ### Canonical codes (47_huffman R274, R275) -/

/-- `Reverse(v, l)`: bit `i` of the result is bit `l - 1 - i` of `v` (47_huffman R275). -/
def reverseBits (v : Nat) : Nat → Nat
  | 0 => 0
  | l + 1 => v % 2 * 2 ^ l + reverseBits (v / 2) l

/-- `cnt[l]`, the number of symbols of a length from 1 on; `cnt[0]` is 0 (47_huffman R274). -/
def lengthCount (lens : List Nat) (l : Nat) : Nat := if l = 0 then 0 else lens.count l

/-- `next[l]`, the first code of a length (47_huffman R274). -/
def firstCode (lens : List Nat) : Nat → Nat
  | 0 => 0
  | l + 1 => (firstCode lens l + lengthCount lens l) * 2

/-- The canonical codewords in symbol order, not reversed; `seen` holds the lengths of the symbols before.
The code of a symbol is its length's first code plus the symbols of that length before it. -/
def canonicalCodes (lens : List Nat) : List Nat → List Nat → List Nat
  | _, [] => []
  | seen, l :: rest =>
    (if l = 0 then 0 else firstCode lens l + seen.count l) :: canonicalCodes lens (l :: seen) rest

/-- The elements of one table with their codes, from its lengths (47_huffman R274). -/
def codedTable (lens : List Nat) : List Word :=
  (List.zip lens (canonicalCodes lens [] lens)).map (fun e => packCode e.1 (reverseBits e.2 e.1))

/-- The pseudocode of HUFF_CODE (47_huffman R274): the elements outside the tables stay. -/
def huffCodeBody (h : Nat) (s : State) : BodyEnd :=
  let code := fun (m : Mem 32) (t : Table) =>
    m.put (h * Config.slotStride + t.base) (codedTable ((s.codeTable h t).map codeLen))
  let m := code (code (code (code (code s.spaces.htab .combined) .red) .blue) .alpha) .distance
  let t : State := { s with spaces := { s.spaces with htab := m } }
  .ok (t.setSlot h { t.slot h with codeValid := true })

/-- HUFF_CODE (47_huffman R274). -/
def execHuffCode (slot : BitVec 16) (s : State) : Result :=
  runCommand .huffCode true [(11, s.badSlot slot.toNat), (15, !(s.slot slot.toNat).lenValid)] none
    (huffCodeBody slot.toNat) s

end Sys2Proof.Machine
end

