-- ==== Sys2Proof/Machine/BitWriter.lean ====
section
/-! DEFINITION. The LSB-first bit-packing writer BW_INIT, BW_PUT, BW_FINISH, and EMIT_TOKENS (48_bit_writer). -/

namespace Sys2Proof.Machine

/-! ### The writer (48_bit_writer R294, R295) -/

/-- A word as its four bytes, least significant first (20_memory R60). -/
def wordBytes (w : BitVec 64) : List Byte :=
  [w.extractLsb' 0 8, w.extractLsb' 8 8, w.extractLsb' 16 8, w.extractLsb' 24 8]

/-- BW_ERR set (48_bit_writer R309). -/
def State.setBwErr (s : State) : State := { s with flags := { s.flags with bwErr := true } }

/-- Bytes written to OUT at BW_POS, which moves behind them. -/
def State.outBytes (s : State) (bs : List Byte) : State :=
  { s with spaces := { s.spaces with out := s.spaces.out.put s.writer.pos bs }
           writer := { s.writer with pos := s.writer.pos + bs.length } }

/-- The accumulator shifted down by `n` bits. -/
def State.shiftAcc (s : State) (n : Nat) : State :=
  { s with writer := { s.writer with acc := s.writer.acc >>> n, used := s.writer.used - n } }

/-- `FlushWord()` (48_bit_writer R295). -/
def State.flushWord (s : State) : State :=
  let t :=
    if !s.flags.bwErr && decide (s.writer.pos + 4 ≤ s.caps.outCap) then s.outBytes (wordBytes s.writer.acc)
    else s.setBwErr
  t.shiftAcc 32

/-- `Put(v, n)` (48_bit_writer R294). -/
def State.putBits (s : State) (v : BitVec 64) (n : Nat) : State :=
  let t : State := { s with writer := { s.writer with
    acc := s.writer.acc ||| (v <<< s.writer.used), used := s.writer.used + n } }
  if 32 ≤ t.writer.used then t.flushWord else t

/-! ### BW_INIT (48_bit_writer R292) -/

/-- The pseudocode of BW_INIT. -/
def bwInitBody (s : State) : BodyEnd :=
  .ok { s with writer := Writer.reset, flags := { s.flags with bwErr := false, bwOpen := true } }

/-- BW_INIT (48_bit_writer R292). -/
def execBwInit (s : State) : Result := runCommand .bwInit true [] none bwInitBody s

/-! ### BW_PUT (48_bit_writer R293) -/

/-- The pseudocode of BW_PUT. -/
def bwPutBody (n : Nat) (s : State) : BodyEnd := .ok (s.putBits (s.regs.arg0.setWidth 64) n)

/-- BW_PUT (48_bit_writer R293): check 17, the value has no bit at or above `n`. -/
def execBwPut (n : BitVec 6) (s : State) : Result :=
  runCommand .bwPut (Instr.bwPut n).wf
    [(16, !s.flags.bwOpen), (17, decide (n.toNat < 32 ∧ 2 ^ n.toNat ≤ s.regs.arg0.toNat))]
    none (bwPutBody n.toNat) s

/-! ### BW_FINISH (48_bit_writer R297) -/

/-- One turn of the byte loop. -/
def State.finishByte (s : State) : State :=
  let t :=
    if !s.flags.bwErr && decide (s.writer.pos + 1 ≤ s.caps.outCap) then
      s.outBytes [s.writer.acc.extractLsb' 0 8]
    else s.setBwErr
  t.shiftAcc 8

/-- `while BW_USED > 0`; a turn takes 8 bits, so `fuel` = BW_USED suffices. -/
def finishBytes : Nat → State → State
  | 0, s => s
  | fuel + 1, s => if s.writer.used = 0 then s else finishBytes fuel s.finishByte

/-- The bytes of OUT in `[lo, hi)`, which a failed command wrote, become free values (60_exceptions R346,
70_reset R383, log 11). -/
def State.redrawOut (s : State) (lo hi : Nat) : State :=
  let free : List Byte :=
    (List.range (hi - lo)).map (fun k => (Config.freeValue (s.env.freeCount + k)).setWidth 8)
  { s with
    spaces := { s.spaces with out := s.spaces.out.put lo free }
    env := { s.env with freeCount := s.env.freeCount + (hi - lo) } }

/-- A run-time raise of BW_FINISH or EMIT_TOKENS in state `s`: BW_ACC, BW_USED, BW_POS and BW_ERR keep what the
pseudocode left in them (48_bit_writer R309, R310, 60_exceptions R346, 70_reset R383; log 10), and the bytes written to
OUT since the command's start become unspecified (60_exceptions R346, log 11). -/
def failOut (o : ErrorOutcome) (info : Nat) (start s : State) : BodyEnd :=
  .fail o info (s.redrawOut start.writer.pos s.writer.pos)

/-- The pseudocode of BW_FINISH. -/
def bwFinishBody (s : State) : BodyEnd :=
  let t := finishBytes s.writer.used s
  let t : State := { t with flags := { t.flags with bwOpen := false } }
  if t.flags.bwErr then failOut .outOfMemory 11 s t
  else .ok (t.setResult (BitVec.ofNat 32 t.writer.pos))

/-- BW_FINISH (48_bit_writer R297). -/
def execBwFinish (s : State) : Result :=
  runCommand .bwFinish true [(16, !s.flags.bwOpen)] none bwFinishBody s

/-! ### EMIT_TOKENS (48_bit_writer R300) -/

/-- What a token puts, in order: the codeword of a symbol of a table, or raw bits (30_encoding R111). -/
inductive Emission where
  | symbol (t : Table) (sym : Nat)
  | raw (value nbits : Nat)
deriving DecidableEq, Repr

/-- The sequence of a token (30_encoding R111). -/
def emissionsOf (f : Fns) (xs : Nat) : Token → List Emission
  | .literal p =>
    [.symbol .combined (greenOf p), .symbol .red (redOf p), .symbol .blue (blueOf p),
     .symbol .alpha (alphaOf p)]
  | .cacheRef k => [.symbol .combined (280 + k)]
  | .copy d l =>
    let lp := prefixEncode l
    let dp := distancePrefix f xs d
    [.symbol .combined (256 + lp.code), .raw lp.value lp.nbits, .symbol .distance dp.code,
     .raw dp.value dp.nbits]

/-- The element `HTAB[h].t_t[sym]` (10_state R40). -/
def State.codeElem (s : State) (h : Nat) (t : Table) (sym : Nat) : Word :=
  s.spaces.htab.read 8 (h * Config.slotStride + t.base + sym)

/-- `W(h, t, sym, k)` or a raw put; `none` for a symbol without a codeword (48_bit_writer R300). -/
def State.emitOne (s : State) (h : Nat) : Emission → Option State
  | .raw v n => some (s.putBits (BitVec.ofNat 64 v) n)
  | .symbol t sym =>
    let e := s.codeElem h t sym
    if 0 < codeLen e then some (s.putBits (BitVec.ofNat 64 (codeBits e)) (codeLen e))
    else if (s.slot h).single.get t = some sym then some s
    else none

/-- The emissions of one token; the state with what was put before the first symbol without a codeword. -/
def emitAll (h : Nat) : State → List Emission → Except State State
  | s, [] => .ok s
  | s, e :: rest =>
    match s.emitOne h e with
    | none => .error s
    | some t => emitAll h t rest

/-- The loop of EMIT_TOKENS from token `k` at position `pos` on; `start` is the state in which it started. -/
def emitTokensLoop (mode : SlotMode) (base : Nat) (start : State) : Nat → Nat → State → List Token → BodyEnd
  | k, pos, s, [] => if pos ≠ s.pixelCount then failOut .internal k start s else .ok s
  | k, pos, s, t :: ts =>
    match emitAll (base + s.slotOf mode pos) s (emissionsOf s.fns s.xs t) with
    | .error u => failOut .internal k start u
    | .ok u => emitTokensLoop mode base start (k + 1) (pos + t.len) u ts

/-- The pseudocode of EMIT_TOKENS. -/
def emitTokensBody (mode : SlotMode) (base : Nat) (s : State) : BodyEnd :=
  match s.curTokens with
  | .error k => .fail .internal k s
  | .ok ts => emitTokensLoop mode base s 0 0 s ts

/-- Check 15 of EMIT_TOKENS: an existing slot has no codes. -/
def State.badCodes (s : State) (base count : Nat) : Bool :=
  (s.existingSlots base count).any (fun h => !(s.slot h).codeValid)

/-- Check 18 of EMIT_TOKENS: an existing slot's width is not CUR_BITS. -/
def State.badWidths (s : State) (base count : Nat) : Bool :=
  (s.existingSlots base count).any (fun h => decide ((s.slot h).hbits ≠ s.bufs.curBits))

/-- EMIT_TOKENS (48_bit_writer R300). -/
def execEmitTokens (mode : SlotMode) (slot : BitVec 16) (s : State) : Result :=
  let base := slot.toNat
  let count := s.slotCount mode
  runCommand .emitTokens true
    [(4, s.zeroDims), (9, s.badHistoMode mode), (10, s.badGroups mode), (11, s.badSlot base),
     (13, s.badCur), (15, s.badCodes base count), (16, !s.flags.bwOpen), (18, s.badWidths base count),
     (20, s.badMap mode)]
    (s.overSlots base count) (emitTokensBody mode base) s

end Sys2Proof.Machine
end

