-- ==== Sys2Proof/Machine/System.lean ====
section
/-! DEFINITION. The system commands (49_system R321 to R323): none of them runs check 3 or takes an abort. -/

namespace Sys2Proof.Machine

/-- NOP (49_system R321): no work; the command ends without error, ERROR and ABORT_PENDING stay. -/
def execNop (s : State) : Result := .next s.endOk

/-- SOFT_RESET (49_system R322). -/
def execSoftReset (s : State) : Result := .next s.softReset

/-- ATTEMPT_BEGIN (49_system R323). -/
def execAttemptBegin (s : State) : Result := .next s.beginAttempt.endOk

end Sys2Proof.Machine
end

