-- ==== Sys2Proof/Machine/Dispatch.lean ====
section
/-! DEFINITION. `exec`: one arm per constructor of `Instr`, each one call of that command's meaning. -/

namespace Sys2Proof.Machine

def exec (i : Instr) (s : State) : Host.Outcome State Fault Refusal :=
  match i with
  | .nop => Sys2Proof.Machine.execNop s
  | .softReset => Sys2Proof.Machine.execSoftReset s
  | .attemptBegin => Sys2Proof.Machine.execAttemptBegin s
  | .hcBuild => Sys2Proof.Machine.execHcBuild s
  | .hcBox => Sys2Proof.Machine.execHcBox s
  | .brGreedy sel => Sys2Proof.Machine.execBrGreedy sel s
  | .brRle => Sys2Proof.Machine.execBrRle s
  | .cacheApply => Sys2Proof.Machine.execCacheApply s
  | .cacheSearch => Sys2Proof.Machine.execCacheSearch s
  | .tokSwap => Sys2Proof.Machine.execTokSwap s
  | .dpSolve sel => Sys2Proof.Machine.execDpSolve sel s
  | .histClear slot => Sys2Proof.Machine.execHistClear slot s
  | .histBuild mode slot => Sys2Proof.Machine.execHistBuild mode slot s
  | .histAdd slot => Sys2Proof.Machine.execHistAdd slot s
  | .histEst slot => Sys2Proof.Machine.execHistEst slot s
  | .histCombine slot => Sys2Proof.Machine.execHistCombine slot s
  | .cluster slot => Sys2Proof.Machine.execCluster slot s
  | .huffLen slot => Sys2Proof.Machine.execHuffLen slot s
  | .huffCode slot => Sys2Proof.Machine.execHuffCode slot s
  | .bwInit => Sys2Proof.Machine.execBwInit s
  | .bwPut n => Sys2Proof.Machine.execBwPut n s
  | .bwFinish => Sys2Proof.Machine.execBwFinish s
  | .emitTokens mode slot => Sys2Proof.Machine.execEmitTokens mode slot s
  | .ccInit bits => Sys2Proof.Machine.execCcInit bits s
  | .ccLookup => Sys2Proof.Machine.execCcLookup s
  | .ccInsert => Sys2Proof.Machine.execCcInsert s

end Sys2Proof.Machine
end

