-- ==== Sys2Proof/Machine/HostSide.lean ====
section
/-! DEFINITION. One operation of the host or of the world outside, as one transition (20_memory R62, R71 to
R73, 60_exceptions R352, 70_reset R380), and the running command (49_system R320). -/

namespace Sys2Proof.Machine

/-- A state in which nothing but time passes: the completion pulse ends, the abort line is seen, by a running
command as a request for the next one (60_exceptions R352, R353). -/
def State.quiet (s : State) : State :=
  State.latchAbort
    { s with env := { s.env with
        irqPulse := false, abortLate := s.env.abortLate || (s.flags.busy && s.env.abortLine) } }

/-- `SpaceRead` (20_memory R73): any value while BUSY = 1. -/
def State.hostSpaceRead (s : State) (sp : SpaceId) (i : Nat) : State :=
  if s.flags.busy then s.answerFree else s.answer (s.readElem sp i)

/-- `SpaceWrite` (20_memory R73): dropped while BUSY = 1. -/
def State.hostSpaceWrite (s : State) (sp : SpaceId) (i : Nat) (v : BitVec 64) : State :=
  if s.flags.busy then s else s.writeElem sp i v

/-- `InfoRead` (20_memory R72), while a command runs too: it is not among the reads that 70_reset R401 leaves
open, and the work of a command is one transition (20_memory R80), so it shows the hidden state as the command
found it (DEDUCED, log 4). -/
def State.hostInfoRead (s : State) (sel : Nat) : State := s.answer ((s.infoValue sel).setWidth 64)

/-- One operation of the outside world. -/
def hostStep (op : HostOp) (s : State) : Result :=
  match op with
  | .regRead off => .next (s.hostRegRead off).quiet
  | .regWrite off v => .next (s.hostRegWrite off v).quiet
  | .spaceRead sp i =>
    if i < s.spaceSize sp then .next (s.hostSpaceRead sp i).quiet else .fault (.noSuchElement sp i)
  | .spaceWrite sp i v =>
    if i < s.spaceSize sp then .next (s.hostSpaceWrite sp i v).quiet else .fault (.noSuchElement sp i)
  | .infoRead sel => .next (s.hostInfoRead sel).quiet
  | .abortLine level => .next (State.quiet { s with env := { s.env with abortLine := level } })
  | .hardReset => .next s.hardReset

/-- The running command: the word in CMD decoded and executed; an illegal word does no work and ends with
INVALID_PARAM, check 1 or 2 (30_encoding R94, 60_exceptions R349). -/
def runWord (s : State) : Result :=
  match decodeWord s.regs.cmd with
  | .ok i => exec i s
  | .error e => .next (s.raise e.op .invalidParam e.check)

/-- The pending operations without the first. -/
def State.popHost (s : State) : State := { s with env := { s.env with host := s.env.host.tail } }

end Sys2Proof.Machine
end

