-- ==== Sys2Proof/Machine/Step.lean ====
section
/-! DEFINITION. `step`: one transition of CORE and its host, and the state in which the next step runs a
given command word. -/

namespace Sys2Proof.Machine

/-- One transition (log 1, 2). While a command runs (BUSY = 1) an operation of the host marked `early` lands
first, else the command ends; while none runs the host's next operation happens, and with none pending
CORE stays idle (10_state R52). -/
def step (s : State) : Host.Outcome State Fault Refusal :=
  match s.env.host with
  | [] => if s.flags.busy then runWord s else .next s.quiet
  | e :: _ => if s.flags.busy && !e.early then runWord s else hostStep e.op s.popHost

/-- `s` with the command word `w` just written to CMD (49_system R320), so that the next step runs it: the
pending operations of the host wait until it has ended (log 1). -/
def State.withFetchWord (s : State) (nbits w : Nat) : State :=
  let t := s.startCommand (BitVec.ofNat 32 (w % 2 ^ nbits))
  { t with env := { t.env with host := t.env.host.map (fun e => { e with early := false }) } }

end Sys2Proof.Machine
end

