-- ==== Sys2Proof/Laws/Memory.lean ====
section
/-! SUPPORT. Laws of the cells of a space: reading after writing, the canonical form, and runs of cells. -/

namespace Sys2Proof.Machine

/-! ### Reading after writing -/

theorem cellAt_append {α : Type} (l m : List (Nat × α)) (i : Nat) :
    cellAt (l ++ m) i = (cellAt l i).or (cellAt m i) := by
  induction l with
  | nil => simp [cellAt]
  | cons c l ih =>
    obtain ⟨k, v⟩ := c
    by_cases h : k = i <;> simp [cellAt, h, ih]

theorem cellAt_none {α : Type} {l : List (Nat × α)} {i : Nat} (h : ∀ c ∈ l, c.1 ≠ i) : cellAt l i = none := by
  induction l with
  | nil => rfl
  | cons c l ih =>
    obtain ⟨k, v⟩ := c
    have hk : k ≠ i := h (k, v) (by simp)
    simp only [cellAt, hk, if_false]
    exact ih (fun c hc => h c (by simp [hc]))

theorem cellAt_filter {α : Type} (l : List (Nat × α)) (p : Nat × α → Bool) (i : Nat)
    (h : ∀ v, p (i, v) = true) : cellAt (l.filter p) i = cellAt l i := by
  induction l with
  | nil => rfl
  | cons c l ih =>
    obtain ⟨k, v⟩ := c
    by_cases hk : k = i
    · subst hk; simp [h v, cellAt]
    · by_cases hp : p (k, v) = true <;> simp [hp, cellAt, hk, ih]

theorem cellAt_cellsFrom {α : Type} (vs : List α) (base i : Nat) :
    cellAt (cellsFrom base vs) i = if base ≤ i then vs[i - base]? else none := by
  induction vs generalizing base with
  | nil => simp [cellsFrom, cellAt]
  | cons v vs ih =>
    simp only [cellsFrom, cellAt, ih]
    rcases Nat.lt_trichotomy i base with h | h | h
    · simp [Nat.ne_of_gt h, Nat.not_le.2 h, Nat.not_le.2 (Nat.lt_succ_of_lt h)]
    · subst h; simp
    · obtain ⟨d, rfl⟩ := Nat.exists_eq_add_of_lt h
      have : base + d + 1 - base = d + 1 := by omega
      have h2 : base + d + 1 - (base + 1) = d := by omega
      simp [Nat.ne_of_lt h, this, h2, Nat.le_of_lt h]

theorem mem_cellsFrom {α : Type} {vs : List α} {base : Nat} {c : Nat × α} (h : c ∈ cellsFrom base vs) :
    base ≤ c.1 ∧ c.1 < base + vs.length := by
  induction vs generalizing base with
  | nil => simp [cellsFrom] at h
  | cons v vs ih =>
    simp only [cellsFrom, List.mem_cons] at h
    rcases h with rfl | h
    · simp
    · have := ih h
      simp only [List.length_cons]
      omega

/-- A cell written, or the cell as it was. -/
theorem cellAt_putCells {α : Type} (l : List (Nat × α)) (base : Nat) (vs : List α) (i : Nat) :
    cellAt (putCells l base vs) i =
      if base ≤ i ∧ i < base + vs.length then vs[i - base]? else cellAt l i := by
  unfold putCells
  rw [cellAt_append, cellAt_append, cellAt_cellsFrom]
  by_cases h1 : i < base
  · have hn : ¬ base ≤ i := Nat.not_le.2 h1
    rw [cellAt_filter l _ i (by intro v; simp [h1])]
    rw [cellAt_none (l := l.filter _) (i := i)]
    · simp [hn]
    · intro c hc
      simp only [List.mem_filter, decide_eq_true_eq] at hc
      omega
  · rw [cellAt_none (l := l.filter (fun c => decide (c.1 < base))) (i := i)]
    · by_cases h2 : i < base + vs.length
      · have hb : base ≤ i := Nat.not_lt.1 h1
        have hv : i - base < vs.length := by omega
        simp [hb, h2, List.getElem?_eq_getElem hv]
      · have hb : base ≤ i := Nat.not_lt.1 h1
        have hv : vs[i - base]? = none := by simp; omega
        rw [cellAt_filter l _ i (by intro v; simp; omega)]
        simp [hb, h2, hv]
    · intro c hc
      simp only [List.mem_filter, decide_eq_true_eq] at hc
      omega

/-! ### Strictly rising addresses -/

theorem risingFrom_some {α : Type} {l : List (Nat × α)} {b : Nat} :
    risingFrom (some b) l = true ↔ (∀ c ∈ l, b < c.1) ∧ risingFrom none l = true := by
  induction l generalizing b with
  | nil => simp [risingFrom]
  | cons c l ih =>
    obtain ⟨k, v⟩ := c
    simp only [risingFrom, Bool.and_eq_true, decide_eq_true_eq, List.mem_cons, forall_eq_or_imp, ih]
    constructor
    · rintro ⟨h, h1, h2⟩
      exact ⟨⟨h, fun c hc => Nat.lt_trans h (h1 c hc)⟩, h1, h2⟩
    · rintro ⟨⟨h, _⟩, h1, h2⟩
      exact ⟨h, h1, h2⟩

theorem risingFrom_none_cons {α : Type} {l : List (Nat × α)} {k : Nat} {v : α} :
    risingFrom none ((k, v) :: l) = true ↔ (∀ c ∈ l, k < c.1) ∧ risingFrom none l = true := by
  simp only [risingFrom]
  exact risingFrom_some

theorem rising_append {α : Type} {l m : List (Nat × α)} (hl : risingFrom none l = true)
    (hm : risingFrom none m = true) (h : ∀ a ∈ l, ∀ b ∈ m, a.1 < b.1) : risingFrom none (l ++ m) = true := by
  induction l with
  | nil => simpa using hm
  | cons c l ih =>
    obtain ⟨k, v⟩ := c
    rw [List.cons_append, risingFrom_none_cons]
    rw [risingFrom_none_cons] at hl
    refine ⟨?_, ih hl.2 (fun a ha b hb => h a (by simp [ha]) b hb)⟩
    intro c hc
    rcases List.mem_append.1 hc with hc | hc
    · exact hl.1 c hc
    · exact h (k, v) (by simp) c hc

theorem rising_filter {α : Type} {l : List (Nat × α)} (p : Nat × α → Bool) (h : risingFrom none l = true) :
    risingFrom none (l.filter p) = true := by
  induction l with
  | nil => simpa using h
  | cons c l ih =>
    obtain ⟨k, v⟩ := c
    rw [risingFrom_none_cons] at h
    by_cases hp : p (k, v) = true
    · simp only [List.filter_cons, hp, if_true]
      rw [risingFrom_none_cons]
      exact ⟨fun c hc => h.1 c (List.mem_of_mem_filter hc), ih h.2⟩
    · simp only [List.filter_cons, hp]
      exact ih h.2

theorem rising_cellsFrom {α : Type} (vs : List α) (base : Nat) : risingFrom none (cellsFrom base vs) = true := by
  induction vs generalizing base with
  | nil => rfl
  | cons v vs ih =>
    simp only [cellsFrom]
    rw [risingFrom_none_cons]
    exact ⟨fun c hc => by have := mem_cellsFrom hc; omega, ih (base + 1)⟩

/-- Writing cells keeps the canonical form. -/
theorem rising_putCells {α : Type} {l : List (Nat × α)} (base : Nat) (vs : List α)
    (h : risingFrom none l = true) : risingFrom none (putCells l base vs) = true := by
  unfold putCells
  apply rising_append
  · apply rising_append
    · exact rising_filter _ h
    · exact rising_cellsFrom vs base
    · intro a ha b hb
      have hb := mem_cellsFrom hb
      simp only [List.mem_filter, decide_eq_true_eq] at ha
      omega
  · exact rising_filter _ h
  · intro a ha b hb
    simp only [List.mem_filter, decide_eq_true_eq] at hb
    rcases List.mem_append.1 ha with ha | ha
    · simp only [List.mem_filter, decide_eq_true_eq] at ha
      omega
    · have ha := mem_cellsFrom ha
      omega

/-- A cell of the result is a cell written or a cell that was there. -/
theorem mem_putCells {α : Type} {l : List (Nat × α)} {base : Nat} {vs : List α} {c : Nat × α}
    (h : c ∈ putCells l base vs) : (base ≤ c.1 ∧ c.1 < base + vs.length) ∨ c ∈ l := by
  unfold putCells at h
  rcases List.mem_append.1 h with h | h
  · rcases List.mem_append.1 h with h | h
    · exact .inr (List.mem_of_mem_filter h)
    · exact .inl (mem_cellsFrom h)
  · exact .inr (List.mem_of_mem_filter h)

/-! ### Runs of cells -/

theorem cellAt_dropWhile {α : Type} {l : List (Nat × α)} {b i : Nat} (h : b ≤ i) :
    cellAt (l.dropWhile (fun c => decide (c.1 < b))) i = cellAt l i := by
  induction l with
  | nil => rfl
  | cons c l ih =>
    obtain ⟨k, v⟩ := c
    by_cases hk : k < b
    · have : k ≠ i := by omega
      simp [hk, ih, cellAt, this]
    · simp [hk]

theorem rising_dropWhile {α : Type} {l : List (Nat × α)} (p : Nat × α → Bool) (h : risingFrom none l = true) :
    risingFrom none (l.dropWhile p) = true := by
  induction l with
  | nil => simpa using h
  | cons c l ih =>
    obtain ⟨k, v⟩ := c
    by_cases hp : p (k, v) = true
    · simp only [List.dropWhile_cons, hp, if_true]
      exact ih (risingFrom_none_cons.1 h).2
    · simp only [List.dropWhile_cons, hp]
      exact h

theorem dropWhile_ge {α : Type} {l : List (Nat × α)} {b : Nat} (h : risingFrom none l = true) :
    ∀ c ∈ l.dropWhile (fun c => decide (c.1 < b)), b ≤ c.1 := by
  induction l with
  | nil => simp
  | cons c l ih =>
    obtain ⟨k, v⟩ := c
    have hl := risingFrom_none_cons.1 h
    by_cases hk : k < b
    · simp only [List.dropWhile_cons, hk, decide_true, if_true]
      exact ih hl.2
    · simp only [List.dropWhile_cons, hk, decide_false]
      intro c hc
      rcases List.mem_cons.1 hc with rfl | hc
      · exact Nat.not_lt.1 hk
      · exact Nat.le_of_lt (Nat.lt_of_le_of_lt (Nat.not_lt.1 hk) (hl.1 c hc))

/-- On a canonical list a run is the values read one by one. -/
theorem cellRun_eq {α : Type} (n : Nat) {l : List (Nat × α)} (base : Nat) (h : risingFrom none l = true) :
    cellRun l base n = (List.range n).map (fun k => cellAt l (base + k)) := by
  induction n generalizing l base with
  | zero => simp [cellRun]
  | succ n ih =>
    rw [List.range_succ_eq_map, List.map_cons, List.map_map]
    have hshift : ∀ m : List (Nat × α), risingFrom none m = true →
        (∀ i, base + 1 ≤ i → cellAt m i = cellAt l i) →
        cellRun m (base + 1) n = (List.range n).map ((fun k => cellAt l (base + k)) ∘ Nat.succ) := by
      intro m hm hi
      rw [ih (base + 1) hm]
      apply List.map_congr_left
      intro k _
      simp only [Function.comp]
      rw [hi _ (by omega)]
      congr 1
      omega
    simp only [cellRun]
    have hd := rising_dropWhile (fun c : Nat × α => decide (c.1 < base)) h
    have hge := dropWhile_ge (b := base) h
    have hat : ∀ i, base ≤ i →
        cellAt (l.dropWhile (fun c => decide (c.1 < base))) i = cellAt l i := fun i hi => cellAt_dropWhile hi
    generalize l.dropWhile (fun c => decide (c.1 < base)) = m at hd hge hat
    match m with
    | [] =>
      simp only [Nat.add_zero]
      rw [← hat base (Nat.le_refl _)]
      simp only [cellAt]
      rw [hshift [] rfl (fun i hi => hat i (by omega))]
    | (k, v) :: rest =>
      have hr := risingFrom_none_cons.1 hd
      by_cases hk : k = base
      · subst hk
        have h0 : cellAt l (k + 0) = some v := by rw [Nat.add_zero, ← hat k (Nat.le_refl _)]; simp [cellAt]
        simp only [if_true, h0]
        rw [hshift rest hr.2 (fun i hi => by
          rw [← hat i (by omega)]
          have : k ≠ i := by omega
          simp [cellAt, this])]
      · have h0 : cellAt l (base + 0) = none := by
          rw [Nat.add_zero, ← hat base (Nat.le_refl _)]
          apply cellAt_none
          intro c hc
          rcases List.mem_cons.1 hc with rfl | hc
          · exact hk
          · have := hr.1 c hc
            have := hge (k, v) (by simp)
            simp only at this
            omega
        simp only [hk, if_false, h0]
        rw [hshift _ hd (fun i hi => hat i (by omega))]

/-! ### Spaces -/

/-- Reading after writing (20_memory R63). -/
theorem Mem.read_put {w : Nat} (m : Mem w) (id base i : Nat) (vs : List (BitVec w)) :
    (m.put base vs).read id i =
      if base ≤ i ∧ i < base + vs.length then vs.getD (i - base) 0 else m.read id i := by
  unfold Mem.read Mem.put Mem.draw
  simp only [cellAt_putCells]
  split
  · rename_i h
    have hv : i - base < vs.length := by omega
    simp [List.getElem?_eq_getElem hv]
  · rfl

theorem Mem.read_put_in {w : Nat} (m : Mem w) (id base i : Nat) (vs : List (BitVec w))
    (h1 : base ≤ i) (h2 : i < base + vs.length) : (m.put base vs).read id i = vs.getD (i - base) 0 := by
  rw [Mem.read_put, if_pos ⟨h1, h2⟩]

theorem Mem.read_put_out {w : Nat} (m : Mem w) (id base i : Nat) (vs : List (BitVec w))
    (h : i < base ∨ base + vs.length ≤ i) : (m.put base vs).read id i = m.read id i := by
  rw [Mem.read_put, if_neg (by omega)]

theorem Mem.read_write {w : Nat} (m : Mem w) (id j i : Nat) (v : BitVec w) :
    (m.write j v).read id i = if i = j then v else m.read id i := by
  unfold Mem.write
  rw [Mem.read_put]
  by_cases h : i = j
  · subst h; simp
  · have : ¬ (j ≤ i ∧ i < j + [v].length) := by simp only [List.length_singleton]; omega
    rw [if_neg this, if_neg h]

theorem Mem.wf_put {w : Nat} {m : Mem w} (base : Nat) (vs : List (BitVec w)) (h : m.wf = true) :
    (m.put base vs).wf = true := rising_putCells base vs h

theorem Mem.wf_write {w : Nat} {m : Mem w} (i : Nat) (v : BitVec w) (h : m.wf = true) :
    (m.write i v).wf = true := Mem.wf_put i [v] h

@[simp] theorem Mem.wf_redraw {w : Nat} (m : Mem w) : m.redraw.wf = true := rfl

@[simp] theorem Mem.wf_unspecified (w gen : Nat) : (Mem.unspecified w gen).wf = true := rfl

/-- On a space in canonical form a run is the elements read one by one. -/
theorem Mem.run_eq {w : Nat} {m : Mem w} (id base n : Nat) (h : m.wf = true) :
    m.run id base n = (List.range n).map (fun k => m.read id (base + k)) := by
  unfold Mem.run
  rw [cellRun_eq n base h]
  apply List.ext_getElem
  · simp
  · intro i h1 h2
    simp [Mem.read]

@[simp] theorem Mem.length_run {w : Nat} {m : Mem w} (id base n : Nat) (h : m.wf = true) :
    (m.run id base n).length = n := by
  rw [Mem.run_eq id base n h]; simp

/-! ### Slots -/

theorem State.slot_setSlot (s : State) (h k : Nat) (v : Slot) :
    (s.setSlot h v).slot k = if k = h then v else s.slot k := by
  unfold State.slot State.setSlot
  simp only [cellAt_putCells]
  by_cases hk : k = h
  · subst hk; simp
  · have : ¬ (h ≤ k ∧ k < h + [v].length) := by simp only [List.length_singleton]; omega
    rw [if_neg this, if_neg hk]

theorem State.slot_setSlots (s : State) (base k : Nat) (vs : List Slot) :
    (s.setSlots base vs).slot k =
      if base ≤ k ∧ k < base + vs.length then vs.getD (k - base) Slot.reset else s.slot k := by
  unfold State.slot State.setSlots
  simp only [cellAt_putCells]
  split
  · rename_i h
    have hv : k - base < vs.length := by omega
    simp [List.getElem?_eq_getElem hv]
  · rfl

theorem cellAt_map {α β : Type} (f : α → β) (l : List (Nat × α)) (i : Nat) :
    cellAt (l.map (fun c => (c.1, f c.2))) i = (cellAt l i).map f := by
  induction l with
  | nil => rfl
  | cons c l ih =>
    obtain ⟨k, v⟩ := c
    by_cases hk : k = i <;> simp [cellAt, hk, ih]

theorem rising_map {α β : Type} (f : α → β) {l : List (Nat × α)} (h : risingFrom none l = true) :
    risingFrom none (l.map (fun c => (c.1, f c.2))) = true := by
  induction l with
  | nil => rfl
  | cons c l ih =>
    obtain ⟨k, v⟩ := c
    rw [List.map_cons, risingFrom_none_cons]
    rw [risingFrom_none_cons] at h
    refine ⟨?_, ih h.2⟩
    intro c hc
    obtain ⟨d, hd, rfl⟩ := List.mem_map.1 hc
    exact h.1 d hd

/-- After every slot's valid bits are cleared each slot reads as before but for them; a slot at its reset
value is invalid already. -/
theorem slot_invalidSlots (l : List (Nat × Slot)) (h : Nat) :
    (cellAt (invalidSlots l) h).getD Slot.reset = ((cellAt l h).getD Slot.reset).invalid := by
  unfold invalidSlots
  rw [cellAt_map]
  cases cellAt l h <;> rfl

theorem rising_invalidSlots {l : List (Nat × Slot)} (h : risingFrom none l = true) :
    risingFrom none (invalidSlots l) = true := rising_map Slot.invalid h

end Sys2Proof.Machine
end

