-- ==== Sys2Proof/Laws/State.lean ====
section
/-! SUPPORT. One lemma per field per update of the state, so that no later proof unfolds a record update. -/

namespace Sys2Proof.Machine

/-! `State.setSlot` -/

@[simp] theorem State.setSlot_caps (s : State) (h : Nat) (v : Slot) : (s.setSlot h v).caps = s.caps := rfl
@[simp] theorem State.setSlot_fns (s : State) (h : Nat) (v : Slot) : (s.setSlot h v).fns = s.fns := rfl
@[simp] theorem State.setSlot_regs (s : State) (h : Nat) (v : Slot) : (s.setSlot h v).regs = s.regs := rfl
@[simp] theorem State.setSlot_flags (s : State) (h : Nat) (v : Slot) : (s.setSlot h v).flags = s.flags := rfl
@[simp] theorem State.setSlot_bufs (s : State) (h : Nat) (v : Slot) : (s.setSlot h v).bufs = s.bufs := rfl
@[simp] theorem State.setSlot_ccBits (s : State) (h : Nat) (v : Slot) :
    (s.setSlot h v).ccBits = s.ccBits := rfl
@[simp] theorem State.setSlot_writer (s : State) (h : Nat) (v : Slot) :
    (s.setSlot h v).writer = s.writer := rfl
@[simp] theorem State.setSlot_slots (s : State) (h : Nat) (v : Slot) :
    (s.setSlot h v).slots = putCells s.slots h [v] := rfl
@[simp] theorem State.setSlot_spaces (s : State) (h : Nat) (v : Slot) :
    (s.setSlot h v).spaces = s.spaces := rfl
@[simp] theorem State.setSlot_pc (s : State) (h : Nat) (v : Slot) : (s.setSlot h v).pc = s.pc := rfl
@[simp] theorem State.setSlot_env (s : State) (h : Nat) (v : Slot) : (s.setSlot h v).env = s.env := rfl

/-! `State.setSlots` -/

@[simp] theorem State.setSlots_caps (s : State) (base : Nat) (vs : List Slot) :
    (s.setSlots base vs).caps = s.caps := rfl
@[simp] theorem State.setSlots_fns (s : State) (base : Nat) (vs : List Slot) :
    (s.setSlots base vs).fns = s.fns := rfl
@[simp] theorem State.setSlots_regs (s : State) (base : Nat) (vs : List Slot) :
    (s.setSlots base vs).regs = s.regs := rfl
@[simp] theorem State.setSlots_flags (s : State) (base : Nat) (vs : List Slot) :
    (s.setSlots base vs).flags = s.flags := rfl
@[simp] theorem State.setSlots_bufs (s : State) (base : Nat) (vs : List Slot) :
    (s.setSlots base vs).bufs = s.bufs := rfl
@[simp] theorem State.setSlots_ccBits (s : State) (base : Nat) (vs : List Slot) :
    (s.setSlots base vs).ccBits = s.ccBits := rfl
@[simp] theorem State.setSlots_writer (s : State) (base : Nat) (vs : List Slot) :
    (s.setSlots base vs).writer = s.writer := rfl
@[simp] theorem State.setSlots_slots (s : State) (base : Nat) (vs : List Slot) :
    (s.setSlots base vs).slots = putCells s.slots base vs := rfl
@[simp] theorem State.setSlots_spaces (s : State) (base : Nat) (vs : List Slot) :
    (s.setSlots base vs).spaces = s.spaces := rfl
@[simp] theorem State.setSlots_pc (s : State) (base : Nat) (vs : List Slot) :
    (s.setSlots base vs).pc = s.pc := rfl
@[simp] theorem State.setSlots_env (s : State) (base : Nat) (vs : List Slot) :
    (s.setSlots base vs).env = s.env := rfl

/-! `State.setResultCost` -/

@[simp] theorem State.setResultCost_caps (s : State) (c : Cost) : (s.setResultCost c).caps = s.caps := rfl
@[simp] theorem State.setResultCost_fns (s : State) (c : Cost) : (s.setResultCost c).fns = s.fns := rfl
@[simp] theorem State.setResultCost_regs (s : State) (c : Cost) :
    (s.setResultCost c).regs = { s.regs with result0 := c.extractLsb' 0 32, result1 := c.extractLsb' 32 32 } := rfl
@[simp] theorem State.setResultCost_flags (s : State) (c : Cost) : (s.setResultCost c).flags = s.flags := rfl
@[simp] theorem State.setResultCost_bufs (s : State) (c : Cost) : (s.setResultCost c).bufs = s.bufs := rfl
@[simp] theorem State.setResultCost_ccBits (s : State) (c : Cost) :
    (s.setResultCost c).ccBits = s.ccBits := rfl
@[simp] theorem State.setResultCost_writer (s : State) (c : Cost) :
    (s.setResultCost c).writer = s.writer := rfl
@[simp] theorem State.setResultCost_slots (s : State) (c : Cost) : (s.setResultCost c).slots = s.slots := rfl
@[simp] theorem State.setResultCost_spaces (s : State) (c : Cost) :
    (s.setResultCost c).spaces = s.spaces := rfl
@[simp] theorem State.setResultCost_pc (s : State) (c : Cost) : (s.setResultCost c).pc = s.pc := rfl
@[simp] theorem State.setResultCost_env (s : State) (c : Cost) : (s.setResultCost c).env = s.env := rfl

/-! `State.setResult` -/

@[simp] theorem State.setResult_caps (s : State) (v : Word) : (s.setResult v).caps = s.caps := rfl
@[simp] theorem State.setResult_fns (s : State) (v : Word) : (s.setResult v).fns = s.fns := rfl
@[simp] theorem State.setResult_regs (s : State) (v : Word) :
    (s.setResult v).regs = { s.regs with result0 := v, result1 := 0 } := rfl
@[simp] theorem State.setResult_flags (s : State) (v : Word) : (s.setResult v).flags = s.flags := rfl
@[simp] theorem State.setResult_bufs (s : State) (v : Word) : (s.setResult v).bufs = s.bufs := rfl
@[simp] theorem State.setResult_ccBits (s : State) (v : Word) : (s.setResult v).ccBits = s.ccBits := rfl
@[simp] theorem State.setResult_writer (s : State) (v : Word) : (s.setResult v).writer = s.writer := rfl
@[simp] theorem State.setResult_slots (s : State) (v : Word) : (s.setResult v).slots = s.slots := rfl
@[simp] theorem State.setResult_spaces (s : State) (v : Word) : (s.setResult v).spaces = s.spaces := rfl
@[simp] theorem State.setResult_pc (s : State) (v : Word) : (s.setResult v).pc = s.pc := rfl
@[simp] theorem State.setResult_env (s : State) (v : Word) : (s.setResult v).env = s.env := rfl

/-! `State.latchAbort` -/

@[simp] theorem State.latchAbort_caps (s : State) : (s.latchAbort).caps = s.caps := rfl
@[simp] theorem State.latchAbort_fns (s : State) : (s.latchAbort).fns = s.fns := rfl
@[simp] theorem State.latchAbort_regs (s : State) : (s.latchAbort).regs = s.regs := rfl
@[simp] theorem State.latchAbort_flags (s : State) :
    (s.latchAbort).flags = { s.flags with abortPending := s.flags.abortPending || s.env.abortLine } := rfl
@[simp] theorem State.latchAbort_bufs (s : State) : (s.latchAbort).bufs = s.bufs := rfl
@[simp] theorem State.latchAbort_ccBits (s : State) : (s.latchAbort).ccBits = s.ccBits := rfl
@[simp] theorem State.latchAbort_writer (s : State) : (s.latchAbort).writer = s.writer := rfl
@[simp] theorem State.latchAbort_slots (s : State) : (s.latchAbort).slots = s.slots := rfl
@[simp] theorem State.latchAbort_spaces (s : State) : (s.latchAbort).spaces = s.spaces := rfl
@[simp] theorem State.latchAbort_pc (s : State) : (s.latchAbort).pc = s.pc := rfl
@[simp] theorem State.latchAbort_env (s : State) : (s.latchAbort).env = s.env := rfl

/-! `State.endCommand` -/

@[simp] theorem State.endCommand_caps (s : State) : (s.endCommand).caps = s.caps := rfl
@[simp] theorem State.endCommand_fns (s : State) : (s.endCommand).fns = s.fns := rfl
@[simp] theorem State.endCommand_regs (s : State) :
    (s.endCommand).regs = { s.regs with cmdCount := s.regs.cmdCount + 1 } := rfl
@[simp] theorem State.endCommand_flags (s : State) :
    (s.endCommand).flags =
      { s.flags with busy := false, abortPending := s.flags.abortPending || s.env.abortLine } := rfl
@[simp] theorem State.endCommand_bufs (s : State) : (s.endCommand).bufs = s.bufs := rfl
@[simp] theorem State.endCommand_ccBits (s : State) : (s.endCommand).ccBits = s.ccBits := rfl
@[simp] theorem State.endCommand_writer (s : State) : (s.endCommand).writer = s.writer := rfl
@[simp] theorem State.endCommand_slots (s : State) : (s.endCommand).slots = s.slots := rfl
@[simp] theorem State.endCommand_spaces (s : State) : (s.endCommand).spaces = s.spaces := rfl
@[simp] theorem State.endCommand_pc (s : State) : (s.endCommand).pc = s.pc + 1 := rfl
@[simp] theorem State.endCommand_env (s : State) :
    (s.endCommand).env = { s.env with abortSampled := false, abortLate := false, irqPulse := s.doneIE } := rfl

/-! `State.endOk` -/

@[simp] theorem State.endOk_caps (s : State) : (s.endOk).caps = s.caps := rfl
@[simp] theorem State.endOk_fns (s : State) : (s.endOk).fns = s.fns := rfl
@[simp] theorem State.endOk_regs (s : State) :
    (s.endOk).regs = { s.regs with errInfo := 0, cmdCount := s.regs.cmdCount + 1 } := rfl
@[simp] theorem State.endOk_flags (s : State) :
    (s.endOk).flags =
      { s.flags with busy := false, done := true, errCode := 0, abortPending := s.flags.abortPending || s.env.abortLine } := rfl
@[simp] theorem State.endOk_bufs (s : State) : (s.endOk).bufs = s.bufs := rfl
@[simp] theorem State.endOk_ccBits (s : State) : (s.endOk).ccBits = s.ccBits := rfl
@[simp] theorem State.endOk_writer (s : State) : (s.endOk).writer = s.writer := rfl
@[simp] theorem State.endOk_slots (s : State) : (s.endOk).slots = s.slots := rfl
@[simp] theorem State.endOk_spaces (s : State) : (s.endOk).spaces = s.spaces := rfl
@[simp] theorem State.endOk_pc (s : State) : (s.endOk).pc = s.pc + 1 := rfl
@[simp] theorem State.endOk_env (s : State) :
    (s.endOk).env = { s.env with abortSampled := false, abortLate := false, irqPulse := s.doneIE } := rfl

/-! `State.discardAttempt` -/

@[simp] theorem State.discardAttempt_caps (s : State) : (s.discardAttempt).caps = s.caps := rfl
@[simp] theorem State.discardAttempt_fns (s : State) : (s.discardAttempt).fns = s.fns := rfl
@[simp] theorem State.discardAttempt_regs (s : State) : (s.discardAttempt).regs = s.regs := rfl
@[simp] theorem State.discardAttempt_flags (s : State) :
    (s.discardAttempt).flags =
      { s.flags with hc1Valid := false, curValid := false, scrValid := false, curHasCache := false, bwOpen := false } := rfl
@[simp] theorem State.discardAttempt_bufs (s : State) :
    (s.discardAttempt).bufs = { s.bufs with curLen := 0, scrLen := 0, curBits := 0, scrBits := 0 } := rfl
@[simp] theorem State.discardAttempt_ccBits (s : State) : (s.discardAttempt).ccBits = 0 := rfl
@[simp] theorem State.discardAttempt_writer (s : State) : (s.discardAttempt).writer = s.writer := rfl
@[simp] theorem State.discardAttempt_slots (s : State) :
    (s.discardAttempt).slots = invalidSlots s.slots := rfl
@[simp] theorem State.discardAttempt_spaces (s : State) : (s.discardAttempt).spaces = s.spaces := rfl
@[simp] theorem State.discardAttempt_pc (s : State) : (s.discardAttempt).pc = s.pc := rfl
@[simp] theorem State.discardAttempt_env (s : State) : (s.discardAttempt).env = s.env := rfl

/-! `State.raise` -/

@[simp] theorem State.raise_caps (s : State) (op : BitVec 8) (o : ErrorOutcome) (info : Nat) :
    (s.raise op o info).caps = s.caps := rfl
@[simp] theorem State.raise_fns (s : State) (op : BitVec 8) (o : ErrorOutcome) (info : Nat) :
    (s.raise op o info).fns = s.fns := rfl
@[simp] theorem State.raise_regs (s : State) (op : BitVec 8) (o : ErrorOutcome) (info : Nat) :
    (s.raise op o info).regs = { s.regs with errInfo := BitVec.ofNat 32 info, cmdCount := s.regs.cmdCount + 1 } := rfl
@[simp] theorem State.raise_flags (s : State) (op : BitVec 8) (o : ErrorOutcome) (info : Nat) :
    (s.raise op o info).flags =
      { s.flags with
        busy := false, done := false, error := true, errCode := o.code, errOp := op
        abortPending := (if o = .aborted then s.env.abortLate else s.flags.abortPending) || s.env.abortLine
        hc0Valid := if op = Opcode.hcBuild.byte then false else s.flags.hc0Valid
        hc1Valid := false, curValid := false, scrValid := false, curHasCache := false, bwOpen := false } := rfl
@[simp] theorem State.raise_bufs (s : State) (op : BitVec 8) (o : ErrorOutcome) (info : Nat) :
    (s.raise op o info).bufs = { s.bufs with curLen := 0, scrLen := 0, curBits := 0, scrBits := 0 } := rfl
@[simp] theorem State.raise_ccBits (s : State) (op : BitVec 8) (o : ErrorOutcome) (info : Nat) :
    (s.raise op o info).ccBits = 0 := rfl
@[simp] theorem State.raise_writer (s : State) (op : BitVec 8) (o : ErrorOutcome) (info : Nat) :
    (s.raise op o info).writer = s.writer := rfl
@[simp] theorem State.raise_slots (s : State) (op : BitVec 8) (o : ErrorOutcome) (info : Nat) :
    (s.raise op o info).slots = invalidSlots s.slots := rfl
@[simp] theorem State.raise_spaces (s : State) (op : BitVec 8) (o : ErrorOutcome) (info : Nat) :
    (s.raise op o info).spaces = s.spaces := rfl
@[simp] theorem State.raise_pc (s : State) (op : BitVec 8) (o : ErrorOutcome) (info : Nat) :
    (s.raise op o info).pc = s.pc + 1 := rfl
@[simp] theorem State.raise_env (s : State) (op : BitVec 8) (o : ErrorOutcome) (info : Nat) :
    (s.raise op o info).env = { s.env with abortSampled := false, abortLate := false, irqPulse := s.doneIE } := rfl

/-! `State.beginAttempt` -/

@[simp] theorem State.beginAttempt_caps (s : State) : (s.beginAttempt).caps = s.caps := rfl
@[simp] theorem State.beginAttempt_fns (s : State) : (s.beginAttempt).fns = s.fns := rfl
@[simp] theorem State.beginAttempt_regs (s : State) : (s.beginAttempt).regs = s.regs := rfl
@[simp] theorem State.beginAttempt_flags (s : State) :
    (s.beginAttempt).flags =
      { s.flags with
        hc1Valid := false, curValid := false, scrValid := false, curHasCache := false, bwOpen := false
        error := false, errOp := 0, abortPending := s.env.abortLate, bwErr := false, ccHit := false
        combineOk := false, dpImproved := false } := rfl
@[simp] theorem State.beginAttempt_bufs (s : State) :
    (s.beginAttempt).bufs = { s.bufs with curLen := 0, scrLen := 0, curBits := 0, scrBits := 0 } := rfl
@[simp] theorem State.beginAttempt_ccBits (s : State) : (s.beginAttempt).ccBits = 0 := rfl
@[simp] theorem State.beginAttempt_writer (s : State) : (s.beginAttempt).writer = Writer.reset := rfl
@[simp] theorem State.beginAttempt_slots (s : State) : (s.beginAttempt).slots = invalidSlots s.slots := rfl
@[simp] theorem State.beginAttempt_spaces (s : State) : (s.beginAttempt).spaces = s.spaces := rfl
@[simp] theorem State.beginAttempt_pc (s : State) : (s.beginAttempt).pc = s.pc := rfl
@[simp] theorem State.beginAttempt_env (s : State) : (s.beginAttempt).env = s.env := rfl

/-! `State.softReset` -/

@[simp] theorem State.softReset_caps (s : State) : (s.softReset).caps = s.caps := rfl
@[simp] theorem State.softReset_fns (s : State) : (s.softReset).fns = s.fns := rfl
@[simp] theorem State.softReset_regs (s : State) : (s.softReset).regs = Regs.reset := rfl
@[simp] theorem State.softReset_flags (s : State) :
    (s.softReset).flags =
      { Flags.reset with done := true, abortPending := s.env.abortLate || s.env.abortLine } := rfl
@[simp] theorem State.softReset_bufs (s : State) : (s.softReset).bufs = Buffers.reset := rfl
@[simp] theorem State.softReset_ccBits (s : State) : (s.softReset).ccBits = 0 := rfl
@[simp] theorem State.softReset_writer (s : State) : (s.softReset).writer = Writer.reset := rfl
@[simp] theorem State.softReset_slots (s : State) : (s.softReset).slots = [] := rfl
@[simp] theorem State.softReset_spaces (s : State) : (s.softReset).spaces = s.spaces := rfl
@[simp] theorem State.softReset_pc (s : State) : (s.softReset).pc = s.pc + 1 := rfl
@[simp] theorem State.softReset_env (s : State) :
    (s.softReset).env = { s.env with abortSampled := false, abortLate := false, irqPulse := false } := rfl

/-! `State.hardReset` -/

@[simp] theorem State.hardReset_caps (s : State) : (s.hardReset).caps = s.caps := rfl
@[simp] theorem State.hardReset_fns (s : State) : (s.hardReset).fns = s.fns := rfl
@[simp] theorem State.hardReset_regs (s : State) : (s.hardReset).regs = Regs.reset := rfl
@[simp] theorem State.hardReset_flags (s : State) : (s.hardReset).flags = Flags.reset := rfl
@[simp] theorem State.hardReset_bufs (s : State) : (s.hardReset).bufs = Buffers.reset := rfl
@[simp] theorem State.hardReset_ccBits (s : State) : (s.hardReset).ccBits = 0 := rfl
@[simp] theorem State.hardReset_writer (s : State) : (s.hardReset).writer = Writer.reset := rfl
@[simp] theorem State.hardReset_slots (s : State) : (s.hardReset).slots = [] := rfl
@[simp] theorem State.hardReset_spaces (s : State) : (s.hardReset).spaces = s.spaces.redraw := rfl
@[simp] theorem State.hardReset_pc (s : State) : (s.hardReset).pc = 0 := rfl
@[simp] theorem State.hardReset_env (s : State) :
    (s.hardReset).env =
      { Env.reset with host := s.env.host, abortLine := s.env.abortLine, freeCount := s.env.freeCount } := rfl

/-! `State.startCommand` -/

@[simp] theorem State.startCommand_caps (s : State) (w : Word) : (s.startCommand w).caps = s.caps := rfl
@[simp] theorem State.startCommand_fns (s : State) (w : Word) : (s.startCommand w).fns = s.fns := rfl
@[simp] theorem State.startCommand_regs (s : State) (w : Word) :
    (s.startCommand w).regs = { s.regs with cmd := w } := rfl
@[simp] theorem State.startCommand_flags (s : State) (w : Word) :
    (s.startCommand w).flags = { s.flags with busy := true, done := false, errCode := 0 } := rfl
@[simp] theorem State.startCommand_bufs (s : State) (w : Word) : (s.startCommand w).bufs = s.bufs := rfl
@[simp] theorem State.startCommand_ccBits (s : State) (w : Word) : (s.startCommand w).ccBits = s.ccBits := rfl
@[simp] theorem State.startCommand_writer (s : State) (w : Word) : (s.startCommand w).writer = s.writer := rfl
@[simp] theorem State.startCommand_slots (s : State) (w : Word) : (s.startCommand w).slots = s.slots := rfl
@[simp] theorem State.startCommand_spaces (s : State) (w : Word) : (s.startCommand w).spaces = s.spaces := rfl
@[simp] theorem State.startCommand_pc (s : State) (w : Word) : (s.startCommand w).pc = s.pc := rfl
@[simp] theorem State.startCommand_env (s : State) (w : Word) :
    (s.startCommand w).env =
      { s.env with
        abortSampled := s.flags.abortPending || s.env.abortLine, abortLate := s.env.abortLine } := rfl

/-! `State.imageChanged` -/

@[simp] theorem State.imageChanged_caps (s : State) : (s.imageChanged).caps = s.caps := rfl
@[simp] theorem State.imageChanged_fns (s : State) : (s.imageChanged).fns = s.fns := rfl
@[simp] theorem State.imageChanged_regs (s : State) : (s.imageChanged).regs = s.regs := rfl
@[simp] theorem State.imageChanged_flags (s : State) :
    (s.imageChanged).flags =
      { s.flags with hc0Valid := false, hc1Valid := false, curValid := false, scrValid := false, curHasCache := false } := rfl
@[simp] theorem State.imageChanged_bufs (s : State) : (s.imageChanged).bufs = s.bufs := rfl
@[simp] theorem State.imageChanged_ccBits (s : State) : (s.imageChanged).ccBits = s.ccBits := rfl
@[simp] theorem State.imageChanged_writer (s : State) : (s.imageChanged).writer = s.writer := rfl
@[simp] theorem State.imageChanged_slots (s : State) : (s.imageChanged).slots = invalidSlots s.slots := rfl
@[simp] theorem State.imageChanged_spaces (s : State) : (s.imageChanged).spaces = s.spaces := rfl
@[simp] theorem State.imageChanged_pc (s : State) : (s.imageChanged).pc = s.pc := rfl
@[simp] theorem State.imageChanged_env (s : State) : (s.imageChanged).env = s.env := rfl

/-! `State.answer` -/

@[simp] theorem State.answer_caps (s : State) (v : BitVec 64) : (s.answer v).caps = s.caps := rfl
@[simp] theorem State.answer_fns (s : State) (v : BitVec 64) : (s.answer v).fns = s.fns := rfl
@[simp] theorem State.answer_regs (s : State) (v : BitVec 64) : (s.answer v).regs = s.regs := rfl
@[simp] theorem State.answer_flags (s : State) (v : BitVec 64) : (s.answer v).flags = s.flags := rfl
@[simp] theorem State.answer_bufs (s : State) (v : BitVec 64) : (s.answer v).bufs = s.bufs := rfl
@[simp] theorem State.answer_ccBits (s : State) (v : BitVec 64) : (s.answer v).ccBits = s.ccBits := rfl
@[simp] theorem State.answer_writer (s : State) (v : BitVec 64) : (s.answer v).writer = s.writer := rfl
@[simp] theorem State.answer_slots (s : State) (v : BitVec 64) : (s.answer v).slots = s.slots := rfl
@[simp] theorem State.answer_spaces (s : State) (v : BitVec 64) : (s.answer v).spaces = s.spaces := rfl
@[simp] theorem State.answer_pc (s : State) (v : BitVec 64) : (s.answer v).pc = s.pc := rfl
@[simp] theorem State.answer_env (s : State) (v : BitVec 64) :
    (s.answer v).env = { s.env with readData := v } := rfl

/-! `State.answerFree` -/

@[simp] theorem State.answerFree_caps (s : State) : (s.answerFree).caps = s.caps := rfl
@[simp] theorem State.answerFree_fns (s : State) : (s.answerFree).fns = s.fns := rfl
@[simp] theorem State.answerFree_regs (s : State) : (s.answerFree).regs = s.regs := rfl
@[simp] theorem State.answerFree_flags (s : State) : (s.answerFree).flags = s.flags := rfl
@[simp] theorem State.answerFree_bufs (s : State) : (s.answerFree).bufs = s.bufs := rfl
@[simp] theorem State.answerFree_ccBits (s : State) : (s.answerFree).ccBits = s.ccBits := rfl
@[simp] theorem State.answerFree_writer (s : State) : (s.answerFree).writer = s.writer := rfl
@[simp] theorem State.answerFree_slots (s : State) : (s.answerFree).slots = s.slots := rfl
@[simp] theorem State.answerFree_spaces (s : State) : (s.answerFree).spaces = s.spaces := rfl
@[simp] theorem State.answerFree_pc (s : State) : (s.answerFree).pc = s.pc := rfl
@[simp] theorem State.answerFree_env (s : State) :
    (s.answerFree).env =
      { s.env with readData := Config.freeValue s.env.freeCount, freeCount := s.env.freeCount + 1 } := rfl

/-! `State.popHost` -/

@[simp] theorem State.popHost_caps (s : State) : (s.popHost).caps = s.caps := rfl
@[simp] theorem State.popHost_fns (s : State) : (s.popHost).fns = s.fns := rfl
@[simp] theorem State.popHost_regs (s : State) : (s.popHost).regs = s.regs := rfl
@[simp] theorem State.popHost_flags (s : State) : (s.popHost).flags = s.flags := rfl
@[simp] theorem State.popHost_bufs (s : State) : (s.popHost).bufs = s.bufs := rfl
@[simp] theorem State.popHost_ccBits (s : State) : (s.popHost).ccBits = s.ccBits := rfl
@[simp] theorem State.popHost_writer (s : State) : (s.popHost).writer = s.writer := rfl
@[simp] theorem State.popHost_slots (s : State) : (s.popHost).slots = s.slots := rfl
@[simp] theorem State.popHost_spaces (s : State) : (s.popHost).spaces = s.spaces := rfl
@[simp] theorem State.popHost_pc (s : State) : (s.popHost).pc = s.pc := rfl
@[simp] theorem State.popHost_env (s : State) :
    (s.popHost).env = { s.env with host := s.env.host.tail } := rfl

/-! `State.quiet` -/

@[simp] theorem State.quiet_caps (s : State) : (s.quiet).caps = s.caps := rfl
@[simp] theorem State.quiet_fns (s : State) : (s.quiet).fns = s.fns := rfl
@[simp] theorem State.quiet_regs (s : State) : (s.quiet).regs = s.regs := rfl
@[simp] theorem State.quiet_flags (s : State) :
    (s.quiet).flags = { s.flags with abortPending := s.flags.abortPending || s.env.abortLine } := rfl
@[simp] theorem State.quiet_bufs (s : State) : (s.quiet).bufs = s.bufs := rfl
@[simp] theorem State.quiet_ccBits (s : State) : (s.quiet).ccBits = s.ccBits := rfl
@[simp] theorem State.quiet_writer (s : State) : (s.quiet).writer = s.writer := rfl
@[simp] theorem State.quiet_slots (s : State) : (s.quiet).slots = s.slots := rfl
@[simp] theorem State.quiet_spaces (s : State) : (s.quiet).spaces = s.spaces := rfl
@[simp] theorem State.quiet_pc (s : State) : (s.quiet).pc = s.pc := rfl
@[simp] theorem State.quiet_env (s : State) :
    (s.quiet).env =
      { s.env with irqPulse := false, abortLate := s.env.abortLate || (s.flags.busy && s.env.abortLine) } := rfl

/-! `State.putCache` -/

@[simp] theorem State.putCache_caps (s : State) (b : Nat) (c : CacheSlots) :
    (s.putCache b c).caps = s.caps := rfl
@[simp] theorem State.putCache_fns (s : State) (b : Nat) (c : CacheSlots) :
    (s.putCache b c).fns = s.fns := rfl
@[simp] theorem State.putCache_regs (s : State) (b : Nat) (c : CacheSlots) :
    (s.putCache b c).regs = s.regs := rfl
@[simp] theorem State.putCache_flags (s : State) (b : Nat) (c : CacheSlots) :
    (s.putCache b c).flags = s.flags := rfl
@[simp] theorem State.putCache_bufs (s : State) (b : Nat) (c : CacheSlots) :
    (s.putCache b c).bufs = s.bufs := rfl
@[simp] theorem State.putCache_ccBits (s : State) (b : Nat) (c : CacheSlots) :
    (s.putCache b c).ccBits = BitVec.ofNat 4 b := rfl
@[simp] theorem State.putCache_writer (s : State) (b : Nat) (c : CacheSlots) :
    (s.putCache b c).writer = s.writer := rfl
@[simp] theorem State.putCache_slots (s : State) (b : Nat) (c : CacheSlots) :
    (s.putCache b c).slots = s.slots := rfl
@[simp] theorem State.putCache_spaces (s : State) (b : Nat) (c : CacheSlots) :
    (s.putCache b c).spaces = { s.spaces with cc := s.spaces.cc.put 0 (c.map slotElem) } := rfl
@[simp] theorem State.putCache_pc (s : State) (b : Nat) (c : CacheSlots) : (s.putCache b c).pc = s.pc := rfl
@[simp] theorem State.putCache_env (s : State) (b : Nat) (c : CacheSlots) :
    (s.putCache b c).env = s.env := rfl

/-! `State.swapBuffers` -/

@[simp] theorem State.swapBuffers_caps (s : State) : (s.swapBuffers).caps = s.caps := rfl
@[simp] theorem State.swapBuffers_fns (s : State) : (s.swapBuffers).fns = s.fns := rfl
@[simp] theorem State.swapBuffers_regs (s : State) : (s.swapBuffers).regs = s.regs := rfl
@[simp] theorem State.swapBuffers_flags (s : State) :
    (s.swapBuffers).flags =
      { s.flags with
        curValid := s.flags.scrValid, scrValid := s.flags.curValid, curHasCache := decide (s.bufs.scrBits ≠ 0) } := rfl
@[simp] theorem State.swapBuffers_bufs (s : State) :
    (s.swapBuffers).bufs =
      { sel := !s.bufs.sel, curLen := s.bufs.scrLen, scrLen := s.bufs.curLen, curBits := s.bufs.scrBits,
        scrBits := s.bufs.curBits } := rfl
@[simp] theorem State.swapBuffers_ccBits (s : State) : (s.swapBuffers).ccBits = s.ccBits := rfl
@[simp] theorem State.swapBuffers_writer (s : State) : (s.swapBuffers).writer = s.writer := rfl
@[simp] theorem State.swapBuffers_slots (s : State) : (s.swapBuffers).slots = s.slots := rfl
@[simp] theorem State.swapBuffers_spaces (s : State) : (s.swapBuffers).spaces = s.spaces := rfl
@[simp] theorem State.swapBuffers_pc (s : State) : (s.swapBuffers).pc = s.pc := rfl
@[simp] theorem State.swapBuffers_env (s : State) : (s.swapBuffers).env = s.env := rfl

/-! `State.putHistos` -/

@[simp] theorem State.putHistos_caps (s : State) (base : Nat) (hs : List Histo) :
    (s.putHistos base hs).caps = s.caps := rfl
@[simp] theorem State.putHistos_fns (s : State) (base : Nat) (hs : List Histo) :
    (s.putHistos base hs).fns = s.fns := rfl
@[simp] theorem State.putHistos_regs (s : State) (base : Nat) (hs : List Histo) :
    (s.putHistos base hs).regs = s.regs := rfl
@[simp] theorem State.putHistos_flags (s : State) (base : Nat) (hs : List Histo) :
    (s.putHistos base hs).flags = s.flags := rfl
@[simp] theorem State.putHistos_bufs (s : State) (base : Nat) (hs : List Histo) :
    (s.putHistos base hs).bufs = s.bufs := rfl
@[simp] theorem State.putHistos_ccBits (s : State) (base : Nat) (hs : List Histo) :
    (s.putHistos base hs).ccBits = s.ccBits := rfl
@[simp] theorem State.putHistos_writer (s : State) (base : Nat) (hs : List Histo) :
    (s.putHistos base hs).writer = s.writer := rfl
@[simp] theorem State.putHistos_slots (s : State) (base : Nat) (hs : List Histo) :
    (s.putHistos base hs).slots =
      putCells s.slots base (hs.zipIdx.map (fun c => (s.slot (base + c.2)).counted c.1)) := rfl
@[simp] theorem State.putHistos_spaces (s : State) (base : Nat) (hs : List Histo) :
    (s.putHistos base hs).spaces =
      { s.spaces with
        hist := s.spaces.hist.put (base * Config.slotStride)
          (hs.flatMap (fun h => h.elements.map (BitVec.ofNat 32))) } := rfl
@[simp] theorem State.putHistos_pc (s : State) (base : Nat) (hs : List Histo) :
    (s.putHistos base hs).pc = s.pc := rfl
@[simp] theorem State.putHistos_env (s : State) (base : Nat) (hs : List Histo) :
    (s.putHistos base hs).env = s.env := rfl

/-! `State.putCodes` -/

@[simp] theorem State.putCodes_caps (s : State) (h : Nat) (p : PerTable (List Word)) :
    (s.putCodes h p).caps = s.caps := rfl
@[simp] theorem State.putCodes_fns (s : State) (h : Nat) (p : PerTable (List Word)) :
    (s.putCodes h p).fns = s.fns := rfl
@[simp] theorem State.putCodes_regs (s : State) (h : Nat) (p : PerTable (List Word)) :
    (s.putCodes h p).regs = s.regs := rfl
@[simp] theorem State.putCodes_flags (s : State) (h : Nat) (p : PerTable (List Word)) :
    (s.putCodes h p).flags = s.flags := rfl
@[simp] theorem State.putCodes_bufs (s : State) (h : Nat) (p : PerTable (List Word)) :
    (s.putCodes h p).bufs = s.bufs := rfl
@[simp] theorem State.putCodes_ccBits (s : State) (h : Nat) (p : PerTable (List Word)) :
    (s.putCodes h p).ccBits = s.ccBits := rfl
@[simp] theorem State.putCodes_writer (s : State) (h : Nat) (p : PerTable (List Word)) :
    (s.putCodes h p).writer = s.writer := rfl
@[simp] theorem State.putCodes_slots (s : State) (h : Nat) (p : PerTable (List Word)) :
    (s.putCodes h p).slots = s.slots := rfl
@[simp] theorem State.putCodes_spaces (s : State) (h : Nat) (p : PerTable (List Word)) :
    (s.putCodes h p).spaces =
      { s.spaces with htab := s.spaces.htab.put (h * Config.slotStride) (slotElements p) } := rfl
@[simp] theorem State.putCodes_pc (s : State) (h : Nat) (p : PerTable (List Word)) :
    (s.putCodes h p).pc = s.pc := rfl
@[simp] theorem State.putCodes_env (s : State) (h : Nat) (p : PerTable (List Word)) :
    (s.putCodes h p).env = s.env := rfl

/-! `State.setBwErr` -/

@[simp] theorem State.setBwErr_caps (s : State) : (s.setBwErr).caps = s.caps := rfl
@[simp] theorem State.setBwErr_fns (s : State) : (s.setBwErr).fns = s.fns := rfl
@[simp] theorem State.setBwErr_regs (s : State) : (s.setBwErr).regs = s.regs := rfl
@[simp] theorem State.setBwErr_flags (s : State) : (s.setBwErr).flags = { s.flags with bwErr := true } := rfl
@[simp] theorem State.setBwErr_bufs (s : State) : (s.setBwErr).bufs = s.bufs := rfl
@[simp] theorem State.setBwErr_ccBits (s : State) : (s.setBwErr).ccBits = s.ccBits := rfl
@[simp] theorem State.setBwErr_writer (s : State) : (s.setBwErr).writer = s.writer := rfl
@[simp] theorem State.setBwErr_slots (s : State) : (s.setBwErr).slots = s.slots := rfl
@[simp] theorem State.setBwErr_spaces (s : State) : (s.setBwErr).spaces = s.spaces := rfl
@[simp] theorem State.setBwErr_pc (s : State) : (s.setBwErr).pc = s.pc := rfl
@[simp] theorem State.setBwErr_env (s : State) : (s.setBwErr).env = s.env := rfl

/-! `State.outBytes` -/

@[simp] theorem State.outBytes_caps (s : State) (bs : List Byte) : (s.outBytes bs).caps = s.caps := rfl
@[simp] theorem State.outBytes_fns (s : State) (bs : List Byte) : (s.outBytes bs).fns = s.fns := rfl
@[simp] theorem State.outBytes_regs (s : State) (bs : List Byte) : (s.outBytes bs).regs = s.regs := rfl
@[simp] theorem State.outBytes_flags (s : State) (bs : List Byte) : (s.outBytes bs).flags = s.flags := rfl
@[simp] theorem State.outBytes_bufs (s : State) (bs : List Byte) : (s.outBytes bs).bufs = s.bufs := rfl
@[simp] theorem State.outBytes_ccBits (s : State) (bs : List Byte) : (s.outBytes bs).ccBits = s.ccBits := rfl
@[simp] theorem State.outBytes_writer (s : State) (bs : List Byte) :
    (s.outBytes bs).writer = { s.writer with pos := s.writer.pos + bs.length } := rfl
@[simp] theorem State.outBytes_slots (s : State) (bs : List Byte) : (s.outBytes bs).slots = s.slots := rfl
@[simp] theorem State.outBytes_spaces (s : State) (bs : List Byte) :
    (s.outBytes bs).spaces = { s.spaces with out := s.spaces.out.put s.writer.pos bs } := rfl
@[simp] theorem State.outBytes_pc (s : State) (bs : List Byte) : (s.outBytes bs).pc = s.pc := rfl
@[simp] theorem State.outBytes_env (s : State) (bs : List Byte) : (s.outBytes bs).env = s.env := rfl

/-! `State.shiftAcc` -/

@[simp] theorem State.shiftAcc_caps (s : State) (n : Nat) : (s.shiftAcc n).caps = s.caps := rfl
@[simp] theorem State.shiftAcc_fns (s : State) (n : Nat) : (s.shiftAcc n).fns = s.fns := rfl
@[simp] theorem State.shiftAcc_regs (s : State) (n : Nat) : (s.shiftAcc n).regs = s.regs := rfl
@[simp] theorem State.shiftAcc_flags (s : State) (n : Nat) : (s.shiftAcc n).flags = s.flags := rfl
@[simp] theorem State.shiftAcc_bufs (s : State) (n : Nat) : (s.shiftAcc n).bufs = s.bufs := rfl
@[simp] theorem State.shiftAcc_ccBits (s : State) (n : Nat) : (s.shiftAcc n).ccBits = s.ccBits := rfl
@[simp] theorem State.shiftAcc_writer (s : State) (n : Nat) :
    (s.shiftAcc n).writer = { s.writer with acc := s.writer.acc >>> n, used := s.writer.used - n } := rfl
@[simp] theorem State.shiftAcc_slots (s : State) (n : Nat) : (s.shiftAcc n).slots = s.slots := rfl
@[simp] theorem State.shiftAcc_spaces (s : State) (n : Nat) : (s.shiftAcc n).spaces = s.spaces := rfl
@[simp] theorem State.shiftAcc_pc (s : State) (n : Nat) : (s.shiftAcc n).pc = s.pc := rfl
@[simp] theorem State.shiftAcc_env (s : State) (n : Nat) : (s.shiftAcc n).env = s.env := rfl

/-! `State.redrawOut` -/

@[simp] theorem State.redrawOut_caps (s : State) (lo hi : Nat) : (s.redrawOut lo hi).caps = s.caps := rfl
@[simp] theorem State.redrawOut_fns (s : State) (lo hi : Nat) : (s.redrawOut lo hi).fns = s.fns := rfl
@[simp] theorem State.redrawOut_regs (s : State) (lo hi : Nat) : (s.redrawOut lo hi).regs = s.regs := rfl
@[simp] theorem State.redrawOut_flags (s : State) (lo hi : Nat) : (s.redrawOut lo hi).flags = s.flags := rfl
@[simp] theorem State.redrawOut_bufs (s : State) (lo hi : Nat) : (s.redrawOut lo hi).bufs = s.bufs := rfl
@[simp] theorem State.redrawOut_ccBits (s : State) (lo hi : Nat) :
    (s.redrawOut lo hi).ccBits = s.ccBits := rfl
@[simp] theorem State.redrawOut_writer (s : State) (lo hi : Nat) :
    (s.redrawOut lo hi).writer = s.writer := rfl
@[simp] theorem State.redrawOut_slots (s : State) (lo hi : Nat) : (s.redrawOut lo hi).slots = s.slots := rfl
@[simp] theorem State.redrawOut_spaces (s : State) (lo hi : Nat) :
    (s.redrawOut lo hi).spaces =
      { s.spaces with
        out := s.spaces.out.put lo
          ((List.range (hi - lo)).map (fun k => (Config.freeValue (s.env.freeCount + k)).setWidth 8)) } := rfl
@[simp] theorem State.redrawOut_pc (s : State) (lo hi : Nat) : (s.redrawOut lo hi).pc = s.pc := rfl
@[simp] theorem State.redrawOut_env (s : State) (lo hi : Nat) :
    (s.redrawOut lo hi).env = { s.env with freeCount := s.env.freeCount + (hi - lo) } := rfl

/-! `State.putTokens` -/

@[simp] theorem State.putTokens_caps (s : State) (b : Bool) (ts : List Token) : (s.putTokens b ts).caps = s.caps := by
  cases b <;> rfl
@[simp] theorem State.putTokens_fns (s : State) (b : Bool) (ts : List Token) : (s.putTokens b ts).fns = s.fns := by
  cases b <;> rfl
@[simp] theorem State.putTokens_regs (s : State) (b : Bool) (ts : List Token) : (s.putTokens b ts).regs = s.regs := by
  cases b <;> rfl
@[simp] theorem State.putTokens_flags (s : State) (b : Bool) (ts : List Token) : (s.putTokens b ts).flags = s.flags := by
  cases b <;> rfl
@[simp] theorem State.putTokens_bufs (s : State) (b : Bool) (ts : List Token) : (s.putTokens b ts).bufs = s.bufs := by
  cases b <;> rfl
@[simp] theorem State.putTokens_ccBits (s : State) (b : Bool) (ts : List Token) : (s.putTokens b ts).ccBits = s.ccBits := by
  cases b <;> rfl
@[simp] theorem State.putTokens_writer (s : State) (b : Bool) (ts : List Token) : (s.putTokens b ts).writer = s.writer := by
  cases b <;> rfl
@[simp] theorem State.putTokens_slots (s : State) (b : Bool) (ts : List Token) : (s.putTokens b ts).slots = s.slots := by
  cases b <;> rfl
@[simp] theorem State.putTokens_pc (s : State) (b : Bool) (ts : List Token) : (s.putTokens b ts).pc = s.pc := by
  cases b <;> rfl
@[simp] theorem State.putTokens_env (s : State) (b : Bool) (ts : List Token) : (s.putTokens b ts).env = s.env := by
  cases b <;> rfl

/-! `State.redrawBuffer` -/

@[simp] theorem State.redrawBuffer_caps (s : State) (b : Bool) : (s.redrawBuffer b).caps = s.caps := by
  cases b <;> rfl
@[simp] theorem State.redrawBuffer_fns (s : State) (b : Bool) : (s.redrawBuffer b).fns = s.fns := by
  cases b <;> rfl
@[simp] theorem State.redrawBuffer_regs (s : State) (b : Bool) : (s.redrawBuffer b).regs = s.regs := by
  cases b <;> rfl
@[simp] theorem State.redrawBuffer_flags (s : State) (b : Bool) : (s.redrawBuffer b).flags = s.flags := by
  cases b <;> rfl
@[simp] theorem State.redrawBuffer_bufs (s : State) (b : Bool) : (s.redrawBuffer b).bufs = s.bufs := by
  cases b <;> rfl
@[simp] theorem State.redrawBuffer_ccBits (s : State) (b : Bool) : (s.redrawBuffer b).ccBits = s.ccBits := by
  cases b <;> rfl
@[simp] theorem State.redrawBuffer_writer (s : State) (b : Bool) : (s.redrawBuffer b).writer = s.writer := by
  cases b <;> rfl
@[simp] theorem State.redrawBuffer_slots (s : State) (b : Bool) : (s.redrawBuffer b).slots = s.slots := by
  cases b <;> rfl
@[simp] theorem State.redrawBuffer_pc (s : State) (b : Bool) : (s.redrawBuffer b).pc = s.pc := by
  cases b <;> rfl
@[simp] theorem State.redrawBuffer_env (s : State) (b : Bool) : (s.redrawBuffer b).env = s.env := by
  cases b <;> rfl

/-! `State.writeAbort` -/

@[simp] theorem State.writeAbort_caps (s : State) (v : Word) : (s.writeAbort v).caps = s.caps := by
  unfold State.writeAbort; split <;> rfl
@[simp] theorem State.writeAbort_fns (s : State) (v : Word) : (s.writeAbort v).fns = s.fns := by
  unfold State.writeAbort; split <;> rfl
@[simp] theorem State.writeAbort_regs (s : State) (v : Word) : (s.writeAbort v).regs = s.regs := by
  unfold State.writeAbort; split <;> rfl
@[simp] theorem State.writeAbort_bufs (s : State) (v : Word) : (s.writeAbort v).bufs = s.bufs := by
  unfold State.writeAbort; split <;> rfl
@[simp] theorem State.writeAbort_ccBits (s : State) (v : Word) : (s.writeAbort v).ccBits = s.ccBits := by
  unfold State.writeAbort; split <;> rfl
@[simp] theorem State.writeAbort_writer (s : State) (v : Word) : (s.writeAbort v).writer = s.writer := by
  unfold State.writeAbort; split <;> rfl
@[simp] theorem State.writeAbort_slots (s : State) (v : Word) : (s.writeAbort v).slots = s.slots := by
  unfold State.writeAbort; split <;> rfl
@[simp] theorem State.writeAbort_spaces (s : State) (v : Word) : (s.writeAbort v).spaces = s.spaces := by
  unfold State.writeAbort; split <;> rfl
@[simp] theorem State.writeAbort_pc (s : State) (v : Word) : (s.writeAbort v).pc = s.pc := by
  unfold State.writeAbort; split <;> rfl
@[simp] theorem State.writeAbort_flags (s : State) (v : Word) :
    (s.writeAbort v).flags = { s.flags with abortPending := s.flags.abortPending || v.getLsbD 0 } := by
  unfold State.writeAbort; split <;> simp_all
@[simp] theorem State.writeAbort_env (s : State) (v : Word) :
    (s.writeAbort v).env = { s.env with abortLate := s.env.abortLate || (v.getLsbD 0 && s.flags.busy) } := by
  unfold State.writeAbort; split <;> simp_all

end Sys2Proof.Machine
end

