-- ==== Sys2Proof/Safety.lean ====
section
/-! DEFINITION. What counts as a safe state and a safe run, in the terms the claims use: frames, the error
entry, the invariant of every step, the truth of tables and token buffers, and the bits of the stream. -/

namespace Sys2Proof

/-! ### What a command runs (60_exceptions R348 to R350) -/

/-- Every command but NOP, SOFT_RESET and ATTEMPT_BEGIN: those that run check 3 and take an abort
(60_exceptions R348). -/
def Instr.abortable : Instr → Bool
  | .nop | .softReset | .attemptBegin => false
  | .hcBuild | .hcBox | .brGreedy _ | .brRle | .cacheApply | .cacheSearch | .tokSwap | .dpSolve _
  | .histClear _ | .histBuild _ _ | .histAdd _ | .histEst _ | .histCombine _ | .cluster _ | .huffLen _
  | .huffCode _ | .bwInit | .bwPut _ | .bwFinish | .emitTokens _ _ | .ccInit _ | .ccLookup | .ccInsert => true

/-- The numbered checks from 4 on that a command runs: the first column of 60_exceptions R350. -/
def Instr.checks : Instr → List Nat
  | .nop | .softReset | .attemptBegin | .tokSwap | .bwInit | .ccInit _ => []
  | .hcBuild => [4, 5, 6]
  | .hcBox | .brRle => [4]
  | .brGreedy _ => [4, 12]
  | .cacheApply => [7, 13, 18]
  | .cacheSearch => [4, 8, 13, 18]
  | .dpSolve _ => [4, 7, 12, 13, 18]
  | .histClear _ => [7, 11]
  | .histBuild _ _ => [4, 9, 10, 11, 13, 20]
  | .histAdd _ | .histCombine _ => [11, 14, 18, 19]
  | .histEst _ => [11, 14]
  | .cluster _ => [4, 9, 11, 14, 18, 19]
  | .huffLen _ => [6, 11, 14]
  | .huffCode _ => [11, 15]
  | .bwPut _ => [16, 17]
  | .bwFinish => [16]
  | .emitTokens _ _ => [4, 9, 10, 11, 13, 15, 16, 18, 20]
  | .ccLookup | .ccInsert => [21]

/-- The mode of a command; CLUSTER reads the tile geometry as mode 1 does (46_clustering R251). -/
def Instr.slotMode : Instr → SlotMode
  | .histBuild m _ | .emitTokens m _ => m
  | .cluster _ => .perTile
  | .nop | .softReset | .attemptBegin | .hcBuild | .hcBox | .brGreedy _ | .brRle | .cacheApply | .cacheSearch
  | .tokSwap | .dpSolve _ | .histClear _ | .histAdd _ | .histEst _ | .histCombine _ | .huffLen _ | .huffCode _
  | .bwInit | .bwPut _ | .bwFinish | .ccInit _ | .ccLookup | .ccInsert => .one

/-- The table a command selects. -/
def Instr.tableSel : Instr → TableSel
  | .brGreedy sel | .dpSolve sel => sel
  | .nop | .softReset | .attemptBegin | .hcBuild | .hcBox | .brRle | .cacheApply | .cacheSearch | .tokSwap
  | .histClear _ | .histBuild _ _ | .histAdd _ | .histEst _ | .histCombine _ | .cluster _ | .huffLen _
  | .huffCode _ | .bwInit | .bwPut _ | .bwFinish | .emitTokens _ _ | .ccInit _ | .ccLookup | .ccInsert => .hc0

/-- The slot number in the command word. -/
def Instr.slotOperand (i : Instr) : Nat := i.immBits.toNat

end Sys2Proof

namespace Sys2Proof.Machine

/-! ### Ends of commands and frames -/

/-- The registers after a command that ended without error (49_system R320), but for those it writes. -/
def State.okRegs (s : State) : Regs := { s.regs with errInfo := 0, cmdCount := s.regs.cmdCount + 1 }

/-- The flags after a command that ended without error (49_system R320), but for those it writes. -/
def State.okFlags (s : State) : Flags :=
  { s.flags with busy := false, done := true, errCode := 0,
                 abortPending := s.flags.abortPending || s.env.abortLine }

/-- Configuration, program counter and environment after a command (10_state R24, 49_system R320, R333). -/
def Ended (s t : State) : Prop :=
  t.caps = s.caps ∧ t.fns = s.fns ∧ t.pc = s.pc + 1 ∧
    t.env = { s.env with abortSampled := false, abortLate := false, irqPulse := s.doneIE }

/-- Every element outside `W` reads as before. -/
def SameElems (W : SpaceId → Nat → Prop) (s t : State) : Prop :=
  ∀ sp i, ¬ W sp i → t.readElem sp i = s.readElem sp i

/-- No element. -/
def noElems : SpaceId → Nat → Prop := fun _ _ => False

/-- The elements of slot `h` in a space of slots. -/
def slotElems (h i : Nat) : Prop := h * Config.slotStride ≤ i ∧ i < (h + 1) * Config.slotStride

/-- The hidden fields and costs of every slot outside `D` are as before. -/
def SameSlots (D : Nat → Prop) (s t : State) : Prop :=
  ∀ h, ¬ D h → t.slot h = s.slot h ∧ t.bitCostOf h = s.bitCostOf h ∧
    ∀ k, k < 5 → t.tableCostOf h k = s.tableCostOf h k

/-- No slot. -/
def noSlots : Nat → Prop := fun _ => False

/-- Token buffers, cache width and writer as before. -/
def SameHidden (s t : State) : Prop := t.bufs = s.bufs ∧ t.ccBits = s.ccBits ∧ t.writer = s.writer

/-- A command that ended without error wrote the elements in `W`, the slots in `D` and nothing else but
registers, flags, token buffers, cache width and writer. -/
def OnlyWrites (W : SpaceId → Nat → Prop) (D : Nat → Prop) (s t : State) : Prop :=
  SameElems W s t ∧ SameSlots D s t ∧ Ended s t

/-- The command passes check 3 and takes no abort (60_exceptions R348). -/
def State.accepts (s : State) : Bool := !s.flags.error && !s.env.abortSampled

/-- The flags after a raise (60_exceptions R346); a request raised since the start stays (R353, log 26). -/
def State.errorFlags (s : State) (op : BitVec 8) (o : ErrorOutcome) : Flags :=
  { s.flags with
    errCode := o.code, errOp := op, error := true, done := false, busy := false
    abortPending := (if o = .aborted then s.env.abortLate else s.flags.abortPending) || s.env.abortLine
    hc0Valid := if op = 0x10 then false else s.flags.hc0Valid
    hc1Valid := false, curValid := false, scrValid := false, curHasCache := false, bwOpen := false }

/-- The token buffers after a raise or ATTEMPT_BEGIN: lengths and widths 0, TOKSEL kept (60_exceptions R346,
49_system R323). -/
def Buffers.emptied (b : Buffers) : Buffers := { b with curLen := 0, scrLen := 0, curBits := 0, scrBits := 0 }

/-- The costs of every slot are as before. -/
def SameCosts (s t : State) : Prop :=
  (∀ h, t.bitCostOf h = s.bitCostOf h) ∧ ∀ h k, t.tableCostOf h k = s.tableCostOf h k

/-- The entry of an error outcome, the writer and the content of spaces apart (60_exceptions R346): `t` is `s`
after a raise by the command with opcode byte `op`, BW_ERR as the command left it. -/
def ErrorEntry (s t : State) (op : BitVec 8) (o : ErrorOutcome) (info : Nat) : Prop :=
  t.flags = { s.errorFlags op o with bwErr := t.flags.bwErr } ∧
  t.regs = { s.regs with errInfo := BitVec.ofNat 32 info, cmdCount := s.regs.cmdCount + 1 } ∧
  t.bufs = s.bufs.emptied ∧ t.ccBits = 0 ∧ (∀ h, t.slot h = (s.slot h).invalid) ∧ SameCosts s t ∧
  t.caps = s.caps ∧ t.fns = s.fns ∧ t.pc = s.pc + 1 ∧
  ∃ n, t.env = { s.env with
    abortSampled := false, abortLate := false, irqPulse := s.doneIE, freeCount := n }

/-- A raise before any work: the error entry with the writer and every space unchanged (60_exceptions R344,
R346). -/
def RaisedAtStart (s t : State) (op : BitVec 8) (o : ErrorOutcome) (info : Nat) : Prop :=
  ErrorEntry s t op o info ∧ t.flags.bwErr = s.flags.bwErr ∧ t.writer = s.writer ∧ Ended s t ∧
    SameElems noElems s t

/-! ### The numbered checks by their numbers (60_exceptions R349, R350) -/

/-- The slot numbers a command takes from its word, ARG0 or ARG1 (60_exceptions R349, check 11). -/
def State.slotOperands (s : State) : Instr → List Nat
  | .histClear h | .histBuild _ h | .histEst h | .huffLen h | .huffCode h | .emitTokens _ h => [h.toNat]
  | .histAdd h | .histCombine h => [h.toNat, s.regs.arg0.toNat]
  | .cluster h => [h.toNat, s.regs.arg1.toNat]
  | .nop | .softReset | .attemptBegin | .hcBuild | .hcBox | .brGreedy _ | .brRle | .cacheApply | .cacheSearch
  | .tokSwap | .dpSolve _ | .bwInit | .bwPut _ | .bwFinish | .ccInit _ | .ccLookup | .ccInsert => []

/-- The existing slots a command reads: a range of tile slots or of emission slots, or its slot operands
(60_exceptions R349, checks 14, 15, 18 and its last paragraph). -/
def State.slotsRead (s : State) (i : Instr) : List Nat :=
  let range := fun h n => ((List.range n).map (fun g => h + g)).filter (fun k => decide (k < s.caps.hMax))
  match i with
  | .cluster h => range h.toNat s.tileCount
  | .emitTokens m h => range h.toNat (s.slotCount m)
  | .histAdd h | .histCombine h => [h.toNat, s.regs.arg0.toNat]
  | .histEst h | .huffLen h | .huffCode h => [h.toNat]
  | .nop | .softReset | .attemptBegin | .hcBuild | .hcBox | .brGreedy _ | .brRle | .cacheApply | .cacheSearch
  | .tokSwap | .dpSolve _ | .histClear _ | .histBuild _ _ | .bwInit | .bwPut _ | .bwFinish | .ccInit _
  | .ccLookup | .ccInsert => []

/-- The cache width a command holds CUR, or the slots it reads, against: check 18 (60_exceptions R349). -/
def State.widthMismatch (s : State) (i : Instr) : Bool :=
  match i with
  | .cacheApply | .cacheSearch => decide (s.bufs.curBits ≠ 0)
  | .dpSolve _ => decide (s.bufs.curBits.toNat ≠ s.regs.cacheBits.toNat)
  | .histAdd h | .histCombine h => decide ((s.slot h.toNat).hbits ≠ (s.slot s.regs.arg0.toNat).hbits)
  | .cluster h => (s.slotsRead i).any (fun k => decide ((s.slot k).hbits ≠ (s.slot h.toNat).hbits))
  | .emitTokens _ _ => (s.slotsRead i).any (fun k => decide ((s.slot k).hbits ≠ s.bufs.curBits))
  | .nop | .softReset | .attemptBegin | .hcBuild | .hcBox | .brGreedy _ | .brRle | .tokSwap | .histClear _
  | .histBuild _ _ | .histEst _ | .huffLen _ | .huffCode _ | .bwInit | .bwPut _ | .bwFinish | .ccInit _
  | .ccLookup | .ccInsert => false

/-- The two slot operands coincide, or the tile and the group slots of CLUSTER overlap: check 19
(60_exceptions R349). -/
def State.slotsClash (s : State) : Instr → Bool
  | .histAdd h | .histCombine h => decide (h.toNat = s.regs.arg0.toNat)
  | .cluster h =>
    decide (h.toNat < s.regs.arg1.toNat + s.tileCount ∧ s.regs.arg1.toNat < h.toNat + s.tileCount)
  | .nop | .softReset | .attemptBegin | .hcBuild | .hcBox | .brGreedy _ | .brRle | .cacheApply | .cacheSearch
  | .tokSwap | .dpSolve _ | .histClear _ | .histBuild _ _ | .histEst _ | .huffLen _ | .huffCode _ | .bwInit
  | .bwPut _ | .bwFinish | .emitTokens _ _ | .ccInit _ | .ccLookup | .ccInsert => false

/-- Check number `n` fails, the middle column of 60_exceptions R349; elements of GRPMAP at and above N_MAX do
not exist (log 16). -/
def State.fails (s : State) (i : Instr) (n : Nat) : Bool :=
  match n with
  | 4 => decide (s.regs.xsize = 0 ∨ s.regs.ysize = 0)
  | 5 => decide (100 < s.regs.quality.toNat)
  | 6 => decide (2 ^ 3 ≤ s.regs.ctrl.toNat)
  | 7 => decide (10 < s.regs.cacheBits.toNat)
  | 8 => decide (2 ^ 4 ≤ s.regs.reqCacheBits.toNat)
  | 9 => decide (i.slotMode ≠ .one ∧ (s.regs.histoBits.toNat < 2 ∨ 9 < s.regs.histoBits.toNat))
  | 10 => decide (i.slotMode = .perGroup ∧ (s.regs.numGroups = 0 ∨ s.caps.hMax < s.regs.numGroups.toNat))
  | 11 => (s.slotOperands i).any (fun h => decide (s.caps.hMax ≤ h))
  | 12 => !s.hcValid i.tableSel
  | 13 => !s.flags.curValid
  | 14 => (s.slotsRead i).any (fun h => !(s.slot h).histValid)
  | 15 =>
    (s.slotsRead i).any
      (fun h => if i.opcode = .huffCode then !(s.slot h).lenValid else !(s.slot h).codeValid)
  | 16 => !s.flags.bwOpen
  | 17 => decide (i.slotOperand < 32 ∧ 2 ^ i.slotOperand ≤ s.regs.arg0.toNat)
  | 18 => s.widthMismatch i
  | 19 => s.slotsClash i
  | 20 =>
    decide (i.slotMode = .perGroup) && (List.range s.tileCount).any
      (fun g => decide (g < s.caps.nMax ∧ s.regs.numGroups.toNat ≤ (s.spaces.grpMap.read 7 g).toNat))
  | 21 => decide (s.ccBits = 0)
  | _ => false

/-- None of a command's numbered checks fails. -/
def State.checksPass (s : State) (i : Instr) : Bool := i.checks.all (fun n => !s.fails i n)

/-- The start-time capacity test a command fails, as the number of the space it names: the rows "start" of
60_exceptions R343. -/
def State.overCapacity (s : State) : Instr → Option Nat
  | .hcBuild => if s.caps.nMax < s.pixelCount then some 1 else none
  | .brRle => if s.caps.nMax < s.pixelCount then some 0 else none
  | .hcBox => if s.caps.nMax < s.pixelCount then some 2 else none
  | .dpSolve _ => if s.caps.nMax < s.pixelCount then some 9 else none
  | .histBuild m h | .emitTokens m h => if s.caps.hMax < h.toNat + s.slotCount m then some 6 else none
  | .cluster h =>
    if s.caps.hMax < h.toNat + s.tileCount ∨ s.caps.hMax < s.regs.arg1.toNat + s.tileCount then some 6
    else none
  | .nop | .softReset | .attemptBegin | .brGreedy _ | .cacheApply | .cacheSearch | .tokSwap | .histClear _
  | .histAdd _ | .histEst _ | .histCombine _ | .huffLen _ | .huffCode _ | .bwInit | .bwPut _ | .bwFinish
  | .ccInit _ | .ccLookup | .ccInsert => none

/-- The command passes every test of its start: checks 2 and 3, the abort, the numbered checks and the
capacity test (60_exceptions R348). -/
def State.starts (s : State) (i : Instr) : Bool :=
  i.wf && s.accepts && s.checksPass i && decide (s.overCapacity i = none)

/-! ### The spaces a command may write (20_memory R66) -/

/-- The buffer of a flag: TOKA for false, TOKB for true. -/
def bufferId (b : Bool) : SpaceId := if b then .tokB else .tokA

/-- The spaces a command may write, the W entries of 20_memory R66. -/
def State.mayWrite (s : State) : Instr → List SpaceId
  | .nop | .softReset | .attemptBegin | .tokSwap | .cacheSearch | .histEst _ | .histCombine _ | .bwInit
  | .ccLookup => []
  | .hcBuild => [.hc0]
  | .hcBox => [.hc1]
  | .brGreedy _ | .brRle => [bufferId s.bufs.sel]
  | .cacheApply => [bufferId s.bufs.sel, .cc]
  | .dpSolve _ => [.tokA, .tokB, .cc, .dpCost, .dpEdge]
  | .histClear _ | .histBuild _ _ | .histAdd _ => [.hist]
  | .cluster _ => [.hist, .grpMap]
  | .huffLen _ | .huffCode _ => [.htab]
  | .bwPut _ | .bwFinish | .emitTokens _ _ => [.out]
  | .ccInit _ | .ccInsert => [.cc]

/-! ### The invariant of every step -/

/-- Every listed address is below a bound. -/
def Mem.below {w : Nat} (m : Mem w) (n : Nat) : Bool := m.cells.all (fun c => decide (c.1 < n))

/-- No element outside its space and no slot at or above H_MAX was ever written (20_memory R63). -/
def State.inRange (s : State) : Bool :=
  s.spaces.pix.below s.caps.nMax && s.spaces.hc0.below s.caps.nMax && s.spaces.hc1.below s.caps.nMax &&
  s.spaces.tokA.below s.caps.tokCap && s.spaces.tokB.below s.caps.tokCap &&
  s.spaces.cc.below Config.cacheSlots && s.spaces.hist.below (s.caps.hMax * Config.slotStride) &&
  s.spaces.grpMap.below s.caps.nMax && s.spaces.htab.below (s.caps.hMax * Config.slotStride) &&
  s.spaces.dpCost.below s.caps.nMax && s.spaces.dpEdge.below s.caps.nMax &&
  s.spaces.out.below s.caps.outCap && s.spaces.bitCost.below s.caps.hMax &&
  s.spaces.tableCost.below (5 * s.caps.hMax) && s.slots.all (fun c => decide (c.1 < s.caps.hMax))

/-- The life cycle: while a command runs there is no outcome, after one without error there is neither code
nor ERRINFO, and codes 5 to 15 never occur (49_system R320, 10_state R23, 60_exceptions R341); a request sampled
or raised for a running command is one only while it runs, and the latter is pending (60_exceptions R353). -/
def State.lifeOk (s : State) : Bool :=
  (!s.flags.busy || (!s.flags.done && decide (s.flags.errCode = 0))) &&
  (!s.flags.done || (decide (s.flags.errCode = 0) && decide (s.regs.errInfo = 0))) &&
  decide (s.flags.errCode.toNat ≤ 4) && (s.flags.busy || !s.env.abortSampled) &&
  (!s.env.abortLate || (s.flags.busy && s.flags.abortPending))

/-- The valid bits of a slot follow one another: codes from lengths, lengths and costs from counts
(47_huffman R277, 45_histogram R220); a width is at most 10. -/
def Slot.ordered (v : Slot) : Bool :=
  (!v.codeValid || v.lenValid) && (!v.lenValid || v.histValid) && (!v.costValid || v.histValid) &&
    decide (v.hbits.toNat ≤ 10)

/-- The error state holds nothing of the attempt, and outside it ERR_OP is 0 (60_exceptions R346, R357,
10_state R22). -/
def State.errorOk (s : State) : Bool :=
  if s.flags.error then
    !s.flags.hc1Valid && !s.flags.curValid && !s.flags.scrValid && !s.flags.curHasCache && !s.flags.bwOpen &&
    decide (s.bufs = { s.bufs with curLen := 0, scrLen := 0, curBits := 0, scrBits := 0 }) &&
    decide (s.ccBits = 0) && s.slots.all (fun c => decide (c.2.invalid = c.2))
  else decide (s.flags.errOp = 0)

/-- Lengths within TOK_CAP, widths at most 10, CUR_HAS_CACHE in step with CUR_BITS, and a geometry behind
every valid table or buffer (10_state R22, R33, R43, 60_exceptions R349). -/
def State.buffersOk (s : State) : Bool :=
  decide (s.bufs.curLen ≤ s.caps.tokCap ∧ s.bufs.scrLen ≤ s.caps.tokCap ∧ s.bufs.curBits.toNat ≤ 10 ∧
    s.bufs.scrBits.toNat ≤ 10 ∧ s.ccBits.toNat ≤ 10) &&
  (!s.flags.curHasCache || decide (s.bufs.curBits ≠ 0)) &&
  (!s.flags.curValid || decide (s.flags.curHasCache = decide (s.bufs.curBits ≠ 0))) &&
  (!(s.flags.hc0Valid || s.flags.hc1Valid || s.flags.curValid || s.flags.scrValid) ||
    decide (0 < s.pixelCount ∧ s.pixelCount ≤ s.caps.nMax))

/-- The writer invariant but for its bits (48_bit_writer R291). -/
def State.writerOk (s : State) : Bool :=
  decide (s.writer.used ≤ 31 ∧ s.writer.pos ≤ s.caps.outCap) &&
  (!s.flags.bwOpen || s.flags.bwErr || decide (s.writer.pos % 4 = 0))

/-- The invariant every step keeps. -/
def State.invariant (s : State) : Bool :=
  s.caps.wf && Memory.wf s && s.inRange && s.lifeOk && s.errorOk && s.buffersOk && s.writerOk &&
    s.slots.all (fun c => c.2.ordered)

/-! ### True tables and true token buffers (10_state R32, R33, R35) -/

/-- The `l` pixels at `p` equal those `d` before them. -/
def State.pixelsRepeat (s : State) (d p l : Nat) : Bool :=
  (List.range l).all (fun j => s.px (p - d + j) == s.px (p + j))

/-- A table entry `(d, l)` at position `p`: no match, or a true one within the window (10_state R32,
41_hash_chain R140). -/
def State.entryTrue (s : State) (p : Nat) (e : Nat × Nat) : Bool :=
  decide (e = (0, 0)) ||
    (decide (1 ≤ e.1 ∧ e.1 ≤ p ∧ e.1 ≤ Config.windowSize ∧ 1 ≤ e.2 ∧
      e.2 ≤ min (s.pixelCount - p) Config.maxLength) && s.pixelsRepeat e.1 p e.2)

/-- Every entry of a table is true. -/
def State.tableTrue (s : State) (sel : TableSel) : Bool :=
  (List.range s.pixelCount).all (fun p => s.entryTrue p (s.hcEntry sel p))

/-- A token at position `p`, the cache before it holding `c` at width `b` (10_state R33, R35). -/
def State.tokenTrue (s : State) (b : Nat) (c : CacheSlots) (p : Nat) : Token → Bool
  | .literal v => decide (v = s.px p)
  | .cacheRef k =>
    decide (1 ≤ b ∧ b ≤ 10 ∧ k < 2 ^ b ∧ k = ccIndex s.fns (s.px p) b ∧ c.getD k none = some (s.px p))
  | .copy d l =>
    decide (2 ≤ l ∧ l ≤ Config.maxLength ∧ 1 ≤ d ∧ d ≤ p ∧ d ≤ Config.windowSize) && s.pixelsRepeat d p l

/-- Every token of a list from position `p` on, the cache stepped over every pixel (42_backward_refs R166). -/
def State.streamTrue (s : State) (b : Nat) : CacheSlots → Nat → List Token → Bool
  | _, _, [] => true
  | c, p, t :: ts =>
    s.tokenTrue b c p t && s.streamTrue b (cacheInsertRun s.fns b s.px c p t.len) (p + t.len) ts

/-- A token list that is valid for the image at width `b` (10_state R33). -/
def State.tokensTrue (s : State) (b : Nat) (ts : List Token) : Bool :=
  decide (tokensLen ts = s.pixelCount) && s.streamTrue b (cacheInit b) 0 ts

/-- The content of a buffer is valid: what CUR_VALID and SCR_VALID stand for (10_state R33). -/
def State.bufferTrue (s : State) (b : Bool) (len bits : Nat) : Bool :=
  match tokensOf 0 (s.bufferRun b len) with
  | .ok ts => s.tokensTrue bits ts
  | .error _ => false

/-- The current buffer is valid. -/
def State.curTrue (s : State) : Bool := s.bufferTrue s.bufs.sel s.bufs.curLen s.bufs.curBits.toNat

/-- The scratch buffer is valid. -/
def State.scrTrue (s : State) : Bool := s.bufferTrue (!s.bufs.sel) s.bufs.scrLen s.bufs.scrBits.toNat

/-- What the valid bits promise: a valid table holds true matches, a valid buffer codes the image
(10_state R22, R32, R33). -/
def State.faithful (s : State) : Bool :=
  (!s.flags.hc0Valid || s.tableTrue .hc0) && (!s.flags.hc1Valid || s.tableTrue .hc1) &&
    (!s.flags.curValid || s.curTrue) && (!s.flags.scrValid || s.scrTrue)

/-! ### What a decoder makes of a token list (43_color_cache R196) -/

/-- `l` pixels copied from `d` back, each put into the cache. -/
def expandCopy (f : Fns) (b d : Nat) : Nat → List Pixel → CacheSlots → List Pixel × CacheSlots
  | 0, out, c => (out, c)
  | l + 1, out, c =>
    let p := out.getD (out.length - d) 0
    expandCopy f b d l (out ++ [p]) (cacheInsert f b c p)

/-- The pixels of a token list after `out`, if every cache reference and every copy has a source. -/
def expandTokens (f : Fns) (b : Nat) : List Pixel → CacheSlots → List Token → Option (List Pixel)
  | out, _, [] => some out
  | out, c, .literal v :: ts => expandTokens f b (out ++ [v]) (cacheInsert f b c v) ts
  | out, c, .cacheRef k :: ts =>
    match c.getD k none with
    | none => none
    | some p => expandTokens f b (out ++ [p]) (cacheInsert f b c p) ts
  | out, c, .copy d l :: ts =>
    if d = 0 ∨ out.length < d then none
    else expandTokens f b (expandCopy f b d l out c).1 (expandCopy f b d l out c).2 ts

/-! ### The bits of the stream (20_memory R60, 48_bit_writer R291) -/

/-- The low `n` bits of a number, least significant first. -/
def lowBits (n v : Nat) : List Bool := (List.range n).map (fun i => v.testBit i)

/-- The stream put so far: the bytes of OUT below BW_POS, then the pending bits of BW_ACC. -/
def State.streamBits (s : State) : List Bool :=
  (List.range s.writer.pos).flatMap (fun k => lowBits 8 (s.spaces.out.read 11 k).toNat) ++
    lowBits s.writer.used s.writer.acc.toNat

/-- The writer invariant of an open writer without error, its bits included (48_bit_writer R291). -/
def State.writerClean (s : State) : Bool :=
  decide (s.writer.used ≤ 31 ∧ s.writer.acc.toNat < 2 ^ s.writer.used ∧ s.writer.pos % 4 = 0 ∧
    s.writer.pos ≤ s.caps.outCap) && !s.flags.bwErr

/-- The words flushed when `n` more bits are put fit into OUT. -/
def State.roomFor (s : State) (n : Nat) : Bool :=
  decide (s.writer.pos + 4 * ((s.writer.used + n) / 32) ≤ s.caps.outCap)

/-- A symbol has a codeword that fits its length, or is its table's single symbol (47_huffman R270, R274). -/
def State.symbolCoded (s : State) (h : Nat) (t : Table) (sym : Nat) : Bool :=
  if codeLen (s.codeElem h t sym) = 0 then decide ((s.slot h).single.get t = some sym)
  else decide (codeBits (s.codeElem h t sym) < 2 ^ codeLen (s.codeElem h t sym))

/-- The bits of one emission (48_bit_writer R300, R302). -/
def State.emissionBits (s : State) (h : Nat) : Emission → List Bool
  | .symbol t sym => lowBits (codeLen (s.codeElem h t sym)) (codeBits (s.codeElem h t sym))
  | .raw v n => lowBits n v

/-- Every symbol of an emission is coded. -/
def State.emissionCoded (s : State) (h : Nat) : Emission → Bool
  | .symbol t sym => s.symbolCoded h t sym
  | .raw _ _ => true

/-- The bits of a token list from position `p` on (30_encoding R111, 48_bit_writer R300, R301). -/
def State.tokenBits (s : State) (mode : SlotMode) (base : Nat) : Nat → List Token → List Bool
  | _, [] => []
  | p, t :: ts =>
    (emissionsOf s.fns s.xs t).flatMap (s.emissionBits (base + s.slotOf mode p)) ++
      s.tokenBits mode base (p + t.len) ts

/-- Every symbol of a token list is coded in its slot (48_bit_writer R303). -/
def State.tokensCoded (s : State) (mode : SlotMode) (base : Nat) : Nat → List Token → Bool
  | _, [] => true
  | p, t :: ts =>
    (emissionsOf s.fns s.xs t).all (s.emissionCoded (base + s.slotOf mode p)) &&
      s.tokensCoded mode base (p + t.len) ts

/-! ### Slots by mode (45_histogram R223, 48_bit_writer R300) -/

/-- The tokens that start in slot number `g` of a mode, from position `p` on (45_histogram R223). -/
def State.tokensAt (s : State) (mode : SlotMode) (g : Nat) : Nat → List Token → List Token
  | _, [] => []
  | p, t :: ts =>
    if s.slotOf mode p = g then t :: s.tokensAt mode g (p + t.len) ts else s.tokensAt mode g (p + t.len) ts

/-- Every position is reached by the solver's forward pass, so that its trace exists (44_optimal_parse R204,
R208). -/
def State.solverReaches (s : State) (sel : TableSel) : Bool :=
  match s.curTokens with
  | .error _ => false
  | .ok ts =>
    match histogramOf s.fns s.xs ts s.regs.cacheBits.toNat with
    | .error _ => false
    | .ok h =>
      (dpForward (s.dpInput sel h) s.pixelCount 0 0 (cacheInit s.regs.cacheBits.toNat)
        (List.replicate s.pixelCount dpUnreached)).all (fun c => decide (c.edge ≠ 0))

/-! ### What the builders choose (42_backward_refs R151, R155, R165) -/

/-- BR_GREEDY's choice at position `p`: a copy is the table's entry, taken unless the next position's entry
reaches strictly further; a literal stands where there is no such copy (42_backward_refs R151). -/
def State.greedyChoice (s : State) (sel : TableSel) (p : Nat) (t : Token) : Bool :=
  let here := s.hcEntry sel p
  let next := s.hcEntry sel (p + 1)
  let defer := decide (p + 1 < s.pixelCount ∧ Config.minLength ≤ next.2 ∧ p + here.2 < p + 1 + next.2)
  if decide (Config.minLength ≤ here.2) && !defer then decide (t = .copy here.1 here.2)
  else decide (t = .literal (s.px p))

/-- BR_RLE's choice at position `p` (42_backward_refs R155). -/
def State.rleChoice (s : State) (p : Nat) (t : Token) : Bool :=
  let m := min (s.pixelCount - p) Config.maxLength
  let r := lcp s.px (p - 1) p m
  let u := if p < s.xs ∨ Config.windowSize < s.xs then 0 else lcp s.px (p - s.xs) p m
  if p = 0 then decide (t = .literal (s.px 0))
  else if u ≤ r ∧ Config.minLength ≤ r then decide (t = .copy 1 r)
  else if Config.minLength ≤ u then decide (t = .copy s.xs u)
  else decide (t = .literal (s.px p))

/-- Every token of a list from position `p` on is the one a choice makes. -/
def chosenBy (choice : Nat → Token → Bool) : Nat → List Token → Bool
  | _, [] => true
  | p, t :: ts => choice p t && chosenBy choice (p + t.len) ts

/-- A replay's choice for one token: a literal that hits becomes a cache reference, anything else stays
(42_backward_refs R165). -/
def replayChoice (f : Fns) (b : Nat) (c : CacheSlots) : Token → Token
  | .literal v =>
    if c.getD (ccIndex f v b) none = some v then .cacheRef (ccIndex f v b) else .literal v
  | .copy d l => .copy d l
  | .cacheRef k => .cacheRef k

/-- The stream a replay leaves, the cache stepped over every pixel of the image (42_backward_refs R165, R166). -/
def State.replayOf (s : State) (b : Nat) : CacheSlots → Nat → List Token → List Token
  | _, _, [] => []
  | c, p, t :: ts =>
    replayChoice s.fns b c t :: s.replayOf b (cacheInsertRun s.fns b s.px c p t.len) (p + t.len) ts

/-- The cache after every pixel of the image was inserted in raster order (42_backward_refs R166). -/
def State.imageCache (s : State) (b : Nat) : CacheSlots :=
  cacheInsertRun s.fns b s.px (cacheInit b) 0 s.pixelCount

/-- The stream CACHE_SEARCH judges at width `b`, and its histogram (43_color_cache R190). -/
def State.widthHisto (s : State) (ts : List Token) (b : Nat) : Except Nat Histo :=
  histogramOf s.fns s.xs (if b = 0 then ts else s.replayOf b (cacheInit b) 0 ts) b

/-- Every estimate CACHE_SEARCH compares exists and is a number (49_system R337). -/
def State.searchCosts (s : State) : Bool :=
  match s.curTokens with
  | .error _ => false
  | .ok ts =>
    (List.range (min 10 s.regs.reqCacheBits.toNat + 1)).all (fun b =>
      match s.widthHisto ts b with
      | .error _ => false
      | .ok h => decide (Bin64.value (h.estimateBits s.fns) ≠ .nan))

/-! ### The edges of the solver (44_optimal_parse R200, R204) -/

/-- The cache index at which the pixel of position `i` hits at width `b`, after every pixel before it was
inserted (44_optimal_parse R204, 42_backward_refs R166). -/
def State.hitAt (s : State) (b i : Nat) : Option Nat :=
  let k := ccIndex s.fns (s.px i) b
  if b ≠ 0 ∧ (cacheInsertRun s.fns b s.px (cacheInit b) 0 i).getD k none = some (s.px i) then some k else none

/-- A token of the solver: a copy of two or more takes the table's distance and no more than its length, a single
pixel is a cache reference exactly where the cache hits (44_optimal_parse R210, R211). -/
def State.solverChoice (s : State) (sel : TableSel) (p : Nat) : Token → Bool
  | .copy d l => decide (d = (s.hcEntry sel p).1 ∧ 2 ≤ l ∧ l ≤ (s.hcEntry sel p).2)
  | .cacheRef k => decide (s.hitAt s.regs.cacheBits.toNat p = some k)
  | .literal _ => decide (s.hitAt s.regs.cacheBits.toNat p = none)

/-- There is an edge of length `k` from position `i` on: the literal or cache edge, or a copy edge of the table
(44_optimal_parse R200). -/
def State.edgeOpen (s : State) (sel : TableSel) (i k : Nat) : Bool :=
  decide (k = 1 ∨ (1 ≤ i ∧ 2 ≤ k ∧ k ≤ (s.hcEntry sel i).2))

/-- The cost of the end of that edge when the pixels before `i` cost `before` (44_optimal_parse R204). -/
def State.edgeCost (s : State) (sel : TableSel) (m : CostModel) (before : Cost) (i k : Nat) : Cost :=
  if k = 1 then
    match s.hitAt s.regs.cacheBits.toNat i with
    | some idx => Bin64.add before (m.cache idx)
    | none => Bin64.add before (m.lit (s.px i))
  else Bin64.add (Bin64.add before (m.dist (distanceCode s.fns s.xs (s.hcEntry sel i).1))) (m.len k)

/-- What the pixels before position `i` cost: DPCOST[i - 1], and 0 before the first (44_optimal_parse R204). -/
def State.costBefore (t : State) (i : Nat) : Cost := if i = 0 then 0 else t.readElem .dpCost (i - 1)

/-- DPCOST and DPEDGE of position `j` are the cost and the length of a cheapest edge that ends there, and of
several equally cheap ones the longest (44_optimal_parse R204, R213). -/
def State.CheapestEnd (s t : State) (sel : TableSel) (m : CostModel) (j : Nat) : Prop :=
  let k := (t.readElem .dpEdge j).toNat
  1 ≤ k ∧ k ≤ j + 1 ∧ s.edgeOpen sel (j + 1 - k) k = true ∧
    t.readElem .dpCost j = s.edgeCost sel m (t.costBefore (j + 1 - k)) (j + 1 - k) k ∧
    ∀ i q, i + q = j + 1 → s.edgeOpen sel i q = true →
      Bin64.lt (s.edgeCost sel m (t.costBefore i) i q) (t.readElem .dpCost j) = false ∧
      (k < q → s.edgeCost sel m (t.costBefore i) i q ≠ t.readElem .dpCost j)

/-! ### What the matcher examines (41_hash_chain R134 to R138) -/

/-- `key[p]`, from the number of equal pixels that start at `p` (41_hash_chain R134). -/
def State.chainKeyAt (s : State) (p : Nat) : Option Nat :=
  chainKey s.fns (1 + lcp s.px p (p + 1) (s.pixelCount - 1 - p)) (s.px p) (s.px (p + 1))

/-- `prev[p]`, the most recent earlier position with the key of `p` (41_hash_chain R134). -/
def State.chainPrev (s : State) (p : Nat) : Option Nat :=
  (List.range p).reverse.find? (fun q => decide (s.chainKeyAt p ≠ none ∧ s.chainKeyAt q = s.chainKeyAt p))

/-- The search window at the present quality (41_hash_chain R132). -/
def State.window (s : State) : Nat := windowFor s.fns s.regs.quality.toNat s.xs

/-- The distances from `p` of the chain that goes on from `q`, at most `budget` of them, up to the first outside
the window (41_hash_chain R136). -/
def State.chainDistances (s : State) (p : Nat) : Nat → Nat → List Nat
  | 0, _ => []
  | budget + 1, q =>
    match s.chainPrev q with
    | none => []
    | some r => if p ≤ r + s.window then (p - r) :: s.chainDistances p budget r else []

/-- The distances a search at `p` examines (41_hash_chain R135, R136). -/
def State.examined (s : State) (p : Nat) : List Nat :=
  let budget := 8 + s.regs.quality.toNat * s.regs.quality.toNat / 128
  if s.lowEffort then s.chainDistances p budget p
  else if s.xs ≤ p ∧ s.xs ≤ s.window then s.xs :: 1 :: s.chainDistances p (budget - 2) p
  else 1 :: s.chainDistances p (budget - 1) p

/-- The number of pixels at `p` that equal those `d` before them, up to the largest length (00_scope R14). -/
def State.matchLength (s : State) (p d : Nat) : Nat := lcp s.px (p - d) p (min (s.pixelCount - p) 4095)

/-- `e` is the longest examined match at `p`, of equal lengths the nearest, or (0, 0) where none of them matches a
pixel (41_hash_chain R137). -/
def State.BestExamined (s : State) (p : Nat) (e : Nat × Nat) : Prop :=
  (e = (0, 0) ∧ ∀ d ∈ s.examined p, s.matchLength p d = 0) ∨
  (e.1 ∈ s.examined p ∧ e.2 = s.matchLength p e.1 ∧ 0 < e.2 ∧
    ∀ d ∈ s.examined p, s.matchLength p d ≤ e.2 ∧ (s.matchLength p d = e.2 → e.1 ≤ d))

/-- The match `e` of position `p + 1` holds one position to the left (41_hash_chain R138). -/
def State.carriesLeft (s : State) (p : Nat) (e : Nat × Nat) : Bool :=
  decide (e.1 ≠ 0 ∧ e.1 ≤ p ∧ s.px (p - e.1) = s.px p)

/-- An offset that HC_BOX tries at position `p` (42_backward_refs R160, R161). -/
def State.nearOffset (s : State) (p o : Nat) : Bool :=
  decide (1 ≤ o ∧ o ≤ Config.windowSize ∧ o ≤ p ∧ distanceCode s.fns s.xs o ≤ 32)

/-! ### Counts and codes -/

/-- The token counts one occurrence of a symbol in a table: a literal its channels in the tables of green, red,
blue and alpha, a cache reference and a copy's length in the first table, a copy's distance in the last
(30_encoding R103, 45_histogram R222). -/
def Token.counts (f : Fns) (xs : Nat) (tbl : Table) (sym : Nat) : Token → Bool
  | .literal p =>
    match tbl with
    | .combined => decide (sym = p.toNat / 2 ^ 8 % 2 ^ 8)
    | .red => decide (sym = p.toNat / 2 ^ 16 % 2 ^ 8)
    | .blue => decide (sym = p.toNat % 2 ^ 8)
    | .alpha => decide (sym = p.toNat / 2 ^ 24)
    | .distance => false
  | .cacheRef k => decide (tbl = .combined ∧ sym = 280 + k)
  | .copy d l =>
    decide ((tbl = .combined ∧ sym = 256 + (prefixEncode l).code) ∨
      (tbl = .distance ∧ sym = (prefixEncode (distanceCode f xs d)).code))

/-- A literal. -/
def Token.isLiteral : Token → Bool
  | .literal _ => true
  | .cacheRef _ | .copy _ _ => false

/-- A copy. -/
def Token.isCopy : Token → Bool
  | .copy _ _ => true
  | .literal _ | .cacheRef _ => false

/-- The five tables (10_state R36). -/
def Table.all : List Table := [.combined, .red, .blue, .alpha, .distance]

/-- The count of a symbol in table `t` of slot `h`, 0 outside the table's in-use part. -/
def State.count (s : State) (h : Nat) (t : Table) (sym : Nat) : Nat := (s.histTable h t).getD sym 0

/-- TRIVIAL of slot `h` marks exactly the tables with one nonzero count (10_state R38). -/
def State.MarksRight (t : State) (h : Nat) : Prop :=
  ∀ tbl sym, (t.slot h).trivialSym.get tbl = some sym ↔
    t.count h tbl sym ≠ 0 ∧ ∀ q, q ≠ sym → t.count h tbl q = 0

/-- Slot `h` after a command wrote its counts at a cache width (45_histogram R220): valid, costs and code
tables no longer valid, TRIVIAL recomputed, SINGLE and the costs kept. -/
def SlotCounted (s t : State) (h : Nat) (bits : BitVec 4) : Prop :=
  t.slot h = { s.slot h with
    hbits := bits, histValid := true, costValid := false, lenValid := false, codeValid := false
    trivialSym := (t.slot h).trivialSym } ∧ t.MarksRight h

/-- The tokens of the scratch buffer SCR (10_state R33). -/
def State.scrTokens (s : State) : Except Nat (List Token) := tokensOf 0 (s.bufferRun (!s.bufs.sel) s.bufs.scrLen)

/-- The sum of a count over the tile slots `first + g`, `g < n`, whose group is `k` (46_clustering R251). -/
def State.groupCount (s : State) (group : Nat → Nat) (k first n : Nat) (t : Table) (sym : Nat) : Nat :=
  (((List.range n).filter (fun g => group g == k)).map (fun g => s.count (first + g) t sym)).sum

/-- The grouping CLUSTER chooses for the tile slots from `first` on (46_clustering R252). -/
def State.tileChoice (s : State) (first : Nat) : Nat × List Nat :=
  clusterChoice s.fns ((List.range s.tileCount).map (fun g => s.histo (first + g)))

/-- The sum of a count over those of the first `n` tiles that CLUSTER puts into group `k` (46_clustering R251). -/
def State.chosenCount (s : State) (k first n : Nat) (t : Table) (sym : Nat) : Nat :=
  s.groupCount (fun g => (s.tileChoice first).2.getD g 0) k first n t sym

/-- No count of group `k` of the chosen grouping reaches 2^32 (46_clustering R251). -/
def State.GroupFits (s : State) (first k : Nat) : Prop :=
  ∀ t sym, s.chosenCount k first s.tileCount t sym < 2 ^ 32

/-- The sum of `2^(15 - l)` over the nonzero lengths: Kraft's sum in units of 2^-15 (47_huffman R272). -/
def kraftSum (lens : List Nat) : Nat := (lens.map (fun l => if l = 0 then 0 else 2 ^ (15 - l))).sum

/-- The code lengths of table `t` of slot `h`. -/
def State.lengths (s : State) (h : Nat) (t : Table) : List Nat := (s.codeTable h t).map codeLen

/-- The codeword of a symbol, first bit highest, from the stored reversed code (47_huffman R275). -/
def State.codeword (s : State) (h : Nat) (t : Table) (sym : Nat) : Nat :=
  reverseBits (codeBits (s.codeElem h t sym)) (codeLen (s.codeElem h t sym))

/-! ### Host access -/

/-- The reset value of each register as the host reads it (10_state R21). -/
def Reg.resetValue : Reg → Word
  | .id => 0x4C5A3737
  | .histoBits => 2
  | .numGroups => 1
  | .cmd | .status | .xsize | .ysize | .quality | .ctrl | .cacheBits | .reqCacheBits | .arg0 | .arg1
  | .threshLo | .threshHi | .result0 | .result1 | .tokCount | .errInfo | .abort | .cmdCount => 0

/-- The registers the host may write and read back (10_state R21). -/
def Reg.isReadWrite : Reg → Bool
  | .xsize | .ysize | .quality | .ctrl | .cacheBits | .reqCacheBits | .histoBits | .numGroups | .arg0 | .arg1
  | .threshLo | .threshHi => true
  | .cmd | .status | .id | .result0 | .result1 | .tokCount | .errInfo | .abort | .cmdCount => false

/-- The host's next operation is `op`, landing while the command runs if `early`. -/
def State.hostNext (s : State) (early : Bool) (op : HostOp) : Bool :=
  decide (s.env.host.head? = some { early := early, op := op })

/-- No operation of the host lands while the command runs. -/
def State.commandNext (s : State) : Bool :=
  match s.env.host with
  | [] => s.flags.busy
  | e :: _ => s.flags.busy && !e.early

/-- Everything but the environment and ABORT_PENDING is as before, and ABORT_PENDING only follows the abort
line: what an operation of the host without effect leaves (20_memory R65, R71, R73). -/
def SameCore (s t : State) : Prop :=
  t.caps = s.caps ∧ t.fns = s.fns ∧ t.regs = s.regs ∧
    t.flags = { s.flags with abortPending := s.flags.abortPending || s.env.abortLine } ∧
    t.bufs = s.bufs ∧ t.ccBits = s.ccBits ∧ t.writer = s.writer ∧ t.slots = s.slots ∧
    t.spaces = s.spaces ∧ t.pc = s.pc

end Sys2Proof.Machine
end

