-- ==== Sys2Proof/Laws/Command.lean ====
section
/-! SUPPORT. What the life cycle of a command can do, said once: the ends of `runCommand`, and the slots and
elements after each shared operation of Ops.lean. -/

namespace Sys2Proof.Machine

/-! ### The numbered checks -/

theorem firstFailing_none {l : List (Nat × Bool)} : firstFailing l = none ↔ ∀ c ∈ l, c.2 = false := by
  induction l with
  | nil => simp [firstFailing]
  | cons c l ih =>
    obtain ⟨n, b⟩ := c
    cases b <;> simp [firstFailing, ih]

/-- The number answered is that of a listed check that fails, every one before it passing. -/
theorem firstFailing_some {l : List (Nat × Bool)} {n : Nat} (h : firstFailing l = some n) :
    ∃ p q, l = p ++ (n, true) :: q ∧ ∀ c ∈ p, c.2 = false := by
  induction l with
  | nil => simp [firstFailing] at h
  | cons c l ih =>
    obtain ⟨k, b⟩ := c
    cases b
    · simp only [firstFailing] at h
      obtain ⟨p, q, hl, hp⟩ := ih h
      refine ⟨(k, false) :: p, q, by simp [hl], ?_⟩
      intro c hc
      rcases List.mem_cons.1 hc with rfl | hc
      · rfl
      · exact hp c hc
    · simp only [firstFailing, if_true, Option.some.injEq] at h
      subst h
      exact ⟨[], l, rfl, by simp⟩

/-! ### `runCommand` -/

theorem runCommand_illegal (o : Opcode) (checks : List (Nat × Bool)) (cap : Option Nat)
    (body : State → BodyEnd) (s : State) :
    runCommand o false checks cap body s = .next (s.raise o.byte .invalidParam 2) := by
  simp [runCommand]

theorem runCommand_error {o : Opcode} {checks : List (Nat × Bool)} {cap : Option Nat}
    {body : State → BodyEnd} {s : State} (h : s.flags.error = true) :
    runCommand o true checks cap body s = .next (s.raise o.byte .invalidParam 3) := by
  simp [runCommand, h]

theorem runCommand_aborted {o : Opcode} {checks : List (Nat × Bool)} {cap : Option Nat}
    {body : State → BodyEnd} {s : State} (h : s.flags.error = false) (ha : s.env.abortSampled = true) :
    runCommand o true checks cap body s = .next (s.raise o.byte .aborted 0) := by
  simp [runCommand, h, ha]

theorem State.accepts_iff {s : State} :
    s.accepts = true ↔ s.flags.error = false ∧ s.env.abortSampled = false := by
  simp [State.accepts]

theorem runCommand_check {o : Opcode} {checks : List (Nat × Bool)} {cap : Option Nat}
    {body : State → BodyEnd} {s : State} {n : Nat} (h : s.accepts = true)
    (hn : firstFailing checks = some n) :
    runCommand o true checks cap body s = .next (s.raise o.byte .invalidParam n) := by
  obtain ⟨h1, h2⟩ := State.accepts_iff.1 h
  simp [runCommand, h1, h2, hn]

theorem runCommand_capacity {o : Opcode} {checks : List (Nat × Bool)} {body : State → BodyEnd} {s : State}
    {space : Nat} (h : s.accepts = true) (hn : firstFailing checks = none) :
    runCommand o true checks (some space) body s = .next (s.raise o.byte .outOfMemory space) := by
  obtain ⟨h1, h2⟩ := State.accepts_iff.1 h
  simp [runCommand, h1, h2, hn]

/-- A command that passes every test ends as its pseudocode ends. -/
theorem runCommand_body {o : Opcode} {checks : List (Nat × Bool)} {cap : Option Nat}
    {body : State → BodyEnd} {s : State} (h : s.accepts = true) (hn : firstFailing checks = none)
    (hc : cap = none) :
    runCommand o true checks cap body s =
      .next (match body s with
        | .ok t => t.endOk
        | .fail e info t => t.raise o.byte e info) := by
  obtain ⟨h1, h2⟩ := State.accepts_iff.1 h
  subst hc
  simp only [runCommand, h1, h2, hn]
  rfl

theorem runCommand_ok {o : Opcode} {checks : List (Nat × Bool)} {cap : Option Nat}
    {body : State → BodyEnd} {s t : State} (h : s.accepts = true) (hn : firstFailing checks = none)
    (hc : cap = none) (hb : body s = .ok t) :
    runCommand o true checks cap body s = .next t.endOk := by
  rw [runCommand_body h hn hc, hb]

theorem runCommand_fail {o : Opcode} {checks : List (Nat × Bool)} {cap : Option Nat}
    {body : State → BodyEnd} {s t : State} {e : ErrorOutcome} {info : Nat} (h : s.accepts = true)
    (hn : firstFailing checks = none) (hc : cap = none) (hb : body s = .fail e info t) :
    runCommand o true checks cap body s = .next (t.raise o.byte e info) := by
  rw [runCommand_body h hn hc, hb]

/-- Everything a command that runs the checks can do. -/
theorem runCommand_cases {o : Opcode} {legal : Bool} {checks : List (Nat × Bool)} {cap : Option Nat}
    {body : State → BodyEnd} {s t : State} (h : runCommand o legal checks cap body s = .next t) :
    (∃ e info, t = s.raise o.byte e info ∧
      (legal = true → s.accepts = true → firstFailing checks = none → cap ≠ none)) ∨
    (legal = true ∧ s.accepts = true ∧ firstFailing checks = none ∧ cap = none ∧
      ((∃ u, body s = .ok u ∧ t = u.endOk) ∨
       (∃ e info u, body s = .fail e info u ∧ t = u.raise o.byte e info))) := by
  simp only [runCommand, Host.Outcome.next.injEq] at h
  subst h
  cases legal
  · exact .inl ⟨_, _, rfl, by simp⟩
  by_cases h1 : s.flags.error = true
  · exact .inl ⟨.invalidParam, 3, by simp [h1], by simp [State.accepts, h1]⟩
  by_cases h2 : s.env.abortSampled = true
  · exact .inl ⟨.aborted, 0, by simp [h1, h2], by simp [State.accepts, h2]⟩
  have ha : s.accepts = true := by simp [State.accepts, h1, h2]
  match hf : firstFailing checks with
  | some n => exact .inl ⟨.invalidParam, n, by simp [h1, h2], by simp⟩
  | none =>
    match cap with
    | some space => exact .inl ⟨.outOfMemory, space, by simp [h1, h2], by simp⟩
    | none =>
      refine .inr ⟨rfl, ha, rfl, rfl, ?_⟩
      match hb : body s with
      | .ok u => exact .inl ⟨u, rfl, by simp [h1, h2]⟩
      | .fail e info u => exact .inr ⟨e, info, u, rfl, by simp [h1, h2]⟩

/-! ### Slots and elements after the shared operations -/

@[simp] theorem State.slot_endOk (s : State) (h : Nat) : s.endOk.slot h = s.slot h := rfl
@[simp] theorem State.slot_endCommand (s : State) (h : Nat) : s.endCommand.slot h = s.slot h := rfl
@[simp] theorem State.slot_latchAbort (s : State) (h : Nat) : s.latchAbort.slot h = s.slot h := rfl
@[simp] theorem State.slot_startCommand (s : State) (w : Word) (h : Nat) :
    (s.startCommand w).slot h = s.slot h := rfl
@[simp] theorem State.slot_raise (s : State) (op : BitVec 8) (o : ErrorOutcome) (info h : Nat) :
    (s.raise op o info).slot h = (s.slot h).invalid := slot_invalidSlots s.slots h
@[simp] theorem State.slot_discardAttempt (s : State) (h : Nat) :
    s.discardAttempt.slot h = (s.slot h).invalid := slot_invalidSlots s.slots h
@[simp] theorem State.slot_beginAttempt (s : State) (h : Nat) :
    s.beginAttempt.slot h = (s.slot h).invalid := slot_invalidSlots s.slots h
@[simp] theorem State.slot_imageChanged (s : State) (h : Nat) :
    s.imageChanged.slot h = (s.slot h).invalid := slot_invalidSlots s.slots h

theorem State.readElem_congr {s t : State} (h : t.spaces = s.spaces) (sp : SpaceId) (i : Nat) :
    t.readElem sp i = s.readElem sp i := by
  cases sp <;> simp only [State.readElem, h]

theorem State.readElem_endOk (s : State) (sp : SpaceId) (i : Nat) :
    s.endOk.readElem sp i = s.readElem sp i := State.readElem_congr rfl sp i

theorem State.readElem_raise (s : State) (op : BitVec 8) (o : ErrorOutcome) (info : Nat) (sp : SpaceId)
    (i : Nat) : (s.raise op o info).readElem sp i = s.readElem sp i := State.readElem_congr rfl sp i

/-- A raise before any work (60_exceptions R344, R346). -/
theorem State.raise_atStart (s : State) (op : BitVec 8) (o : ErrorOutcome) (info : Nat) :
    RaisedAtStart s (s.raise op o info) op o info := by
  refine ⟨⟨?_, rfl, rfl, rfl, State.slot_raise s op o info, ⟨fun _ => rfl, fun _ _ => rfl⟩,
    rfl, rfl, rfl, s.env.freeCount, rfl⟩, rfl, rfl, ⟨rfl, rfl, rfl, rfl⟩,
    fun sp i _ => State.readElem_raise s op o info sp i⟩
  rw [State.raise_flags]
  rfl

/-! ### The sums of CLUSTER and the raise of EMIT_TOKENS -/

/-- Tiles that could all be added leave their sum. -/
theorem addTiles_ok {ts : List Histo} {acc h : Histo} (hs : addTiles acc ts = .ok h) :
    h = ts.foldl Histo.sum acc := by
  induction ts generalizing acc with
  | nil => simpa [addTiles] using hs.symm
  | cons t ts ih =>
    simp only [addTiles] at hs
    split at hs
    · cases hs
    · exact ih hs

/-- The offset raised is the lowest that overflows in the first addition that overflows at all. -/
theorem addTiles_error {ts : List Histo} {acc : Histo} {e : Nat} (hs : addTiles acc ts = .error e) :
    ∃ pre t post, ts = pre ++ t :: post ∧ addTiles acc pre = .ok (pre.foldl Histo.sum acc) ∧
      overflowAt ((pre.foldl Histo.sum acc).sum t).elements = some e := by
  induction ts generalizing acc with
  | nil => cases hs
  | cons t ts ih =>
    simp only [addTiles] at hs
    split at hs
    · rename_i e' he
      cases hs
      exact ⟨[], t, ts, rfl, rfl, he⟩
    · rename_i he
      obtain ⟨pre, u, post, rfl, hp, hu⟩ := ih hs
      exact ⟨t :: pre, u, post, rfl, by simpa [addTiles, he] using hp, hu⟩

/-- Groups that could all be summed hold the sums of their tiles. -/
theorem groupHistos_ok {bits : Nat} {tiles : List Histo} {map ks : List Nat} {hs : List Histo}
    (h : groupHistos bits tiles map ks = .ok hs) :
    hs = ks.map (fun k => (groupTiles k tiles map).foldl Histo.sum (histoZero bits)) := by
  induction ks generalizing hs with
  | nil => simpa [groupHistos] using h.symm
  | cons k ks ih =>
    simp only [groupHistos] at h
    split at h
    · cases h
    · rename_i v hv
      split at h
      · cases h
      · rename_i vs hvs
        cases h
        simp [addTiles_ok hv, ih hvs]

/-- The raise comes from the first group that overflows. -/
theorem groupHistos_error {bits e : Nat} {tiles : List Histo} {map ks : List Nat}
    (h : groupHistos bits tiles map ks = .error e) :
    ∃ pre k post hs, ks = pre ++ k :: post ∧ groupHistos bits tiles map pre = .ok hs ∧
      addTiles (histoZero bits) (groupTiles k tiles map) = .error e := by
  induction ks with
  | nil => cases h
  | cons k ks ih =>
    simp only [groupHistos] at h
    split at h
    · rename_i e' he
      cases h
      exact ⟨[], k, ks, [], rfl, rfl, he⟩
    · rename_i v hv
      split at h
      · rename_i e' he
        cases h
        obtain ⟨pre, j, post, hs, rfl, hp, hj⟩ := ih he
        exact ⟨k :: pre, j, post, v :: hs, rfl, by simp [groupHistos, hv, hp], hj⟩
      · cases h

/-- What a run-time raise of BW_FINISH or EMIT_TOKENS leaves of the state in which it is raised: all but bytes of OUT
and the number of free values drawn (48_bit_writer R310, 60_exceptions R346). -/
theorem failOut_eq (o : ErrorOutcome) (info : Nat) (start s : State) :
    failOut o info start s = .fail o info { s with
      spaces := (s.redrawOut start.writer.pos s.writer.pos).spaces
      env := (s.redrawOut start.writer.pos s.writer.pos).env } := rfl

/-! ### The canonical form -/

theorem Memory.wf_iff {s : State} :
    Memory.wf s = true ↔ s.spaces.wf = true ∧ risingFrom none s.slots = true := by
  simp [Memory.wf]

theorem Memory.wf_congr {s t : State} (h1 : t.spaces = s.spaces) (h2 : t.slots = s.slots) :
    Memory.wf t = Memory.wf s := by
  simp only [Memory.wf, h1, h2]

/-- The memory of the reset state is canonical. -/
theorem Memory.wf_reset : Memory.wf State.reset = true := by decide

@[simp] theorem Spaces.wf_redraw (p : Spaces) : p.redraw.wf = true := rfl

theorem Memory.wf_endOk (s : State) : Memory.wf s.endOk = Memory.wf s := rfl
theorem Memory.wf_endCommand (s : State) : Memory.wf s.endCommand = Memory.wf s := rfl
theorem Memory.wf_startCommand (s : State) (w : Word) : Memory.wf (s.startCommand w) = Memory.wf s := rfl
theorem Memory.wf_quiet (s : State) : Memory.wf s.quiet = Memory.wf s := rfl
theorem Memory.wf_writeAbort (s : State) (v : Word) : Memory.wf (s.writeAbort v) = Memory.wf s :=
  Memory.wf_congr (State.writeAbort_spaces s v) (State.writeAbort_slots s v)
theorem Memory.wf_answer (s : State) (v : BitVec 64) : Memory.wf (s.answer v) = Memory.wf s := rfl
theorem Memory.wf_answerFree (s : State) : Memory.wf s.answerFree = Memory.wf s := rfl
theorem Memory.wf_swapBuffers (s : State) : Memory.wf s.swapBuffers = Memory.wf s := rfl
theorem Memory.wf_setResult (s : State) (v : Word) : Memory.wf (s.setResult v) = Memory.wf s := rfl
theorem Memory.wf_setResultCost (s : State) (c : Cost) : Memory.wf (s.setResultCost c) = Memory.wf s := rfl

theorem Memory.wf_discardAttempt {s : State} (h : Memory.wf s = true) :
    Memory.wf s.discardAttempt = true := by
  rw [Memory.wf_iff] at *
  exact ⟨h.1, rising_invalidSlots h.2⟩

theorem Memory.wf_raise {s : State} (op : BitVec 8) (o : ErrorOutcome) (info : Nat) (h : Memory.wf s = true) :
    Memory.wf (s.raise op o info) = true := Memory.wf_discardAttempt h

theorem Memory.wf_beginAttempt {s : State} (h : Memory.wf s = true) : Memory.wf s.beginAttempt = true :=
  Memory.wf_discardAttempt h

theorem Memory.wf_imageChanged {s : State} (h : Memory.wf s = true) : Memory.wf s.imageChanged = true :=
  Memory.wf_discardAttempt h

theorem Memory.wf_softReset {s : State} (h : Memory.wf s = true) : Memory.wf s.softReset = true := by
  rw [Memory.wf_iff] at *
  exact ⟨h.1, rfl⟩

theorem Memory.wf_hardReset (s : State) : Memory.wf s.hardReset = true := rfl

theorem Memory.wf_setSlot {s : State} (k : Nat) (v : Slot) (h : Memory.wf s = true) :
    Memory.wf (s.setSlot k v) = true := by
  rw [Memory.wf_iff] at *
  exact ⟨h.1, rising_putCells k [v] h.2⟩

theorem Memory.wf_setSlots {s : State} (base : Nat) (vs : List Slot) (h : Memory.wf s = true) :
    Memory.wf (s.setSlots base vs) = true := by
  rw [Memory.wf_iff] at *
  exact ⟨h.1, rising_putCells base vs h.2⟩

/-- The canonical form of every space. -/
theorem Spaces.wf_iff {p : Spaces} :
    p.wf = true ↔ p.pix.wf = true ∧ p.hc0.wf = true ∧ p.hc1.wf = true ∧ p.tokA.wf = true ∧ p.tokB.wf = true ∧
      p.cc.wf = true ∧ p.hist.wf = true ∧ p.grpMap.wf = true ∧ p.htab.wf = true ∧ p.dpCost.wf = true ∧
      p.dpEdge.wf = true ∧ p.out.wf = true ∧ p.bitCost.wf = true ∧ p.tableCost.wf = true := by
  simp only [Spaces.wf, Bool.and_eq_true, and_assoc]

theorem Memory.wf_putTokens {s : State} (b : Bool) (ts : List Token) (h : Memory.wf s = true) :
    Memory.wf (s.putTokens b ts) = true := by
  rw [Memory.wf_iff, Spaces.wf_iff] at h
  cases b <;> simp only [State.putTokens, Memory.wf_iff, Spaces.wf_iff] <;> simp [h, Mem.wf_put]

theorem Memory.wf_redrawBuffer {s : State} (b : Bool) (h : Memory.wf s = true) :
    Memory.wf (s.redrawBuffer b) = true := by
  rw [Memory.wf_iff, Spaces.wf_iff] at h
  cases b <;> simp only [State.redrawBuffer, Memory.wf_iff, Spaces.wf_iff] <;> simp [h]

theorem Memory.wf_putCache {s : State} (b : Nat) (c : CacheSlots) (h : Memory.wf s = true) :
    Memory.wf (s.putCache b c) = true := by
  rw [Memory.wf_iff, Spaces.wf_iff] at h
  simp only [State.putCache, Memory.wf_iff, Spaces.wf_iff]
  simp [h, Mem.wf_put]

theorem Memory.wf_putHistos {s : State} (base : Nat) (hs : List Histo) (h : Memory.wf s = true) :
    Memory.wf (s.putHistos base hs) = true := by
  have hslots := (Memory.wf_iff.1 (Memory.wf_setSlots base
    (hs.zipIdx.map (fun c => (s.slot (base + c.2)).counted c.1)) h)).2
  rw [Memory.wf_iff, Spaces.wf_iff] at h
  simp only [State.putHistos, Memory.wf_iff, Spaces.wf_iff]
  simp only [State.setSlots_slots] at hslots
  simp [h, Mem.wf_put, hslots]

theorem Memory.wf_putCodes {s : State} (k : Nat) (p : PerTable (List Word)) (h : Memory.wf s = true) :
    Memory.wf (s.putCodes k p) = true := by
  rw [Memory.wf_iff, Spaces.wf_iff] at h
  simp only [State.putCodes, Memory.wf_iff, Spaces.wf_iff]
  simp [h, Mem.wf_put]

theorem Memory.wf_outBytes {s : State} (bs : List Byte) (h : Memory.wf s = true) :
    Memory.wf (s.outBytes bs) = true := by
  rw [Memory.wf_iff, Spaces.wf_iff] at h
  simp only [State.outBytes, Memory.wf_iff, Spaces.wf_iff]
  simp [h, Mem.wf_put]

theorem Memory.wf_redrawOut {s : State} (lo hi : Nat) (h : Memory.wf s = true) :
    Memory.wf (s.redrawOut lo hi) = true := by
  rw [Memory.wf_iff, Spaces.wf_iff] at h
  simp only [State.redrawOut, Memory.wf_iff, Spaces.wf_iff]
  simp [h, Mem.wf_put]

theorem Memory.wf_flushWord {s : State} (h : Memory.wf s = true) : Memory.wf s.flushWord = true := by
  unfold State.flushWord
  dsimp only
  split
  · exact Memory.wf_outBytes _ h
  · exact h

theorem Memory.wf_putBits {s : State} (v : BitVec 64) (n : Nat) (h : Memory.wf s = true) :
    Memory.wf (s.putBits v n) = true := by
  unfold State.putBits
  dsimp only
  split
  · exact Memory.wf_flushWord h
  · exact h

theorem Memory.wf_finishByte {s : State} (h : Memory.wf s = true) : Memory.wf s.finishByte = true := by
  unfold State.finishByte
  dsimp only
  split
  · exact Memory.wf_outBytes _ h
  · exact h

theorem Memory.wf_finishBytes (n : Nat) {s : State} (h : Memory.wf s = true) :
    Memory.wf (finishBytes n s) = true := by
  induction n generalizing s with
  | zero => exact h
  | succ n ih =>
    unfold finishBytes
    split
    · exact h
    · exact ih (Memory.wf_finishByte h)

theorem Memory.wf_writeElem {s : State} (sp : SpaceId) (i : Nat) (v : BitVec 64) (h : Memory.wf s = true) :
    Memory.wf (s.writeElem sp i v) = true := by
  have h' := h
  rw [Memory.wf_iff, Spaces.wf_iff] at h
  cases sp <;> simp only [State.writeElem] <;> first | exact h' | skip
  · apply Memory.wf_imageChanged
    simp only [Memory.wf_iff, Spaces.wf_iff]
    simp [h, Mem.wf_write]
  all_goals
    simp only [Memory.wf_iff, Spaces.wf_iff]
    simp [h, Mem.wf_write]

end Sys2Proof.Machine
end

