-- ==== Sys2Proof/Certificates/Slice0/Obligations.lean ====
section
/-! DEFINITION. The statements about CORE, for the provers. Unless a docstring says otherwise a command runs on
the state in which it was started (49_system R320), its operands those of the command word. -/

open Sys2Proof Sys2Proof.Machine

/-! ### Command words (30_encoding) -/

/-- A few words written out from the opcode table decode to the command they stand for, or to the check they
fail (30_encoding R91 to R94). -/
def Obligations.DecodeSamples : Prop :=
  decodeWord 0x00000000 = .ok .nop ∧ decodeWord 0x01000000 = .ok .softReset ∧
  decodeWord 0x10000000 = .ok .hcBuild ∧ decodeWord 0x20100000 = .ok (.brGreedy .hc1) ∧
  decodeWord 0x41200007 = .ok (.histBuild .perGroup 7) ∧ decodeWord 0x4500FFFF = .ok (.cluster 0xFFFF) ∧
  decodeWord 0x61000020 = .ok (.bwPut 32) ∧ decodeWord 0x63100003 = .ok (.emitTokens .perTile 3) ∧
  decodeWord 0x7000000A = .ok (.ccInit 10) ∧
  decodeWord 0x22000000 = .error (.unknownOpcode 0x22) ∧
  decodeWord 0x20200000 = .error (.illegalField 0x20) ∧ decodeWord 0x41300000 = .error (.illegalField 0x41) ∧
  decodeWord 0x61000021 = .error (.illegalField 0x61) ∧ decodeWord 0x7000000B = .error (.illegalField 0x70) ∧
  decodeWord 0x00010000 = .error (.illegalField 0x00)

/-- Decoding the word of a well-formed command gives it back, for every command and every operand value the
encoding admits (30_encoding R91 to R93). -/
def Obligations.DecodeEncode : Prop :=
  ∀ i : Instr, i.wf = true → decodeWord (encode i) = .ok i

/-- A word that decodes is the word of the command it decodes to, which is well formed: every bit of the word
is read (30_encoding R91 to R94). -/
def Obligations.EncodeDecode : Prop :=
  ∀ (w : Word) (i : Instr), decodeWord w = .ok i → encode i = w ∧ i.wf = true

/-- While a command runs and no operation of the host lands in it, a step executes the command that the word in
CMD decodes to; `withFetchWord` sets up such a state for any word (49_system R320, 30_encoding R92). When a host
operation lands is the model's choice (log 2). -/
def Obligations.StepRunsDecoded : Prop :=
  (∀ (s : State) (i : Instr), s.commandNext = true → decodeWord s.regs.cmd = .ok i → step s = exec i s) ∧
  ∀ (s : State) (nbits w : Nat) (i : Instr), decodeTableWord nbits w = some i →
    step (s.withFetchWord nbits w) = exec i (s.withFetchWord nbits w)

/-- An illegal word does no work and ends with INVALID_PARAM: check 1 where no command has its opcode, else
check 2 (30_encoding R94, 60_exceptions R349). That an illegal word of HC_BUILD clears HC0_VALID, in the error
state too, is the model's reading (log 13), and when a host operation lands its choice (log 2). -/
def Obligations.IllegalWordEnds : Prop :=
  ∀ s : State, s.commandNext = true → (∀ i : Instr, i.wf = true → encode i ≠ s.regs.cmd) →
    ∃ t, step s = .next t ∧
      ((∀ o : Opcode, o.byte ≠ opField s.regs.cmd) →
        RaisedAtStart s t (opField s.regs.cmd) .invalidParam 1) ∧
      ((∃ o : Opcode, o.byte = opField s.regs.cmd) →
        RaisedAtStart s t (opField s.regs.cmd) .invalidParam 2)

/-! ### Life cycle and outcomes (49_system, 60_exceptions) -/

/-- A write of CMD while BUSY = 0 starts a command: BUSY rises, DONE and ERRCODE clear, the abort request is
sampled, ERROR and everything else stay (49_system R320). That the start is a transition of its own, where R320
lets a model make the start and the work one, is the model's choice (log 2); so are the completion pulse of the
command before, which ends here (log 18), and the field that marks a line still high as a request for the next
command (log 26). -/
def Obligations.CommandStart : Prop :=
  ∀ (s : State) (e : Bool) (w : Word), s.flags.busy = false → s.hostNext e (.regWrite 0x00 w) = true →
    ∃ t, step s = .next t ∧ t.regs = { s.regs with cmd := w } ∧
      t.flags = { s.flags with
        busy := true, done := false, errCode := 0
        abortPending := s.flags.abortPending || s.env.abortLine } ∧
      t.env = { s.env with
        host := s.env.host.tail, irqPulse := false
        abortSampled := s.flags.abortPending || s.env.abortLine, abortLate := s.env.abortLine } ∧
      t.caps = s.caps ∧ t.fns = s.fns ∧ t.bufs = s.bufs ∧ t.ccBits = s.ccBits ∧ t.writer = s.writer ∧
      t.slots = s.slots ∧ t.spaces = s.spaces ∧ t.pc = s.pc

/-- Every command ends: with DONE, ERRCODE 0 and ERRINFO 0, or with one of the four error codes, its opcode and
ERROR; BUSY falls, `pc` and CMD_COUNT advance by one, CMD_COUNT but after SOFT_RESET (49_system R320, R322,
60_exceptions R341, R346, 70_reset R403). -/
def Obligations.EveryCommandEnds : Prop :=
  ∀ (s : State) (i : Instr), ∃ t, exec i s = .next t ∧ t.flags.busy = false ∧
    (t.flags.errCode = 0 → t.flags.done = true ∧ t.regs.errInfo = 0) ∧
    (t.flags.errCode ≠ 0 → t.flags.done = false ∧ t.flags.error = true ∧ t.flags.errOp = i.opcode.byte) ∧
    t.flags.errCode.toNat ≤ 4 ∧ t.pc = s.pc + 1 ∧
    t.regs.cmdCount = (if i = .softReset then 0 else s.regs.cmdCount + 1)

/-- In the error state every command but NOP, SOFT_RESET and ATTEMPT_BEGIN fails check 3, an abort pending or
not (60_exceptions R348, R357). That HC_BUILD clears HC0_VALID there too is the model's reading (log 13). -/
def Obligations.ErrorStateRefuses : Prop :=
  ∀ (s : State) (i : Instr), i.wf = true → i.abortable = true → s.flags.error = true →
    ∃ t, exec i s = .next t ∧ RaisedAtStart s t i.opcode.byte .invalidParam 3

/-- Outside the error state an abort sampled at the start is taken by every command but NOP, SOFT_RESET and
ATTEMPT_BEGIN: no work, ABORTED, ERRINFO 0, and ABORT_PENDING clears unless the line is high or a request was
raised since the start, which waits for the next command (60_exceptions R346, R348, R352, R353; the field that
marks such a request is the model's, log 26). -/
def Obligations.AbortTaken : Prop :=
  ∀ (s : State) (i : Instr), i.wf = true → i.abortable = true → s.flags.error = false →
    s.env.abortSampled = true →
    ∃ t, exec i s = .next t ∧ RaisedAtStart s t i.opcode.byte .aborted 0 ∧
      t.flags.abortPending = (s.env.abortLate || s.env.abortLine)

/-- A command runs exactly the numbered checks that 60_exceptions R350 lists for it, in numeric order: the
first of them that fails ends it with INVALID_PARAM and that number, no work done, and when none fails it does
not end with INVALID_PARAM (60_exceptions R348, R349). -/
def Obligations.ChecksInOrder : Prop :=
  (∀ (s : State) (i : Instr) (n : Nat), i.wf = true → i.abortable = true → s.accepts = true →
    n ∈ i.checks → s.fails i n = true → (∀ m ∈ i.checks, m < n → s.fails i m = false) →
    ∃ t, exec i s = .next t ∧ RaisedAtStart s t i.opcode.byte .invalidParam n) ∧
  ∀ (s t : State) (i : Instr), i.wf = true → i.abortable = true → s.accepts = true →
    s.checksPass i = true → exec i s = .next t → t.flags.errCode ≠ 2

/-- After the checks, a command whose start-time capacity test fails does no work and ends with OUT_OF_MEMORY
and the number of the space (60_exceptions R343, R348). -/
def Obligations.StartCapacity : Prop :=
  ∀ (s : State) (i : Instr) (space : Nat), i.wf = true → i.abortable = true → s.accepts = true →
    s.checksPass i = true → s.overCapacity i = some space →
    ∃ t, exec i s = .next t ∧ RaisedAtStart s t i.opcode.byte .outOfMemory space

/-- Whatever command ends with INVALID_PARAM did none of its work (60_exceptions R344). That HC_BUILD clears
HC0_VALID then, in the error state too, is the model's reading (log 13). -/
def Obligations.InvalidParamDoesNoWork : Prop :=
  ∀ (s t : State) (i : Instr), exec i s = .next t → t.flags.errCode = 2 →
    ∃ n, 2 ≤ n ∧ n ≤ 21 ∧ RaisedAtStart s t i.opcode.byte .invalidParam n

/-- Only ATTEMPT_BEGIN, SOFT_RESET and the hardware reset leave the error state (60_exceptions R357, R358). -/
def Obligations.OnlyResetsLeaveError : Prop :=
  ∀ s t : State, s.flags.error = true → step s = .next t → t.flags.error = false →
    (s.commandNext = true ∧
      (decodeWord s.regs.cmd = .ok .attemptBegin ∨ decodeWord s.regs.cmd = .ok .softReset)) ∨
    ∃ e, s.hostNext e .hardReset = true

/-- No command, whatever its outcome, changes a space outside the W entries of its row of 20_memory R66. -/
def Obligations.WritesOnlyItsSpaces : Prop :=
  ∀ (s t : State) (i : Instr), exec i s = .next t →
    ∀ sp, sp ∉ s.mayWrite i → ∀ j, t.readElem sp j = s.readElem sp j

/-- The completion pulse follows the end of every command, with or without error, when CTRL.DONE_IE is set, but
not the end of SOFT_RESET; it lasts one step (49_system R322, R333; that a pulse lasts one step is the model's
choice, log 18). -/
def Obligations.CompletionPulse : Prop :=
  (∀ (s t : State) (i : Instr), exec i s = .next t →
    t.env.irqPulse = (s.regs.ctrl.getLsbD 2 && decide (i ≠ .softReset))) ∧
  ∀ s t : State, s.flags.busy = false → step s = .next t → t.env.irqPulse = false

/-! ### The invariant of every step -/

/-- Every step keeps the invariant: memory in canonical form and within its spaces, the life cycle of STATUS,
the error state empty, lengths and widths within their bounds, the writer invariant, and valid bits in order
(20_memory R63, 49_system R320, 60_exceptions R346, 48_bit_writer R291, 47_huffman R277). -/
def Obligations.InvariantKept : Prop :=
  ∀ s t : State, s.invariant = true → step s = .next t → t.invariant = true

/-- The state after hardware reset has the invariant, and its valid bits promise nothing false (10_state R50,
70_reset R380). The capacities of `State.reset` are the model's choice (log 5). -/
def Obligations.InvariantAtReset : Prop :=
  State.reset.invariant = true ∧ State.reset.faithful = true

/-- Every step keeps what the valid bits promise: a valid table holds only true matches, a valid token buffer
codes the image exactly, cache references included (10_state R32, R33, R35, 20_memory R84). -/
def Obligations.FaithfulKept : Prop :=
  ∀ s t : State, s.invariant = true → s.faithful = true → step s = .next t → t.faithful = true

/-! ### Reset, host access (10_state, 20_memory, 70_reset) -/

/-- After hardware reset every register holds its reset value, STATUS is 0, the hidden state is 0 and every
valid bit of every slot is clear; so it is in `State.reset` (10_state R21, R50, 70_reset R380). -/
def Obligations.ResetValues : Prop :=
  let clear := fun t : State => (∀ r : Reg, t.regValue r = r.resetValue) ∧ t.flags.word = 0 ∧
    t.bufs = Buffers.reset ∧ t.ccBits = 0 ∧ t.writer = Writer.reset ∧ t.pc = 0 ∧
    ∀ h, (t.slot h).histValid = false ∧ (t.slot h).costValid = false ∧ (t.slot h).lenValid = false ∧
      (t.slot h).codeValid = false
  clear State.reset ∧
  ∀ (s : State) (e : Bool), s.hostNext e .hardReset = true → (s.flags.busy = true → e = true) →
    ∃ t, step s = .next t ∧ clear t ∧ t.caps = s.caps ∧ t.fns = s.fns

/-- A host write to any element of PIX, or to XSIZE or YSIZE, clears every valid bit derived from the image and
nothing else of STATUS or the slots; a write to GRPMAP or OUT, or to any other read-write register, only stores
and clears nothing (10_state R46, 20_memory R65). -/
def Obligations.ImageStaleness : Prop :=
  (∀ (s : State) (e : Bool) (op : HostOp), s.flags.busy = false → s.hostNext e op = true →
    ((∃ w, op = .regWrite 0x0C w ∨ op = .regWrite 0x10 w) ∨
      ∃ i v, op = .spaceWrite .pix i v ∧ i < s.caps.nMax) →
    ∃ t, step s = .next t ∧
      t.flags = { s.flags with
        hc0Valid := false, hc1Valid := false, curValid := false, scrValid := false, curHasCache := false
        abortPending := s.flags.abortPending || s.env.abortLine } ∧
      (∀ h, t.slot h = (s.slot h).invalid) ∧ SameCosts s t ∧ SameHidden s t ∧ t.pc = s.pc) ∧
  ∀ (s : State) (e : Bool) (op : HostOp), s.flags.busy = false → s.hostNext e op = true →
    ((∃ off w, op = .regWrite off w ∧ off ∈ [0x14#8, 0x18#8, 0x1C#8, 0x20#8, 0x24#8, 0x28#8,
        0x2C#8, 0x30#8, 0x34#8, 0x38#8]) ∨
      ∃ i v, (op = .spaceWrite .grpMap i v ∧ i < s.caps.nMax) ∨
        (op = .spaceWrite .out i v ∧ i < s.caps.outCap)) →
    ∃ t, step s = .next t ∧
      t.flags = { s.flags with abortPending := s.flags.abortPending || s.env.abortLine } ∧
      t.slots = s.slots ∧ SameCosts s t ∧ SameHidden s t ∧ t.pc = s.pc

/-- While a command runs, every register write but of ABORT and every space write is dropped; a write of ABORT
with bit 0 set requests an abort at any time, of the next command while one runs, and without bit 0 it does
nothing (20_memory R71, R73, 60_exceptions R352, R353; the field that marks the former is the model's, log 26). -/
def Obligations.BusyDropsWrites : Prop :=
  (∀ (s : State) (op : HostOp), s.flags.busy = true → s.hostNext true op = true →
    ((∃ off w, op = .regWrite off w ∧ off ≠ 0x4C) ∨ ∃ sp i v, op = .spaceWrite sp i v ∧ i < s.spaceSize sp) →
    ∃ t, step s = .next t ∧ SameCore s t) ∧
  ∀ (s : State) (e : Bool) (w : Word), (s.flags.busy = true → e = true) →
    s.hostNext e (.regWrite 0x4C w) = true →
    ∃ t, step s = .next t ∧
      if w.getLsbD 0 = true then
        t.flags = { s.flags with abortPending := true } ∧
          t.env.abortLate = (s.env.abortLate || s.flags.busy) ∧ t.regs = s.regs ∧ t.slots = s.slots ∧
          t.spaces = s.spaces ∧ SameHidden s t ∧ t.pc = s.pc
      else SameCore s t

/-- Host reads have no side effect. A register read answers the register's value, 0 at an unassigned offset,
a space read the element and an info read the hidden state; while a command runs this still holds of info reads
and of every register but RESULT0, RESULT1, TOK_COUNT and ERRINFO (20_memory R62, R64, R65, R71 to R73). That an
info read then shows the state as the command found it is the model's reading (log 4); that STATUS then shows the
valid bits as the command found them, those too which the command clears first, is the model's choice (log 27). -/
def Obligations.HostReadsChangeNothing : Prop :=
  ∀ (s : State) (e : Bool), (s.flags.busy = true → e = true) →
    (∀ off, s.hostNext e (.regRead off) = true → ∃ t, step s = .next t ∧ SameCore s t ∧
      (∀ r : Reg, r.offset = off → s.flags.busy = false ∨ r.isResult = false →
        t.env.readData = (s.regValue r).setWidth 64) ∧
      ((∀ r : Reg, r.offset ≠ off) → t.env.readData = 0)) ∧
    (∀ sp i, i < s.spaceSize sp → s.hostNext e (.spaceRead sp i) = true → ∃ t, step s = .next t ∧
      SameCore s t ∧ (s.flags.busy = false → t.env.readData = s.readElem sp i)) ∧
    ∀ sel, s.hostNext e (.infoRead sel) = true → ∃ t, step s = .next t ∧ SameCore s t ∧
      t.env.readData = (s.infoValue sel).setWidth 64

/-- While no command runs, a write of a read-write register stores, and reads back, the value and changes no
other register but STATUS; a write of a read-only register or at an unassigned offset changes nothing
(10_state R21, 20_memory R64, R71). -/
def Obligations.RegisterAccess : Prop :=
  ∀ (s : State) (e : Bool) (off : BitVec 8) (w : Word), s.flags.busy = false →
    s.hostNext e (.regWrite off w) = true →
    (∀ r : Reg, r.offset = off → r.isReadWrite = true → ∃ t, step s = .next t ∧ t.regValue r = w ∧
      (∀ q : Reg, q ≠ r → q ≠ .status → t.regValue q = s.regValue q) ∧ t.spaces = s.spaces ∧
      SameHidden s t ∧ t.pc = s.pc) ∧
    ((∀ r : Reg, r.offset = off → r.isReadWrite = false ∧ r ≠ .cmd ∧ r ≠ .abort) →
      ∃ t, step s = .next t ∧ SameCore s t)

/-- While no command runs, the host's write of an element of PIX, GRPMAP or OUT stores it and changes no other
element; its write to any other space is dropped (20_memory R63, R73). That a value wider than the element is cut to
the element's width is the model's choice (log 28). -/
def Obligations.SpaceAccess : Prop :=
  ∀ (s : State) (e : Bool) (sp : SpaceId) (i : Nat) (v : BitVec 64), s.flags.busy = false →
    s.hostNext e (.spaceWrite sp i v) = true → i < s.spaceSize sp →
    ∃ t, step s = .next t ∧
      if sp = .pix ∨ sp = .grpMap ∨ sp = .out then
        t.readElem sp i =
          v &&& (if sp = .pix then 0xFFFFFFFF#64 else if sp = .grpMap then 0xFFFF#64 else 0xFF#64) ∧
        SameElems (fun q j => q = sp ∧ j = i) s t ∧ t.regs = s.regs ∧ SameHidden s t ∧ SameCosts s t ∧
        t.pc = s.pc
      else SameCore s t

/-- What the info window shows at every selector: the hidden state, and 0 at unassigned selectors and in unnamed
bits (20_memory R72). That it shows the same while a command runs is the model's reading (log 4). -/
def Obligations.InfoWindow : Prop :=
  ∀ (s : State) (e : Bool) (sel : Nat), (s.flags.busy = true → e = true) →
    s.hostNext e (.infoRead sel) = true →
    ∃ t, step s = .next t ∧
      let v : Word := t.env.readData.setWidth 32
      (sel = 0x000 → v = if s.bufs.sel then 1 else 0) ∧ (sel = 0x001 → v = BitVec.ofNat 32 s.bufs.curLen) ∧
      (sel = 0x002 → v = BitVec.ofNat 32 s.bufs.scrLen) ∧ (sel = 0x003 → v.toNat = s.ccBits.toNat) ∧
      (sel = 0x004 → v = s.writer.acc.extractLsb' 0 32) ∧ (sel = 0x005 → v = s.writer.acc.extractLsb' 32 32) ∧
      (sel = 0x006 → v = BitVec.ofNat 32 s.writer.used) ∧ (sel = 0x007 → v = BitVec.ofNat 32 s.writer.pos) ∧
      (sel = 0x008 → v = BitVec.ofNat 32 s.caps.nMax) ∧ (sel = 0x009 → v = BitVec.ofNat 32 s.caps.tokCap) ∧
      (sel = 0x00A → v = BitVec.ofNat 32 s.caps.hMax) ∧ (sel = 0x00B → v = BitVec.ofNat 32 s.caps.outCap) ∧
      (sel = 0x00C → v.toNat = s.bufs.curBits.toNat + 16 * s.bufs.scrBits.toNat) ∧
      (∀ h, h < s.caps.hMax →
        (sel = 0x100 + 32 * h → v.extractLsb' 0 4 = (s.slot h).hbits ∧ v.getLsbD 8 = (s.slot h).histValid ∧
          v.getLsbD 9 = (s.slot h).costValid ∧ v.getLsbD 10 = (s.slot h).lenValid ∧
          v.getLsbD 11 = (s.slot h).codeValid ∧ v.extractLsb' 4 4 = 0 ∧ v.extractLsb' 12 20 = 0) ∧
        (∀ k, k ∈ [1, 14, 15, 21, 22, 23, 29, 30, 31] → sel = 0x100 + 32 * h + k → v = 0) ∧
        (sel = 0x100 + 32 * h + 2 → v = (s.bitCostOf h).extractLsb' 0 32) ∧
        (sel = 0x100 + 32 * h + 3 → v = (s.bitCostOf h).extractLsb' 32 32) ∧
        ∀ tbl : Table,
          (sel = 0x100 + 32 * h + 4 + 2 * tbl.index → v = (s.tableCostOf h tbl.index).extractLsb' 0 32) ∧
          (sel = 0x100 + 32 * h + 5 + 2 * tbl.index → v = (s.tableCostOf h tbl.index).extractLsb' 32 32) ∧
          (sel = 0x100 + 32 * h + 16 + tbl.index → v = match (s.slot h).trivialSym.get tbl with
            | none => 0
            | some sym => BitVec.ofNat 32 (2 ^ 31 + sym % 2 ^ 11)) ∧
          (sel = 0x100 + 32 * h + 24 + tbl.index → v = match (s.slot h).single.get tbl with
            | none => 0
            | some sym => BitVec.ofNat 32 (2 ^ 31 + sym % 2 ^ 11))) ∧
      ((0x00C < sel ∧ sel < 0x100) ∨ 0x100 + 32 * s.caps.hMax ≤ sel → v = 0)

/-- The places of the fields of STATUS (10_state R22). -/
def Obligations.StatusLayout : Prop :=
  ∀ f : Flags, f.word.getLsbD 0 = f.busy ∧ f.word.getLsbD 1 = f.done ∧ f.word.getLsbD 2 = f.error ∧
    f.word.getLsbD 3 = f.bwErr ∧ f.word.getLsbD 4 = f.hc0Valid ∧ f.word.getLsbD 5 = f.hc1Valid ∧
    f.word.getLsbD 6 = f.curValid ∧ f.word.getLsbD 7 = f.scrValid ∧ f.word.getLsbD 8 = f.bwOpen ∧
    f.word.getLsbD 9 = f.abortPending ∧ f.word.getLsbD 10 = f.ccHit ∧ f.word.getLsbD 11 = f.combineOk ∧
    f.word.getLsbD 12 = f.dpImproved ∧ f.word.getLsbD 13 = f.curHasCache ∧ f.word.extractLsb' 14 2 = 0 ∧
    f.word.extractLsb' 16 4 = f.errCode ∧ f.word.extractLsb' 20 8 = f.errOp ∧ f.word.extractLsb' 28 4 = 0

/-! ### System commands (49_system) -/

/-- NOP does nothing but end: ERROR, ERR_OP and ABORT_PENDING stay, in the error state too (49_system R321). -/
def Obligations.NopEffect : Prop :=
  ∀ s : State, ∃ t, exec .nop s = .next t ∧ t.regs = s.okRegs ∧ t.flags = s.okFlags ∧ SameHidden s t ∧
    t.slots = s.slots ∧ t.spaces = s.spaces ∧ Ended s t

/-- SOFT_RESET gives every register and hidden field its reset value and leaves every space as it is; it ends
with DONE, is not counted and raises no pulse (49_system R322, 10_state R50, R51). That the costs of the slots stay
is the model's choice (log 9), and that an abort request which landed while it ran stays (log 26). -/
def Obligations.SoftResetEffect : Prop :=
  ∀ s : State, ∃ t, exec .softReset s = .next t ∧ t.regs = Regs.reset ∧
    (∀ r : Reg, r ≠ .status → t.regValue r = r.resetValue) ∧
    t.flags = { Flags.reset with done := true, abortPending := s.env.abortLate || s.env.abortLine } ∧
    t.bufs = Buffers.reset ∧ t.ccBits = 0 ∧ t.writer = Writer.reset ∧
    (∀ h, (t.slot h).histValid = false ∧ (t.slot h).costValid = false ∧ (t.slot h).lenValid = false ∧
      (t.slot h).codeValid = false) ∧ SameCosts s t ∧ SameElems noElems s t ∧
    t.caps = s.caps ∧ t.fns = s.fns ∧ t.pc = s.pc + 1 ∧
    t.env = { s.env with abortSampled := false, abortLate := false, irqPulse := false }

/-- ATTEMPT_BEGIN drops the state of the attempt and leaves the error state; HC0 with its valid bit, the
parameter and result registers and TOKSEL stay (49_system R323). That an abort request which landed while it ran
stays is the model's choice (log 26). -/
def Obligations.AttemptBeginEffect : Prop :=
  ∀ s : State, ∃ t, exec .attemptBegin s = .next t ∧ t.regs = s.okRegs ∧
    t.flags = { Flags.reset with
      done := true, hc0Valid := s.flags.hc0Valid, abortPending := s.env.abortLate || s.env.abortLine } ∧
    t.bufs = s.bufs.emptied ∧ t.ccBits = 0 ∧ t.writer = Writer.reset ∧
    (∀ h, t.slot h = (s.slot h).invalid) ∧ SameCosts s t ∧ SameElems noElems s t ∧ Ended s t

/-! ### Hash chain and Box tables (41_hash_chain, 42_backward_refs) -/

/-- HC_BUILD fills HC0 with true matches within the window of the present quality, zero at both ends, and sets
HC0_VALID. Where the match of the next position holds one pixel further left, the entry is that match grown by one,
capped at 4095; a match that is capped already may instead give way to a new search, but not at distance 1. At
every other position the entry is the longest match among the distances the search examines, of equal lengths the
nearest; so with LOW_EFFORT = 0 a pixel equal to its left neighbour always has a match (41_hash_chain R131, R134 to
R140). At which capped position the new search runs is not stated. -/
def Obligations.HcBuildTable : Prop :=
  ∀ s : State, s.starts .hcBuild = true → Memory.wf s = true →
    ∃ t, exec .hcBuild s = .next t ∧ t.regs = s.okRegs ∧ t.flags = { s.okFlags with hc0Valid := true } ∧
      SameHidden s t ∧ OnlyWrites (fun sp i => sp = .hc0 ∧ i < s.pixelCount) noSlots s t ∧
      t.hcEntry .hc0 0 = (0, 0) ∧ t.hcEntry .hc0 (s.pixelCount - 1) = (0, 0) ∧
      windowFor s.fns s.regs.quality.toNat s.xs ≤ Config.windowSize ∧
      ∀ p d l, p < s.pixelCount → t.hcEntry .hc0 p = (d, l) →
        (l = 0 ↔ d = 0) ∧
        (0 < l → 1 ≤ d ∧ d ≤ p ∧ d ≤ windowFor s.fns s.regs.quality.toNat s.xs ∧
          l ≤ min (s.pixelCount - p) 4095 ∧ ∀ j, j < l → s.px (p - d + j) = s.px (p + j)) ∧
        (1 ≤ p → p + 2 ≤ s.pixelCount →
          let right := t.hcEntry .hc0 (p + 1)
          (if s.carriesLeft p right = true then
            (right.2 < 4095 → (d, l) = (right.1, right.2 + 1)) ∧
            (right.2 = 4095 → (d, l) = right ∨ (right.1 ≠ 1 ∧ s.BestExamined p (d, l)))
          else s.BestExamined p (d, l)) ∧
          (s.lowEffort = false → s.px p = s.px (p - 1) → 0 < l))

/-- The table HC_BUILD leaves is a function of the pixels, the width, the height, the quality, LOW_EFFORT and
the configuration functions: whatever else differs between two states, it is the same (41_hash_chain R130). -/
def Obligations.HcBuildPure : Prop :=
  ∀ s u : State, s.starts .hcBuild = true → u.starts .hcBuild = true → Memory.wf s = true →
    Memory.wf u = true → s.fns = u.fns → s.regs.xsize = u.regs.xsize → s.regs.ysize = u.regs.ysize →
    s.regs.quality = u.regs.quality → s.lowEffort = u.lowEffort →
    (∀ p, p < s.pixelCount → s.px p = u.px p) →
    ∃ t v, exec .hcBuild s = .next t ∧ exec .hcBuild u = .next v ∧
      ∀ p, p < s.pixelCount → t.readElem .hc0 p = v.readElem .hc0 p

/-- HC_BOX fills HC1 with true matches of length at least 4 at distances whose code is at most 32, hence with a
distance prefix code of at most 9 and at most 3 extra bits, and sets HC1_VALID. The entry of a position is the
longest match among those distances, of equal lengths the one of least code, and (0, 0) exactly where none of them
matches 4 pixels (42_backward_refs R160, R161, R163). -/
def Obligations.HcBoxTable : Prop :=
  ∀ s : State, s.starts .hcBox = true →
    ∃ t, exec .hcBox s = .next t ∧ t.regs = s.okRegs ∧ t.flags = { s.okFlags with hc1Valid := true } ∧
      SameHidden s t ∧ OnlyWrites (fun sp i => sp = .hc1 ∧ i < s.pixelCount) noSlots s t ∧
      ∀ p o l, p < s.pixelCount → t.hcEntry .hc1 p = (o, l) →
        (0 < l →
          1 ≤ o ∧ o ≤ Config.windowSize ∧ distanceCode s.fns s.xs o ≤ 32 ∧ o ≤ p ∧ 4 ≤ l ∧
          l ≤ min (s.pixelCount - p) 4095 ∧ (∀ j, j < l → s.px (p - o + j) = s.px (p + j)) ∧
          (distancePrefix s.fns s.xs o).code ≤ 9 ∧ (distancePrefix s.fns s.xs o).nbits ≤ 3) ∧
        ((∀ q, s.nearOffset p q = true → s.matchLength p q < 4) → o = 0 ∧ l = 0) ∧
        ∀ q, s.nearOffset p q = true → 4 ≤ s.matchLength p q →
          s.nearOffset p o = true ∧ l = s.matchLength p o ∧ s.matchLength p q ≤ l ∧
            (s.matchLength p q = l → distanceCode s.fns s.xs o ≤ distanceCode s.fns s.xs q)

/-! ### Builders, cache replay, swap (42_backward_refs) -/

/-- BR_GREEDY on a table of true matches leaves in CUR a valid token sequence without cache references whose
every token is the one its rule chooses: a copy is the table's entry, of length 4 to 4095, a literal carries the
pixel; if that sequence has more than TOK_CAP tokens it ends with OUT_OF_MEMORY instead, only CUR's content being
unspecified (42_backward_refs R150 to R153, 60_exceptions R343). -/
def Obligations.GreedyTokens : Prop :=
  ∀ (s : State) (sel : TableSel), s.starts (.brGreedy sel) = true → Memory.wf s = true →
    s.tableTrue sel = true → s.pixelCount ≤ s.caps.nMax →
    ∃ t ts, exec (.brGreedy sel) s = .next t ∧ s.tokensTrue 0 ts = true ∧ ts.length ≤ s.pixelCount ∧
      chosenBy (s.greedyChoice sel) 0 ts = true ∧
      (∀ tok ∈ ts, (∃ v, tok = .literal v) ∨ ∃ d l, tok = .copy d l ∧ 4 ≤ l ∧ l ≤ 4095) ∧
      if ts.length ≤ s.caps.tokCap then
        t.curTokens = .ok ts ∧ t.bufs = { s.bufs with curLen := ts.length, curBits := 0 } ∧
        t.regs = s.okRegs ∧ t.flags = { s.okFlags with curValid := true, curHasCache := false } ∧
        t.ccBits = s.ccBits ∧ t.writer = s.writer ∧
        OnlyWrites (fun sp i => sp = bufferId s.bufs.sel ∧ i < ts.length) noSlots s t
      else
        ErrorEntry s t 0x20 .outOfMemory (if s.bufs.sel then 4 else 3) ∧ t.flags.bwErr = s.flags.bwErr ∧
        t.writer = s.writer ∧ SameElems (fun sp _ => sp = bufferId s.bufs.sel) s t

/-- BR_RLE leaves in CUR a valid token sequence without cache references whose every token is the one its rule
chooses between the run of the previous pixel and the run of the row above; if that sequence has more than TOK_CAP
tokens it ends with OUT_OF_MEMORY instead, only CUR's content being unspecified (42_backward_refs R150, R153, R155,
60_exceptions R343). -/
def Obligations.RleTokens : Prop :=
  ∀ s : State, s.starts .brRle = true → Memory.wf s = true →
    ∃ t ts, exec .brRle s = .next t ∧ s.tokensTrue 0 ts = true ∧ ts.length ≤ s.pixelCount ∧
      chosenBy s.rleChoice 0 ts = true ∧
      (∀ tok ∈ ts, (∃ v, tok = .literal v) ∨ ∃ d l, tok = .copy d l ∧ 4 ≤ l ∧ l ≤ 4095) ∧
      if ts.length ≤ s.caps.tokCap then
        t.curTokens = .ok ts ∧ t.bufs = { s.bufs with curLen := ts.length, curBits := 0 } ∧
        t.regs = s.okRegs ∧ t.flags = { s.okFlags with curValid := true, curHasCache := false } ∧
        t.ccBits = s.ccBits ∧ t.writer = s.writer ∧
        OnlyWrites (fun sp i => sp = bufferId s.bufs.sel ∧ i < ts.length) noSlots s t
      else
        ErrorEntry s t 0x21 .outOfMemory (if s.bufs.sel then 4 else 3) ∧ t.flags.bwErr = s.flags.bwErr ∧
        t.writer = s.writer ∧ SameElems (fun sp _ => sp = bufferId s.bufs.sel) s t

/-- The Token-sum invariant: the tokens that a builder or the solver leaves in CUR, and those of the solver in
SCR too, have lengths that sum to the pixel count (42_backward_refs R171, 30_encoding R97). -/
def Obligations.TokenSum : Prop :=
  ∀ (s t : State) (i : Instr), s.invariant = true → s.faithful = true →
    (i = .brRle ∨ ∃ sel, i = .brGreedy sel ∨ i = .dpSolve sel) → exec i s = .next t → t.flags.errCode = 0 →
    (∃ ts, t.curTokens = .ok ts ∧ tokensLen ts = s.pixelCount) ∧
    ((∃ sel, i = .dpSolve sel) → ∃ ts, t.scrTokens = .ok ts ∧ tokensLen ts = s.pixelCount)

/-- A builder that ends with OUT_OF_MEMORY at run time names the buffer that overflowed, CUR, and changed no other
space, and it can only when the image has more pixels than TOK_CAP; an image without two equal pixels does
overflow then. DP_SOLVE overflows SCR in the same way and leaves the content of what it writes unspecified
(42_backward_refs R153, 44_optimal_parse R201, R210, 60_exceptions R343, R346). -/
def Obligations.BuilderOverflow : Prop :=
  (∀ (s t : State) (i : Instr), (i = .brRle ∨ ∃ sel, i = .brGreedy sel) → s.starts i = true →
    exec i s = .next t → t.flags.errCode = 1 →
    s.caps.tokCap < s.pixelCount ∧
    ErrorEntry s t i.opcode.byte .outOfMemory (if s.bufs.sel then 4 else 3) ∧
    t.flags.bwErr = s.flags.bwErr ∧ t.writer = s.writer ∧
    SameElems (fun sp _ => sp = bufferId s.bufs.sel) s t) ∧
  (∀ s : State, s.starts .brRle = true → s.caps.tokCap < s.pixelCount →
    (∀ p q, p < q → q < s.pixelCount → s.px p ≠ s.px q) →
    ∃ t, exec .brRle s = .next t ∧ t.flags.errCode = 1) ∧
  ∀ (s t : State) (sel : TableSel), s.starts (.dpSolve sel) = true → exec (.dpSolve sel) s = .next t →
    t.flags.errCode = 1 →
    s.caps.tokCap < s.pixelCount ∧ ErrorEntry s t 0x30 .outOfMemory (if s.bufs.sel then 3 else 4) ∧
    t.flags.bwErr = s.flags.bwErr ∧ t.writer = s.writer ∧
    SameElems (fun sp _ => sp ∈ [.tokA, .tokB, .cc, .dpCost, .dpEdge]) s t

/-- CACHE_APPLY with CACHE_BITS = 0 changes nothing. With a width it turns exactly the literals that hit into
cache references and keeps every other token and its place; CUR stays valid, now at that width, and the cache
holds what inserting every pixel of the image leaves (42_backward_refs R165 to R167). -/
def Obligations.CacheApplyStream : Prop :=
  ∀ s : State, s.starts .cacheApply = true → s.invariant = true → s.curTrue = true →
    (s.regs.cacheBits = 0 → ∃ t, exec .cacheApply s = .next t ∧ t.regs = s.okRegs ∧ t.flags = s.okFlags ∧
      SameHidden s t ∧ OnlyWrites noElems noSlots s t) ∧
    (s.regs.cacheBits ≠ 0 → ∃ t ts, exec .cacheApply s = .next t ∧ s.curTokens = .ok ts ∧
      t.curTokens = .ok (s.replayOf s.regs.cacheBits.toNat (cacheInit s.regs.cacheBits.toNat) 0 ts) ∧
      t.curTrue = true ∧ t.bufs = { s.bufs with curBits := s.regs.cacheBits.setWidth 4 } ∧
      t.ccBits = s.regs.cacheBits.setWidth 4 ∧
      (∀ k, k < 2 ^ s.regs.cacheBits.toNat →
        t.ccSlot k = (s.imageCache s.regs.cacheBits.toNat).getD k none) ∧
      t.writer = s.writer ∧ t.regs = s.okRegs ∧ t.flags = { s.okFlags with curHasCache := true } ∧
      OnlyWrites (fun sp i => (sp = bufferId s.bufs.sel ∧ i < s.bufs.curLen) ∨
        (sp = .cc ∧ i < 2 ^ s.regs.cacheBits.toNat)) noSlots s t)

/-- TOK_SWAP exchanges the two buffers with their lengths, widths and valid bits and moves no token record; two
in a row restore them (42_backward_refs R170, 20_memory R86). -/
def Obligations.TokSwapEffect : Prop :=
  ∀ s : State, s.starts .tokSwap = true →
    ∃ t, exec .tokSwap s = .next t ∧
      t.bufs = { sel := !s.bufs.sel, curLen := s.bufs.scrLen, scrLen := s.bufs.curLen,
                 curBits := s.bufs.scrBits, scrBits := s.bufs.curBits } ∧
      t.flags = { s.okFlags with curValid := s.flags.scrValid, scrValid := s.flags.curValid
                                 curHasCache := decide (s.bufs.scrBits ≠ 0) } ∧
      t.regs = s.okRegs ∧ t.ccBits = s.ccBits ∧ t.writer = s.writer ∧ OnlyWrites noElems noSlots s t ∧
      (s.flags.curHasCache = decide (s.bufs.curBits ≠ 0) →
        ∃ u, exec .tokSwap t = .next u ∧ u.bufs = s.bufs ∧
          u.flags = { s.okFlags with abortPending := u.flags.abortPending })

/-- Decoder-side meaning: a token list that is valid at a width decodes, against a freshly initialised cache of
that width, to exactly the pixels of the image; so the tokens in CUR and in SCR do whenever their valid bit is
set (43_color_cache R195, R196, 10_state R33). -/
def Obligations.TokensExpand : Prop :=
  (∀ (s : State) (b : Nat) (ts : List Token), s.tokensTrue b ts = true →
    expandTokens s.fns b [] (cacheInit b) ts = some ((List.range s.pixelCount).map s.px)) ∧
  ∀ s : State, s.faithful = true →
    (s.flags.curValid = true → ∃ ts, s.curTokens = .ok ts ∧
      expandTokens s.fns s.bufs.curBits.toNat [] (cacheInit s.bufs.curBits.toNat) ts =
        some ((List.range s.pixelCount).map s.px)) ∧
    (s.flags.scrValid = true → ∃ ts, s.scrTokens = .ok ts ∧
      expandTokens s.fns s.bufs.scrBits.toNat [] (cacheInit s.bufs.scrBits.toNat) ts =
        some ((List.range s.pixelCount).map s.px))

/-! ### Color cache (43_color_cache) -/

/-- CC_INIT with a width empties the slots it brings into use and no other; CC_INIT 0 disables the cache and
changes no slot (43_color_cache R184). -/
def Obligations.CcInitEffect : Prop :=
  ∀ (s : State) (bits : BitVec 4), s.starts (.ccInit bits) = true →
    ∃ t, exec (.ccInit bits) s = .next t ∧ t.ccBits = bits ∧
      (bits ≠ 0 → ∀ k, k < 2 ^ bits.toNat → t.ccSlot k = none ∧ t.readElem .cc k = 0) ∧
      t.regs = s.okRegs ∧ t.flags = s.okFlags ∧ t.bufs = s.bufs ∧ t.writer = s.writer ∧
      OnlyWrites (fun sp i => bits ≠ 0 ∧ sp = .cc ∧ i < 2 ^ bits.toNat) noSlots s t

/-- CC_INSERT puts the pixel in ARG0 into the slot its hash selects, overwriting what is there, and changes no
other slot; CC_LOOKUP reports whether that slot holds the pixel, answers the slot's number either way and changes
no slot (43_color_cache R182, R185, R186). -/
def Obligations.CcLookupInsert : Prop :=
  (∀ s : State, s.starts .ccLookup = true →
    let k := ccIndex s.fns s.regs.arg0 s.ccBits.toNat
    ∃ t, exec .ccLookup s = .next t ∧
      t.flags = { s.okFlags with ccHit := decide (s.ccSlot k = some s.regs.arg0) } ∧
      t.regs = { s.okRegs with result0 := BitVec.ofNat 32 k, result1 := 0 } ∧ SameHidden s t ∧
      OnlyWrites noElems noSlots s t) ∧
  ∀ s : State, s.starts .ccInsert = true → s.ccBits.toNat ≤ 10 →
    let k := ccIndex s.fns s.regs.arg0 s.ccBits.toNat
    ∃ t, exec .ccInsert s = .next t ∧ k < 2 ^ s.ccBits.toNat ∧ t.ccSlot k = some s.regs.arg0 ∧
      t.flags = s.okFlags ∧ t.regs = s.okRegs ∧ SameHidden s t ∧
      OnlyWrites (fun sp i => sp = .cc ∧ i = k) noSlots s t

/-- CACHE_SEARCH answers, and writes to CACHE_BITS, the least width of the range whose estimate is lowest: no
width of `0 .. min(10, REQ_CACHE_BITS)` has a lower one, and every smaller width a higher one (43_color_cache
R190). The premise on the estimates is that they are numbers, which binary64 without NaN gives (00_scope R16). -/
def Obligations.CacheSearchBest : Prop :=
  ∀ s : State, s.starts .cacheSearch = true → s.invariant = true → s.curTrue = true → s.searchCosts = true →
    ∃ t ts best, exec .cacheSearch s = .next t ∧ s.curTokens = .ok ts ∧
      best ≤ min 10 s.regs.reqCacheBits.toNat ∧
      (∀ b hb hbest, b ≤ min 10 s.regs.reqCacheBits.toNat → s.widthHisto ts b = .ok hb →
        s.widthHisto ts best = .ok hbest →
        Bin64.lt (hb.estimateBits s.fns) (hbest.estimateBits s.fns) = false ∧
        (b < best → Bin64.lt (hbest.estimateBits s.fns) (hb.estimateBits s.fns) = true)) ∧
      t.regs = { s.okRegs with
        result0 := BitVec.ofNat 32 best, result1 := 0, cacheBits := BitVec.ofNat 32 best } ∧
      t.flags = s.okFlags ∧ SameHidden s t ∧ OnlyWrites noElems noSlots s t

/-! ### Optimal-parse solver (44_optimal_parse) -/

/-- DP_SOLVE builds a valid stream from the cheapest edges under the cost model of the reference stream: DPCOST and
DPEDGE of every position are the cost and the length of a cheapest edge that ends there, of equally cheap ones the
longest, so that DPCOST is the least cost over the edge sequences; the tokens of the stream follow DPEDGE, its
copies take the table's distance. It leaves two valid streams at the width CACHE_BITS, the built one and the
reference stream; CUR is the built one exactly when its estimate is strictly lower, DP_IMPROVED says so, RESULT holds
the lower estimate, and CC the cache of the whole image. If the built stream has more than TOK_CAP tokens it ends
with OUT_OF_MEMORY instead (44_optimal_parse R200 to R204, R208, R210, R211, R213, 42_backward_refs R153). The
premise `solverReaches` says that the forward pass reached every position, which finite costs give (R208). -/
def Obligations.DpSolveStream : Prop :=
  ∀ (s : State) (sel : TableSel), s.starts (.dpSolve sel) = true → s.invariant = true →
    s.faithful = true → s.solverReaches sel = true →
    ∃ t old new hOld hNew, exec (.dpSolve sel) s = .next t ∧ s.curTokens = .ok old ∧
      s.tokensTrue s.regs.cacheBits.toNat new = true ∧ chosenBy (s.solverChoice sel) 0 new = true ∧
      new.length ≤ s.pixelCount ∧
      histogramOf s.fns s.xs old s.regs.cacheBits.toNat = .ok hOld ∧
      histogramOf s.fns s.xs new s.regs.cacheBits.toNat = .ok hNew ∧
      if new.length ≤ s.caps.tokCap then
        (let better := Bin64.lt (hNew.estimateBits s.fns) (hOld.estimateBits s.fns)
         let cost := if better then hNew.estimateBits s.fns else hOld.estimateBits s.fns
         t.curTokens = .ok (if better then new else old) ∧ t.scrTokens = .ok (if better then old else new) ∧
         t.bufs.sel = (s.bufs.sel != better) ∧ t.bufs.curBits = s.bufs.curBits ∧
         t.bufs.scrBits = s.bufs.curBits ∧
         t.flags = { s.okFlags with scrValid := true, dpImproved := better } ∧
         t.regs = { s.okRegs with result0 := cost.extractLsb' 0 32, result1 := cost.extractLsb' 32 32 }) ∧
        (∀ j, j < s.pixelCount → State.CheapestEnd s t sel (costModelBuild s.fns hOld) j) ∧
        chosenBy (fun p tok => decide ((t.readElem .dpEdge (p + tok.len - 1)).toNat = tok.len)) 0 new = true ∧
        (if s.regs.cacheBits = 0 then t.ccBits = s.ccBits
         else t.ccBits = s.regs.cacheBits.setWidth 4 ∧ ∀ k, k < 2 ^ s.regs.cacheBits.toNat →
           t.ccSlot k = (s.imageCache s.regs.cacheBits.toNat).getD k none) ∧
        t.writer = s.writer ∧
        OnlyWrites (fun sp i => (sp = bufferId (!s.bufs.sel) ∧ i < new.length) ∨
          ((sp = .dpCost ∨ sp = .dpEdge) ∧ i < s.pixelCount) ∨
          (s.regs.cacheBits ≠ 0 ∧ sp = .cc ∧ i < 2 ^ s.regs.cacheBits.toNat)) noSlots s t
      else
        ErrorEntry s t 0x30 .outOfMemory (if s.bufs.sel then 3 else 4) ∧ t.flags.bwErr = s.flags.bwErr ∧
        t.writer = s.writer ∧ SameElems (fun sp _ => sp ∈ [.tokA, .tokB, .cc, .dpCost, .dpEdge]) s t

/-- Monotonic improvement: the stream in CUR after a DP_SOLVE that ended without error never has a strictly larger
estimate than the stream in CUR before it (44_optimal_parse R212). -/
def Obligations.DpSolveMonotone : Prop :=
  ∀ (s t : State) (sel : TableSel), s.invariant = true → s.faithful = true →
    exec (.dpSolve sel) s = .next t → t.flags.errCode = 0 →
    ∃ before after hBefore hAfter, s.curTokens = .ok before ∧ t.curTokens = .ok after ∧
      histogramOf s.fns s.xs before s.regs.cacheBits.toNat = .ok hBefore ∧
      histogramOf s.fns s.xs after s.regs.cacheBits.toNat = .ok hAfter ∧
      Bin64.lt (hBefore.estimateBits s.fns) (hAfter.estimateBits s.fns) = false

/-! ### Histograms (45_histogram) -/

/-- HIST_CLEAR leaves an all-zero valid slot of the width in CACHE_BITS; its costs and code tables are no longer
valid (45_histogram R221). -/
def Obligations.HistClearEffect : Prop :=
  ∀ (s : State) (slot : BitVec 16), s.starts (.histClear slot) = true →
    ∃ t, exec (.histClear slot) s = .next t ∧
      t.slot slot.toNat = { s.slot slot.toNat with
        hbits := s.regs.cacheBits.setWidth 4, histValid := true, costValid := false, lenValid := false
        codeValid := false, trivialSym := ⟨none, none, none, none, none⟩ } ∧
      (∀ e, e < 2584 → t.readElem .hist (slot.toNat * 2584 + e) = 0) ∧
      t.regs = s.okRegs ∧ t.flags = s.okFlags ∧ SameHidden s t ∧ SameCosts s t ∧
      OnlyWrites (fun sp i => sp = .hist ∧ slotElems slot.toNat i) (fun h => h = slot.toNat) s t

/-- HIST_BUILD counts every token of CUR once, in the slot of the tile or group where it starts: in slot `slot + g`,
at the width of CUR, the count of a symbol is the number of the tokens starting in number `g` that put it into the
table, a literal's channels into the tables of green, red, blue and alpha. The first table counts all its tokens,
the next three its literals, the last its copies (45_histogram R220, R222 to R225, 30_encoding R103). -/
def Obligations.HistBuildCounts : Prop :=
  ∀ (s : State) (mode : SlotMode) (slot : BitVec 16), s.starts (.histBuild mode slot) = true →
    s.invariant = true → s.curTrue = true →
    ∃ t ts, exec (.histBuild mode slot) s = .next t ∧ s.curTokens = .ok ts ∧
      (∀ g, g < s.slotCount mode → SlotCounted s t (slot.toNat + g) s.bufs.curBits ∧
        (∀ tbl sym, t.count (slot.toNat + g) tbl sym =
          (s.tokensAt mode g 0 ts).countP (Token.counts s.fns s.xs tbl sym)) ∧
        (t.histTable (slot.toNat + g) .combined).sum = (s.tokensAt mode g 0 ts).length ∧
        (∀ tbl ∈ [Table.red, .blue, .alpha],
          (t.histTable (slot.toNat + g) tbl).sum = (s.tokensAt mode g 0 ts).countP Token.isLiteral) ∧
        (t.histTable (slot.toNat + g) .distance).sum = (s.tokensAt mode g 0 ts).countP Token.isCopy ∧
        ∃ H, histogramOf s.fns s.xs (s.tokensAt mode g 0 ts) s.bufs.curBits.toNat = .ok H ∧
          ∀ tbl, t.histTable (slot.toNat + g) tbl = H.counts.get tbl) ∧
      t.regs = s.okRegs ∧ t.flags = s.okFlags ∧ SameHidden s t ∧ SameCosts s t ∧
      OnlyWrites
        (fun sp i => sp = .hist ∧ slot.toNat * 2584 ≤ i ∧ i < (slot.toNat + s.slotCount mode) * 2584)
        (fun h => slot.toNat ≤ h ∧ h < slot.toNat + s.slotCount mode) s t

/-- HIST_ADD adds the counts of the slot in ARG0 to those of its own slot, element by element, the other slot
unchanged; where a sum would reach 2^32 it ends with INTERNAL and the first such element, having written nothing
but HIST, whose content is then unspecified (45_histogram R226, 60_exceptions R345). -/
def Obligations.HistAddSums : Prop :=
  ∀ (s : State) (slot : BitVec 16), s.starts (.histAdd slot) = true → s.invariant = true →
    let dst := slot.toNat
    let src := s.regs.arg0.toNat
    let sum := fun e => (s.readElem .hist (dst * 2584 + e)).toNat + (s.readElem .hist (src * 2584 + e)).toNat
    ((∀ e, e < 2112 → sum e < 2 ^ 32) → ∃ t, exec (.histAdd slot) s = .next t ∧
      (∀ e, e < 2112 → (t.readElem .hist (dst * 2584 + e)).toNat = sum e) ∧
      SlotCounted s t dst (s.slot dst).hbits ∧ t.regs = s.okRegs ∧ t.flags = s.okFlags ∧ SameHidden s t ∧
      SameCosts s t ∧
      OnlyWrites (fun sp i => sp = .hist ∧ slotElems dst i) (fun h => h = dst) s t) ∧
    ∀ e, e < 2112 → 2 ^ 32 ≤ sum e → (∀ q, q < e → sum q < 2 ^ 32) →
      ∃ t, exec (.histAdd slot) s = .next t ∧ ErrorEntry s t 0x42 .internal e ∧
        t.flags.bwErr = s.flags.bwErr ∧ t.writer = s.writer ∧ SameElems (fun sp _ => sp = .hist) s t

/-- HIST_EST stores the estimate of each table and of the whole slot: the five table estimates added in order,
then the exact extra bits of the length and of the distance codes; RESULT holds the whole, COST_VALID is set, no
count changes (45_histogram R227, R229). -/
def Obligations.HistEstCosts : Prop :=
  ∀ (s : State) (slot : BitVec 16), s.starts (.histEst slot) = true → s.invariant = true →
    let h := slot.toNat
    let tc := fun tbl => estimateTable s.fns (s.histTable h tbl)
    let extra := fun tbl (base n : Nat) =>
      Bin64.ofNat ((List.range n).map (fun c => extraBits c * s.count h tbl (base + c))).sum
    let sum := Bin64.add (Bin64.add (Bin64.add (Bin64.add (Bin64.add (Bin64.add (tc .combined) (tc .red))
      (tc .blue)) (tc .alpha)) (tc .distance)) (extra .combined 256 24)) (extra .distance 0 40)
    ∃ t, exec (.histEst slot) s = .next t ∧ t.bitCostOf h = sum ∧
      (∀ tbl : Table, t.tableCostOf h tbl.index = tc tbl) ∧
      t.slot h = { s.slot h with costValid := true } ∧
      t.regs = { s.okRegs with result0 := sum.extractLsb' 0 32, result1 := sum.extractLsb' 32 32 } ∧
      t.flags = s.okFlags ∧ SameHidden s t ∧ OnlyWrites noElems (fun q => q = h) s t

/-- HIST_COMBINE estimates the element-wise sum of two slots without storing it: COMBINE_OK says whether the
estimate is strictly below the threshold THRESH_HI:THRESH_LO, and RESULT holds the estimate if so, else the
threshold; no slot, count or cost changes (45_histogram R232). -/
def Obligations.HistCombineCost : Prop :=
  ∀ (s : State) (slot : BitVec 16), s.starts (.histCombine slot) = true → s.invariant = true →
    ∃ (t : State) (S : Histo), exec (.histCombine slot) s = .next t ∧ S.bits = (s.slot slot.toNat).hbits.toNat ∧
      (∀ tbl : Table, (S.counts.get tbl).length = tbl.size S.bits ∧ ∀ sym,
        (S.counts.get tbl).getD sym 0 = s.count slot.toNat tbl sym + s.count s.regs.arg0.toNat tbl sym) ∧
      (let c := S.estimateBits s.fns
       let T : Cost := s.regs.threshHi ++ s.regs.threshLo
       let r := if Bin64.lt c T then c else T
       t.flags = { s.okFlags with combineOk := Bin64.lt c T } ∧
       t.regs = { s.okRegs with result0 := r.extractLsb' 0 32, result1 := r.extractLsb' 32 32 }) ∧
      SameHidden s t ∧ OnlyWrites noElems noSlots s t

/-! ### Clustering (46_clustering) -/

/-- CLUSTER assigns every tile one of `K` groups, `1 ≤ K ≤ n`, every group at least one tile, and leaves in each
group slot the exact sum of its tiles' counts at their common width; NUM_GROUPS and RESULT0 are `K`, the tile
slots are unchanged. Where a count of a group reaches 2^32 it ends with INTERNAL instead and the element offset of
the first addition that overflows, groups and tiles in ascending order, in that addition the lowest (46_clustering
R250 to R252, 45_histogram R226, 60_exceptions R345, R348). That NUM_GROUPS and the slots' HBITS and TRIVIAL are then
as before the command is the model's reading (log 10). That an image has no more tiles than GRPMAP has elements is a
premise (log 16). -/
def Obligations.ClusterGroups : Prop :=
  ∀ (s : State) (slot : BitVec 16), s.starts (.cluster slot) = true → s.invariant = true →
    s.tileCount ≤ s.caps.nMax →
    let first := slot.toNat
    let group := s.regs.arg1.toNat
    let n := s.tileCount
    let K := (s.tileChoice first).1
    let map := fun g => (s.tileChoice first).2.getD g 0
    1 ≤ K ∧ K ≤ n ∧ (∀ g, g < n → map g < K) ∧ (∀ k, k < K → ∃ g, g < n ∧ map g = k) ∧
    ((∀ k, k < K → s.GroupFits first k) → ∃ t, exec (.cluster slot) s = .next t ∧
      (∀ g, g < n → (t.readElem .grpMap g).toNat = map g) ∧
      (∀ k, k < K → SlotCounted s t (group + k) (s.slot first).hbits ∧
        ∀ tbl sym, t.count (group + k) tbl sym = s.chosenCount k first n tbl sym) ∧
      t.regs = { s.okRegs with
        numGroups := BitVec.ofNat 32 K, result0 := BitVec.ofNat 32 K, result1 := 0 } ∧
      t.flags = s.okFlags ∧ SameHidden s t ∧ SameCosts s t ∧
      OnlyWrites (fun sp i => (sp = .grpMap ∧ i < n) ∨
        (sp = .hist ∧ group * 2584 ≤ i ∧ i < (group + K) * 2584))
        (fun h => group ≤ h ∧ h < group + K) s t) ∧
    ∀ k g tbl sym, k < K → g < n → (∀ j, j < k → s.GroupFits first j) →
      (∀ tb q, s.chosenCount k first g tb q < 2 ^ 32) →
      2 ^ 32 ≤ s.chosenCount k first (g + 1) tbl sym →
      (∀ tb q, tb.base + q < tbl.base + sym → s.chosenCount k first (g + 1) tb q < 2 ^ 32) →
      ∃ t, exec (.cluster slot) s = .next t ∧ ErrorEntry s t 0x45 .internal (tbl.base + sym) ∧
        t.flags.bwErr = s.flags.bwErr ∧ t.writer = s.writer ∧
        SameElems (fun sp _ => sp = .hist ∨ sp = .grpMap) s t

/-- Idempotent clustering: two CLUSTER commands on the same tile counts, geometry and ARG1 leave the same group
map, NUM_GROUPS and group counts, whatever else differs (46_clustering R252, R258). The premises are those of a
CLUSTER that completes: its group counts stay below 2^32, its tiles within GRPMAP. -/
def Obligations.ClusterIdempotent : Prop :=
  ∀ (s u : State) (slot : BitVec 16), s.starts (.cluster slot) = true → u.starts (.cluster slot) = true →
    s.invariant = true → u.invariant = true → s.fns = u.fns → s.tileCount ≤ s.caps.nMax →
    s.tileCount ≤ u.caps.nMax → s.regs.xsize = u.regs.xsize → s.regs.ysize = u.regs.ysize →
    s.regs.histoBits = u.regs.histoBits → s.regs.arg1 = u.regs.arg1 →
    (∀ k, k < (s.tileChoice slot.toNat).1 → s.GroupFits slot.toNat k) →
    (∀ g, g < s.tileCount → (s.slot (slot.toNat + g)).hbits = (u.slot (slot.toNat + g)).hbits ∧
      ∀ tbl sym, s.count (slot.toNat + g) tbl sym = u.count (slot.toNat + g) tbl sym) →
    ∃ t v, exec (.cluster slot) s = .next t ∧ exec (.cluster slot) u = .next v ∧
      t.regs.numGroups = v.regs.numGroups ∧
      (∀ g, g < s.tileCount → t.readElem .grpMap g = v.readElem .grpMap g) ∧
      ∀ k tbl sym, k < t.regs.numGroups.toNat →
        t.count (s.regs.arg1.toNat + k) tbl sym = v.count (s.regs.arg1.toNat + k) tbl sym

/-! ### Code lengths and canonical codes (47_huffman) -/

/-- HUFF_LEN gives every table of two or more used symbols lengths from 1 to 15 for exactly those symbols that
meet Kraft's inequality with equality; a table with one used symbol is marked single and, like an empty one, has
no lengths; codes are zero (47_huffman R265, R266, R270, R272). -/
def Obligations.HuffLenLengths : Prop :=
  ∀ (s : State) (slot : BitVec 16), s.starts (.huffLen slot) = true → s.invariant = true →
    let h := slot.toNat
    ∃ t, exec (.huffLen slot) s = .next t ∧
      t.slot h = { s.slot h with lenValid := true, codeValid := false, single := (t.slot h).single } ∧
      (∀ tbl : Table,
        (∀ sym, (s.count h tbl sym = 0 → (t.lengths h tbl).getD sym 0 = 0)) ∧
        (∀ len ∈ t.lengths h tbl, len ≤ 15) ∧
        (2 ≤ (nonzeroCounts (s.histTable h tbl)).length →
          (∀ sym, s.count h tbl sym ≠ 0 → 1 ≤ (t.lengths h tbl).getD sym 0) ∧
          kraftSum (t.lengths h tbl) = 2 ^ 15 ∧ (t.slot h).single.get tbl = none) ∧
        ((nonzeroCounts (s.histTable h tbl)).length ≤ 1 →
          (∀ len ∈ t.lengths h tbl, len = 0) ∧
          ∀ sym, (t.slot h).single.get tbl = some sym ↔ s.count h tbl sym ≠ 0) ∧
        ∀ e ∈ t.codeTable h tbl, codeBits e = 0) ∧
      (∀ e, e < 2584 → (∀ tbl : Table, e < tbl.base ∨ tbl.base + tbl.size (s.slot h).hbits.toNat ≤ e) →
        t.readElem .htab (h * 2584 + e) = 0) ∧
      t.regs = s.okRegs ∧ t.flags = s.okFlags ∧ SameHidden s t ∧ SameCosts s t ∧
      OnlyWrites (fun sp i => sp = .htab ∧ slotElems h i) (fun q => q = h) s t

/-- HUFF_CODE assigns the canonical codes: the codeword of a symbol is the number of codewords of its length that
the shorter and, at its length, the earlier symbols take up; it is stored bit-reversed, fits its length, and no
codeword is a prefix of another. Lengths stay, unused symbols get code 0 (47_huffman R274 to R276). Premise:
lengths that meet Kraft's inequality, which HUFF_LEN leaves (R272). -/
def Obligations.HuffCodeCodes : Prop :=
  ∀ (s : State) (slot : BitVec 16), s.starts (.huffCode slot) = true → s.invariant = true →
    (∀ tbl : Table, kraftSum (s.lengths slot.toNat tbl) ≤ 2 ^ 15) →
    let h := slot.toNat
    ∃ t, exec (.huffCode slot) s = .next t ∧ t.slot h = { s.slot h with codeValid := true } ∧
      (∀ tbl : Table,
        let n := tbl.size (s.slot h).hbits.toNat
        let len := fun sym => codeLen (s.codeElem h tbl sym)
        let code := fun sym => codeBits (t.codeElem h tbl sym)
        let canonical := fun sym => (((List.range n).filter (fun q =>
          decide (0 < len q ∧ (len q < len sym ∨ (len q = len sym ∧ q < sym))))).map
            (fun q => 2 ^ (len sym - len q))).sum
        (∀ sym, sym < n → codeLen (t.codeElem h tbl sym) = len sym ∧ code sym < 2 ^ len sym ∧
          ∀ k, k < len sym → (code sym).testBit k = (canonical sym).testBit (len sym - 1 - k)) ∧
        ∀ p q, p < n → q < n → p ≠ q → 0 < len p → len p ≤ len q → code q % 2 ^ len p ≠ code p) ∧
      t.regs = s.okRegs ∧ t.flags = s.okFlags ∧ SameHidden s t ∧ SameCosts s t ∧
      OnlyWrites (fun sp i => sp = .htab ∧ ∃ tbl : Table, h * 2584 + tbl.base ≤ i ∧
        i < h * 2584 + tbl.base + tbl.size (s.slot h).hbits.toNat) (fun q => q = h) s t

/-! ### Bit writer and emission (48_bit_writer) -/

/-- BW_INIT empties the writer, clears BW_ERR and opens it; OUT is not cleared (48_bit_writer R292). -/
def Obligations.BwInitEffect : Prop :=
  ∀ s : State, s.starts .bwInit = true →
    ∃ t, exec .bwInit s = .next t ∧ t.writer = { acc := 0, used := 0, pos := 0 } ∧
      t.flags = { s.okFlags with bwErr := false, bwOpen := true } ∧ t.streamBits = [] ∧
      t.writerClean = true ∧ t.regs = s.okRegs ∧ t.bufs = s.bufs ∧ t.ccBits = s.ccBits ∧
      OnlyWrites noElems noSlots s t

/-- BW_PUT appends the low `n` bits of ARG0 to the stream, least significant bit first, a full word going to OUT
in little-endian order; the writer invariant holds after it (48_bit_writer R291, R293 to R295, 20_memory R60). -/
def Obligations.BwPutStream : Prop :=
  ∀ (s : State) (n : BitVec 6), s.starts (.bwPut n) = true → s.writerClean = true →
    s.roomFor n.toNat = true →
    ∃ t, exec (.bwPut n) s = .next t ∧
      t.streamBits = s.streamBits ++ lowBits n.toNat s.regs.arg0.toNat ∧ t.writerClean = true ∧
      t.writer.pos = s.writer.pos + 4 * ((s.writer.used + n.toNat) / 32) ∧
      t.writer.used = (s.writer.used + n.toNat) % 32 ∧ t.regs = s.okRegs ∧ t.flags = s.okFlags ∧
      t.bufs = s.bufs ∧ t.ccBits = s.ccBits ∧
      OnlyWrites (fun sp i => sp = .out ∧ s.writer.pos ≤ i ∧ i < t.writer.pos) noSlots s t

/-- BW_FINISH flushes the pending bits byte by byte, the last byte padded with zeros, answers the byte count of
the stream and closes the writer: the bytes of OUT below RESULT0 are the stream (48_bit_writer R297, R298). -/
def Obligations.BwFinishStream : Prop :=
  ∀ s : State, s.starts .bwFinish = true → s.writerClean = true →
    s.writer.pos + (s.writer.used + 7) / 8 ≤ s.caps.outCap →
    let r := (s.streamBits.length + 7) / 8
    ∃ t, exec .bwFinish s = .next t ∧
      (List.range r).flatMap (fun k => lowBits 8 (t.readElem .out k).toNat) =
        s.streamBits ++ List.replicate (8 * r - s.streamBits.length) false ∧
      t.writer = { acc := 0, used := 0, pos := r } ∧
      t.regs = { s.okRegs with result0 := BitVec.ofNat 32 r, result1 := 0 } ∧
      t.flags = { s.okFlags with bwOpen := false } ∧ t.bufs = s.bufs ∧ t.ccBits = s.ccBits ∧
      OnlyWrites (fun sp i => sp = .out ∧ s.writer.pos ≤ i ∧ i < r) noSlots s t

/-- The sticky error flag: once BW_ERR is set, or when a flushed word does not fit, a put ends with DONE and
BW_ERR, writes no byte and moves no position; BW_FINISH writes the bytes that fit and reports it as OUT_OF_MEMORY on OUT, with
BW_ACC = 0 and BW_USED = 0, BW_POS behind the last byte written and BW_ERR set; only BW_INIT, ATTEMPT_BEGIN and
SOFT_RESET clear it (48_bit_writer R295, R297, R309, R310). That a failed BW_FINISH keeps what its loop left in the
writer, where 60_exceptions R347 alone says as before, is the model's reading (log 10), what it leaves in OUT its choice
(log 11). -/
def Obligations.WriterOverflow : Prop :=
  (∀ (s : State) (n : BitVec 6), s.starts (.bwPut n) = true → s.invariant = true →
    s.flags.bwErr = true ∨ s.roomFor n.toNat = false →
    ∃ t, exec (.bwPut n) s = .next t ∧ t.flags = { s.okFlags with bwErr := true } ∧
      t.writer.pos = s.writer.pos ∧ t.writer.used = (s.writer.used + n.toNat) % 32 ∧ t.regs = s.okRegs ∧
      t.bufs = s.bufs ∧ t.ccBits = s.ccBits ∧ OnlyWrites noElems noSlots s t) ∧
  (∀ s : State, s.starts .bwFinish = true → s.invariant = true →
    s.writer.acc.toNat < 2 ^ s.writer.used →
    s.flags.bwErr = true ∨ s.caps.outCap < s.writer.pos + (s.writer.used + 7) / 8 →
    ∃ t, exec .bwFinish s = .next t ∧ ErrorEntry s t 0x62 .outOfMemory 11 ∧ t.flags.bwErr = true ∧
      t.writer = { acc := 0, used := 0, pos := if s.flags.bwErr then s.writer.pos else s.caps.outCap } ∧
      SameElems (fun sp i => sp = .out ∧ s.writer.pos ≤ i) s t) ∧
  ∀ (s t : State) (i : Instr), exec i s = .next t → s.flags.bwErr = true → t.flags.bwErr = false →
    i = .bwInit ∨ i = .attemptBegin ∨ i = .softReset

/-- EMIT_TOKENS appends to the stream the bits of every token of CUR in order, each coded with the tables of the
slot where it starts: codewords as stored, extra bits behind their prefix code, nothing for a single symbol
(48_bit_writer R300 to R302). Where a word does not fit into OUT, or BW_ERR was set before, it still ends with DONE,
now with BW_ERR: it writes the whole words that fit, none after BW_ERR, and no byte beyond OUT_CAP (48_bit_writer
R295, R309). Where a symbol has neither a codeword nor the single-symbol mark it ends with INTERNAL and the token's
number, and the writer keeps every bit put before that symbol and the BW_ERR that those puts set (48_bit_writer R309,
R310, 60_exceptions R345, R346). That it does, where 60_exceptions R347 alone says as before, is the model's reading
(log 10), and what OUT holds from BW_POS on then is the model's choice (log 11). -/
def Obligations.EmitTokensStream : Prop :=
  ∀ (s : State) (mode : SlotMode) (slot : BitVec 16) (ts : List Token),
    s.starts (.emitTokens mode slot) = true → s.invariant = true → s.curTrue = true → s.curTokens = .ok ts →
    let n := (s.tokenBits mode slot.toNat 0 ts).length
    (s.tokensCoded mode slot.toNat 0 ts = true → s.writerClean = true → s.roomFor n = true →
      ∃ t, exec (.emitTokens mode slot) s = .next t ∧
        t.streamBits = s.streamBits ++ s.tokenBits mode slot.toNat 0 ts ∧ t.writerClean = true ∧
        t.regs = s.okRegs ∧ t.flags = s.okFlags ∧ t.bufs = s.bufs ∧ t.ccBits = s.ccBits ∧
        OnlyWrites (fun sp i => sp = .out ∧ s.writer.pos ≤ i ∧ i < t.writer.pos) noSlots s t) ∧
    (s.tokensCoded mode slot.toNat 0 ts = true → s.flags.bwErr = true ∨ s.roomFor n = false →
      ∃ t, exec (.emitTokens mode slot) s = .next t ∧ t.flags = { s.okFlags with bwErr := true } ∧
        t.writer.used = (s.writer.used + n) % 32 ∧
        t.writer.pos = (if s.flags.bwErr then s.writer.pos
          else s.writer.pos + 4 * ((s.caps.outCap - s.writer.pos) / 4)) ∧
        t.writer.pos ≤ s.caps.outCap ∧ t.regs = s.okRegs ∧ t.bufs = s.bufs ∧ t.ccBits = s.ccBits ∧
        OnlyWrites (fun sp i => sp = .out ∧ s.writer.pos ≤ i ∧ i < t.writer.pos) noSlots s t) ∧
    ∀ pre tok post done tbl sym rest, ts = pre ++ tok :: post → s.tokensCoded mode slot.toNat 0 pre = true →
      let h := slot.toNat + s.slotOf mode (tokensLen pre)
      emissionsOf s.fns s.xs tok = done ++ .symbol tbl sym :: rest →
      (∀ tb q, .symbol tb q ∈ done → 0 < codeLen (s.codeElem h tb q) ∨ (s.slot h).single.get tb = some q) →
      codeLen (s.codeElem h tbl sym) = 0 → (s.slot h).single.get tbl ≠ some sym →
      let bits := s.tokenBits mode slot.toNat 0 pre ++ done.flatMap (s.emissionBits h)
      let words := (s.writer.used + bits.length) / 32
      ∃ t, exec (.emitTokens mode slot) s = .next t ∧ ErrorEntry s t 0x63 .internal pre.length ∧
        t.flags.bwErr = (s.flags.bwErr || !s.roomFor bits.length) ∧
        t.writer.used = (s.writer.used + bits.length) % 32 ∧
        t.writer.pos = (if s.flags.bwErr then s.writer.pos
          else s.writer.pos + 4 * min words ((s.caps.outCap - s.writer.pos) / 4)) ∧
        (s.writerClean = true → done.all (s.emissionCoded h) = true →
          t.writer.acc.toNat < 2 ^ t.writer.used ∧ lowBits t.writer.used t.writer.acc.toNat =
            (lowBits s.writer.used s.writer.acc.toNat ++ bits).drop (32 * words)) ∧
        SameElems (fun sp i => sp = .out ∧ s.writer.pos ≤ i) s t

/-! ### Prefix and distance codes (30_encoding) -/

/-- The prefix code of a value: its parts, the number of its extra bits, and that it can be inverted (30_encoding
R106, R107). -/
def Obligations.PrefixCodes : Prop :=
  (∀ v, 1 ≤ v → v ≤ 2 → prefixEncode v = ⟨v - 1, 0, 0⟩) ∧
  ∀ v, 3 ≤ v → let c := prefixEncode v
    let hb := Nat.log2 (v - 1)
    c.code = 2 * hb + (v - 1) / 2 ^ (hb - 1) % 2 ∧ c.nbits = hb - 1 ∧ c.value = (v - 1) % 2 ^ (hb - 1) ∧
    c.nbits = (if c.code < 4 then 0 else c.code / 2 - 1) ∧ c.nbits = extraBits c.code ∧
    c.value < 2 ^ c.nbits ∧
    v = (if c.code < 4 then c.code + 1 else (2 + c.code % 2) * 2 ^ c.nbits + c.value + 1)

/-- Every configured distance code is from 1 to the distance plus 120; so 24 length codes and 40 distance codes
suffice (30_encoding R104, R108). -/
def Obligations.DistanceCodes : Prop :=
  (∀ (f : Fns) (xs d : Nat), 1 ≤ xs → 1 ≤ d →
    1 ≤ distanceCode f xs d ∧ distanceCode f xs d ≤ d + 120 ∧
    (d ≤ Config.windowSize → distanceCode f xs d ≤ 2 ^ 20 ∧ (distancePrefix f xs d).code ≤ 39)) ∧
  (∀ l, 1 ≤ l → l ≤ 4095 → (prefixEncode l).code ≤ 23) ∧
  (prefixEncode 4095).code = 23 ∧ (prefixEncode 4096).code = 23 ∧ (prefixEncode 4097).code = 24 ∧
  (prefixEncode (2 ^ 20)).code = 39 ∧ (prefixEncode (2 ^ 20)).nbits = 18 ∧
  (prefixEncode (2 ^ 20 + 1)).code = 40
end

