-- ==== Sys2Proof/Laws/PerInstr.lean ====
section
/-! SUPPORT. The fields of a command's word, for every command: the word of `encode` carries the opcode, `a`, a
zero `b` and `imm` in the places of 30_encoding R91. -/

namespace Sys2Proof.Laws

/-! ### The places of the fields -/

theorem opField_packWord (op : BitVec 8) (a b : BitVec 4) (imm : BitVec 16) :
    opField (packWord op a b imm) = op := by
  apply BitVec.eq_of_toNat_eq
  simp only [opField, packWord, BitVec.extractLsb'_toNat, BitVec.toNat_cast, BitVec.toNat_append,
    Nat.shiftRight_eq_div_pow]
  have := op.isLt; have := a.isLt; have := b.isLt; have := imm.isLt
  rw [← Nat.shiftLeft_add_eq_or_of_lt (by omega), ← Nat.shiftLeft_add_eq_or_of_lt (by omega),
    ← Nat.shiftLeft_add_eq_or_of_lt (by omega)]
  simp only [Nat.shiftLeft_eq]
  omega

theorem aField_packWord (op : BitVec 8) (a b : BitVec 4) (imm : BitVec 16) :
    aField (packWord op a b imm) = a := by
  apply BitVec.eq_of_toNat_eq
  simp only [aField, packWord, BitVec.extractLsb'_toNat, BitVec.toNat_cast, BitVec.toNat_append,
    Nat.shiftRight_eq_div_pow]
  have := op.isLt; have := a.isLt; have := b.isLt; have := imm.isLt
  rw [← Nat.shiftLeft_add_eq_or_of_lt (by omega), ← Nat.shiftLeft_add_eq_or_of_lt (by omega),
    ← Nat.shiftLeft_add_eq_or_of_lt (by omega)]
  simp only [Nat.shiftLeft_eq]
  omega

theorem bField_packWord (op : BitVec 8) (a b : BitVec 4) (imm : BitVec 16) :
    bField (packWord op a b imm) = b := by
  apply BitVec.eq_of_toNat_eq
  simp only [bField, packWord, BitVec.extractLsb'_toNat, BitVec.toNat_cast, BitVec.toNat_append,
    Nat.shiftRight_eq_div_pow]
  have := op.isLt; have := a.isLt; have := b.isLt; have := imm.isLt
  rw [← Nat.shiftLeft_add_eq_or_of_lt (by omega), ← Nat.shiftLeft_add_eq_or_of_lt (by omega),
    ← Nat.shiftLeft_add_eq_or_of_lt (by omega)]
  simp only [Nat.shiftLeft_eq]
  omega

theorem immField_packWord (op : BitVec 8) (a b : BitVec 4) (imm : BitVec 16) :
    immField (packWord op a b imm) = imm := by
  apply BitVec.eq_of_toNat_eq
  simp only [immField, packWord, BitVec.extractLsb'_toNat, BitVec.toNat_cast, BitVec.toNat_append,
    Nat.shiftRight_eq_div_pow]
  have := op.isLt; have := a.isLt; have := b.isLt; have := imm.isLt
  rw [← Nat.shiftLeft_add_eq_or_of_lt (by omega), ← Nat.shiftLeft_add_eq_or_of_lt (by omega),
    ← Nat.shiftLeft_add_eq_or_of_lt (by omega)]
  simp only [Nat.shiftLeft_eq]
  omega

/-- The fields of a command's word (30_encoding R91, R92). -/
def Encoding.Statement (i : Instr) : Prop :=
  opField (encode i) = i.opcode.byte ∧ aField (encode i) = i.aBits ∧ bField (encode i) = 0 ∧
    immField (encode i) = i.immBits

/-- The fields of a packed word. -/
theorem encode_fields (i : Instr) : Encoding.Statement i :=
  ⟨opField_packWord _ _ _ _, aField_packWord _ _ _ _, bField_packWord _ _ _ _, immField_packWord _ _ _ _⟩

/-! ### One lemma per command -/

theorem Encoding.nop : Encoding.Statement .nop := encode_fields _
theorem Encoding.softReset : Encoding.Statement .softReset := encode_fields _
theorem Encoding.attemptBegin : Encoding.Statement .attemptBegin := encode_fields _
theorem Encoding.hcBuild : Encoding.Statement .hcBuild := encode_fields _
theorem Encoding.hcBox : Encoding.Statement .hcBox := encode_fields _
theorem Encoding.brGreedy (sel : TableSel) : Encoding.Statement (.brGreedy sel) := encode_fields _
theorem Encoding.brRle : Encoding.Statement .brRle := encode_fields _
theorem Encoding.cacheApply : Encoding.Statement .cacheApply := encode_fields _
theorem Encoding.cacheSearch : Encoding.Statement .cacheSearch := encode_fields _
theorem Encoding.tokSwap : Encoding.Statement .tokSwap := encode_fields _
theorem Encoding.dpSolve (sel : TableSel) : Encoding.Statement (.dpSolve sel) := encode_fields _
theorem Encoding.histClear (slot : BitVec 16) : Encoding.Statement (.histClear slot) := encode_fields _
theorem Encoding.histBuild (mode : SlotMode) (slot : BitVec 16) : Encoding.Statement (.histBuild mode slot) := encode_fields _
theorem Encoding.histAdd (slot : BitVec 16) : Encoding.Statement (.histAdd slot) := encode_fields _
theorem Encoding.histEst (slot : BitVec 16) : Encoding.Statement (.histEst slot) := encode_fields _
theorem Encoding.histCombine (slot : BitVec 16) : Encoding.Statement (.histCombine slot) := encode_fields _
theorem Encoding.cluster (slot : BitVec 16) : Encoding.Statement (.cluster slot) := encode_fields _
theorem Encoding.huffLen (slot : BitVec 16) : Encoding.Statement (.huffLen slot) := encode_fields _
theorem Encoding.huffCode (slot : BitVec 16) : Encoding.Statement (.huffCode slot) := encode_fields _
theorem Encoding.bwInit : Encoding.Statement .bwInit := encode_fields _
theorem Encoding.bwPut (n : BitVec 6) : Encoding.Statement (.bwPut n) := encode_fields _
theorem Encoding.bwFinish : Encoding.Statement .bwFinish := encode_fields _
theorem Encoding.emitTokens (mode : SlotMode) (slot : BitVec 16) : Encoding.Statement (.emitTokens mode slot) := encode_fields _
theorem Encoding.ccInit (bits : BitVec 4) : Encoding.Statement (.ccInit bits) := encode_fields _
theorem Encoding.ccLookup : Encoding.Statement .ccLookup := encode_fields _
theorem Encoding.ccInsert : Encoding.Statement .ccInsert := encode_fields _

end Sys2Proof.Laws
end

