-- ==== Sys2Proof/Tests/Slice0.lean ====
section
/-! SUPPORT. Tests of the model: the refused terms, one command word per constructor written out from the spec's
encoding, single steps with results from 95_test_vectors (named in the comments), and a witness for every
statement with hypotheses. -/

namespace Sys2Proof.Tests

open Sys2Proof.Machine

-- One theorem at a time: many kernel evaluations side by side need many large stacks.
set_option Elab.async false

/-! ### Helpers -/

/-- A next state with a property. -/
def next (r : Result) (p : State → Bool) : Bool :=
  match r with
  | .next t => p t
  | .fault _ => false
  | .refused _ => false

/-- What `next` found is a next state. -/
theorem next_exists {r : Result} {p : State → Bool} (h : next r p = true) : ∃ t, r = .next t ∧ p t = true := by
  cases r with
  | next t => exact ⟨t, rfl, h⟩
  | fault f => exact absurd h (by simp [next])
  | refused f => exact absurd h (by simp [next])

/-- A command runs on an image of `w` by `h` pixels. -/
def image (w h : Nat) (pixels : List Pixel) : State :=
  { State.reset with
    caps := ⟨256, 256, 4, 64⟩
    regs := { Regs.reset with xsize := BitVec.ofNat 32 w, ysize := BitVec.ofNat 32 h, quality := 75 }
    flags := { Flags.reset with busy := true }
    spaces := { Spaces.reset with pix := (Mem.unspecified 32 0).put 0 pixels } }

/-- A valid HC0 or HC1. -/
def withTable (sel : TableSel) (t : List (Nat × Nat)) (s : State) : State :=
  match sel with
  | .hc0 => { s with spaces := { s.spaces with hc0 := s.spaces.hc0.put 0 (packEntries t) }
                     flags := { s.flags with hc0Valid := true } }
  | .hc1 => { s with spaces := { s.spaces with hc1 := s.spaces.hc1.put 0 (packEntries t) }
                     flags := { s.flags with hc1Valid := true } }

/-- A valid CUR. -/
def withCur (bits : BitVec 4) (ts : List Token) (s : State) : State :=
  let t := s.putTokens s.bufs.sel ts
  { t with bufs := { t.bufs with curLen := ts.length, curBits := bits }
           flags := { t.flags with curValid := true, curHasCache := decide (bits ≠ 0) } }

/-- A valid SCR. -/
def withScr (bits : BitVec 4) (ts : List Token) (s : State) : State :=
  let t := s.putTokens (!s.bufs.sel) ts
  { t with bufs := { t.bufs with scrLen := ts.length, scrBits := bits }
           flags := { t.flags with scrValid := true } }

/-- Other register values. -/
def withRegs (f : Regs → Regs) (s : State) : State := { s with regs := f s.regs }

/-- An open writer. -/
def withWriter (acc : BitVec 64) (used pos : Nat) (out : List Byte) (s : State) : State :=
  { s with writer := ⟨acc, used, pos⟩, flags := { s.flags with bwOpen := true }
           spaces := { s.spaces with out := s.spaces.out.put 0 out } }

/-- The host's next operation, no command running. -/
def hostNow (op : HostOp) (s : State) : State :=
  { s with flags := { s.flags with busy := false }, env := { s.env with host := [⟨false, op⟩] } }

/-- The host's next operation lands while the command runs. -/
def hostEarly (op : HostOp) (s : State) : State := { s with env := { s.env with host := [⟨true, op⟩] } }

/-- A table with some entries set. -/
def dense (n : Nat) (l : List (Nat × Nat)) : List Nat := l.foldl (fun t e => t.set e.1 e.2) (List.replicate n 0)

/-- A histogram value from its nonzero counts. -/
def sparse (bits : Nat) (c r b a d : List (Nat × Nat)) : Histo :=
  ⟨bits, ⟨dense (Table.combined.size bits) c, dense 256 r, dense 256 b, dense 256 a, dense 40 d⟩⟩

/-- Code tables at width 0 from lengths and stored codes. -/
def codes (c r b a d : List (Nat × Nat)) : PerTable (List Word) :=
  let f := fun n l => (dense n l).map (BitVec.ofNat 32)
  ⟨f 280 c, f 256 r, f 256 b, f 256 a, f 40 d⟩

/-! ### WellFormed smoke: each check refuses an ill-formed term -/

theorem test_wf_bwPut_33 : (Instr.bwPut 33).wf = false := by decide
theorem test_wf_bwPut_32 : (Instr.bwPut 32).wf = true := by decide
theorem test_wf_ccInit_11 : (Instr.ccInit 11).wf = false := by decide
theorem test_wf_ccInit_10 : (Instr.ccInit 10).wf = true := by decide

/-! ### Words written out from 30_encoding R91, R92: op[31:24] a[23:20] b[19:16] imm[15:0] -/

theorem test_word_nop : decodeWord 0b00000000_0000_0000_0000000000000000 = .ok .nop := by decide
theorem test_word_softReset : decodeWord 0b00000001_0000_0000_0000000000000000 = .ok .softReset := by decide
theorem test_word_attemptBegin : decodeWord 0b00000010_0000_0000_0000000000000000 = .ok .attemptBegin := by
  decide
theorem test_word_hcBuild : decodeWord 0b00010000_0000_0000_0000000000000000 = .ok .hcBuild := by decide
theorem test_word_hcBox : decodeWord 0b00010001_0000_0000_0000000000000000 = .ok .hcBox := by decide
theorem test_word_brGreedy : decodeWord 0b00100000_0001_0000_0000000000000000 = .ok (.brGreedy .hc1) := by decide
theorem test_word_brRle : decodeWord 0b00100001_0000_0000_0000000000000000 = .ok .brRle := by decide
theorem test_word_cacheApply : decodeWord 0b00100011_0000_0000_0000000000000000 = .ok .cacheApply := by decide
theorem test_word_cacheSearch : decodeWord 0b00100100_0000_0000_0000000000000000 = .ok .cacheSearch := by decide
theorem test_word_tokSwap : decodeWord 0b00100101_0000_0000_0000000000000000 = .ok .tokSwap := by decide
theorem test_word_dpSolve : decodeWord 0b00110000_0001_0000_0000000000000000 = .ok (.dpSolve .hc1) := by decide
theorem test_word_histClear : decodeWord 0b01000000_0000_0000_0000000000000101 = .ok (.histClear 5) := by decide
theorem test_word_histBuild :
    decodeWord 0b01000001_0010_0000_0000000000000101 = .ok (.histBuild .perGroup 5) := by decide
theorem test_word_histAdd : decodeWord 0b01000010_0000_0000_1000000000000001 = .ok (.histAdd 0x8001) := by decide
theorem test_word_histEst : decodeWord 0b01000011_0000_0000_0000000000000011 = .ok (.histEst 3) := by decide
theorem test_word_histCombine : decodeWord 0b01000100_0000_0000_0000000000000010 = .ok (.histCombine 2) := by
  decide
theorem test_word_cluster : decodeWord 0b01000101_0000_0000_0000000000000110 = .ok (.cluster 6) := by decide
theorem test_word_huffLen : decodeWord 0b01010000_0000_0000_1111111111111111 = .ok (.huffLen 0xFFFF) := by decide
theorem test_word_huffCode : decodeWord 0b01010001_0000_0000_0000000000000001 = .ok (.huffCode 1) := by decide
theorem test_word_bwInit : decodeWord 0b01100000_0000_0000_0000000000000000 = .ok .bwInit := by decide
theorem test_word_bwPut : decodeWord 0b01100001_0000_0000_0000000000100000 = .ok (.bwPut 32) := by decide
theorem test_word_bwFinish : decodeWord 0b01100010_0000_0000_0000000000000000 = .ok .bwFinish := by decide
theorem test_word_emitTokens :
    decodeWord 0b01100011_0001_0000_0000000000000000 = .ok (.emitTokens .perTile 0) := by decide
theorem test_word_ccInit : decodeWord 0b01110000_0000_0000_0000000000001010 = .ok (.ccInit 10) := by decide
theorem test_word_ccLookup : decodeWord 0b01110001_0000_0000_0000000000000000 = .ok .ccLookup := by decide
theorem test_word_ccInsert : decodeWord 0b01110010_0000_0000_0000000000000000 = .ok .ccInsert := by decide

/-- V10.3, V4.3, V9.5, V6.9, V3.9: words of 30_encoding R94 that are refused. -/
theorem test_word_refused :
    decodeWord 0x00010000 = .error (.illegalField 0x00) ∧ decodeWord 0x10000001 = .error (.illegalField 0x10) ∧
    decodeWord 0x70000010 = .error (.illegalField 0x70) ∧ decodeWord 0x61000040 = .error (.illegalField 0x61) ∧
    decodeWord 0x41300000 = .error (.illegalField 0x41) ∧ decodeWord 0x20200000 = .error (.illegalField 0x20) ∧
    decodeWord 0xFF000000 = .error (.unknownOpcode 0xFF) := by decide

/-! ### System commands (V10) -/

/-- A state with something in everything SOFT_RESET and ATTEMPT_BEGIN touch. -/
def busyImage : State :=
  withRegs (fun r => { r with cmdCount := 7, histoBits := 5 })
    (withWriter 1 1 4 [1, 2, 3, 4] (withCur 0 [.literal 9] (withTable .hc0 [(0, 0)] (image 1 1 [9]))))

/-- The same in the error state. -/
def errorImage : State :=
  { busyImage.raise 0x22 .invalidParam 1 with
    flags := { (busyImage.raise 0x22 .invalidParam 1).flags with busy := true, errCode := 0 } }

/-- V10.4: NOP in the error state after opcode 0x22: DONE and ERROR both set, ERR_OP kept, ERRINFO 0. -/
theorem test_nop_error_state :
    next (exec .nop errorImage) (fun t => decide (t.flags.word &&& 0x0FFFFFCF = 0x02200006) &&
      decide (t.regs.errInfo = 0)) = true := by decide

/-- V10.9: CMD_COUNT wraps. -/
theorem test_nop_count_wraps :
    next (exec .nop (withRegs (fun r => { r with cmdCount := 0xFFFFFFFF }) busyImage))
      (fun t => decide (t.regs.cmdCount = 0)) = true := by decide

/-- V10.7. -/
theorem test_softReset :
    next (exec .softReset errorImage) (fun t => decide (t.flags.word = 2 ∧ t.regs.cmdCount = 0 ∧
      t.regs.xsize = 0 ∧ t.regs.histoBits = 2 ∧ t.regs.numGroups = 1 ∧ t.px 0 = 9)) = true := by decide

/-- V10.4, and HC0_VALID stays (49_system R323). -/
theorem test_attemptBegin :
    next (exec .attemptBegin errorImage) (fun t => decide (t.flags.word = 0x12 ∧ t.regs.xsize = 1)) = true := by
  decide

/-- V10.2: opcode 0x22 gives STATUS 0x02220004, here with HC0_VALID, and ERRINFO 1. -/
theorem test_unknown_opcode :
    next (runWord (withRegs (fun r => { r with cmd := 0x22000000 }) busyImage))
      (fun t => decide (t.flags.word = 0x02220014 ∧ t.regs.errInfo = 1 ∧ t.regs.cmdCount = 8)) = true := by decide

/-- V10.6: an aborted HC_BUILD ends with ABORTED although XSIZE is 0. -/
theorem test_abort_before_checks :
    next (exec .hcBuild { image 0 0 [] with
        env := { Env.reset with abortSampled := true }
        flags := { Flags.reset with busy := true, abortPending := true } })
      (fun t => decide (t.flags.word = 0x01040004 ∧ t.regs.errInfo = 0)) = true := by decide

/-- An aborted HC_BUILD while a request lands: 60_exceptions R353, the request waits for the next command. -/
theorem test_abort_late :
    next (step { image 0 0 [] with
        env := { Env.reset with abortSampled := true, host := [⟨true, .regWrite 0x4C 1⟩] }
        flags := { Flags.reset with busy := true, abortPending := true } })
      (fun u => u.flags.busy && next (exec .hcBuild u)
        (fun t => t.flags.abortPending && decide (t.flags.errCode = 4) && !t.env.abortLate)) = true := by decide

/-! ### The image of V2.4: A B C A B C A B C D D D D D D D -/

def pixA : Pixel := 0xFF0000AA
def pixB : Pixel := 0xFF00BB00
def pixC : Pixel := 0xFFCC0000
def pixD : Pixel := 0xFF112233

/-- V2.4. -/
def periodic : State :=
  image 16 1 ([pixA, pixB, pixC, pixA, pixB, pixC, pixA, pixB, pixC] ++ List.replicate 7 pixD)

/-- HC0 of V2.4. -/
def periodicTable : List (Nat × Nat) :=
  [(0, 0), (0, 0), (0, 0), (3, 6), (3, 5), (3, 4), (3, 3), (3, 2), (0, 0), (0, 0), (1, 6), (1, 5), (1, 4), (1, 3),
   (1, 2), (0, 0)]

/-- V3.2. -/
def greedyList : List Token :=
  [.literal pixA, .literal pixB, .literal pixC, .copy 3 6, .literal pixD, .copy 1 6]

/-- V3.4. -/
def rleList : List Token :=
  [.literal pixA, .literal pixB, .literal pixC, .literal pixA, .literal pixB, .literal pixC, .literal pixA,
   .literal pixB, .literal pixC, .literal pixD, .copy 1 6]

/-- CUR holds a token list. -/
def curIs (t : State) (ts : List Token) : Bool :=
  match t.curTokens with
  | .ok us => decide (us = ts)
  | .error _ => false

/-- SCR holds a token list. -/
def scrIs (t : State) (ts : List Token) : Bool :=
  match t.scrTokens with
  | .ok us => decide (us = ts)
  | .error _ => false

/-- The first elements of a space. -/
def first (t : State) (sp : SpaceId) (n : Nat) : List Nat := (List.range n).map (fun k => (t.readElem sp k).toNat)

/-- V2.4, LOW_EFFORT 0. -/
theorem test_hcBuild_periodic :
    next (exec .hcBuild periodic)
      (fun t => decide ((List.range 16).map (t.hcEntry .hc0) = periodicTable) && t.flags.hc0Valid) = true := by
  decide +kernel

/-- V2.4, LOW_EFFORT 1: nothing at positions 10 to 15. -/
theorem test_hcBuild_lowEffort :
    next (exec .hcBuild (withRegs (fun r => { r with ctrl := 1 }) periodic))
      (fun t => decide ((List.range 16).map (t.hcEntry .hc0) =
        periodicTable.take 10 ++ List.replicate 6 (0, 0))) = true := by
  decide +kernel

/-- V3.5. -/
theorem test_hcBox_periodic :
    next (exec .hcBox periodic)
      (fun t => decide ((List.range 16).map (t.hcEntry .hc1) =
        [(0, 0), (0, 0), (0, 0), (3, 6), (3, 5), (3, 4), (0, 0), (0, 0), (0, 0), (0, 0), (1, 6), (1, 5), (1, 4),
         (0, 0), (0, 0), (0, 0)]) && t.flags.hc1Valid) = true := by
  decide +kernel

/-- V3.5: `BoxOffsets(4)`. -/
theorem test_boxOffsets :
    boxOffsets Fns.defaults 4 200 = [4, 1, 5, 8, 2, 9, 6, 10, 12, 3, 13, 7, 14, 11, 16, 17, 15, 18] := by
  decide +kernel

/-- V3.2. -/
theorem test_brGreedy_periodic :
    next (exec (.brGreedy .hc0) (withTable .hc0 periodicTable periodic))
      (fun t => curIs t greedyList && t.flags.curValid && decide (t.bufs.curLen = 6)) = true := by decide +kernel

/-- V3.3: a table with (14, 4) at 14 and (10, 8) at 15 defers the copy. -/
theorem test_brGreedy_defers :
    next (exec (.brGreedy .hc0) (withTable .hc0
        (List.replicate 14 (0, 0) ++ [(14, 4), (10, 8)] ++ List.replicate 8 (0, 0))
        (image 24 1 (List.replicate 24 5))))
      (fun t => curIs t (List.replicate 15 (.literal 5) ++ [.copy 10 8, .literal 5])) = true := by decide +kernel

/-- V3.4. -/
theorem test_brRle_periodic :
    next (exec .brRle periodic) (fun t => curIs t rleList && decide (t.regs.cmdCount = 1)) = true := by
  decide +kernel

/-- V3.4: the row above wins, here on a 4 by 2 image of columns a a b b. -/
theorem test_brRle_row :
    next (exec .brRle (image 4 2 [1, 1, 2, 2, 1, 1, 2, 2]))
      (fun t => curIs t [.literal 1, .literal 1, .literal 2, .literal 2, .copy 4 4]) = true := by decide +kernel

/-- V3.8: CUR the greedy tokens, SCR the run tokens, exchanged. -/
theorem test_tokSwap :
    next (exec .tokSwap (withScr 0 rleList (withCur 0 greedyList periodic)))
      (fun t => curIs t rleList && scrIs t greedyList && t.bufs.sel && decide (t.bufs.curLen = 11) &&
        t.flags.curValid && t.flags.scrValid) = true := by decide +kernel

/-! ### The image of V2.7: ten pixels, four colours -/

def pix1 : Pixel := 0xFF000001
def pix2 : Pixel := 0xFF000002
def pix3 : Pixel := 0xFF000003
def pix4 : Pixel := 0xFF000004

/-- V2.7. -/
def tenPixels : List Pixel := [pix1, pix2, pix1, pix2, pix3, pix1, pix4, pix4, pix2, pix3]

/-- CUR holds the ten literals. -/
def literals : State := withCur 0 (tenPixels.map .literal) (image 10 1 tenPixels)

/-- V3.6, width 4. -/
def replayed4 : List Token :=
  [.literal pix1, .literal pix2, .cacheRef 6, .cacheRef 7, .literal pix3, .cacheRef 6, .literal pix4,
   .cacheRef 11, .cacheRef 7, .cacheRef 9]

/-- V3.6 and V4.4. -/
theorem test_cacheApply_4 :
    next (exec .cacheApply (withRegs (fun r => { r with cacheBits := 4 }) literals))
      (fun t => curIs t replayed4 && t.flags.curHasCache && decide (t.bufs.curBits = 4 ∧ t.ccBits = 4 ∧
        (List.range 16).map t.ccSlot = List.replicate 6 none ++
          [some pix1, some pix2, none, some pix3, none, some pix4, none, none, none, none])) = true := by
  decide +kernel

/-- V3.6, width 1: only the second D hits. -/
theorem test_cacheApply_1 :
    next (exec .cacheApply (withRegs (fun r => { r with cacheBits := 1 }) literals))
      (fun t => curIs t [.literal pix1, .literal pix2, .literal pix1, .literal pix2, .literal pix3, .literal pix1,
        .literal pix4, .cacheRef 1, .literal pix2, .literal pix3]) = true := by decide +kernel

/-- V4.6 with REQ_CACHE_BITS = 2: width 0 is best; CACHE_BITS was 7. -/
theorem test_cacheSearch :
    next (exec .cacheSearch (withRegs (fun r => { r with reqCacheBits := 2, cacheBits := 7 }) literals))
      (fun t => decide (t.regs.result0 = 0 ∧ t.regs.cacheBits = 0 ∧ t.regs.errInfo = 0)) = true := by
  decide +kernel

/-- The cache is on, of width 4, empty or with one pixel. -/
def cached (p : Option Pixel) : State :=
  let s := (image 1 1 [0]).putCache 4 (cacheInit 4)
  withRegs (fun r => { r with arg0 := pix1 })
    (match p with
     | none => s
     | some q => { s with spaces := { s.spaces with cc := s.spaces.cc.write 6 (slotElem (some q)) } })

/-- V4.1: `CC_INIT 4`. -/
theorem test_ccInit :
    next (exec (.ccInit 4) (image 1 1 [0]))
      (fun t => decide (t.ccBits = 4 ∧ first t .cc 16 = List.replicate 16 0)) = true := by decide +kernel

/-- V4.1: a miss still answers the index 6. -/
theorem test_ccLookup_miss :
    next (exec .ccLookup (cached none)) (fun t => !t.flags.ccHit && decide (t.regs.result0 = 6)) = true := by
  decide +kernel

/-- V4.1: after the insert a hit. -/
theorem test_ccLookup_hit :
    next (exec .ccLookup (cached (some pix1))) (fun t => t.flags.ccHit && decide (t.regs.result0 = 6)) = true := by
  decide +kernel

/-- V4.1, V4.2: the slot of the hash, whatever was there. -/
theorem test_ccInsert :
    next (exec .ccInsert (cached (some pix2)))
      (fun t => decide (t.readElem .cc 6 = 0x1FF000001 ∧ t.readElem .cc 7 = 0)) = true := by decide +kernel

/-! ### The solver (V5) -/

/-- The reference stream of V5.2 or V5.3 in CUR, HC0 of V2.4. -/
def solving (ref : List Token) : State := withCur 0 ref (withTable .hc0 periodicTable periodic)

/-- V5.3: the solver's stream is strictly better and becomes CUR; the cost image is V1.6's. -/
theorem test_dpSolve_improves :
    next (exec (.dpSolve .hc0) (solving rleList))
      (fun t => curIs t greedyList && scrIs t rleList && t.flags.dpImproved && t.bufs.sel &&
        decide (t.regs.result1 = 0x40824BF4 ∧ t.regs.result0 = 0x04EADF38 ∧
          first t .dpEdge 16 = [1, 1, 1, 1, 2, 3, 4, 5, 6, 1, 1, 2, 3, 4, 5, 6])) = true := by decide +kernel

/-- V5.2: equal estimates: no swap. -/
theorem test_dpSolve_keeps :
    next (exec (.dpSolve .hc0) (solving greedyList))
      (fun t => curIs t greedyList && scrIs t greedyList && !t.flags.dpImproved && !t.bufs.sel &&
        t.flags.scrValid) = true := by decide +kernel

/-! ### Histograms (V6) -/

/-- Some counts of a slot. -/
def elems (t : State) (h : Nat) (l : List Nat) : List Nat :=
  l.map (fun e => (t.readElem .hist (h * 2584 + e)).toNat)

/-- V6.1. -/
def histA : Histo := sparse 0 [(102, 1), (271, 1)] [(51, 1)] [(153, 1)] [(255, 1)] [(1, 1)]

/-- Slot 1 of V6.6. -/
def histB : Histo := sparse 0 [(102, 3)] [(51, 3)] [(153, 3)] [(255, 3)] []

/-- The state of P1 before HIST_BUILD, its 256 equal pixels with it. -/
def constant : State :=
  withCur 0 [.literal 0xFF336699, .copy 1 255] (image 16 16 (List.replicate 256 0xFF336699))

/-- Slots 0 and 1 of V6.6. -/
def twoSlots : State := withRegs (fun r => { r with arg0 := 1 }) ((image 16 16 []).putHistos 0 [histA, histB])

/-- V6.1: counts, TRIVIAL, HBITS. -/
theorem test_histBuild_one :
    next (exec (.histBuild .one 0) constant)
      (fun t => decide (t.histo 0 = histA ∧ (t.slot 0).trivialSym = ⟨none, some 51, some 153, some 255, some 1⟩ ∧
        (t.slot 0).histValid = true ∧ (t.slot 0).hbits = 0)) = true := by decide +kernel

/-- V6.8's image and stream. -/
def tiled : State :=
  let row := List.replicate 4 (0xFF102030 : Pixel) ++ List.replicate 4 0xFF405060
  withCur 0 (row.map .literal ++ [.copy 8 24]) (image 8 4 (row ++ row ++ row ++ row))

/-- V6.8, tile 0. -/
def tile0 : Histo := sparse 0 [(32, 4), (264, 1)] [(16, 4)] [(48, 4)] [(255, 4)] [(0, 1)]
/-- V6.8, tile 1. -/
def tile1 : Histo := sparse 0 [(80, 4)] [(64, 4)] [(96, 4)] [(255, 4)] []

/-- V6.8: one slot for each tile. -/
theorem test_histBuild_tiles :
    next (exec (.histBuild .perTile 1) tiled) (fun t => decide (elems t 1 [32, 80, 264, 1304 + 16, 2072] = [4, 0, 1, 4, 1] ∧
        elems t 2 [32, 80, 264, 1304 + 64, 2072] = [0, 4, 0, 4, 0])) = true := by
  decide +kernel

/-- V6.5. -/
theorem test_histClear :
    next (exec (.histClear 3) (withRegs (fun r => { r with cacheBits := 4 }) (image 1 1 [])))
      (fun t => decide (t.histo 3 = histoZero 4 ∧ (t.slot 3).hbits = 4 ∧ (t.slot 3).histValid = true)) = true := by
  decide +kernel

/-- V6.6. -/
theorem test_histAdd :
    next (exec (.histAdd 0) twoSlots)
      (fun t => decide (elems t 0 [102, 271, 1304 + 51, 2072 + 1] = [4, 1, 4, 1] ∧
        (t.slot 0).trivialSym = ⟨none, some 51, some 153, some 255, some 1⟩)) = true := by decide +kernel

/-- V6.2: 536.40625 = 0x4080C34000000000, table costs 63.446875 and 115.0875 to compare. -/
theorem test_histEst :
    next (exec (.histEst 0) twoSlots)
      (fun t => decide (t.bitCostOf 0 = 0x4080C34000000000 ∧ t.regs.result1 = 0x4080C340 ∧ t.regs.result0 = 0 ∧
        t.tableCostOf 0 4 = 0x404FB93333333333) && (t.slot 0).costValid) = true := by decide +kernel

/-- V6.7: under an infinite threshold. -/
theorem test_histCombine_under :
    next (exec (.histCombine 0) (withRegs (fun r => { r with threshHi := 0x7FF00000 }) twoSlots))
      (fun t => t.flags.combineOk && decide (t.regs.result1.toNat / 2 ^ 12 = 0x4080D)) = true := by decide +kernel

/-- V7.1: both tiles in one group. -/
def clustering : State := withRegs (fun r => { r with arg1 := 2 }) (tiled.putHistos 0 [tile0, tile1])

theorem test_cluster :
    next (exec (.cluster 0) clustering)
      (fun t => decide (t.regs.result0 = 1 ∧ t.regs.numGroups = 1 ∧ first t .grpMap 2 = [0, 0] ∧
        elems t 2 [32, 80, 264, 1304 + 16, 1816 + 255, 2072] = [4, 4, 1, 4, 8, 1])) = true := by decide +kernel

/-- A tile whose counts of 7 and 9 overflow when three of it, and when two of it, are added. -/
def bigTile : Histo := sparse 0 [(7, 2 ^ 31 - 10), (9, 2 ^ 31)] [] [] [] []

/-- Tile by tile: adding the second overflows element 9, and only the third would overflow element 7 (46_clustering
R251, 45_histogram R226). -/
theorem test_groupHistos_overflow :
    decide (groupHistos 0 [bigTile, bigTile, bigTile] [0, 0, 0] [0] = .error 9) = true := by decide +kernel

/-- Two tiles that CLUSTER puts into one group, whose counts overflow. -/
def overflowing : State :=
  withRegs (fun r => { r with arg1 := 2 }) ((image 8 4 []).putHistos 0 [bigTile, bigTile])

/-! ### Lengths and codes (V8) -/

/-- V8.8's histogram, V6.3. -/
def histP2 : Histo :=
  sparse 0 [(0, 2), (34, 1), (187, 1), (260, 2)] [(0, 2), (17, 1), (204, 1)] [(0, 2), (51, 1), (170, 1)] [(255, 4)]
    [(1, 1), (7, 1)]

/-- V8.8, lengths. -/
def lengthsP2 : PerTable (List Word) :=
  codes [(0, 0x20000), (34, 0x20000), (187, 0x20000), (260, 0x20000)] [(0, 0x10000), (17, 0x20000), (204, 0x20000)]
    [(0, 0x10000), (51, 0x20000), (170, 0x20000)] [] [(1, 0x10000), (7, 0x10000)]

/-- V8.8, stored codes. -/
def codesP2 : PerTable (List Word) :=
  codes [(0, 0x20000), (34, 0x20002), (187, 0x20001), (260, 0x20003)] [(0, 0x10000), (17, 0x20001), (204, 0x20003)]
    [(0, 0x10000), (51, 0x20001), (170, 0x20003)] [] [(1, 0x10000), (7, 0x10001)]

/-- A slot whose code tables have been made. -/
def withCodes (h : Nat) (p : PerTable (List Word)) (single : PerTable (Option Nat)) (coded : Bool) (s : State) :
    State :=
  let t := s.putCodes h p
  t.setSlot h { t.slot h with histValid := true, lenValid := true, codeValid := coded, single := single }

/-- The code tables of a slot. -/
def codesAre (t : State) (h : Nat) (p : PerTable (List Word)) : Bool :=
  Table.all.all (fun tbl => decide (t.codeTable h tbl = p.get tbl))

/-- V8.8. -/
theorem test_huffLen :
    next (exec (.huffLen 0) (periodic.putHistos 0 [histP2]))
      (fun t => codesAre t 0 lengthsP2 &&
        decide ((t.slot 0).single = ⟨none, none, none, some 255, none⟩ ∧ (t.slot 0).lenValid = true)) = true := by
  decide +kernel

/-- V8.7: the length limit. -/
theorem test_codeLengths_limit :
    (codeLengths [1, 1, 2, 3, 5, 8, 13, 21, 34, 55, 89, 144, 233, 377, 610, 987, 1597, 2584] 15).1 =
      [9, 9, 9, 9, 8, 8, 7, 7, 6, 6, 5, 5, 4, 4, 3, 3, 2, 2] := by decide +kernel

/-- V8.8. -/
theorem test_huffCode :
    next (exec (.huffCode 0) (withCodes 0 lengthsP2 noMarks false (periodic.putHistos 0 [histP2])))
      (fun t => codesAre t 0 codesP2 && (t.slot 0).codeValid) = true := by decide +kernel

/-! ### The writer (V9) -/

theorem test_bwInit :
    next (exec .bwInit (withWriter 5 3 4 [1, 2, 3, 4] (image 1 1 [])))
      (fun t => decide (t.writer = ⟨0, 0, 0⟩ ∧ first t .out 4 = [1, 2, 3, 4]) && t.flags.bwOpen) = true := by
  decide +kernel

/-- V9.1: the third put, after which BW_ACC = 0xFB. -/
theorem test_bwPut_bits :
    next (exec (.bwPut 5) (withRegs (fun r => { r with arg0 := 0x1F }) (withWriter 3 3 0 [] (image 1 1 []))))
      (fun t => decide (t.writer = ⟨0xFB, 8, 0⟩)) = true := by decide +kernel

/-- V9.2: the straddling put. -/
theorem test_bwPut_flush :
    next (exec (.bwPut 2) (withRegs (fun r => { r with arg0 := 3 }) (withWriter 0x7FFFFFFF 31 0 [] (image 1 1 []))))
      (fun t => decide (t.writer = ⟨1, 1, 4⟩ ∧ first t .out 4 = [0xFF, 0xFF, 0xFF, 0xFF])) = true := by
  decide +kernel

/-- V9.1, and V9.4: the empty stream. -/
theorem test_bwFinish :
    next (exec .bwFinish (withWriter 0xFB 8 0 [] (image 1 1 [])))
      (fun t => decide (first t .out 1 = [0xFB] ∧ t.regs.result0 = 1) && !t.flags.bwOpen) = true ∧
    next (exec .bwFinish (withWriter 0 0 0 [] (image 1 1 []))) (fun t => decide (t.regs.result0 = 0)) = true := by
  constructor <;> decide +kernel

/-- 48_bit_writer R297, R310: the first byte fits and moves BW_POS, the second does not. -/
theorem test_bwFinish_overflow :
    next (exec .bwFinish { withWriter 0xA5A5 16 4 [] (image 1 1 []) with
      caps := { (image 1 1 []).caps with outCap := 5 } })
      (fun t => decide (t.flags.errCode = 1 ∧ t.regs.errInfo = 11 ∧ t.writer = ⟨0, 0, 5⟩) && t.flags.bwErr) = true := by
  decide +kernel

/-- V9.3: the codes of P1. -/
def codesP1 : PerTable (List Word) := codes [(102, 0x10000), (271, 0x10001)] [] [] [] []

/-- P1 before EMIT_TOKENS. -/
def emitting : State :=
  withWriter 0 0 0 [] (withCodes 0 codesP1 ⟨none, some 51, some 153, some 255, some 1⟩ true constant)

/-- V9.3. -/
theorem test_emitTokens :
    next (exec (.emitTokens .one 0) emitting) (fun t => decide (t.writer = ⟨0xFA, 8, 0⟩)) = true := by
  decide +kernel

/-- V9.7: the codes lack the distance symbol of token 1, here after one literal; the eight bits put before it stay in
the writer, and so does the BW_ERR that a put among them set (48_bit_writer R309, R310). -/
theorem test_emitTokens_uncoded :
    let u (used pos : Nat) := withWriter 0 used pos [] (withCodes 0 codesP1
      ⟨none, some 51, some 153, some 255, some 2⟩ true constant)
    next (exec (.emitTokens .one 0) (u 0 0)) (fun t => !t.flags.bwErr &&
      decide (t.flags.errCode = 3 ∧ t.regs.errInfo = 1 ∧ t.flags.errOp = 0x63 ∧ t.writer = ⟨0xFA, 8, 0⟩)) = true ∧
    next (exec (.emitTokens .one 0) (u 31 (u 0 0).caps.outCap)) (fun t => t.flags.bwErr &&
      decide (t.flags.errCode = 3 ∧ t.writer = ⟨0x7D, 7, (u 0 0).caps.outCap⟩)) = true := by
  constructor <;> decide +kernel

/-! ### Witnesses: concrete states and operands that meet every hypothesis of a statement, clause by clause -/

/-- The hypotheses of a command that runs to its end on a true state. -/
def runs (i : Instr) (s : State) : Bool := s.starts i && s.invariant

theorem test_witness_DecodeEncode :
    (Instr.bwPut 32).wf = true ∧ (Instr.ccInit 10).wf = true ∧ (Instr.cluster 0xFFFF).wf = true := by decide

theorem test_witness_EncodeDecode :
    decodeWord 0x61000020 = .ok (.bwPut 32) ∧ decodeWord 0x4120FFFF = .ok (.histBuild .perGroup 0xFFFF) := by decide

theorem test_witness_StepRunsDecoded :
    (withRegs (fun r => { r with cmd := 0x21000000 }) periodic).commandNext = true ∧
    decodeWord 0x21000000 = .ok .brRle ∧ decodeTableWord 32 0x45000006 = some (.cluster 6) := by decide

/-- An opcode no command has. -/
theorem test_witness_IllegalWordEnds_1 :
    (withRegs (fun r => { r with cmd := 0x22000000 }) periodic).commandNext = true ∧
    (∀ i : Instr, i.wf = true → encode i ≠ 0x22000000) ∧ ∀ o : Opcode, o.byte ≠ opField 0x22000000 := by
  refine ⟨by decide, ?_, by intro o; cases o <;> decide⟩
  intro i _ h
  have h2 := congrArg opField h
  rw [(Laws.encode_fields i).1] at h2
  generalize i.opcode = o at h2
  cases o <;> exact absurd h2 (by decide)

/-- An opcode of a command with an operand out of its set. -/
theorem test_witness_IllegalWordEnds_2 :
    (withRegs (fun r => { r with cmd := 0x61000021 }) periodic).commandNext = true ∧
    (∀ i : Instr, i.wf = true → encode i ≠ 0x61000021) ∧ ∃ o : Opcode, o.byte = opField 0x61000021 := by
  refine ⟨by decide, ?_, ⟨.bwPut, by decide⟩⟩
  intro i hw h
  have h2 := congrArg opField h
  have h3 := congrArg immField h
  rw [(Laws.encode_fields i).1] at h2
  rw [(Laws.encode_fields i).2.2.2] at h3
  have ho : i.opcode = .bwPut := by
    generalize i.opcode = o at h2
    cases o <;> first
      | rfl
      | exact absurd h2 (by decide)
  cases i <;> first
    | exact Opcode.noConfusion ho
    | skip
  rename_i n
  have h4 : n.toNat ≤ 32 := of_decide_eq_true hw
  have h5 : (n.setWidth 16).toNat = 33 := congrArg BitVec.toNat h3
  have h6 := n.isLt
  rw [BitVec.toNat_setWidth] at h5
  omega

theorem test_witness_CommandStart :
    (hostNow (.regWrite 0x00 0x10000000) periodic).flags.busy = false ∧
    (hostNow (.regWrite 0x00 0x10000000) periodic).hostNext false (.regWrite 0x00 0x10000000) = true := by decide

/-- Both ends: without error, and with one. -/
theorem test_witness_EveryCommandEnds :
    next (exec .nop periodic) (fun t => decide (t.flags.errCode = 0)) = true ∧
    next (exec .hcBuild (image 0 1 [])) (fun t => decide (t.flags.errCode ≠ 0)) = true := by decide

theorem test_witness_ErrorStateRefuses :
    Instr.tokSwap.wf = true ∧ Instr.tokSwap.abortable = true ∧ errorImage.flags.error = true := by decide

/-- An abort sampled at the start. -/
def abortedImage : State := { periodic with env := { Env.reset with abortSampled := true } }

theorem test_witness_AbortTaken :
    Instr.hcBuild.wf = true ∧ Instr.hcBuild.abortable = true ∧ abortedImage.flags.error = false ∧
    abortedImage.env.abortSampled = true := by decide

/-- A slot with counts and lengths, with codes too if so said. -/
def withSlot (h : Nat) (coded : Bool) (s : State) : State :=
  s.setSlot h { Slot.reset with histValid := true, lenValid := true, codeValid := coded }

/-- A check, a command that runs it, and a state in which it is the first to fail, at the edge of its range. -/
def checkCases : List (Nat × Instr × State) :=
  let r := fun (f : Regs → Regs) => withRegs f (image 1 1 [5])
  [(4, .hcBuild, image 0 1 []), (4, .brRle, image 1 0 []),
   (5, .hcBuild, r (fun r => { r with quality := 101 })), (6, .hcBuild, r (fun r => { r with ctrl := 8 })),
   (7, .histClear 4, r (fun r => { r with cacheBits := 11 })),
   (8, .cacheSearch, r (fun r => { r with reqCacheBits := 16 })),
   (9, .histBuild .perTile 0, r (fun r => { r with histoBits := 1 })),
   (9, .cluster 0, r (fun r => { r with histoBits := 10 })),
   (10, .histBuild .perGroup 0, r (fun r => { r with numGroups := 0 })),
   (10, .emitTokens .perGroup 0, r (fun r => { r with numGroups := 5 })),
   (11, .histEst 4, image 1 1 [5]), (11, .cluster 0, r (fun r => { r with arg1 := 4 })),
   (12, .brGreedy .hc1, withTable .hc0 [(0, 0)] (image 1 1 [5])), (13, .cacheApply, image 1 1 [5]),
   (14, .histAdd 0, r (fun r => { r with arg0 := 1 })), (15, .huffCode 3, image 1 1 [5]),
   (16, .bwPut 0, image 1 1 [5]), (17, .bwPut 2, withWriter 0 0 0 [] (r (fun r => { r with arg0 := 4 }))),
   (18, .cacheApply, withCur 4 [.literal 5] (image 1 1 [5])),
   (19, .histAdd 0, withSlot 0 false (image 1 1 [5])),
   (20, .histBuild .perGroup 0, withCur 0 [.literal 5]
     { image 1 1 [5] with spaces := { (image 1 1 [5]).spaces with grpMap := ⟨0, [(0, 1)]⟩ } }),
   (21, .ccLookup, image 1 1 [5])]

/-- Every check from 4 to 21 fails first somewhere. -/
theorem test_witness_ChecksInOrder :
    (checkCases.all (fun c => c.2.1.wf && c.2.1.abortable && c.2.2.accepts && c.2.1.checks.contains c.1 &&
      c.2.2.fails c.2.1 c.1 && c.2.1.checks.all (fun m => decide (c.1 ≤ m) || !c.2.2.fails c.2.1 m) &&
      next (exec c.2.1 c.2.2) (fun t => decide (t.flags.errCode = 2 ∧ t.regs.errInfo.toNat = c.1)))) = true ∧
    (periodic.accepts && periodic.checksPass .brRle && next (exec .brRle periodic) (fun _ => true)) = true := by
  constructor <;> decide +kernel

/-- An image of one pixel more than N_MAX, and slots beyond H_MAX. -/
def capacityCases : List (Nat × Instr × State) :=
  let big := image 257 1 []
  let four := fun (s : State) => withRegs (fun r => { r with xsize := 17, ysize := 1 }) s
  [(1, .hcBuild, big), (0, .brRle, big), (2, .hcBox, big),
   (9, .dpSolve .hc0, withCur 0 [] (withTable .hc0 [] big)),
   (6, .histBuild .perTile 0, four (withCur 0 [] (image 1 1 []))),
   (6, .emitTokens .perGroup 3,
     withRegs (fun r => { r with numGroups := 2 }) (withCur 0 [] (withWriter 0 0 0 []
       (withSlot 3 true
         { image 1 1 [] with spaces := { (image 1 1 []).spaces with grpMap := ⟨0, [(0, 0)]⟩ } })))),
   (6, .cluster 3, withSlot 3 true (image 5 1 []))]

theorem test_witness_StartCapacity :
    (capacityCases.all (fun c => c.2.1.wf && c.2.1.abortable && c.2.2.accepts && c.2.2.checksPass c.2.1 &&
      decide (c.2.2.overCapacity c.2.1 = some c.1) &&
      next (exec c.2.1 c.2.2) (fun t => decide (t.flags.errCode = 1 ∧ t.regs.errInfo.toNat = c.1)))) = true := by
  decide +kernel

theorem test_witness_InvalidParamDoesNoWork :
    ∃ t, exec .brRle (image 0 1 []) = .next t ∧ decide (t.flags.errCode = 2) = true :=
  next_exists (by decide +kernel)

/-- ATTEMPT_BEGIN, SOFT_RESET and the hardware reset leave the error state. -/
theorem test_witness_OnlyResetsLeaveError :
    errorImage.flags.error = true ∧
    next (step (withRegs (fun r => { r with cmd := 0x02000000 }) errorImage)) (fun t => !t.flags.error) = true ∧
    next (step (withRegs (fun r => { r with cmd := 0x01000000 }) errorImage)) (fun t => !t.flags.error) = true ∧
    next (step (hostNow .hardReset errorImage)) (fun t => !t.flags.error) = true := by decide

theorem test_witness_WritesOnlyItsSpaces :
    next (exec .brRle periodic) (fun _ => true) = true ∧ SpaceId.tokB ∉ periodic.mayWrite .brRle := by
  decide +kernel

theorem test_witness_CompletionPulse :
    (hostNow (.regRead 0x04) periodic).flags.busy = false ∧
    next (step (hostNow (.regRead 0x04) periodic)) (fun _ => true) = true := by decide

/-- A state with HC0 and CUR, DP_SOLVE running on it. -/
def mid : State :=
  withRegs (fun r => { r with cmd := 0x30000000 }) (withTable .hc0 [(0, 0), (1, 4), (1, 3), (1, 2), (0, 0)]
    (withCur 0 [.literal 7, .copy 1 4] (image 5 1 [7, 7, 7, 7, 7])))

theorem test_witness_InvariantKept :
    mid.invariant = true ∧ next (step mid) (fun t => t.invariant) = true := by decide +kernel

theorem test_witness_FaithfulKept :
    mid.invariant = true ∧ mid.faithful = true ∧ next (step mid) (fun t => t.faithful && t.flags.scrValid) = true := by
  decide +kernel

theorem test_witness_ResetValues :
    (hostNow .hardReset mid).hostNext false .hardReset = true ∧ (hostNow .hardReset mid).flags.busy = false ∧
    (hostEarly .hardReset mid).hostNext true .hardReset = true := by decide

/-- Writes to the image at the edge of PIX, and to the registers that leave it alone. -/
theorem test_witness_ImageStaleness :
    ([HostOp.regWrite 0x0C 1, .regWrite 0x10 1, .spaceWrite .pix 255 1, .regWrite 0x14 1, .regWrite 0x38 1,
      .spaceWrite .grpMap 255 1, .spaceWrite .out 63 1].all
      (fun op => !(hostNow op mid).flags.busy && (hostNow op mid).hostNext false op)) = true ∧
    255 < mid.caps.nMax ∧ 63 < mid.caps.outCap := by decide

theorem test_witness_BusyDropsWrites :
    ([HostOp.regWrite 0x0C 1, .spaceWrite .out 63 1, .regWrite 0x4C 1, .regWrite 0x4C 2].all
      (fun op => (hostEarly op mid).flags.busy && (hostEarly op mid).hostNext true op)) = true ∧
    63 < mid.spaceSize .out := by decide

theorem test_witness_HostReadsChangeNothing :
    ([HostOp.regRead 0x04, .regRead 0x3C, .regRead 0x54, .spaceRead .hist 10335, .infoRead 0x100].all
      (fun op => (hostEarly op mid).hostNext true op && (hostNow op mid).hostNext false op &&
        !(hostNow op mid).flags.busy)) = true ∧
    Reg.status.offset = 0x04 ∧ Reg.status.isResult = false ∧ Reg.result0.offset = 0x3C ∧
    (∀ r : Reg, r.offset ≠ 0x54) ∧ 10335 < mid.spaceSize .hist := by
  refine ⟨by decide, rfl, rfl, rfl, ?_, by decide⟩
  intro r
  cases r <;> decide

/-- A read-write register, a read-only one, an unassigned offset. -/
theorem test_witness_RegisterAccess :
    ([HostOp.regWrite 0x38 9, .regWrite 0x08 9, .regWrite 0xFC 9].all
      (fun op => (hostNow op mid).hostNext false op && !(hostNow op mid).flags.busy)) = true ∧
    Reg.threshHi.offset = 0x38 ∧ Reg.threshHi.isReadWrite = true ∧
    (∀ r : Reg, r.offset = 0x08 → r.isReadWrite = false ∧ r ≠ .cmd ∧ r ≠ .abort) ∧
    ∀ r : Reg, r.offset = 0xFC → r.isReadWrite = false ∧ r ≠ .cmd ∧ r ≠ .abort := by
  refine ⟨by decide, rfl, rfl, ?_, ?_⟩ <;> intro r <;> cases r <;> decide

theorem test_witness_SpaceAccess :
    ([HostOp.spaceWrite .pix 255 1, .spaceWrite .grpMap 0 0x10001, .spaceWrite .out 63 0x1FF,
      .spaceWrite .hc0 255 1].all
      (fun op => (hostNow op mid).hostNext false op && !(hostNow op mid).flags.busy)) = true ∧
    255 < mid.spaceSize .pix ∧ 63 < mid.spaceSize .out := by decide

/-- Selectors at the edges: the first, an unassigned and the last one of slot 3, the first beyond it; also while a
command runs. -/
theorem test_witness_InfoWindow :
    ([HostOp.infoRead 0, .infoRead (0x100 + 32 * 3 + 1), .infoRead (0x100 + 32 * 3 + 31),
      .infoRead (0x100 + 32 * 4)].all
      (fun op => (hostNow op mid).hostNext false op && !(hostNow op mid).flags.busy &&
        (hostEarly op mid).hostNext true op && (hostEarly op mid).flags.busy)) = true := by decide

/-- At position 12 the match of 13 carries on, at 14 a search runs, where the pixel equals its left neighbour. -/
theorem test_witness_HcBuildTable :
    runs .hcBuild periodic = true ∧ runs .hcBuild (image 1 1 [5]) = true ∧ Memory.wf periodic = true ∧
    next (exec .hcBuild periodic) (fun t => periodic.carriesLeft 12 (t.hcEntry .hc0 13) &&
      !periodic.carriesLeft 14 (t.hcEntry .hc0 15) && decide (periodic.examined 14 = [1])) = true ∧
    periodic.lowEffort = false ∧ periodic.px 14 = periodic.px (14 - 1) ∧ 14 + 2 = periodic.pixelCount := by
  refine ⟨?_, ?_, ?_, ?_, ?_, ?_, ?_⟩ <;> decide +kernel

theorem test_witness_HcBuildPure :
    periodic.starts .hcBuild = true ∧ errorImage.fns = periodic.fns ∧
    (withTable .hc1 periodicTable periodic).starts .hcBuild = true ∧ Memory.wf periodic = true ∧
    Memory.wf (withTable .hc1 periodicTable periodic) = true ∧
    (withTable .hc1 periodicTable periodic).lowEffort = periodic.lowEffort ∧
    (withTable .hc1 periodicTable periodic).regs = periodic.regs ∧
    ∀ p, p < 16 → periodic.px p = (withTable .hc1 periodicTable periodic).px p := by
  refine ⟨?_, ?_, ?_, ?_, ?_, ?_, ?_, ?_⟩ <;> decide +kernel

/-- At position 3 the offset 3 is near and matches 6 pixels, at position 0 none is near. -/
theorem test_witness_HcBoxTable :
    periodic.starts .hcBox = true ∧ periodic.nearOffset 3 3 = true ∧ periodic.matchLength 3 3 = 6 ∧
    ∀ q, periodic.nearOffset 0 q = true → periodic.matchLength 0 q < 4 := by
  refine ⟨by decide, by decide +kernel, by decide +kernel, fun q h => ?_⟩
  have h := of_decide_eq_true h
  omega

/-- The same state with room for `n` tokens. -/
def withRoom (n : Nat) (s : State) : State := { s with caps := { s.caps with tokCap := n } }

/-- Six tokens: they fit exactly, although the image has 16 pixels, and they do not. -/
theorem test_witness_GreedyTokens :
    ([6, 5].all (fun n =>
      let s := withRoom n (solving rleList)
      s.starts (.brGreedy .hc0) && Memory.wf s && s.tableTrue .hc0 && decide (s.pixelCount ≤ s.caps.nMax))) = true ∧
    next (exec (.brGreedy .hc0) (withRoom 6 (solving rleList))) (fun t => decide (t.bufs.curLen = 6)) = true ∧
    next (exec (.brGreedy .hc0) (withRoom 5 (solving rleList))) (fun t => decide (t.flags.errCode = 1)) = true := by
  refine ⟨?_, ?_, ?_⟩ <;> decide +kernel

/-- Eleven tokens: they fit exactly, and they do not. -/
theorem test_witness_RleTokens :
    ([11, 10].all (fun n => (withRoom n periodic).starts .brRle && Memory.wf (withRoom n periodic))) = true ∧
    next (exec .brRle (withRoom 11 periodic)) (fun t => decide (t.bufs.curLen = 11)) = true ∧
    next (exec .brRle (withRoom 10 periodic)) (fun t => decide (t.flags.errCode = 1)) = true := by
  refine ⟨?_, ?_, ?_⟩ <;> decide +kernel

theorem test_witness_TokenSum :
    mid.invariant = true ∧ mid.faithful = true ∧
    ([Instr.brRle, .brGreedy .hc0, .dpSolve .hc0].all
      (fun i => next (exec i mid) (fun t => decide (t.flags.errCode = 0)))) = true := by
  refine ⟨?_, ?_, ?_⟩ <;> decide +kernel

/-- Room for two tokens, three different pixels. -/
def crowded : State := withRoom 2 (withTable .hc0 [(0, 0), (0, 0), (0, 0)] (image 3 1 [1, 2, 3]))

/-- Room for the two tokens of the reference stream, not for the five that the solver finds in an empty table. -/
def solvingCrowded : State :=
  withRoom 2 (withTable .hc0 (List.replicate 5 (0, 0)) (withCur 0 [.literal 7, .copy 1 4] (image 5 1 [7, 7, 7, 7, 7])))

theorem test_witness_BuilderOverflow :
    crowded.starts .brRle = true ∧ crowded.starts (.brGreedy .hc0) = true ∧ 2 < crowded.pixelCount ∧
    next (exec .brRle crowded) (fun t => decide (t.flags.errCode = 1)) = true ∧
    next (exec (.brGreedy .hc0) crowded) (fun t => decide (t.flags.errCode = 1 ∧ t.regs.errInfo = 3)) = true ∧
    (∀ q, q < 3 → ∀ p, p < q → crowded.px p ≠ crowded.px q) ∧ solvingCrowded.starts (.dpSolve .hc0) = true ∧
    next (exec (.dpSolve .hc0) solvingCrowded) (fun t => decide (t.flags.errCode = 1 ∧ t.regs.errInfo = 4)) = true := by
  refine ⟨?_, ?_, ?_, ?_, ?_, ?_, ?_, ?_⟩ <;> decide +kernel

/-- CACHE_BITS 0 and 4. -/
theorem test_witness_CacheApplyStream :
    runs .cacheApply literals = true ∧ literals.curTrue = true ∧
    runs .cacheApply (withRegs (fun r => { r with cacheBits := 4 }) literals) = true ∧
    (withRegs (fun r => { r with cacheBits := 4 }) literals).curTrue = true := by
  refine ⟨?_, ?_, ?_, ?_⟩ <;> decide +kernel

theorem test_witness_TokSwapEffect :
    mid.starts .tokSwap = true ∧ mid.flags.curHasCache = decide (mid.bufs.curBits ≠ 0) := by decide

/-- Both buffers valid, one of them at width 4. -/
def replayed : State :=
  withScr 0 (tenPixels.map .literal) (withCur 4 replayed4
    (withTable .hc0 [(0, 0), (0, 0), (2, 2), (0, 0), (0, 0), (0, 0), (0, 0), (1, 1), (5, 2), (0, 0)]
      (image 10 1 tenPixels)))

theorem test_witness_TokensExpand :
    replayed.tokensTrue 4 replayed4 = true ∧ replayed.faithful = true ∧ replayed.flags.curValid = true ∧
    replayed.flags.scrValid = true := by
  refine ⟨?_, ?_, ?_, ?_⟩ <;> decide +kernel

theorem test_witness_CcInitEffect :
    (image 1 1 [0]).starts (.ccInit 0) = true ∧ (image 1 1 [0]).starts (.ccInit 10) = true := by decide

theorem test_witness_CcLookupInsert :
    (cached none).starts .ccLookup = true ∧ { cached none with ccBits := 10 }.starts .ccInsert = true ∧
    { cached none with ccBits := 10 }.ccBits.toNat ≤ 10 := by decide

theorem test_witness_CacheSearchBest :
    runs .cacheSearch (withRegs (fun r => { r with reqCacheBits := 1 }) literals) = true ∧
    (withRegs (fun r => { r with reqCacheBits := 1 }) literals).curTrue = true ∧
    (withRegs (fun r => { r with reqCacheBits := 1 }) literals).searchCosts = true := by
  refine ⟨?_, ?_, ?_⟩ <;> decide +kernel

/-- Without a cache, without room for the stream, and with a cache. -/
theorem test_witness_DpSolveStream :
    (runs (.dpSolve .hc0) mid && mid.faithful && mid.solverReaches .hc0) = true ∧
    (runs (.dpSolve .hc0) solvingCrowded && solvingCrowded.faithful && solvingCrowded.solverReaches .hc0) = true ∧
    (let s := withRegs (fun r => { r with cacheBits := 4 }) replayed
     runs (.dpSolve .hc0) s && s.faithful && s.solverReaches .hc0) = true := by
  refine ⟨?_, ?_, ?_⟩ <;> decide +kernel

theorem test_witness_DpSolveMonotone :
    mid.invariant = true ∧ mid.faithful = true ∧
    ∃ t, exec (.dpSolve .hc0) mid = .next t ∧ decide (t.flags.errCode = 0) = true :=
  ⟨by decide +kernel, by decide +kernel, next_exists (by decide +kernel)⟩

theorem test_witness_HistClearEffect :
    (image 1 1 [0]).starts (.histClear 3) = true ∧
    (withRegs (fun r => { r with cacheBits := 10 }) (image 1 1 [0])).starts (.histClear 0) = true := by decide

/-- A group for each tile of V6.8. -/
def grouped : State :=
  { withRegs (fun r => { r with numGroups := 2 }) tiled with
    spaces := { tiled.spaces with grpMap := ⟨0, [(0, 1), (1, 0)]⟩ } }

theorem test_witness_HistBuildCounts :
    (runs (.histBuild .one 3) grouped && runs (.histBuild .perTile 2) grouped &&
      runs (.histBuild .perGroup 0) grouped && grouped.curTrue) = true := by decide +kernel

/-- A slot operand whose slots hold these counts first. -/
def summing (a b : List (BitVec 32)) : State :=
  let s := withRegs (fun r => { r with arg0 := 1 }) (withSlot 0 false (withSlot 1 false (image 1 1 [0])))
  { s with spaces := { s.spaces with hist := ((Mem.unspecified 32 0).put 0 a).put 2584 b } }

/-- Every sum fits. -/
theorem test_witness_HistAddSums :
    runs (.histAdd 0) twoSlots = true ∧
    ∀ e, e < 2112 → (twoSlots.readElem .hist (0 * 2584 + e)).toNat +
      (twoSlots.readElem .hist (1 * 2584 + e)).toNat < 2 ^ 32 := by
  have h : ∀ i, i < 5168 → (twoSlots.readElem .hist i).toNat < 2 ^ 31 := by
    intro i hi
    have hall : (([histA, histB].flatMap (fun h => h.elements.map (BitVec.ofNat 32))).all
        (fun v => decide (v.toNat < 2 ^ 31))) = true := by decide +kernel
    have hlen : ([histA, histB].flatMap (fun h => h.elements.map (BitVec.ofNat 32))).length = 5168 := by
      decide +kernel
    have hr : twoSlots.spaces.hist = (Mem.unspecified 32 0).put 0
        ([histA, histB].flatMap (fun h => h.elements.map (BitVec.ofNat 32))) := rfl
    simp only [State.readElem]
    split
    · simp
    · rw [hr, Mem.read_put_in _ _ _ _ _ (Nat.zero_le i) (by omega), Nat.sub_zero,
        List.getD_eq_getElem?_getD, List.getElem?_eq_getElem (by omega), Option.getD_some]
      have := List.all_eq_true.1 hall _ (List.getElem_mem (l := [histA, histB].flatMap
        (fun h => h.elements.map (BitVec.ofNat 32))) (n := i) (by omega))
      have := of_decide_eq_true this
      rw [BitVec.toNat_setWidth, Nat.mod_eq_of_lt (by omega)]
      exact this
  refine ⟨by decide +kernel, fun e he => ?_⟩
  have := h (0 * 2584 + e) (by omega)
  have := h (1 * 2584 + e) (by omega)
  omega

/-- The first sum is 2^32. -/
theorem test_witness_HistAddSums_overflow :
    runs (.histAdd 0) (summing [0xFFFFFFFF] [1]) = true ∧
    ((summing [0xFFFFFFFF] [1]).readElem .hist 0).toNat +
      ((summing [0xFFFFFFFF] [1]).readElem .hist 2584).toNat = 2 ^ 32 := by
  constructor <;> decide +kernel

theorem test_witness_HistEstCosts : runs (.histEst 0) (summing [] []) = true := by decide +kernel

theorem test_witness_HistCombineCost : runs (.histCombine 0) (summing [] []) = true := by decide +kernel

/-- One tile, its counts in slot 0. -/
def oneTile : State := withRegs (fun r => { r with arg1 := 3 }) ((image 4 4 []).putHistos 0 [histB])

/-- A count fits its element. -/
theorem count_lt (s : State) (h : Nat) (t : Table) (sym : Nat) : s.count h t sym < 2 ^ 32 := by
  unfold State.count State.histTable
  rw [List.getD_eq_getElem?_getD, List.getElem?_map]
  cases (s.spaces.hist.run 6 (h * Config.slotStride + t.base) (t.size (s.slot h).hbits.toNat))[sym]? with
  | none => simp
  | some v => exact v.isLt

/-- A count of one tile alone fits. -/
theorem chosenCount_one (s : State) (k h : Nat) (t : Table) (sym : Nat) : s.chosenCount k h 1 t sym < 2 ^ 32 := by
  have hc := count_lt s (h + 0) t sym
  unfold State.chosenCount State.groupCount
  by_cases hg : (s.tileChoice h).2.getD 0 0 = k <;> simp_all

theorem test_witness_ClusterGroups :
    runs (.cluster 0) oneTile = true ∧ oneTile.tileCount ≤ oneTile.caps.nMax ∧
    ∀ k, k < (oneTile.tileChoice 0).1 → oneTile.GroupFits 0 k := by
  refine ⟨by decide +kernel, by decide +kernel, fun k _ t sym => ?_⟩
  rw [show oneTile.tileCount = 1 by decide +kernel]
  exact chosenCount_one oneTile k 0 t sym

/-- Adding the second tile overflows element 9 and nothing below it. -/
theorem test_witness_ClusterGroups_overflow :
    runs (.cluster 0) overflowing = true ∧ overflowing.tileCount ≤ overflowing.caps.nMax ∧
    0 < (overflowing.tileChoice 0).1 ∧ 1 < overflowing.tileCount ∧
    (∀ tb q, overflowing.chosenCount 0 0 1 tb q < 2 ^ 32) ∧
    2 ^ 32 ≤ overflowing.chosenCount 0 0 (1 + 1) .combined 9 ∧
    ∀ tb q, Table.base tb + q < Table.base .combined + 9 → overflowing.chosenCount 0 0 (1 + 1) tb q < 2 ^ 32 := by
  have hc : overflowing.tileChoice 0 = (1, [0, 0]) := by decide +kernel
  have h2 : ∀ tb q, overflowing.chosenCount 0 0 2 tb q = overflowing.count 0 tb q + overflowing.count 1 tb q := by
    intro tb q
    unfold State.chosenCount State.groupCount
    rw [hc]
    simp [List.range_succ]
  refine ⟨by decide +kernel, by decide +kernel, by rw [hc]; decide, by decide +kernel,
    fun tb q => chosenCount_one _ _ _ _ _, ?_, ?_⟩
  · rw [h2]
    decide +kernel
  · intro tb q hq
    rw [h2]
    cases tb <;> simp only [Table.base] at hq <;> try omega
    have hall : ∀ q, q < 9 → overflowing.count 0 .combined q + overflowing.count 1 .combined q < 2 ^ 32 := by
      decide +kernel
    exact hall q (by omega)

/-- The counts, whatever the registers hold. -/
theorem count_withRegs (f : Regs → Regs) (s : State) (h : Nat) (t : Table) (sym : Nat) :
    (withRegs f s).count h t sym = s.count h t sym := rfl

theorem test_witness_ClusterIdempotent :
    let u := withRegs (fun r => { r with threshHi := 1, quality := 3 }) oneTile
    u.starts (.cluster 0) = true ∧ u.invariant = true ∧ oneTile.fns = u.fns ∧ oneTile.tileCount ≤ u.caps.nMax ∧
    oneTile.regs.xsize = u.regs.xsize ∧ oneTile.regs.arg1 = u.regs.arg1 ∧
    (∀ k, k < (oneTile.tileChoice 0).1 → oneTile.GroupFits 0 k) ∧ ∀ g tbl sym, oneTile.count (0 + g) tbl sym = u.count (0 + g) tbl sym := by
  refine ⟨?_, ?_, rfl, ?_, rfl, rfl, test_witness_ClusterGroups.2.2,
    fun g tbl sym => (count_withRegs _ _ _ _ _).symm⟩ <;> decide +kernel

/-- Tables of one and of several symbols. -/
theorem test_witness_HuffLenLengths :
    runs (.huffLen 0) (periodic.putHistos 0 [histP2]) = true ∧
    (nonzeroCounts ((periodic.putHistos 0 [histP2]).histTable 0 .red)).length = 3 ∧
    (nonzeroCounts ((periodic.putHistos 0 [histP2]).histTable 0 .alpha)).length = 1 := by
  refine ⟨?_, ?_, ?_⟩ <;> decide +kernel

theorem test_witness_HuffCodeCodes :
    runs (.huffCode 0) (withCodes 0 lengthsP2 noMarks false periodic) = true ∧
    ∀ tbl : Table, kraftSum ((withCodes 0 lengthsP2 noMarks false periodic).lengths 0 tbl) ≤ 2 ^ 15 := by
  refine ⟨by decide +kernel, fun tbl => ?_⟩
  cases tbl <;> decide +kernel

/-- A writer at some place, its bits zero, the bytes before it zero. -/
def writing (used pos : Nat) : State := withWriter 0 used pos (List.replicate pos 0) (image 1 1 [5])

theorem test_witness_BwInitEffect : (writing 3 8).starts .bwInit = true := by decide +kernel

/-- No bit, and a word of 32 bits that just fits. -/
theorem test_witness_BwPutStream :
    ((writing 0 0).starts (.bwPut 0) && (writing 0 0).writerClean && (writing 0 0).roomFor 0 &&
      (writing 31 60).starts (.bwPut 32) && (writing 31 60).writerClean && (writing 31 60).roomFor 32) = true := by
  decide +kernel

/-- An empty stream, and one whose last byte just fits. -/
theorem test_witness_BwFinishStream :
    ((writing 0 0).starts .bwFinish && (writing 0 0).writerClean && (writing 31 60).starts .bwFinish &&
      (writing 31 60).writerClean && decide (60 + (31 + 7) / 8 ≤ (writing 31 60).caps.outCap)) = true := by
  decide +kernel

/-- A full OUT, and the sticky flag. -/
theorem test_witness_WriterOverflow :
    (runs (.bwPut 32) (writing 0 64) && !(writing 0 64).roomFor 32 && runs (.bwPut 1) (writing 0 64).setBwErr &&
      runs .bwFinish (writing 1 64) && decide ((writing 1 64).caps.outCap < 64 + (1 + 7) / 8) &&
      runs .bwFinish (writing 1 64).setBwErr && decide ((writing 1 64).writer.acc.toNat < 2 ^ 1)) = true ∧
    next (exec .bwInit (writing 0 64).setBwErr) (fun t => !t.flags.bwErr) = true := by
  constructor <;> decide +kernel

/-- Five equal pixels with codes for both symbols of table 0; `d` is the single distance symbol. -/
def emitting5 (d : Nat) : State :=
  withWriter 0 0 0 [] (withCodes 0 (codes [(0, 0x10000), (259, 0x10001)] [] [] [] [])
    ⟨none, some 0, some 7, some 0, some d⟩ true
    (withCur 0 [.literal 7, .copy 1 4] (image 5 1 [7, 7, 7, 7, 7])))

theorem test_witness_EmitTokensStream :
    (runs (.emitTokens .one 0) (emitting5 1) && (emitting5 1).curTrue && (emitting5 1).writerClean &&
      curIs (emitting5 1) [.literal 7, .copy 1 4] && (emitting5 1).tokensCoded .one 0 0 [.literal 7, .copy 1 4] &&
      (emitting5 1).roomFor ((emitting5 1).tokenBits .one 0 0 [.literal 7, .copy 1 4]).length) = true := by
  decide +kernel

/-- A word that does not fit, and the sticky flag. -/
theorem test_witness_EmitTokensStream_overflow :
    ([emitting5 1, (emitting5 1).setBwErr].all (fun s =>
      let u : State := { s with writer := { s.writer with used := 31, pos := 64 } }
      runs (.emitTokens .one 0) u && u.curTrue && curIs u [.literal 7, .copy 1 4] &&
        u.tokensCoded .one 0 0 [.literal 7, .copy 1 4] &&
        (u.flags.bwErr || !u.roomFor (u.tokenBits .one 0 0 [.literal 7, .copy 1 4]).length) &&
        next (exec (.emitTokens .one 0) u) (fun t => t.flags.bwErr && t.flags.done))) = true := by
  decide +kernel

/-- The distance symbol of the second token, 1, has no codeword; behind the two bits put before it the pending bits are
2 in an empty writer, and 31 + 2 in one that is full. -/
theorem test_witness_EmitTokensStream_uncoded :
    [emitting5 2, { emitting5 2 with writer := ⟨0, 31, 64⟩ }].all (fun s =>
      runs (.emitTokens .one 0) s && s.curTrue && s.writerClean &&
      curIs s ([.literal 7] ++ .copy 1 4 :: []) && s.tokensCoded .one 0 0 [.literal 7] &&
      decide (s.slotOf .one 1 = 0 ∧ emissionsOf s.fns s.xs (.copy 1 4) =
        [.symbol .combined 259, .raw 0 0] ++ .symbol .distance 1 :: [.raw 0 0] ∧
        0 < codeLen (s.codeElem 0 .combined 259) ∧ codeLen (s.codeElem 0 .distance 1) = 0 ∧
        (s.slot 0).single.get .distance ≠ some 1 ∧
        (s.tokenBits .one 0 0 [.literal 7] ++
          [Emission.symbol .combined 259, .raw 0 0].flatMap (s.emissionBits 0)).length = 2) &&
      [Emission.symbol .combined 259, .raw 0 0].all (s.emissionCoded 0) &&
      next (exec (.emitTokens .one 0) s) (fun t =>
        decide (t.flags.bwErr = !s.roomFor 2 ∧ t.writer.used = (s.writer.used + 2) % 32))) = true := by
  decide +kernel

/-- V1.1. -/
theorem test_witness_PrefixCodes :
    prefixEncode 1 = ⟨0, 0, 0⟩ ∧ prefixEncode 2 = ⟨1, 0, 0⟩ ∧ prefixEncode 3 = ⟨2, 0, 0⟩ ∧
    prefixEncode 121 = ⟨13, 5, 24⟩ ∧ prefixEncode 1048576 = ⟨39, 18, 262143⟩ := by decide +kernel

/-- V1.2, and the edges of the ranges. -/
theorem test_witness_DistanceCodes :
    distanceCode Fns.defaults 16 9 = 80 ∧ distanceCode Fns.defaults 1 1 = 1 ∧
    distanceCode Fns.defaults 16 256 = 376 ∧ Config.windowSize ≤ Config.windowSize ∧ 1 ≤ 4095 := by decide +kernel

end Sys2Proof.Tests
end

section
/-! SUPPORT. What an operation of the host does as one step, and the statements on reset, on STATUS and on the register
window (10_state R21, R22, R46, R50, 20_memory R71, R73). -/

namespace Sys2Proof.Machine

/-! ### One operation of the host as one step -/

/-- The host's next operation happens where no command runs, or where it is marked to land early (log 1, 2). -/
theorem step_hostNext {s : State} {e : Bool} {op : HostOp} (hop : s.hostNext e op = true)
    (hbusy : s.flags.busy = true → e = true) : step s = hostStep op s.popHost := by
  simp only [State.hostNext, decide_eq_true_eq, List.head?_eq_some_iff] at hop
  obtain ⟨rest, hhost⟩ := hop
  have hlands : (s.flags.busy && !e) = false := by
    cases hb : s.flags.busy
    · rfl
    · simp [hbusy hb]
  simp [step, hhost, hlands]

theorem step_regWrite {s : State} {e : Bool} {off : BitVec 8} {w : Word} (hidle : s.flags.busy = false)
    (hop : s.hostNext e (.regWrite off w) = true) :
    step s = .next (s.popHost.hostRegWrite off w).quiet :=
  step_hostNext hop (by simp [hidle])

theorem step_spaceWrite {s : State} {e : Bool} {sp : SpaceId} {i : Nat} {v : BitVec 64}
    (hidle : s.flags.busy = false) (hop : s.hostNext e (.spaceWrite sp i v) = true)
    (hi : i < s.spaceSize sp) : step s = .next (s.popHost.writeElem sp i v).quiet := by
  have hi' : i < s.popHost.spaceSize sp := by cases sp <;> exact hi
  rw [step_hostNext hop (by simp [hidle])]
  simp [hostStep, hi', State.hostSpaceWrite, hidle]

/-- An operation without effect leaves everything but the environment and ABORT_PENDING. -/
theorem sameCore_quiet_popHost (s : State) : SameCore s s.popHost.quiet :=
  ⟨rfl, rfl, rfl, rfl, rfl, rfl, rfl, rfl, rfl, rfl⟩

/-! ### The register window -/

@[simp] theorem Reg.ofOffset_offset (r : Reg) : Reg.ofOffset r.offset = some r := by
  cases r <;> decide

theorem Reg.offset_of_ofOffset {off : BitVec 8} {r : Reg} (h : Reg.ofOffset off = some r) : r.offset = off := by
  simpa using List.find?_some h

/-- While no command runs, a write at a register's offset is a write of that register. -/
theorem State.hostRegWrite_offset {s : State} (hidle : s.flags.busy = false) (r : Reg) (w : Word) :
    s.hostRegWrite r.offset w = s.writeReg r w := by
  simp [State.hostRegWrite, hidle]

theorem step_regWrite_offset {s : State} {e : Bool} {r : Reg} {w : Word} (hidle : s.flags.busy = false)
    (hop : s.hostNext e (.regWrite r.offset w) = true) : step s = .next (s.popHost.writeReg r w).quiet := by
  rw [step_regWrite hidle hop, State.hostRegWrite_offset (s := s.popHost) hidle]

/-- A register the host can neither write nor command with ignores the write (20_memory R71). -/
theorem State.writeReg_readOnly (s : State) (w : Word) {r : Reg} (hro : r.isReadWrite = false)
    (hcmd : r ≠ .cmd) (habort : r ≠ .abort) : s.writeReg r w = s := by
  cases r <;> simp_all [State.writeReg, Reg.isReadWrite]

/-- A read-write register other than XSIZE and YSIZE only stores (10_state R46). -/
theorem State.writeReg_stores (s : State) (w : Word) {r : Reg} (hrw : r.isReadWrite = true)
    (hx : r ≠ .xsize) (hy : r ≠ .ysize) : ∃ regs, s.writeReg r w = { s with regs := regs } := by
  cases r <;> simp_all [State.writeReg, Reg.isReadWrite]

/-- A read-write register holds the value written (10_state R21). -/
theorem State.regValue_writeReg_self (s : State) (w : Word) {r : Reg} (hrw : r.isReadWrite = true) :
    (s.writeReg r w).regValue r = w := by
  cases r <;> simp_all [State.writeReg, State.regValue, Reg.isReadWrite]

/-- Every other register but STATUS, which shows what became stale, keeps its value (10_state R21). -/
theorem State.regValue_writeReg_of_ne (s : State) (w : Word) {r q : Reg} (hrw : r.isReadWrite = true)
    (hq : q ≠ r) (hst : q ≠ .status) : (s.writeReg r w).regValue q = s.regValue q := by
  cases r <;> simp only [Reg.isReadWrite, Bool.false_eq_true] at hrw <;>
    cases q <;> simp_all [State.writeReg, State.regValue]

/-- Nothing outside registers, flags and slots moves. -/
theorem State.writeReg_frame (s : State) (w : Word) {r : Reg} (hrw : r.isReadWrite = true) :
    (s.writeReg r w).spaces = s.spaces ∧ SameHidden s (s.writeReg r w) ∧ (s.writeReg r w).pc = s.pc := by
  cases r <;> simp_all [State.writeReg, SameHidden, Reg.isReadWrite]

theorem State.regValue_quiet (s : State) {q : Reg} (hq : q ≠ .status) : s.quiet.regValue q = s.regValue q := by
  cases q <;> simp_all [State.regValue]

@[simp] theorem State.regValue_popHost (s : State) (q : Reg) : s.popHost.regValue q = s.regValue q := by
  cases q <;> rfl

/-! ### Reset -/

theorem Flags.word_reset : Flags.reset.word = 0 := by decide

/-- Registers, STATUS and token buffers at their reset values show the host the reset value of every register. -/
theorem State.regValue_of_reset {t : State} (hregs : t.regs = Regs.reset) (hflags : t.flags = Flags.reset)
    (hbufs : t.bufs = Buffers.reset) (r : Reg) : t.regValue r = r.resetValue := by
  cases r <;>
    simp [State.regValue, Reg.resetValue, hregs, hflags, hbufs, Regs.reset, Buffers.reset, Flags.word_reset]

theorem State.slot_of_slots_nil {t : State} (hslots : t.slots = []) (h : Nat) : t.slot h = Slot.reset := by
  simp [State.slot, hslots, cellAt]

/-! ### Staleness -/

/-- A write that changes registers or pixels and makes the image stale clears what is derived from the image and
nothing else (10_state R46). -/
theorem imageChanged_clears (s : State) (regs : Regs) (pix : Mem 32) :
    let t := (State.imageChanged
      { s.popHost with regs := regs, spaces := { s.spaces with pix := pix } }).quiet
    t.flags = { s.flags with
        hc0Valid := false, hc1Valid := false, curValid := false, scrValid := false, curHasCache := false
        abortPending := s.flags.abortPending || s.env.abortLine } ∧
      (∀ h, t.slot h = (s.slot h).invalid) ∧ SameCosts s t ∧ SameHidden s t ∧ t.pc = s.pc :=
  ⟨rfl, slot_invalidSlots s.slots, ⟨fun _ => rfl, fun _ _ => rfl⟩, ⟨rfl, rfl, rfl⟩, rfl⟩

/-- A write that changes registers, GRPMAP or OUT alone clears nothing (10_state R46). -/
theorem store_clears_nothing (s : State) (regs : Regs) (grpMap : Mem 16) (out : Mem 8) :
    let t := State.quiet
      { s.popHost with regs := regs, spaces := { s.spaces with grpMap := grpMap, out := out } }
    t.flags = { s.flags with abortPending := s.flags.abortPending || s.env.abortLine } ∧
      t.slots = s.slots ∧ SameCosts s t ∧ SameHidden s t ∧ t.pc = s.pc :=
  ⟨rfl, rfl, ⟨fun _ => rfl, fun _ _ => rfl⟩, ⟨rfl, rfl, rfl⟩, rfl⟩

/-- The offsets of the read-write registers other than XSIZE and YSIZE (10_state R21). -/
theorem Reg.of_storing_offset {off : BitVec 8}
    (h : off ∈ [0x14#8, 0x18#8, 0x1C#8, 0x20#8, 0x24#8, 0x28#8, 0x2C#8, 0x30#8, 0x34#8, 0x38#8]) :
    ∃ r : Reg, r.offset = off ∧ r.isReadWrite = true ∧ r ≠ .xsize ∧ r ≠ .ysize := by
  have hall : ∀ off ∈ [0x14#8, 0x18#8, 0x1C#8, 0x20#8, 0x24#8, 0x28#8, 0x2C#8, 0x30#8, 0x34#8, 0x38#8],
      ∃ r ∈ Reg.all, r.offset = off ∧ r.isReadWrite = true ∧ r ≠ .xsize ∧ r ≠ .ysize := by decide
  obtain ⟨r, _, hr⟩ := hall off h
  exact ⟨r, hr⟩

/-! ### The STATUS word -/

/-- STATUS bit by bit: the one-bit fields from bit 0 on, two zeros, ERRCODE, ERR_OP, zeros (10_state R22). -/
theorem Flags.getLsbD_word (f : Flags) (i : Nat) :
    f.word.getLsbD i =
      if i < 14 then
        [f.busy, f.done, f.error, f.bwErr, f.hc0Valid, f.hc1Valid, f.curValid, f.scrValid, f.bwOpen,
          f.abortPending, f.ccHit, f.combineOk, f.dpImproved, f.curHasCache].getD i false
      else if i < 16 then false
      else if i < 20 then f.errCode.getLsbD (i - 16)
      else f.errOp.getLsbD (i - 20) := by
  rcases Nat.lt_or_ge i 32 with hi | hi
  · simp only [Flags.word, bit, BitVec.getLsbD_setWidth, BitVec.getLsbD_append]
    interval_cases i <;> simp
  · rw [BitVec.getLsbD_of_ge f.word _ hi, BitVec.getLsbD_of_ge f.errOp _ (by omega), if_neg (by omega),
      if_neg (by omega), if_neg (by omega)]

/-- A field of STATUS is given by its bits. -/
theorem Flags.extractLsb'_word {n k : Nat} {f : Flags} {v : BitVec n}
    (h : ∀ i, i < n → f.word.getLsbD (k + i) = v.getLsbD i) : f.word.extractLsb' k n = v := by
  apply BitVec.eq_of_getLsbD_eq
  intro i hi
  simpa [BitVec.getLsbD_extractLsb', hi] using h i hi

end Sys2Proof.Machine

open Sys2Proof Sys2Proof.Machine

/-- Settles O26: the bits of the word, one by one and gathered into the fields. -/
theorem statusLayout : Obligations.StatusLayout := by
  unfold Obligations.StatusLayout
  intro f
  simp only [Flags.getLsbD_word]
  refine ⟨rfl, rfl, rfl, rfl, rfl, rfl, rfl, rfl, rfl, rfl, rfl, rfl, rfl, rfl, ?zeros, ?errCode, ?errOp,
    ?top⟩ <;> refine Flags.extractLsb'_word (fun i hi => ?_) <;> rw [Flags.getLsbD_word]
  case zeros => simp [show ¬ 14 + i < 14 by omega, show 14 + i < 16 by omega]
  case errCode => simp [show ¬ 16 + i < 14 by omega, show 16 + i < 20 by omega]
  case errOp => simp [show ¬ 20 + i < 14 by omega, show ¬ 20 + i < 16 by omega]
  case top =>
    rw [BitVec.getLsbD_of_ge f.errOp _ (by omega)]
    simp [show ¬ 28 + i < 14 by omega, show ¬ 28 + i < 16 by omega, show ¬ 28 + i < 20 by omega]

/-- Settles O17: the one reset state has no cell, no slot and no valid bit, so both checks evaluate. -/
theorem invariantAtReset : Obligations.InvariantAtReset := by
  unfold Obligations.InvariantAtReset
  exact ⟨by decide, by decide⟩

/-- Settles O19: `State.reset` and the state after a hardware reset have registers, flags, buffers and slots at
their reset values. -/
theorem resetValues : Obligations.ResetValues := by
  unfold Obligations.ResetValues
  refine ⟨⟨State.regValue_of_reset rfl rfl rfl, Flags.word_reset, rfl, rfl, rfl, rfl, fun h => ?_⟩,
    fun s e hop hbusy => ⟨s.popHost.hardReset, step_hostNext hop hbusy,
      ⟨State.regValue_of_reset rfl rfl rfl, Flags.word_reset, rfl, rfl, rfl, rfl, fun h => ?_⟩, rfl, rfl⟩⟩
  · rw [State.slot_of_slots_nil (t := State.reset) rfl h]
    exact ⟨rfl, rfl, rfl, rfl⟩
  · rw [State.slot_of_slots_nil (t := s.popHost.hardReset) rfl h]
    exact ⟨rfl, rfl, rfl, rfl⟩

/-- Settles O20: XSIZE, YSIZE and PIX go through `State.imageChanged`, every other write only stores. -/
theorem imageStaleness : Obligations.ImageStaleness := by
  unfold Obligations.ImageStaleness
  refine ⟨fun s e op hidle hop hcase => ?_, fun s e op hidle hop hcase => ?_⟩
  · obtain ⟨w, rfl | rfl⟩ | ⟨i, v, rfl, hi⟩ := hcase
    · exact ⟨_, step_regWrite_offset (r := .xsize) hidle hop, imageChanged_clears s _ _⟩
    · exact ⟨_, step_regWrite_offset (r := .ysize) hidle hop, imageChanged_clears s _ _⟩
    · exact ⟨_, step_spaceWrite hidle hop hi, imageChanged_clears s _ _⟩
  · obtain ⟨off, w, rfl, hoff⟩ | ⟨i, v, ⟨rfl, hi⟩ | ⟨rfl, hi⟩⟩ := hcase
    · obtain ⟨r, rfl, hrw, hx, hy⟩ := Reg.of_storing_offset hoff
      obtain ⟨regs, hregs⟩ := s.popHost.writeReg_stores w hrw hx hy
      have hstep := step_regWrite_offset hidle hop
      rw [hregs] at hstep
      exact ⟨_, hstep, store_clears_nothing s regs _ _⟩
    · exact ⟨_, step_spaceWrite hidle hop hi, store_clears_nothing s _ _ _⟩
    · exact ⟨_, step_spaceWrite hidle hop hi, store_clears_nothing s _ _ _⟩

/-- Settles O23: the write goes to the register at the offset, which stores it or ignores it, or to none. -/
theorem registerAccess : Obligations.RegisterAccess := by
  unfold Obligations.RegisterAccess
  intro s e off w hidle hop
  refine ⟨?_, fun hnone => ⟨_, step_regWrite hidle hop, ?_⟩⟩
  · rintro r rfl hrw
    have hr : r ≠ .status := by rintro rfl; contradiction
    obtain ⟨hspaces, hhidden, hpc⟩ := s.popHost.writeReg_frame w hrw
    refine ⟨_, step_regWrite_offset hidle hop, ?_, fun q hq hst => ?_, hspaces, hhidden, hpc⟩
    · rw [State.regValue_quiet _ hr, State.regValue_writeReg_self _ w hrw]
    · rw [State.regValue_quiet _ hst, State.regValue_writeReg_of_ne _ w hrw hq hst, State.regValue_popHost]
  · have hsame : s.popHost.hostRegWrite off w = s.popHost := by
      cases hoff : Reg.ofOffset off with
      | none => simp [State.hostRegWrite, hoff]
      | some r =>
        obtain ⟨hro, hcmd, habort⟩ := hnone r (Reg.offset_of_ofOffset hoff)
        simp [State.hostRegWrite, hoff, hidle, State.writeReg_readOnly _ w hro hcmd habort]
    rw [hsame]
    exact sameCore_quiet_popHost s

end

section
/-! SUPPORT. What the promises of the valid bits rest on (10_state R22, R32, R33): the image, the two tables, the two
token buffers and their valid bits. A state that agrees on these promises the same. -/

namespace Sys2Proof.Machine

/-! ### What the promises rest on -/

/-- What `State.px`, the geometry and the cache indices depend on. -/
structure Image where
  fns : Fns
  xsize : Word
  ysize : Word
  pix : Mem 32

/-- The image of a state. -/
def State.image (s : State) : Image := ⟨s.fns, s.regs.xsize, s.regs.ysize, s.spaces.pix⟩

/-- Everything `State.faithful` depends on. -/
structure Backing where
  image : Image
  hc0 : Mem 32
  hc1 : Mem 32
  tokA : Mem 64
  tokB : Mem 64
  bufs : Buffers
  hc0Valid : Bool
  hc1Valid : Bool
  curValid : Bool
  scrValid : Bool

/-- What the valid bits of a state rest on. -/
def State.backing (s : State) : Backing :=
  { image := s.image, hc0 := s.spaces.hc0, hc1 := s.spaces.hc1, tokA := s.spaces.tokA, tokB := s.spaces.tokB,
    bufs := s.bufs, hc0Valid := s.flags.hc0Valid, hc1Valid := s.flags.hc1Valid, curValid := s.flags.curValid,
    scrValid := s.flags.scrValid }

section
variable {s t : State}

theorem State.px_congr (h : t.image = s.image) : t.px = s.px := by
  simp only [State.image, Image.mk.injEq] at h
  funext p
  simp only [State.px, h]

theorem State.pixelCount_congr (h : t.image = s.image) : t.pixelCount = s.pixelCount := by
  simp only [State.image, Image.mk.injEq] at h
  simp only [State.pixelCount, State.xs, State.ys, h]

theorem State.fns_congr (h : t.image = s.image) : t.fns = s.fns := congrArg Image.fns h

/-! ### Truth depends on the image alone -/

theorem State.entryTrue_congr (h : t.image = s.image) (p : Nat) (e : Nat × Nat) :
    t.entryTrue p e = s.entryTrue p e := by
  simp only [State.entryTrue, State.pixelsRepeat, State.px_congr h, State.pixelCount_congr h]

theorem State.tokenTrue_congr (h : t.image = s.image) (b : Nat) (c : CacheSlots) (p : Nat) (tok : Token) :
    t.tokenTrue b c p tok = s.tokenTrue b c p tok := by
  cases tok <;> simp only [State.tokenTrue, State.pixelsRepeat, State.px_congr h, State.fns_congr h]

theorem State.streamTrue_congr (h : t.image = s.image) (b : Nat) (c : CacheSlots) (p : Nat) (ts : List Token) :
    t.streamTrue b c p ts = s.streamTrue b c p ts := by
  induction ts generalizing c p with
  | nil => rfl
  | cons tok ts ih =>
    simp only [State.streamTrue, State.tokenTrue_congr h, State.px_congr h, State.fns_congr h, ih]

theorem State.tokensTrue_congr (h : t.image = s.image) (b : Nat) (ts : List Token) :
    t.tokensTrue b ts = s.tokensTrue b ts := by
  simp only [State.tokensTrue, State.pixelCount_congr h, State.streamTrue_congr h]

theorem State.tableTrue_congr (h : t.image = s.image) (sel : TableSel)
    (hentry : ∀ p, t.hcEntry sel p = s.hcEntry sel p) : t.tableTrue sel = s.tableTrue sel := by
  simp only [State.tableTrue, State.pixelCount_congr h, State.entryTrue_congr h, hentry]

theorem State.tableTrue_hc0_congr (h : t.image = s.image) (hc : t.spaces.hc0 = s.spaces.hc0) :
    t.tableTrue .hc0 = s.tableTrue .hc0 :=
  State.tableTrue_congr h .hc0 (fun p => by simp only [State.hcEntry, hc])

theorem State.tableTrue_hc1_congr (h : t.image = s.image) (hc : t.spaces.hc1 = s.spaces.hc1) :
    t.tableTrue .hc1 = s.tableTrue .hc1 :=
  State.tableTrue_congr h .hc1 (fun p => by simp only [State.hcEntry, hc])

theorem State.bufferTrue_congr (h : t.image = s.image) {b : Bool} {len : Nat}
    (hrun : t.bufferRun b len = s.bufferRun b len) (bits : Nat) :
    t.bufferTrue b len bits = s.bufferTrue b len bits := by
  simp only [State.bufferTrue, hrun, State.tokensTrue_congr h]

theorem State.bufferRun_congr (hA : t.spaces.tokA = s.spaces.tokA) (hB : t.spaces.tokB = s.spaces.tokB)
    (b : Bool) (n : Nat) : t.bufferRun b n = s.bufferRun b n := by
  simp only [State.bufferRun, hA, hB]

theorem State.curTrue_congr (h : t.image = s.image) (hA : t.spaces.tokA = s.spaces.tokA)
    (hB : t.spaces.tokB = s.spaces.tokB) (hbufs : t.bufs = s.bufs) : t.curTrue = s.curTrue := by
  simp only [State.curTrue, hbufs, State.bufferTrue_congr h (State.bufferRun_congr hA hB _ _)]

theorem State.scrTrue_congr (h : t.image = s.image) (hA : t.spaces.tokA = s.spaces.tokA)
    (hB : t.spaces.tokB = s.spaces.tokB) (hbufs : t.bufs = s.bufs) : t.scrTrue = s.scrTrue := by
  simp only [State.scrTrue, hbufs, State.bufferTrue_congr h (State.bufferRun_congr hA hB _ _)]

/-! ### The four promises -/

theorem State.faithful_iff :
    s.faithful = true ↔
      (s.flags.hc0Valid = true → s.tableTrue .hc0 = true) ∧ (s.flags.hc1Valid = true → s.tableTrue .hc1 = true) ∧
      (s.flags.curValid = true → s.curTrue = true) ∧ (s.flags.scrValid = true → s.scrTrue = true) := by
  simp only [State.faithful, Bool.and_eq_true, Bool.or_eq_true, Bool.not_eq_true', and_assoc,
    ← Bool.not_eq_true, ← imp_iff_not_or]

/-- A state that agrees on what the promises rest on promises the same. -/
theorem State.faithful_congr (h : t.backing = s.backing) : t.faithful = s.faithful := by
  simp only [State.backing, Backing.mk.injEq] at h
  obtain ⟨himage, hhc0, hhc1, htokA, htokB, hbufs, hv0, hv1, hcur, hscr⟩ := h
  simp only [State.faithful, hv0, hv1, hcur, hscr, State.tableTrue_hc0_congr himage hhc0,
    State.tableTrue_hc1_congr himage hhc1, State.curTrue_congr himage htokA htokB hbufs,
    State.scrTrue_congr himage htokA htokB hbufs]

theorem State.faithful_of_backing (hs : s.faithful = true) (h : t.backing = s.backing) : t.faithful = true :=
  (State.faithful_congr h).trans hs

/-- Where no valid bit is set nothing is promised. -/
theorem State.faithful_of_invalid (h0 : t.flags.hc0Valid = false) (h1 : t.flags.hc1Valid = false)
    (hc : t.flags.curValid = false) (hs : t.flags.scrValid = false) : t.faithful = true := by
  simp [State.faithful, h0, h1, hc, hs]

/-- Where the token buffers and the image are as before, it is the tables that have to be true. -/
theorem State.faithful_of_tables (hs : s.faithful = true) (himage : t.image = s.image)
    (hA : t.spaces.tokA = s.spaces.tokA) (hB : t.spaces.tokB = s.spaces.tokB) (hbufs : t.bufs = s.bufs)
    (hcur : t.flags.curValid = s.flags.curValid) (hscr : t.flags.scrValid = s.flags.scrValid)
    (h0 : t.flags.hc0Valid = true → t.tableTrue .hc0 = true)
    (h1 : t.flags.hc1Valid = true → t.tableTrue .hc1 = true) : t.faithful = true := by
  obtain ⟨-, -, hcurTrue, hscrTrue⟩ := State.faithful_iff.1 hs
  refine State.faithful_iff.2 ⟨h0, h1, ?_, ?_⟩
  · rwa [hcur, State.curTrue_congr himage hA hB hbufs]
  · rwa [hscr, State.scrTrue_congr himage hA hB hbufs]

/-- Where the tables and the image are as before, it is the token buffers that have to be true. -/
theorem State.faithful_of_buffers (hs : s.faithful = true) (himage : t.image = s.image)
    (hhc0 : t.spaces.hc0 = s.spaces.hc0) (hhc1 : t.spaces.hc1 = s.spaces.hc1)
    (hv0 : t.flags.hc0Valid = s.flags.hc0Valid) (hv1 : t.flags.hc1Valid = s.flags.hc1Valid)
    (hcur : t.flags.curValid = true → t.curTrue = true)
    (hscr : t.flags.scrValid = true → t.scrTrue = true) : t.faithful = true := by
  obtain ⟨h0, h1, -, -⟩ := State.faithful_iff.1 hs
  refine State.faithful_iff.2 ⟨?_, ?_, hcur, hscr⟩
  · rwa [hv0, State.tableTrue_hc0_congr himage hhc0]
  · rwa [hv1, State.tableTrue_hc1_congr himage hhc1]

/-- Where only the table HC0 can be valid, it is true if it, its bit and the image are as before. -/
theorem State.faithful_of_table (hs : s.faithful = true) (himage : t.image = s.image)
    (hhc0 : t.spaces.hc0 = s.spaces.hc0) (hv : t.flags.hc0Valid = true → s.flags.hc0Valid = true)
    (h1 : t.flags.hc1Valid = false) (hcur : t.flags.curValid = false) (hscr : t.flags.scrValid = false) :
    t.faithful = true := by
  obtain ⟨htable, -, -, -⟩ := State.faithful_iff.1 hs
  refine State.faithful_iff.2 ⟨fun h => ?_, by simp [h1], by simp [hcur], by simp [hscr]⟩
  rw [State.tableTrue_hc0_congr himage hhc0]
  exact htable (hv h)

end

/-! ### The ends of a command -/

/-- The state a command's pseudocode leaves, with or without a raise. -/
def BodyEnd.state : BodyEnd → State
  | .ok u => u
  | .fail _ _ u => u

/-- What a run-time raise has to leave as it was, since the raise does not clear HC0_VALID (60_exceptions R346). -/
def TableKept (s u : State) : Prop :=
  u.image = s.image ∧ u.spaces.hc0 = s.spaces.hc0 ∧ u.flags.hc0Valid = s.flags.hc0Valid

/-- The pseudocode of a command keeps the promises: its result is faithful, and what it raises in still has the
table HC0. -/
def BodyEnd.KeepsFaith (s : State) : BodyEnd → Prop
  | .ok u => u.faithful = true
  | .fail _ _ u => TableKept s u

theorem TableKept.of_backing {s u : State} (h : u.backing = s.backing) : TableKept s u :=
  ⟨congrArg Backing.image h, congrArg Backing.hc0 h, congrArg Backing.hc0Valid h⟩

theorem State.endOk_faithful (s : State) : s.endOk.faithful = s.faithful := State.faithful_congr rfl

theorem State.raise_faithful {s u : State} (hs : s.faithful = true) (hu : TableKept s u) (op : BitVec 8)
    (o : ErrorOutcome) (info : Nat) : (u.raise op o info).faithful = true := by
  obtain ⟨himage, hhc0, hv⟩ := hu
  refine State.faithful_of_table hs himage hhc0 (fun h => ?_) rfl rfl rfl
  rw [State.raise_flags] at h
  dsimp only at h
  split at h
  · cases h
  · rw [← hv, h]

/-- A command whose pseudocode keeps the promises keeps them, however it ends. -/
theorem runCommand_faithful {o : Opcode} {legal : Bool} {checks : List (Nat × Bool)} {cap : Option Nat}
    {body : State → BodyEnd} {s t : State} (hs : s.faithful = true)
    (hbody : (∀ c ∈ checks, c.2 = false) → cap = none → (body s).KeepsFaith s)
    (h : runCommand o legal checks cap body s = .next t) : t.faithful = true := by
  obtain ⟨e, info, rfl, -⟩ | ⟨-, -, hchecks, hcap, hend⟩ := runCommand_cases h
  · exact State.raise_faithful hs (.of_backing rfl) _ _ _
  · have hkeeps := hbody (firstFailing_none.1 hchecks) hcap
    obtain ⟨u, hu, rfl⟩ | ⟨e, info, u, hu, rfl⟩ := hend <;> rw [hu] at hkeeps
    · rw [State.endOk_faithful]
      exact hkeeps
    · exact State.raise_faithful hs hkeeps _ _ _

theorem BodyEnd.KeepsFaith.of_backing {s : State} (hs : s.faithful = true) {e : BodyEnd}
    (h : e.state.backing = s.backing) : e.KeepsFaith s := by
  cases e with
  | ok u => exact State.faithful_of_backing hs h
  | fail o info u => exact TableKept.of_backing h

/-- A command whose pseudocode leaves alone what the promises rest on keeps them. -/
theorem runCommand_faithful_of_backing {o : Opcode} {legal : Bool} {checks : List (Nat × Bool)}
    {cap : Option Nat} {body : State → BodyEnd} {s t : State} (hs : s.faithful = true)
    (hbody : (body s).state.backing = s.backing) (h : runCommand o legal checks cap body s = .next t) :
    t.faithful = true :=
  runCommand_faithful hs (fun _ _ => .of_backing hs hbody) h

end Sys2Proof.Machine
end

section
/-! SUPPORT. The tables HC0 and HC1 hold only true matches after HC_BUILD and HC_BOX (10_state R32, 41_hash_chain
R140, 42_backward_refs R160). -/

namespace Sys2Proof.Machine

/-! ### True matches -/

/-- `State.entryTrue` over a pixel function and a pixel count: no match, or a true one within the window. -/
def MatchTrue (px : Nat → Pixel) (n p : Nat) (e : Nat × Nat) : Prop :=
  e = (0, 0) ∨ (1 ≤ e.1 ∧ e.1 ≤ p ∧ e.1 ≤ Config.windowSize ∧ 1 ≤ e.2 ∧ e.2 ≤ min (n - p) Config.maxLength ∧
    ∀ j, j < e.2 → px (p - e.1 + j) = px (p + j))

theorem State.pixelsRepeat_iff {s : State} {d p l : Nat} :
    s.pixelsRepeat d p l = true ↔ ∀ j, j < l → s.px (p - d + j) = s.px (p + j) := by
  simp [State.pixelsRepeat]

theorem State.entryTrue_iff {s : State} {p : Nat} {e : Nat × Nat} :
    s.entryTrue p e = true ↔ MatchTrue s.px s.pixelCount p e := by
  simp only [State.entryTrue, MatchTrue, Bool.or_eq_true, Bool.and_eq_true, decide_eq_true_eq,
    State.pixelsRepeat_iff, and_assoc]

theorem MatchTrue.none (px : Nat → Pixel) (n p : Nat) : MatchTrue px n p (0, 0) := .inl rfl

/-- A match reads pixels of the image alone. -/
theorem MatchTrue.congr {px px' : Nat → Pixel} {n p : Nat} {e : Nat × Nat} (hpx : ∀ q, q < n → px' q = px q)
    (h : MatchTrue px n p e) : MatchTrue px' n p e := by
  refine h.imp id ?_
  rintro ⟨hd, hdp, hw, hl, hmax, heq⟩
  refine ⟨hd, hdp, hw, hl, hmax, fun j hj => ?_⟩
  have hpj : p + j < n := by omega
  rw [hpx _ (by omega), hpx _ hpj, heq j hj]

theorem lcp_le (px : Nat → Pixel) (a b m : Nat) : lcp px a b m ≤ m := by
  induction m generalizing a b with
  | zero => simp [lcp]
  | succ m ih =>
    simp only [lcp]
    split
    · exact Nat.succ_le_succ (ih _ _)
    · exact Nat.zero_le _

/-- The pixels counted by `lcp` are equal in pairs (00_scope R14). -/
theorem px_eq_of_lt_lcp {px : Nat → Pixel} {a b m j : Nat} (h : j < lcp px a b m) : px (a + j) = px (b + j) := by
  induction m generalizing a b j with
  | zero => simp [lcp] at h
  | succ m ih =>
    simp only [lcp] at h
    split at h
    · rename_i heq
      cases j with
      | zero => exact heq
      | succ j =>
        have hj := ih (a := a + 1) (b := b + 1) (j := j) (by omega)
        simpa only [Nat.add_assoc, Nat.add_comm 1 j] using hj
    · omega

/-- A distance within the window whose pixels repeat is a true match of the length counted. -/
theorem matchTrue_lcp {px : Nat → Pixel} {n p d : Nat} (hd : 1 ≤ d) (hdp : d ≤ p) (hw : d ≤ Config.windowSize)
    (hpos : 0 < lcp px (p - d) p (min (n - p) Config.maxLength)) :
    MatchTrue px n p (d, lcp px (p - d) p (min (n - p) Config.maxLength)) :=
  .inr ⟨hd, hdp, hw, hpos, lcp_le _ _ _ _, fun _ hj => px_eq_of_lt_lcp hj⟩

/-! ### Packed entries (30_encoding R100) -/

theorem unpackEntry_packEntry {d l : Nat} (hd : d < 2 ^ 20) (hl : l < 4096) :
    unpackEntry (packEntry d l) = (d, l) := by
  have hfits : d * 4096 + l < 2 ^ 32 := by omega
  simp only [unpackEntry, packEntry, BitVec.toNat_ofNat, Nat.mod_eq_of_lt hfits, Prod.mk.injEq]
  omega

theorem MatchTrue.unpack_pack {px : Nat → Pixel} {n p : Nat} {e : Nat × Nat} (h : MatchTrue px n p e) :
    unpackEntry (packEntry e.1 e.2) = e := by
  obtain rfl | ⟨-, -, hw, -, hmax, -⟩ := h
  · exact unpackEntry_packEntry (by decide) (by decide)
  · simp only [Config.windowSize, Config.maxLength] at hw hmax
    exact unpackEntry_packEntry (by omega) (by omega)

/-- A table stored from a list with one true match for each pixel is true. -/
theorem State.tableTrue_of_stored {u : State} {sel : TableSel} {es : List (Nat × Nat)}
    (hlen : es.length = u.pixelCount)
    (htrue : ∀ i (h : i < es.length), MatchTrue u.px u.pixelCount i es[i])
    (hread : ∀ p, p < es.length → u.hcEntry sel p = unpackEntry ((packEntries es).getD p 0)) :
    u.tableTrue sel = true := by
  simp only [State.tableTrue, List.all_eq_true, List.mem_range]
  intro p hp
  rw [← hlen] at hp
  have hentry : (packEntries es).getD p 0 = packEntry es[p].1 es[p].2 := by
    simp [packEntries, hp]
  rw [State.entryTrue_iff, hread p hp, hentry, (htrue p hp).unpack_pack]
  exact htrue p hp

/-! ### HC_BUILD: the search (41_hash_chain R134 to R137) -/

/-- A candidate within the window keeps the best match true. -/
theorem consider_true {px : Nat → Pixel} {n base d : Nat} {best : Nat × Nat} (hbest : MatchTrue px n base best)
    (hd : 1 ≤ d) (hdb : d ≤ base) (hw : d ≤ Config.windowSize) :
    MatchTrue px n base (consider px base (min (n - base) Config.maxLength) best d) := by
  simp only [consider]
  split
  · exact matchTrue_lcp hd hdb hw (by omega)
  · exact hbest

/-- The walk goes strictly to the left and stays in the window, so it considers true candidates only. -/
theorem chainWalk_true {px : Nat → Pixel} {prev : Nat → Option Nat} {n base minPos : Nat}
    (hprev : ∀ q r, prev q = some r → r < q) (hmin : base ≤ minPos + Config.windowSize) (budget : Nat)
    {start : Option Nat} (hstart : ∀ q, start = some q → q < base) {best : Nat × Nat}
    (hbest : MatchTrue px n base best) :
    MatchTrue px n base
      (chainWalk px prev base (min (n - base) Config.maxLength) minPos budget start best) := by
  induction budget generalizing start best with
  | zero => simpa only [chainWalk] using hbest
  | succ budget ih =>
    cases start with
    | none => simpa only [chainWalk] using hbest
    | some q =>
      have hq := hstart q rfl
      simp only [chainWalk]
      split
      · exact hbest
      · exact ih (fun r hr => (hprev q r hr).trans hq)
          (consider_true hbest (by omega) (by omega) (by omega))

/-- What the search needs of its inputs: a window no larger than WINDOW_SIZE, rows of one pixel or more, and a
chain that goes to the left. -/
structure MatchInput.Sound (m : MatchInput) : Prop where
  win : m.win ≤ Config.windowSize
  xs : 1 ≤ m.xs
  prev : ∀ q r, m.prev q = some r → r < q

theorem matchSearch_true {m : MatchInput} (hm : m.Sound) {base : Nat} (hbase : 1 ≤ base) :
    MatchTrue m.px m.n base (matchSearch m base) := by
  have hone : 1 ≤ Config.windowSize := by decide
  have hwin := hm.win
  have hnone := MatchTrue.none m.px m.n base
  simp only [matchSearch]
  refine chainWalk_true hm.prev (by split <;> omega) _ (fun q hq => hm.prev base q hq) ?_
  split
  · exact hnone
  · split
    · rename_i hrow
      exact consider_true (consider_true hnone hm.xs hrow.1 (by omega)) (by omega) hbase hone
    · exact consider_true hnone (by omega) hbase hone

/-! ### HC_BUILD: propagation to the left (41_hash_chain R138) -/

/-- A match that also holds one position to the left is true there, a pixel longer or of the same length. -/
theorem propagate_true {px : Nat → Pixel} {n base : Nat} {c c' : CarriedMatch}
    (hc : MatchTrue px n (base + 1) (c.dist, c.len)) (h : propagate px base c = some c') :
    MatchTrue px n base (c'.dist, c'.len) := by
  simp only [propagate] at h
  split at h
  · cases h
  rename_i hdist
  split at h
  · cases h
  rename_i hleft
  split at h
  · cases h
  obtain hzero | ⟨hd, -, hw, hl, hmax, heq⟩ := hc
  · simp only [Prod.mk.injEq] at hzero
    omega
  dsimp only at hd hw hl hmax heq
  have hdb : c.dist ≤ base := Nat.not_lt.1 (fun hlt => hleft (.inl hlt))
  have hhead : px (base - c.dist) = px base := by
    by_contra hne
    exact hleft (.inr hne)
  have hrepeat : ∀ j, j < c.len + 1 → px (base - c.dist + j) = px (base + j) := by
    intro j hj
    cases j with
    | zero => exact hhead
    | succ j =>
      have hj' := heq j (by omega)
      rw [show base + 1 - c.dist + j = base - c.dist + (j + 1) by omega,
        show base + 1 + j = base + (j + 1) by omega] at hj'
      exact hj'
  split at h <;> cases h
  · exact .inr ⟨hd, hdb, hw, Nat.succ_pos _, by dsimp only; omega, hrepeat⟩
  · exact .inr ⟨hd, hdb, hw, hl, by dsimp only; omega, fun j hj => hrepeat j (Nat.lt_succ_of_lt hj)⟩

/-- True matches for consecutive positions from `p` on. -/
def EntriesTrue (px : Nat → Pixel) (n : Nat) : Nat → List (Nat × Nat) → Prop
  | _, [] => True
  | p, e :: es => MatchTrue px n p e ∧ EntriesTrue px n (p + 1) es

theorem EntriesTrue.getElem {px : Nat → Pixel} {n p : Nat} {es : List (Nat × Nat)} (h : EntriesTrue px n p es)
    (i : Nat) (hi : i < es.length) : MatchTrue px n (p + i) es[i] := by
  induction es generalizing p i with
  | nil => simp at hi
  | cons e es ih =>
    obtain ⟨he, hes⟩ := h
    cases i with
    | zero => exact he
    | succ i =>
      have hrest := ih hes i (by simpa using hi)
      rwa [show p + 1 + i = p + (i + 1) by omega] at hrest

/-- The loop stores a true match at every position, searched for or carried from the right. -/
theorem matchLoop_true {m : MatchInput} (hm : m.Sound) (b : Nat) {carried : Option CarriedMatch}
    {acc : List (Nat × Nat)} (hcarried : ∀ c, carried = some c → MatchTrue m.px m.n b (c.dist, c.len))
    (hacc : EntriesTrue m.px m.n (b + 1) acc) : EntriesTrue m.px m.n 1 (matchLoop m b carried acc) := by
  induction b generalizing carried acc with
  | zero => simpa only [matchLoop] using hacc
  | succ b ih =>
    have hstore : ∀ c : CarriedMatch, MatchTrue m.px m.n (b + 1) (c.dist, c.len) →
        EntriesTrue m.px m.n 1 (matchLoop m b (propagate m.px b c) ((c.dist, c.len) :: acc)) :=
      fun c hc => ih (fun c' hc' => propagate_true hc hc') ⟨hc, hacc⟩
    cases carried with
    | some c => exact hstore c (hcarried c rfl)
    | none => exact hstore ⟨_, _, b + 1⟩ (matchSearch_true hm (Nat.succ_pos b))

theorem length_matchLoop (m : MatchInput) (b : Nat) (carried : Option CarriedMatch) (acc : List (Nat × Nat)) :
    (matchLoop m b carried acc).length = b + acc.length := by
  induction b generalizing carried acc with
  | zero => simp [matchLoop]
  | succ b ih =>
    simp only [matchLoop, ih, List.length_cons]
    omega

/-! ### HC_BUILD: the inputs of the search for the present image -/

/-- The chain of a position goes to an earlier one. -/
theorem chainPrevs_lt (n : Nat) {keys : List (Option Nat)} {p : Nat} {head : List (Nat × Nat)}
    (hhead : ∀ k q, cellAt head k = some q → q < p) (i q : Nat)
    (h : (chainPrevs n p head keys).getD i none = some q) : q < p + i := by
  induction keys generalizing p head i with
  | nil => simp [chainPrevs] at h
  | cons key keys ih =>
    cases key with
    | none =>
      cases i with
      | zero => simp [chainPrevs] at h
      | succ i =>
        have hrest := ih (p := p + 1) (fun k r hr => Nat.lt_succ_of_lt (hhead k r hr)) i
          (by simpa [chainPrevs] using h)
        omega
    | some k =>
      cases i with
      | zero => exact hhead k q (by simpa [chainPrevs] using h)
      | succ i =>
        have hgrown : ∀ k' r, cellAt (if p + 3 ≤ n then (k, p) :: head else head) k' = some r → r < p + 1 := by
          intro k' r hr
          split at hr
          · simp only [cellAt] at hr
            split at hr
            · cases hr
              exact Nat.lt_succ_self _
            · exact Nat.lt_succ_of_lt (hhead k' r hr)
          · exact Nat.lt_succ_of_lt (hhead k' r hr)
        have hrest := ih (p := p + 1) hgrown i (by simpa [chainPrevs] using h)
        omega

theorem windowFor_le (f : Fns) (q xs : Nat) : windowFor f q xs ≤ Config.windowSize := by
  have hfold : ∀ (l : List Nat) (w : Nat), w ≤ Config.windowSize →
      l.foldl (fun w k => max w (min Config.windowSize (Config.ownWindowFor k xs))) w ≤ Config.windowSize := by
    intro l
    induction l with
    | nil => exact fun w hw => hw
    | cons k l ih => exact fun w hw => ih _ (max_le hw (min_le_left _ _))
  unfold windowFor
  split
  · exact min_le_left _ _
  · split
    · exact le_refl _
    · exact hfold _ _ (by decide)

theorem State.matchInput_sound {s : State} (hxs : 1 ≤ s.xs) : s.matchInput.Sound where
  win := windowFor_le _ _ _
  xs := hxs
  prev q r h := by
    have hlt := chainPrevs_lt s.pixelCount (p := 0) (head := []) (by simp [cellAt]) q r h
    simpa using hlt

theorem State.matchInput_px {s : State} (hpix : s.spaces.pix.wf = true) (q : Nat) (hq : q < s.pixelCount) :
    s.px q = s.matchInput.px q := by
  simp [State.matchInput, State.px, Mem.run_eq 0 0 s.pixelCount hpix, hq]

theorem State.length_hcTable (s : State) : s.hcTable.length = s.pixelCount := by
  simp only [State.hcTable]
  split
  · simp
  · simp only [List.length_cons, length_matchLoop, List.length_nil]
    omega

/-- HC_BUILD computes true matches only (41_hash_chain R140). -/
theorem State.hcTable_true {s : State} (hpix : s.spaces.pix.wf = true) (hxs : 1 ≤ s.xs) (i : Nat)
    (hi : i < s.hcTable.length) : MatchTrue s.px s.pixelCount i s.hcTable[i] := by
  by_cases hn : s.pixelCount < 3
  · simp [State.hcTable, hn, MatchTrue]
  · have htable : s.hcTable = (0, 0) :: matchLoop s.matchInput (s.pixelCount - 2) none [(0, 0)] := by
      simp [State.hcTable, hn]
    have hloop := matchLoop_true (State.matchInput_sound hxs) (s.pixelCount - 2) (carried := none)
      (acc := [(0, 0)]) (by simp) ⟨.none _ _ _, trivial⟩
    have hentries : EntriesTrue s.matchInput.px s.matchInput.n 0 s.hcTable := by
      rw [htable]
      exact ⟨.none _ _ _, hloop⟩
    have hentry := hentries.getElem i hi
    rw [Nat.zero_add] at hentry
    exact hentry.congr (State.matchInput_px hpix)

/-! ### HC_BOX (42_backward_refs R160, R161) -/

theorem boxBest_true {px : Nat → Pixel} {n i : Nat} {offsets : List Nat}
    (hoffsets : ∀ o ∈ offsets, 1 ≤ o ∧ o ≤ Config.windowSize) {best : Nat × Nat} (hbest : MatchTrue px n i best) :
    MatchTrue px n i (boxBest px i (min (n - i) Config.maxLength) offsets best) := by
  induction offsets generalizing best with
  | nil => exact hbest
  | cons o rest ih =>
    have hrest := fun o' ho' => hoffsets o' (List.mem_cons_of_mem o ho')
    obtain ⟨ho, hw⟩ := hoffsets o List.mem_cons_self
    simp only [boxBest]
    split
    · rename_i hcond
      exact ih hrest (matchTrue_lcp ho hcond.1 hw (by omega))
    · exact ih hrest hbest

theorem boxEntry_true {px : Nat → Pixel} {n i : Nat} {offsets : List Nat}
    (hoffsets : ∀ o ∈ offsets, 1 ≤ o ∧ o ≤ Config.windowSize) : MatchTrue px n i (boxEntry px n offsets i) := by
  simp only [boxEntry]
  split
  · exact .none _ _ _
  · split
    · exact boxBest_true hoffsets (.none _ _ _)
    · exact .none _ _ _

theorem mem_boxOffsets {f : Fns} {xs bound o : Nat} (h : o ∈ boxOffsets f xs bound) : 1 ≤ o ∧ o ≤ bound := by
  simp only [boxOffsets, nearDistances, List.mem_flatMap, List.mem_map, List.mem_filter, List.mem_filterMap,
    List.mem_range] at h
  obtain ⟨c, -, ⟨code, d⟩, ⟨⟨k, hk, hsome⟩, -⟩, rfl⟩ := h
  split at hsome
  · cases hsome
    exact ⟨Nat.succ_pos k, hk⟩
  · cases hsome

theorem State.length_boxTable (s : State) : s.boxTable.length = s.pixelCount := by
  simp [State.boxTable]

/-- HC_BOX computes true matches only (42_backward_refs R160). -/
theorem State.boxTable_true (s : State) (i : Nat) (hi : i < s.boxTable.length) :
    MatchTrue s.px s.pixelCount i s.boxTable[i] := by
  simp only [State.boxTable, List.getElem_map, List.getElem_range]
  refine boxEntry_true (fun o ho => ?_)
  obtain ⟨hpos, hbound⟩ := mem_boxOffsets ho
  exact ⟨hpos, hbound.trans (min_le_left _ _)⟩

/-! ### The two commands -/

/-- Reading back a table put at element 0. -/
theorem Mem.read_put_zero {w : Nat} (m : Mem w) (id p : Nat) {vs : List (BitVec w)} (hp : p < vs.length) :
    (m.put 0 vs).read id p = vs.getD p 0 := by
  rw [Mem.read_put_in m id 0 p vs (Nat.zero_le p) (by omega), Nat.sub_zero]

/-- HC_BUILD replaces HC0 by a true table and leaves the rest (20_memory R66). -/
theorem hcBuildBody_keepsFaith {s : State} (hs : s.faithful = true) (hpix : s.spaces.pix.wf = true)
    (hxs : 1 ≤ s.xs) : (hcBuildBody s).KeepsFaith s := by
  obtain ⟨-, hhc1, -, -⟩ := State.faithful_iff.1 hs
  refine State.faithful_of_tables hs rfl rfl rfl rfl rfl rfl (fun _ => ?_) hhc1
  exact State.tableTrue_of_stored s.length_hcTable (State.hcTable_true hpix hxs) (fun p hp => by
    simp only [State.hcEntry]
    rw [Mem.read_put_zero _ _ _ (by simpa [packEntries] using hp)])

/-- HC_BOX replaces HC1 by a true table and leaves the rest (20_memory R66). -/
theorem hcBoxBody_keepsFaith {s : State} (hs : s.faithful = true) : (hcBoxBody s).KeepsFaith s := by
  obtain ⟨hhc0, -, -, -⟩ := State.faithful_iff.1 hs
  refine State.faithful_of_tables hs rfl rfl rfl rfl rfl rfl hhc0 (fun _ => ?_)
  exact State.tableTrue_of_stored s.length_boxTable s.boxTable_true (fun p hp => by
    simp only [State.hcEntry]
    rw [Mem.read_put_zero _ _ _ (by simpa [packEntries] using hp)])

end Sys2Proof.Machine
end

section
/-! SUPPORT. The token buffers code the image after every builder and after the cache replay (10_state R33, R35,
42_backward_refs R151, R155, R165). -/

namespace Sys2Proof.Machine

/-! ### Records of tokens (30_encoding R96) -/

/-- The fields of a token's record hold it. -/
def Token.Fits : Token → Prop
  | .literal _ => True
  | .cacheRef k => k < 2 ^ 32
  | .copy d l => d < 2 ^ 32 ∧ l < 2 ^ 16

theorem packRecord_toNat {mode len val : Nat} (hmode : mode < 4) (hlen : len < 2 ^ 16) (hval : val < 2 ^ 32) :
    (packRecord mode len val).toNat = mode * 281474976710656 + len * 4294967296 + val := by
  simp only [packRecord, BitVec.toNat_ofNat, Nat.reducePow] at *
  omega

theorem packRecord_fields {mode len val : Nat} (hmode : mode < 4) (hlen : len < 2 ^ 16) (hval : val < 2 ^ 32) :
    ((packRecord mode len val).extractLsb' 48 2).toNat = mode ∧
      ((packRecord mode len val).extractLsb' 32 16).toNat = len ∧
      ((packRecord mode len val).extractLsb' 0 32).toNat = val := by
  have hfields : ∀ x : BitVec 64, (x.extractLsb' 48 2).toNat = x.toNat / 281474976710656 % 4 ∧
      (x.extractLsb' 32 16).toNat = x.toNat / 4294967296 % 65536 ∧
      (x.extractLsb' 0 32).toNat = x.toNat % 4294967296 := by
    intro x
    simp [BitVec.extractLsb'_toNat, Nat.shiftRight_eq_div_pow]
  obtain ⟨hm, hl, hv⟩ := hfields (packRecord mode len val)
  rw [hm, hl, hv, packRecord_toNat hmode hlen hval]
  simp only [Nat.reducePow] at *
  omega

/-- A record decodes to the token its fields describe, if it is that token's record. -/
theorem tokenOfRecord_of_fields {w : BitVec 64} {mode len val : Nat} {t : Token}
    (hfields : (w.extractLsb' 48 2).toNat = mode ∧ (w.extractLsb' 32 16).toNat = len ∧
      (w.extractLsb' 0 32).toNat = val)
    (ht : tokenOfFields mode len val = some t) (hrecord : t.record = w) : tokenOfRecord w = some t := by
  obtain ⟨hm, hl, hv⟩ := hfields
  unfold tokenOfRecord
  rw [hm, hl, hv, ht]
  exact if_pos hrecord

theorem tokenOfRecord_record {t : Token} (h : t.Fits) : tokenOfRecord t.record = some t := by
  cases t with
  | literal p =>
    exact tokenOfRecord_of_fields (packRecord_fields (by decide) (by decide) (by omega))
      (by simp [tokenOfFields]) rfl
  | cacheRef k => exact tokenOfRecord_of_fields (packRecord_fields (by decide) (by decide) h) rfl rfl
  | copy d l => exact tokenOfRecord_of_fields (packRecord_fields (by decide) h.2 h.1) rfl rfl

theorem tokensOf_records {ts : List Token} (h : ∀ t ∈ ts, t.Fits) (k : Nat) :
    tokensOf k (ts.map Token.record) = .ok ts := by
  induction ts generalizing k with
  | nil => rfl
  | cons t ts ih =>
    simp only [List.map_cons, tokensOf, tokenOfRecord_record (h t List.mem_cons_self),
      ih (fun t ht => h t (List.mem_cons_of_mem _ ht))]

theorem State.fits_of_tokenTrue {s : State} {b p : Nat} {c : CacheSlots} {t : Token}
    (h : s.tokenTrue b c p t = true) : t.Fits := by
  cases t with
  | literal v => trivial
  | cacheRef k =>
    simp only [State.tokenTrue, decide_eq_true_eq] at h
    obtain ⟨-, hb, hk, -⟩ := h
    exact hk.trans_le (Nat.pow_le_pow_right (by decide) (hb.trans (by decide)))
  | copy d l =>
    simp only [State.tokenTrue, Bool.and_eq_true, decide_eq_true_eq] at h
    obtain ⟨⟨-, hl, -, -, hd⟩, -⟩ := h
    exact ⟨hd.trans_lt (by decide), hl.trans_lt (by decide)⟩

theorem State.fits_of_streamTrue {s : State} {b p : Nat} {c : CacheSlots} {ts : List Token}
    (h : s.streamTrue b c p ts = true) : ∀ t ∈ ts, t.Fits := by
  induction ts generalizing c p with
  | nil => simp
  | cons t ts ih =>
    simp only [State.streamTrue, Bool.and_eq_true] at h
    exact List.forall_mem_cons.2 ⟨State.fits_of_tokenTrue h.1, ih h.2⟩

/-! ### Token lists that code the rest of the image -/

/-- The tokens are true from position `p` on and end with the image (10_state R33). -/
def State.CodesFrom (s : State) (b : Nat) (c : CacheSlots) (p : Nat) (ts : List Token) : Prop :=
  s.streamTrue b c p ts = true ∧ p + tokensLen ts = s.pixelCount

theorem State.tokensTrue_iff {s : State} {b : Nat} {ts : List Token} :
    s.tokensTrue b ts = true ↔ s.CodesFrom b (cacheInit b) 0 ts := by
  simp only [State.tokensTrue, State.CodesFrom, Bool.and_eq_true, decide_eq_true_eq, Nat.zero_add]
  exact and_comm

theorem State.CodesFrom.nil {s : State} {b p : Nat} {c : CacheSlots} (h : p = s.pixelCount) :
    s.CodesFrom b c p [] := ⟨rfl, h⟩

theorem State.CodesFrom.cons {s : State} {b p : Nat} {c : CacheSlots} {t : Token} {ts : List Token}
    (ht : s.tokenTrue b c p t = true)
    (hts : s.CodesFrom b (cacheInsertRun s.fns b s.px c p t.len) (p + t.len) ts) :
    s.CodesFrom b c p (t :: ts) := by
  obtain ⟨hstream, hlen⟩ := hts
  refine ⟨by simp [State.streamTrue, ht, hstream], ?_⟩
  simp only [tokensLen]
  omega

theorem State.tokenTrue_literal (s : State) (b : Nat) (c : CacheSlots) (p : Nat) :
    s.tokenTrue b c p (.literal (s.px p)) = true := by
  simp [State.tokenTrue]

/-- A copy no longer than a true match is true. -/
theorem State.tokenTrue_copy {s : State} {p l : Nat} {e : Nat × Nat} (h : MatchTrue s.px s.pixelCount p e)
    (hl : 2 ≤ l) (hle : l ≤ e.2) (b : Nat) (c : CacheSlots) : s.tokenTrue b c p (.copy e.1 l) = true := by
  obtain rfl | ⟨hd, hdp, hw, -, hmax, heq⟩ := h
  · simp only at hle
    omega
  · simp only [State.tokenTrue, Bool.and_eq_true, decide_eq_true_eq, State.pixelsRepeat_iff]
    exact ⟨⟨hl, by omega, hd, hdp, hw⟩, fun j hj => heq j (by omega)⟩

/-! ### Storing a token list -/

/-- A run of what was put at element 0. -/
theorem Mem.run_put_zero {w : Nat} {m : Mem w} (hm : m.wf = true) (id : Nat) (vs : List (BitVec w)) :
    (m.put 0 vs).run id 0 vs.length = vs := by
  rw [Mem.run_eq id 0 vs.length (Mem.wf_put 0 vs hm)]
  refine List.ext_getElem (by simp) (fun i hi hv => ?_)
  simp [Mem.read_put_zero m id i hv, hv]

theorem State.bufferRun_putTokens {s : State} (hA : s.spaces.tokA.wf = true) (hB : s.spaces.tokB.wf = true)
    (b : Bool) (ts : List Token) : (s.putTokens b ts).bufferRun b ts.length = ts.map Token.record := by
  cases b
  · simpa [State.bufferRun, State.putTokens] using Mem.run_put_zero hA 3 (ts.map Token.record)
  · simpa [State.bufferRun, State.putTokens] using Mem.run_put_zero hB 4 (ts.map Token.record)

/-- Storing in one buffer leaves the other. -/
theorem State.bufferRun_putTokens_other (s : State) (b : Bool) (ts : List Token) (n : Nat) :
    (s.putTokens b ts).bufferRun (!b) n = s.bufferRun (!b) n := by
  cases b <;> rfl

@[simp] theorem State.image_putTokens (s : State) (b : Bool) (ts : List Token) :
    (s.putTokens b ts).image = s.image := by
  cases b <;> rfl

@[simp] theorem State.putTokens_hc0 (s : State) (b : Bool) (ts : List Token) :
    (s.putTokens b ts).spaces.hc0 = s.spaces.hc0 := by
  cases b <;> rfl

@[simp] theorem State.putTokens_hc1 (s : State) (b : Bool) (ts : List Token) :
    (s.putTokens b ts).spaces.hc1 = s.spaces.hc1 := by
  cases b <;> rfl

/-- A raise that loses a token buffer still has the table HC0. -/
theorem tableKept_redrawBuffer (s : State) (b : Bool) : TableKept s (s.redrawBuffer b) := by
  cases b <;> exact ⟨rfl, rfl, rfl⟩

/-- A buffer that holds the records of a true token list is true. -/
theorem State.bufferTrue_of_records {s : State} {b : Bool} {bits : Nat} {ts : List Token}
    (hrun : s.bufferRun b ts.length = ts.map Token.record) (h : s.tokensTrue bits ts = true) :
    s.bufferTrue b ts.length bits = true := by
  have hfits := State.fits_of_streamTrue (State.tokensTrue_iff.1 h).1
  simp only [State.bufferTrue, hrun, tokensOf_records hfits, h]

/-- The tokens of a true current buffer. -/
theorem State.curTokens_of_curTrue {s : State} (h : s.curTrue = true) :
    ∃ ts, s.curTokens = .ok ts ∧ s.tokensTrue s.bufs.curBits.toNat ts = true := by
  simp only [State.curTrue, State.bufferTrue] at h
  simp only [State.curTokens]
  split at h
  · rename_i ts hts
    exact ⟨ts, hts, h⟩
  · cases h

/-- Where CUR alone is stored anew the promises stay, if it codes the image. -/
theorem State.faithful_of_newCur {s u : State} {ts : List Token} {bits : BitVec 4} (hs : s.faithful = true)
    (hA : s.spaces.tokA.wf = true) (hB : s.spaces.tokB.wf = true) (htrue : s.tokensTrue bits.toNat ts = true)
    (huA : u.spaces.tokA = (s.putTokens s.bufs.sel ts).spaces.tokA)
    (huB : u.spaces.tokB = (s.putTokens s.bufs.sel ts).spaces.tokB)
    (hbufs : u.bufs = { s.bufs with curLen := ts.length, curBits := bits }) (himage : u.image = s.image)
    (hhc0 : u.spaces.hc0 = s.spaces.hc0) (hhc1 : u.spaces.hc1 = s.spaces.hc1)
    (hv0 : u.flags.hc0Valid = s.flags.hc0Valid) (hv1 : u.flags.hc1Valid = s.flags.hc1Valid)
    (hscr : u.flags.scrValid = s.flags.scrValid) : u.faithful = true := by
  obtain ⟨-, -, -, hscrTrue⟩ := State.faithful_iff.1 hs
  refine State.faithful_of_buffers hs himage hhc0 hhc1 hv0 hv1 (fun _ => ?_) (fun h => ?_)
  · simp only [State.curTrue, hbufs]
    refine State.bufferTrue_of_records ?_ (by rwa [State.tokensTrue_congr himage])
    rw [State.bufferRun_congr huA huB, State.bufferRun_putTokens hA hB]
  · have hrun : u.bufferRun (!s.bufs.sel) s.bufs.scrLen = s.bufferRun (!s.bufs.sel) s.bufs.scrLen := by
      rw [State.bufferRun_congr huA huB, State.bufferRun_putTokens_other]
    simp only [State.scrTrue, hbufs, State.bufferTrue_congr himage hrun]
    exact hscrTrue (hscr ▸ h)

/-- A builder that emits a true token list keeps the promises (42_backward_refs R150, R153). -/
theorem State.endBuilder_keepsFaith {s : State} {ts : List Token} (hs : s.faithful = true)
    (hA : s.spaces.tokA.wf = true) (hB : s.spaces.tokB.wf = true) (htrue : s.tokensTrue 0 ts = true) :
    (s.endBuilder ts).KeepsFaith s := by
  simp only [State.endBuilder]
  split
  · exact tableKept_redrawBuffer s _
  · exact State.faithful_of_newCur (bits := 0) hs hA hB htrue rfl rfl (by simp) (State.image_putTokens ..)
      (by simp) (by simp) (by simp) (by simp) (by simp)

/-! ### BR_GREEDY (42_backward_refs R151) -/

/-- The entries of a valid table are true matches. -/
theorem State.matchTrue_of_valid {s : State} (hs : s.faithful = true) {sel : TableSel}
    (hv : s.hcValid sel = true) (p : Nat) (hp : p < s.pixelCount) :
    MatchTrue s.px s.pixelCount p (s.hcEntry sel p) := by
  obtain ⟨h0, h1, -, -⟩ := State.faithful_iff.1 hs
  have htable : s.tableTrue sel = true := by
    cases sel
    · exact h0 hv
    · exact h1 hv
  simp only [State.tableTrue, List.all_eq_true, List.mem_range] at htable
  exact State.entryTrue_iff.1 (htable p hp)

theorem greedyTokens_codes {s : State} {hc : Nat → Nat × Nat}
    (hhc : ∀ p, p < s.pixelCount → MatchTrue s.px s.pixelCount p (hc p)) (fuel i : Nat) (c : CacheSlots)
    (hfuel : s.pixelCount ≤ i + fuel) (hi : i ≤ s.pixelCount) :
    s.CodesFrom 0 c i (greedyTokens s.px hc s.pixelCount fuel i) := by
  induction fuel generalizing i c with
  | zero => exact .nil (by omega)
  | succ fuel ih =>
    simp only [greedyTokens]
    split
    · rename_i hlt
      have hliteral : s.CodesFrom 0 c i (.literal (s.px i) :: greedyTokens s.px hc s.pixelCount fuel (i + 1)) :=
        .cons (s.tokenTrue_literal ..) (ih (i + 1) _ (by omega) (by omega))
      split
      · rename_i hlong
        split
        · exact hliteral
        · have htoken := State.tokenTrue_copy (hhc i hlt) (le_trans (by decide) hlong) le_rfl 0 c
          have hend : 1 ≤ (hc i).2 ∧ i + (hc i).2 ≤ s.pixelCount := by
            obtain hnone | ⟨-, -, -, hl, hmax, -⟩ := hhc i hlt
            · rw [hnone] at hlong
              exact absurd hlong (by decide)
            · exact ⟨hl, by omega⟩
          exact .cons htoken (ih _ _ (by simp only [Token.len]; omega) hend.2)
      · exact hliteral
    · exact .nil (by omega)

theorem brGreedyBody_keepsFaith {s : State} (hs : s.faithful = true) (hA : s.spaces.tokA.wf = true)
    (hB : s.spaces.tokB.wf = true) {sel : TableSel} (hv : s.hcValid sel = true) :
    (brGreedyBody sel s).KeepsFaith s := by
  simp only [brGreedyBody]
  split
  · exact tableKept_redrawBuffer s _
  · exact State.endBuilder_keepsFaith hs hA hB (State.tokensTrue_iff.2
      (greedyTokens_codes (State.matchTrue_of_valid hs hv) _ _ _ (by omega) (Nat.zero_le _)))

/-! ### BR_RLE (42_backward_refs R155) -/

/-- A copy of a counted run of MIN_LENGTH or more is true and stays within the image. -/
theorem State.tokenTrue_copy_lcp {s : State} {p d : Nat} (hd : 1 ≤ d) (hdp : d ≤ p)
    (hw : d ≤ Config.windowSize)
    (hlong : Config.minLength ≤ lcp s.px (p - d) p (min (s.pixelCount - p) Config.maxLength)) (b : Nat)
    (c : CacheSlots) :
    s.tokenTrue b c p (.copy d (lcp s.px (p - d) p (min (s.pixelCount - p) Config.maxLength))) = true :=
  State.tokenTrue_copy (matchTrue_lcp hd hdp hw (lt_of_lt_of_le (by decide) hlong)) (le_trans (by decide) hlong)
    le_rfl b c

theorem rleTokens_codes {s : State} (hxs : 1 ≤ s.xs) (fuel i : Nat) (c : CacheSlots) (hpos : 1 ≤ i)
    (hfuel : s.pixelCount ≤ i + fuel) (hi : i ≤ s.pixelCount) :
    s.CodesFrom 0 c i (rleTokens s.px s.pixelCount s.xs fuel i) := by
  induction fuel generalizing i c with
  | zero => exact .nil (by omega)
  | succ fuel ih =>
    have hstep : ∀ {t : Token}, s.tokenTrue 0 c i t = true → 1 ≤ t.len → i + t.len ≤ s.pixelCount →
        s.CodesFrom 0 c i (t :: rleTokens s.px s.pixelCount s.xs fuel (i + t.len)) :=
      fun ht hone hle => .cons ht (ih _ _ (by omega) (by omega) hle)
    have hmin : 1 ≤ Config.minLength := by decide
    simp only [rleTokens]
    split
    · rename_i hlt
      have hleft := lcp_le s.px (i - 1) i (min (s.pixelCount - i) Config.maxLength)
      have habove := lcp_le s.px (i - s.xs) i (min (s.pixelCount - i) Config.maxLength)
      generalize hu : (if i < s.xs ∨ Config.windowSize < s.xs then 0
        else lcp s.px (i - s.xs) i (min (s.pixelCount - i) Config.maxLength)) = u
      split
      · rename_i hrun
        exact hstep (State.tokenTrue_copy_lcp le_rfl hpos (by decide) hrun.2 0 c)
          (hmin.trans hrun.2) (by simp only [Token.len]; omega)
      · split
        · rename_i hrow
          split at hu <;> subst hu
          · exact absurd hrow (by decide)
          · exact hstep (State.tokenTrue_copy_lcp hxs (by omega) (by omega) hrow 0 c) (hmin.trans hrow)
              (by simp only [Token.len]; omega)
        · exact hstep (s.tokenTrue_literal ..) le_rfl (by simp only [Token.len]; omega)
    · exact .nil (by omega)

theorem brRleBody_keepsFaith {s : State} (hs : s.faithful = true) (hA : s.spaces.tokA.wf = true)
    (hB : s.spaces.tokB.wf = true) (hxs : 1 ≤ s.xs) (hys : 1 ≤ s.ys) : (brRleBody s).KeepsFaith s := by
  have hN : 1 ≤ s.pixelCount := Nat.mul_pos hxs hys
  exact State.endBuilder_keepsFaith hs hA hB (State.tokensTrue_iff.2
    (.cons (s.tokenTrue_literal ..) (rleTokens_codes hxs _ 1 _ le_rfl (by omega) hN)))

/-! ### Hits of the cache (43_color_cache R181, R182) -/

theorem ccIndex_lt (f : Fns) (p : Pixel) {b : Nat} (hb : b ≤ 32) : ccIndex f p b < 2 ^ b := by
  have hlt := (cacheHash f p).isLt
  have hsplit : 2 ^ 32 = 2 ^ (32 - b) * 2 ^ b := by rw [← pow_add]; congr 1; omega
  simp only [ccIndex, BitVec.toNat_ushiftRight, Nat.shiftRight_eq_div_pow]
  exact Nat.div_lt_of_lt_mul (hsplit ▸ hlt)

theorem cacheLookup_eq_some {f : Fns} {b k : Nat} {c : CacheSlots} {p : Pixel} (h : cacheLookup f b c p = some k) :
    k = ccIndex f p b ∧ c.getD k none = some p := by
  simp only [cacheLookup] at h
  split at h <;> cases h
  exact ⟨rfl, by assumption⟩

/-- A reference to the slot where a pixel hits is true (10_state R35). -/
theorem State.tokenTrue_cacheRef {s : State} {b p k : Nat} {c : CacheSlots} (hb : 1 ≤ b) (hb' : b ≤ 10)
    (h : cacheLookup s.fns b c (s.px p) = some k) : s.tokenTrue b c p (.cacheRef k) = true := by
  obtain ⟨rfl, hslot⟩ := cacheLookup_eq_some h
  simp only [State.tokenTrue, decide_eq_true_eq]
  exact ⟨hb, hb', ccIndex_lt _ _ (by omega), trivial, hslot⟩

/-- Inserting a pixel that hits changes nothing. -/
theorem cacheInsert_of_hit {f : Fns} {b k : Nat} {c : CacheSlots} {p : Pixel} (h : cacheLookup f b c p = some k) :
    cacheInsert f b c p = c := by
  obtain ⟨rfl, hslot⟩ := cacheLookup_eq_some h
  have hk : ccIndex f p b < c.length := by
    by_contra hge
    rw [List.getD_eq_default c none (Nat.not_lt.1 hge)] at hslot
    cases hslot
  rw [List.getD_eq_getElem c none hk] at hslot
  rw [cacheInsert, ← hslot, List.set_getElem_self]

/-! ### CACHE_APPLY (42_backward_refs R165) -/

theorem ReplayEnd.of_map_push {x : Except Nat ReplayEnd} {t : Token} {r : ReplayEnd}
    (h : x.map (ReplayEnd.push t) = .ok r) : ∃ r', x = .ok r' ∧ r = r'.push t := by
  cases x with
  | error e => cases h
  | ok r' => exact ⟨r', rfl, by cases h; rfl⟩

/-- A replay of a true token list without cache codes the image at the new width. -/
theorem cacheReplay_codes {s : State} {b : Nat} (hb : 1 ≤ b) (hb' : b ≤ 10) {ts : List Token} {k p : Nat}
    {c c₀ : CacheSlots} {r : ReplayEnd} (hts : s.streamTrue 0 c₀ p ts = true)
    (h : cacheReplay s.fns b s.px k c p ts = .ok r) (hend : r.pos = s.pixelCount) :
    s.CodesFrom b c p r.tokens := by
  induction ts generalizing k p c c₀ r with
  | nil =>
    simp only [cacheReplay, Except.ok.injEq] at h
    subst h
    exact .nil hend
  | cons t ts ih =>
    simp only [State.streamTrue, Bool.and_eq_true] at hts
    obtain ⟨htok, hrest⟩ := hts
    cases t with
    | literal v =>
      obtain rfl : v = s.px p := by simpa [State.tokenTrue] using htok
      simp only [cacheReplay] at h
      split at h <;> obtain ⟨r', hr', rfl⟩ := ReplayEnd.of_map_push h
      · rename_i idx hit
        refine .cons (State.tokenTrue_cacheRef hb hb' hit) ?_
        have hcodes := ih hrest hr' hend
        simpa only [Token.len, cacheInsertRun, cacheInsert_of_hit hit] using hcodes
      · exact .cons (s.tokenTrue_literal ..) (ih hrest hr' hend)
    | copy d l =>
      simp only [cacheReplay] at h
      obtain ⟨r', hr', rfl⟩ := ReplayEnd.of_map_push h
      exact .cons htok (ih hrest hr' hend)
    | cacheRef idx => simp [State.tokenTrue] at htok

theorem length_of_tokensOf {ws : List (BitVec 64)} {k : Nat} {ts : List Token} (h : tokensOf k ws = .ok ts) :
    ts.length = ws.length := by
  induction ws generalizing k ts with
  | nil =>
    cases h
    rfl
  | cons w ws ih =>
    simp only [tokensOf] at h
    split at h
    · cases h
    split at h <;> cases h
    rename_i hrest
    simp [ih hrest]

theorem State.length_bufferRun {s : State} (hA : s.spaces.tokA.wf = true) (hB : s.spaces.tokB.wf = true)
    (b : Bool) (n : Nat) : (s.bufferRun b n).length = n := by
  cases b
  · exact Mem.length_run 3 0 n hA
  · exact Mem.length_run 4 0 n hB

/-- A replay leaves one token for each (42_backward_refs R165). -/
theorem length_cacheReplay {f : Fns} {b : Nat} {px : Nat → Pixel} {ts : List Token} {k p : Nat} {c : CacheSlots}
    {r : ReplayEnd} (h : cacheReplay f b px k c p ts = .ok r) : r.tokens.length = ts.length := by
  induction ts generalizing k p c r with
  | nil =>
    cases h
    rfl
  | cons t ts ih =>
    cases t <;> simp only [cacheReplay] at h
    case literal v =>
      split at h <;> obtain ⟨r', hr', rfl⟩ := ReplayEnd.of_map_push h <;> simp [ReplayEnd.push, ih hr']
    case copy d l =>
      obtain ⟨r', hr', rfl⟩ := ReplayEnd.of_map_push h
      simp [ReplayEnd.push, ih hr']
    case cacheRef idx => cases h

theorem tableKept_failReplay (s : State) (info : Nat) : (s.failReplay info).KeepsFaith s :=
  tableKept_redrawBuffer s s.bufs.sel

theorem toNat_ofNat_width {b : Nat} (hb : b ≤ 10) : (BitVec.ofNat 4 b).toNat = b := by
  simp only [BitVec.toNat_ofNat]
  omega

/-- CACHE_APPLY on a valid CUR without cache keeps the promises (42_backward_refs R165). -/
theorem cacheApplyBody_keepsFaith {s : State} (hs : s.faithful = true) (hA : s.spaces.tokA.wf = true)
    (hB : s.spaces.tokB.wf = true) (hcur : s.flags.curValid = true) (hbits : s.bufs.curBits = 0)
    (hb : s.regs.cacheBits.toNat ≤ 10) : (cacheApplyBody s).KeepsFaith s := by
  obtain ⟨-, -, hcurTrue, -⟩ := State.faithful_iff.1 hs
  obtain ⟨ts, hts, htrue⟩ := State.curTokens_of_curTrue (hcurTrue hcur)
  rw [hbits] at htrue
  simp only [cacheApplyBody, hts]
  split
  · exact hs
  split
  · exact tableKept_failReplay s _
  split
  · exact tableKept_failReplay s _
  rename_i hb0 _ _ r hr
  split
  · exact tableKept_failReplay s _
  · rename_i hend
    have hcodes := cacheReplay_codes (by omega) hb (State.tokensTrue_iff.1 htrue).1 hr (not_not.1 hend)
    have hlen : s.bufs.curLen = r.tokens.length := by
      rw [length_cacheReplay hr, length_of_tokensOf hts, State.length_bufferRun hA hB]
    have hnew : s.tokensTrue (BitVec.ofNat 4 s.regs.cacheBits.toNat).toNat r.tokens = true := by
      rw [toNat_ofNat_width hb]
      exact State.tokensTrue_iff.2 hcodes
    exact State.faithful_of_newCur hs hA hB hnew rfl rfl (by simp [hlen]) (State.image_putTokens ..)
      (by simp) (by simp) (by simp) (by simp) (by simp)

end Sys2Proof.Machine
end

section
/-! SUPPORT. DP_SOLVE leaves two true token buffers: the forward pass takes open edges only, so the path it traces back
is one of open edges, and the replay turns each into a true token (44_optimal_parse R200 to R212). -/

namespace Sys2Proof.Machine

/-! ### The forward pass (44_optimal_parse R204) -/

/-- The edge of a cell of position `j` is none yet, or an open one that ends there (44_optimal_parse R200). -/
def State.EdgeEndsAt (s : State) (sel : TableSel) (j : Nat) (edge : Nat) : Prop :=
  edge = 0 ∨ (edge ≤ j + 1 ∧ s.edgeOpen sel (j + 1 - edge) edge = true)

/-- The cells of the positions from `j` on hold open edges. -/
def State.EdgesOpen (s : State) (sel : TableSel) : Nat → List DpCell → Prop
  | _, [] => True
  | j, c :: cs => s.EdgeEndsAt sel j c.edge ∧ s.EdgesOpen sel (j + 1) cs

section
variable {s : State} {sel : TableSel}

theorem State.edgeEndsAt_relax {j k : Nat} {c : DpCell} (hc : s.EdgeEndsAt sel j c.edge) (cost : Cost)
    (hk : s.EdgeEndsAt sel j k) : s.EdgeEndsAt sel j (c.relax cost k).edge := by
  simp only [DpCell.relax]
  split
  · exact hk
  · exact hc

theorem State.edgesOpen_unreached (n j : Nat) : s.EdgesOpen sel j (List.replicate n dpUnreached) := by
  induction n generalizing j with
  | zero => trivial
  | succ n ih => exact ⟨.inl rfl, ih (j + 1)⟩

/-- The copies from position `i`, of the lengths `k` and above that its entry allows, end at the cells from
`i + k - 1` on. -/
theorem State.edgesOpen_relaxCopies {i j k : Nat} {cells : List DpCell} (hi : 1 ≤ i) (hk : 2 ≤ k)
    (hj : j + 1 = i + k) (start : Cost) (lenCost : Nat → Cost) (hcells : s.EdgesOpen sel j cells) :
    s.EdgesOpen sel j (relaxCopies start lenCost (s.hcEntry sel i).2 k cells) := by
  induction cells generalizing j k with
  | nil => trivial
  | cons c cells ih =>
    obtain ⟨hc, hrest⟩ := hcells
    simp only [relaxCopies]
    split
    · rename_i hle
      have hopen : s.edgeOpen sel (j + 1 - k) k = true := by
        rw [show j + 1 - k = i by omega]
        simp only [State.edgeOpen, decide_eq_true_eq]
        exact .inr ⟨hi, hk, hle⟩
      exact ⟨State.edgeEndsAt_relax hc _ (.inr ⟨by omega, hopen⟩), ih (by omega) (by omega) hrest⟩
    · exact ⟨hc, hrest⟩

theorem State.edgesOpen_dpForward (h : Histo) (fuel : Nat) {i : Nat} (before : Cost) (cache : CacheSlots)
    {cells : List DpCell} (hcells : s.EdgesOpen sel i cells) :
    s.EdgesOpen sel i (dpForward (s.dpInput sel h) fuel i before cache cells) := by
  induction fuel generalizing i before cache cells with
  | zero => simpa only [dpForward] using hcells
  | succ fuel ih =>
    cases cells with
    | nil => trivial
    | cons c cells =>
      obtain ⟨hc, hrest⟩ := hcells
      have hone : s.EdgeEndsAt sel i 1 := .inr ⟨by omega, by simp [State.edgeOpen]⟩
      simp only [dpForward]
      refine ⟨State.edgeEndsAt_relax hc _ hone, ih _ _ ?_⟩
      split
      · rename_i hcopy
        exact State.edgesOpen_relaxCopies hcopy.1 (by decide) (by simp only [Config.dpMinLength]) _ _ hrest
      · exact hrest

theorem State.EdgesOpen.getD {cells : List DpCell} {j : Nat} (h : s.EdgesOpen sel j cells) (m : Nat) :
    s.EdgeEndsAt sel (j + m) (cells.getD m dpUnreached).edge := by
  induction cells generalizing j m with
  | nil => exact .inl rfl
  | cons c cells ih =>
    obtain ⟨hc, hrest⟩ := h
    cases m with
    | zero => exact hc
    | succ m =>
      have hm := ih hrest m
      rwa [show j + 1 + m = j + (m + 1) by omega] at hm

/-! ### The trace (44_optimal_parse R208) -/

/-- Open edges that follow one another from position `i` on, each starting within the image. -/
def State.PathOpen (s : State) (sel : TableSel) : Nat → List Nat → Prop
  | _, [] => True
  | i, k :: path => i < s.pixelCount ∧ s.edgeOpen sel i k = true ∧ s.PathOpen sel (i + k) path

theorem State.pathOpen_dpTrace {edge : Nat → Nat} (hedge : ∀ j, s.EdgeEndsAt sel j (edge j)) (fuel : Nat)
    {left : Nat} {path result : List Nat} (hleft : left ≤ s.pixelCount) (hpath : s.PathOpen sel left path)
    (h : dpTrace edge fuel left path = .ok result) : s.PathOpen sel 0 result := by
  induction fuel generalizing left path with
  | zero =>
    cases left with
    | zero =>
      cases h
      exact hpath
    | succ left => cases h
  | succ fuel ih =>
    cases left with
    | zero =>
      cases h
      exact hpath
    | succ left =>
      simp only [dpTrace] at h
      split at h
      · cases h
      · rename_i hok
        obtain hzero | ⟨hle, hopen⟩ := hedge left
        · exact absurd (.inl hzero) hok
        · refine ih (path := edge left :: path) (by omega) ⟨by omega, hopen, ?_⟩ h
          rwa [Nat.sub_add_cancel hle]

/-! ### The replay (44_optimal_parse R210) -/

theorem stepCache_hit {f : Fns} {b idx : Nat} {c : CacheSlots} {p : Pixel}
    (h : (stepCache f b c p).1 = some idx) : b ≠ 0 ∧ cacheLookup f b c p = some idx := by
  simp only [stepCache] at h
  split at h
  · cases h
  · split at h <;> cases h
    exact ⟨by assumption, by assumption⟩

theorem stepCache_cache {f : Fns} {b : Nat} (hb : b ≠ 0) (c : CacheSlots) (p : Pixel) :
    (stepCache f b c p).2 = cacheInsert f b c p := by
  simp only [stepCache, if_neg hb]
  split
  · rename_i hit
    exact (cacheInsert_of_hit hit).symm
  · rfl

/-- The replay of a path of open edges codes the image; with width 0 no token looks at the cache `c`. -/
theorem State.dpReplay_codes (h : Histo) (hb : s.regs.cacheBits.toNat ≤ 10)
    (hentries : ∀ p, p < s.pixelCount → MatchTrue s.px s.pixelCount p (s.hcEntry sel p)) {path : List Nat}
    {i : Nat} {cache c : CacheSlots} (hpath : s.PathOpen sel i path)
    (hcache : s.regs.cacheBits.toNat ≠ 0 → c = cache)
    (hend : (dpReplay (s.dpInput sel h) i cache path).pos = s.pixelCount) :
    s.CodesFrom s.regs.cacheBits.toNat c i (dpReplay (s.dpInput sel h) i cache path).tokens := by
  induction path generalizing i cache c with
  | nil => exact .nil hend
  | cons k path ih =>
    obtain ⟨hi, hopen, hrest⟩ := hpath
    simp only [State.edgeOpen, decide_eq_true_eq] at hopen
    by_cases hk : k = 1
    · subst hk
      simp only [dpReplay, if_true] at hend ⊢
      have hnext : ∀ {t : Token}, s.tokenTrue s.regs.cacheBits.toNat c i t = true → t.len = 1 →
          s.CodesFrom s.regs.cacheBits.toNat c i
            (t :: (dpReplay (s.dpInput sel h) (i + 1)
              (stepCache s.fns s.regs.cacheBits.toNat cache (s.px i)).2 path).tokens) := by
        intro t ht hlen
        refine .cons ht ?_
        rw [hlen]
        refine ih hrest (fun hne => ?_) hend
        rw [stepCache_cache hne, hcache hne]
        rfl
      simp only [ReplayEnd.push]
      split
      · rename_i idx hit
        obtain ⟨hne, hlookup⟩ := stepCache_hit hit
        exact hnext (State.tokenTrue_cacheRef (Nat.one_le_iff_ne_zero.2 hne) hb (hcache hne ▸ hlookup)) rfl
      · exact hnext (s.tokenTrue_literal ..) rfl
    · obtain hone | ⟨-, htwo, hle⟩ := hopen
      · exact absurd hone hk
      simp only [dpReplay, if_neg hk] at hend ⊢
      refine .cons (State.tokenTrue_copy (hentries i hi) htwo hle _ c) (ih hrest (fun hne => ?_) hend)
      have hbits : (s.dpInput sel h).bits ≠ 0 := hne
      rw [if_neg hbits, hcache hne]
      rfl

end

/-! ### The end of DP_SOLVE (44_optimal_parse R201, R212) -/

/-- A swap exchanges what the two buffers promise. -/
theorem State.swapBuffers_faithful (s : State) : s.swapBuffers.faithful = s.faithful := by
  have hcur : s.swapBuffers.curTrue = s.scrTrue :=
    State.bufferTrue_congr (t := s.swapBuffers) (s := s) rfl rfl _
  have hscr : s.swapBuffers.scrTrue = s.curTrue := by
    have hkept := State.bufferTrue_congr (t := s.swapBuffers) (s := s) rfl
      (State.bufferRun_congr rfl rfl s.bufs.sel s.bufs.curLen) s.bufs.curBits.toNat
    simp only [State.scrTrue, State.swapBuffers_bufs, Bool.not_not]
    exact hkept
  simp only [State.faithful, State.swapBuffers_flags, hcur, hscr,
    State.tableTrue_hc0_congr (t := s.swapBuffers) (s := s) rfl rfl,
    State.tableTrue_hc1_congr (t := s.swapBuffers) (s := s) rfl rfl]
  exact Bool.and_right_comm _ _ _

theorem State.keepBetter_faithful (s : State) (new old : Cost) :
    (s.keepBetter new old).faithful = s.faithful := by
  simp only [State.keepBetter]
  split
  · refine (State.faithful_congr ?_).trans s.swapBuffers_faithful
    rfl
  · exact State.faithful_congr rfl

section
variable (s : State) (cells : List DpCell) (r : ReplayEnd)

theorem State.putSolution_image : (s.putSolution cells r).image = s.image := by
  simp only [State.putSolution]
  split <;> exact State.image_putTokens s _ _

theorem State.putSolution_hc0 : (s.putSolution cells r).spaces.hc0 = s.spaces.hc0 := by
  simp only [State.putSolution]
  split <;> simp

theorem State.putSolution_hc1 : (s.putSolution cells r).spaces.hc1 = s.spaces.hc1 := by
  simp only [State.putSolution]
  split <;> simp

theorem State.putSolution_flags : (s.putSolution cells r).flags = { s.flags with scrValid := true } := by
  simp only [State.putSolution]
  split <;> simp

theorem State.putSolution_bufs : (s.putSolution cells r).bufs =
    { s.bufs with scrLen := r.tokens.length, scrBits := BitVec.ofNat 4 s.regs.cacheBits.toNat } := by
  simp only [State.putSolution]
  split <;> simp

theorem State.bufferRun_putSolution (b : Bool) (n : Nat) :
    (s.putSolution cells r).bufferRun b n = (s.putTokens (!s.bufs.sel) r.tokens).bufferRun b n := by
  simp only [State.putSolution]
  split <;> exact State.bufferRun_congr rfl rfl b n

end

/-- A true stream stored in SCR keeps the promises; CUR is as before. -/
theorem State.putSolution_faithful {s : State} {r : ReplayEnd} (cells : List DpCell) (hs : s.faithful = true)
    (hA : s.spaces.tokA.wf = true) (hB : s.spaces.tokB.wf = true) (hb : s.regs.cacheBits.toNat ≤ 10)
    (htrue : s.tokensTrue s.regs.cacheBits.toNat r.tokens = true) : (s.putSolution cells r).faithful = true := by
  obtain ⟨-, -, hcur, -⟩ := State.faithful_iff.1 hs
  have himage := s.putSolution_image cells r
  refine State.faithful_of_buffers hs himage (s.putSolution_hc0 cells r) (s.putSolution_hc1 cells r)
    (by rw [State.putSolution_flags]) (by rw [State.putSolution_flags]) (fun h => ?_) (fun _ => ?_)
  · rw [State.putSolution_flags] at h
    have hrun := s.bufferRun_putSolution cells r s.bufs.sel s.bufs.curLen
    have hother := s.bufferRun_putTokens_other (!s.bufs.sel) r.tokens s.bufs.curLen
    rw [Bool.not_not] at hother
    simp only [State.curTrue, State.putSolution_bufs, State.bufferTrue_congr himage (hrun.trans hother)]
    exact hcur h
  · simp only [State.scrTrue, State.putSolution_bufs, toNat_ofNat_width hb]
    refine State.bufferTrue_of_records ?_ (by rwa [State.tokensTrue_congr himage])
    rw [State.bufferRun_putSolution, State.bufferRun_putTokens hA hB]

theorem tableKept_failSolve (s : State) (o : ErrorOutcome) (info : Nat) : (s.failSolve o info).KeepsFaith s :=
  ⟨rfl, rfl, rfl⟩

/-- DP_SOLVE on a valid table keeps the promises. -/
theorem dpSolveBody_keepsFaith {s : State} (hs : s.faithful = true) (hA : s.spaces.tokA.wf = true)
    (hB : s.spaces.tokB.wf = true) {sel : TableSel} (hv : s.hcValid sel = true)
    (hb : s.regs.cacheBits.toNat ≤ 10) : (dpSolveBody sel s).KeepsFaith s := by
  simp only [dpSolveBody]
  split
  · exact tableKept_failSolve ..
  split
  · exact tableKept_failSolve ..
  rename_i hCur _
  have hcells := State.edgesOpen_dpForward (s := s) (sel := sel) hCur s.pixelCount 0
    (cacheInit s.regs.cacheBits.toNat) (State.edgesOpen_unreached s.pixelCount 0)
  split
  · exact tableKept_failSolve ..
  rename_i path htrace
  have hpath := State.pathOpen_dpTrace (fun j => by simpa using hcells.getD j) _ (path := []) le_rfl trivial htrace
  split
  · exact tableKept_failSolve ..
  split
  · exact tableKept_failSolve ..
  rename_i hend
  split
  · exact tableKept_failSolve ..
  · have hcodes := State.dpReplay_codes hCur hb (State.matchTrue_of_valid hs hv) hpath (fun _ => rfl)
      (not_not.1 hend)
    exact (State.keepBetter_faithful ..).trans
      (State.putSolution_faithful _ hs hA hB hb (State.tokensTrue_iff.2 hcodes))

end Sys2Proof.Machine
end

section
/-! SUPPORT. Every step keeps the promises of the valid bits: the commands that leave alone what the promises rest on
(20_memory R66), the host's operations (10_state R46), and the statement. -/

namespace Sys2Proof.Machine

/-! ### Commands that leave alone what the promises rest on -/

section
variable (s : State)

theorem backing_cacheSearchBody : (cacheSearchBody s).state.backing = s.backing := by
  simp only [cacheSearchBody]
  split
  · rfl
  split
  · rfl
  split <;> rfl

theorem backing_ccInitBody (b : Nat) : (ccInitBody b s).state.backing = s.backing := by
  simp only [ccInitBody]
  split <;> rfl

theorem backing_histBuildBody (mode : SlotMode) (base : Nat) :
    (histBuildBody mode base s).state.backing = s.backing := by
  simp only [histBuildBody]
  split
  · rfl
  split
  · rfl
  split <;> rfl

theorem backing_histAddBody (dst src : Nat) : (histAddBody dst src s).state.backing = s.backing := by
  simp only [histAddBody]
  split <;> rfl

theorem backing_clusterBody (first group : Nat) : (clusterBody first group s).state.backing = s.backing := by
  simp only [clusterBody]
  split
  · rfl
  split <;> rfl

/-! ### The bit writer -/

@[simp] theorem State.backing_flushWord : s.flushWord.backing = s.backing := by
  simp only [State.flushWord]
  split <;> rfl

@[simp] theorem State.backing_putBits (v : BitVec 64) (n : Nat) : (s.putBits v n).backing = s.backing := by
  simp only [State.putBits]
  split
  · rw [State.backing_flushWord]
    rfl
  · rfl

@[simp] theorem State.backing_finishByte : s.finishByte.backing = s.backing := by
  simp only [State.finishByte]
  split <;> rfl

@[simp] theorem backing_failOut (o : ErrorOutcome) (info : Nat) (start : State) :
    (failOut o info start s).state.backing = s.backing := rfl

end

@[simp] theorem backing_finishBytes (fuel : Nat) (s : State) : (finishBytes fuel s).backing = s.backing := by
  induction fuel generalizing s with
  | zero => rfl
  | succ fuel ih =>
    simp only [finishBytes]
    split
    · rfl
    · rw [ih, State.backing_finishByte]

theorem backing_bwFinishBody (s : State) : (bwFinishBody s).state.backing = s.backing := by
  simp only [bwFinishBody]
  split <;> exact backing_finishBytes s.writer.used s

theorem State.backing_emitOne {s t : State} {h : Nat} {e : Emission} (ht : s.emitOne h e = some t) :
    t.backing = s.backing := by
  cases e with
  | raw v n =>
    cases ht
    exact s.backing_putBits _ _
  | symbol tbl sym =>
    simp only [State.emitOne] at ht
    split at ht
    · cases ht
      exact s.backing_putBits _ _
    · split at ht <;> cases ht
      rfl

/-- What was put of a token, up to its end or to the first symbol without a codeword, leaves the backing. -/
theorem backing_emitAll {h : Nat} {es : List Emission} {s t : State}
    (ht : emitAll h s es = .ok t ∨ emitAll h s es = .error t) : t.backing = s.backing := by
  induction es generalizing s with
  | nil =>
    obtain ht | ht := ht <;> cases ht
    rfl
  | cons e es ih =>
    simp only [emitAll] at ht
    cases hone : s.emitOne h e with
    | none =>
      rw [hone] at ht
      obtain ht | ht := ht <;> cases ht
      rfl
    | some u =>
      rw [hone] at ht
      exact (ih ht).trans (State.backing_emitOne hone)

theorem backing_emitTokensLoop (mode : SlotMode) (base : Nat) (start : State) {ts : List Token} (k pos : Nat)
    (s : State) : (emitTokensLoop mode base start k pos s ts).state.backing = s.backing := by
  induction ts generalizing k pos s with
  | nil =>
    simp only [emitTokensLoop]
    split <;> rfl
  | cons t ts ih =>
    simp only [emitTokensLoop]
    split
    · rename_i u hu
      rw [backing_failOut, backing_emitAll (.inr hu)]
    · rename_i u hu
      rw [ih, backing_emitAll (.inl hu)]

theorem backing_emitTokensBody (mode : SlotMode) (base : Nat) (s : State) :
    (emitTokensBody mode base s).state.backing = s.backing := by
  simp only [emitTokensBody]
  split
  · rfl
  · exact backing_emitTokensLoop ..

/-! ### Every command -/

theorem State.one_le_of_zeroDims {s : State} (h : s.zeroDims = false) : 1 ≤ s.xs ∧ 1 ≤ s.ys := by
  simp only [State.zeroDims, Bool.or_eq_false_iff, beq_eq_false_iff_ne] at h
  omega

theorem execHcBuild_faithful {s t : State} (hwf : s.spaces.wf = true) (hs : s.faithful = true)
    (h : execHcBuild s = .next t) : t.faithful = true := by
  obtain ⟨hpix, -⟩ := Spaces.wf_iff.1 hwf
  unfold execHcBuild at h
  refine runCommand_faithful hs (fun hchecks _ => ?_) h
  obtain ⟨hxs, -⟩ := State.one_le_of_zeroDims (hchecks (4, s.zeroDims) (by simp))
  exact hcBuildBody_keepsFaith hs hpix hxs

theorem execBrGreedy_faithful {sel : TableSel} {s t : State} (hwf : s.spaces.wf = true) (hs : s.faithful = true)
    (h : execBrGreedy sel s = .next t) : t.faithful = true := by
  obtain ⟨-, -, -, hA, hB, -⟩ := Spaces.wf_iff.1 hwf
  unfold execBrGreedy at h
  refine runCommand_faithful hs (fun hchecks _ => ?_) h
  have htable : s.badTable sel = false := hchecks (12, s.badTable sel) (by simp)
  exact brGreedyBody_keepsFaith hs hA hB (by simpa [State.badTable] using htable)

theorem execBrRle_faithful {s t : State} (hwf : s.spaces.wf = true) (hs : s.faithful = true)
    (h : execBrRle s = .next t) : t.faithful = true := by
  obtain ⟨-, -, -, hA, hB, -⟩ := Spaces.wf_iff.1 hwf
  unfold execBrRle at h
  refine runCommand_faithful hs (fun hchecks _ => ?_) h
  obtain ⟨hxs, hys⟩ := State.one_le_of_zeroDims (hchecks (4, s.zeroDims) (by simp))
  exact brRleBody_keepsFaith hs hA hB hxs hys

theorem execCacheApply_faithful {s t : State} (hwf : s.spaces.wf = true) (hs : s.faithful = true)
    (h : execCacheApply s = .next t) : t.faithful = true := by
  obtain ⟨-, -, -, hA, hB, -⟩ := Spaces.wf_iff.1 hwf
  unfold execCacheApply at h
  refine runCommand_faithful hs (fun hchecks _ => ?_) h
  have hbits : s.badCacheBits = false := hchecks (7, s.badCacheBits) (by simp)
  have hcur : s.badCur = false := hchecks (13, s.badCur) (by simp)
  have hplain : s.curCached = false := hchecks (18, s.curCached) (by simp)
  simp only [State.badCacheBits, State.badCur, State.curCached, decide_eq_false_iff_not, not_not,
    Bool.not_eq_false', Nat.not_lt] at hbits hcur hplain
  exact cacheApplyBody_keepsFaith hs hA hB hcur hplain hbits

theorem execDpSolve_faithful {sel : TableSel} {s t : State} (hwf : s.spaces.wf = true) (hs : s.faithful = true)
    (h : execDpSolve sel s = .next t) : t.faithful = true := by
  obtain ⟨-, -, -, hA, hB, -⟩ := Spaces.wf_iff.1 hwf
  unfold execDpSolve at h
  refine runCommand_faithful hs (fun hchecks _ => ?_) h
  have hbits : s.badCacheBits = false := hchecks (7, s.badCacheBits) (by simp)
  have htable : s.badTable sel = false := hchecks (12, s.badTable sel) (by simp)
  simp only [State.badCacheBits, State.badTable, decide_eq_false_iff_not, Bool.not_eq_false',
    Nat.not_lt] at hbits htable
  exact dpSolveBody_keepsFaith hs hA hB htable hbits

/-- Every command keeps the promises, in canonical memory (20_memory R84). -/
theorem exec_faithful {i : Instr} {s t : State} (hwf : s.spaces.wf = true) (hs : s.faithful = true)
    (h : exec i s = .next t) : t.faithful = true := by
  cases i with
  | nop =>
    cases h
    exact s.endOk_faithful.trans hs
  | softReset =>
    cases h
    exact State.faithful_of_invalid rfl rfl rfl rfl
  | attemptBegin =>
    cases h
    rw [State.endOk_faithful]
    exact State.faithful_of_table hs rfl rfl id rfl rfl rfl
  | hcBuild => exact execHcBuild_faithful hwf hs h
  | hcBox =>
    simp only [exec, execHcBox] at h
    exact runCommand_faithful hs (fun _ _ => hcBoxBody_keepsFaith hs) h
  | brGreedy sel => exact execBrGreedy_faithful hwf hs h
  | brRle => exact execBrRle_faithful hwf hs h
  | cacheApply => exact execCacheApply_faithful hwf hs h
  | cacheSearch =>
    simp only [exec, execCacheSearch] at h
    exact runCommand_faithful_of_backing hs (backing_cacheSearchBody s) h
  | tokSwap =>
    simp only [exec, execTokSwap] at h
    refine runCommand_faithful hs (fun _ _ => ?_) h
    exact s.swapBuffers_faithful.trans hs
  | dpSolve sel => exact execDpSolve_faithful hwf hs h
  | histClear slot =>
    simp only [exec, execHistClear] at h
    exact runCommand_faithful_of_backing hs rfl h
  | histBuild mode slot =>
    simp only [exec, execHistBuild] at h
    exact runCommand_faithful_of_backing hs (backing_histBuildBody s mode _) h
  | histAdd slot =>
    simp only [exec, execHistAdd] at h
    exact runCommand_faithful_of_backing hs (backing_histAddBody s _ _) h
  | histEst slot =>
    simp only [exec, execHistEst] at h
    exact runCommand_faithful_of_backing hs rfl h
  | histCombine slot =>
    simp only [exec, execHistCombine] at h
    exact runCommand_faithful_of_backing hs rfl h
  | cluster slot =>
    simp only [exec, execCluster] at h
    exact runCommand_faithful_of_backing hs (backing_clusterBody s _ _) h
  | huffLen slot =>
    simp only [exec, execHuffLen] at h
    exact runCommand_faithful_of_backing hs rfl h
  | huffCode slot =>
    simp only [exec, execHuffCode] at h
    exact runCommand_faithful_of_backing hs rfl h
  | bwInit =>
    simp only [exec, execBwInit] at h
    exact runCommand_faithful_of_backing hs rfl h
  | bwPut n =>
    simp only [exec, execBwPut] at h
    refine runCommand_faithful_of_backing hs ?_ h
    exact s.backing_putBits _ _
  | bwFinish =>
    simp only [exec, execBwFinish] at h
    exact runCommand_faithful_of_backing hs (backing_bwFinishBody s) h
  | emitTokens mode slot =>
    simp only [exec, execEmitTokens] at h
    exact runCommand_faithful_of_backing hs (backing_emitTokensBody mode _ s) h
  | ccInit bits =>
    simp only [exec, execCcInit] at h
    exact runCommand_faithful_of_backing hs (backing_ccInitBody s _) h
  | ccLookup =>
    simp only [exec, execCcLookup] at h
    exact runCommand_faithful_of_backing hs rfl h
  | ccInsert =>
    simp only [exec, execCcInsert] at h
    exact runCommand_faithful_of_backing hs rfl h

/-- An illegal word ends with a raise before any work. -/
theorem runWord_faithful {s t : State} (hwf : s.spaces.wf = true) (hs : s.faithful = true)
    (h : runWord s = .next t) : t.faithful = true := by
  simp only [runWord] at h
  split at h
  · exact exec_faithful hwf hs h
  · cases h
    exact State.raise_faithful hs (.of_backing rfl) _ _ _

/-! ### The operations of the host -/

theorem State.imageChanged_faithful (s : State) : s.imageChanged.faithful = true :=
  State.faithful_of_invalid rfl rfl rfl rfl

theorem State.quiet_faithful (s : State) : s.quiet.faithful = s.faithful := State.faithful_congr rfl

theorem State.writeReg_faithful {s : State} (hs : s.faithful = true) (r : Reg) (w : Word) :
    (s.writeReg r w).faithful = true := by
  cases r
  case xsize | ysize => exact State.imageChanged_faithful _
  case abort =>
    simp only [State.writeReg, State.writeAbort]
    split
    · exact State.faithful_of_backing hs rfl
    · exact hs
  all_goals exact State.faithful_of_backing hs rfl

theorem State.hostRegWrite_faithful {s : State} (hs : s.faithful = true) (off : BitVec 8) (w : Word) :
    (s.hostRegWrite off w).faithful = true := by
  simp only [State.hostRegWrite]
  split
  · exact hs
  split
  · split
    · exact State.writeReg_faithful hs .abort w
    · exact hs
  · exact State.writeReg_faithful hs _ w

theorem State.hostSpaceWrite_faithful {s : State} (hs : s.faithful = true) (sp : SpaceId) (i : Nat)
    (v : BitVec 64) : (s.hostSpaceWrite sp i v).faithful = true := by
  simp only [State.hostSpaceWrite]
  split
  · exact hs
  cases sp
  case pix => exact State.imageChanged_faithful _
  all_goals exact State.faithful_of_backing hs rfl

/-- A host write that could falsify a promise clears its valid bit, or is dropped (10_state R46, 20_memory R73). -/
theorem hostStep_faithful {op : HostOp} {s t : State} (hs : s.faithful = true) (h : hostStep op s = .next t) :
    t.faithful = true := by
  cases op with
  | regRead off =>
    cases h
    rw [State.quiet_faithful]
    simp only [State.hostRegRead]
    split
    · exact State.faithful_of_backing hs rfl
    split <;> exact State.faithful_of_backing hs rfl
  | regWrite off w =>
    cases h
    rw [State.quiet_faithful]
    exact State.hostRegWrite_faithful hs off w
  | spaceRead sp i =>
    simp only [hostStep] at h
    split at h <;> cases h
    rw [State.quiet_faithful]
    simp only [State.hostSpaceRead]
    split <;> exact State.faithful_of_backing hs rfl
  | spaceWrite sp i v =>
    simp only [hostStep] at h
    split at h <;> cases h
    rw [State.quiet_faithful]
    exact State.hostSpaceWrite_faithful hs sp i v
  | infoRead sel =>
    cases h
    exact State.faithful_of_backing hs rfl
  | abortLine level =>
    cases h
    exact State.faithful_of_backing hs rfl
  | hardReset =>
    cases h
    exact State.faithful_of_invalid rfl rfl rfl rfl

end Sys2Proof.Machine

open Sys2Proof Sys2Proof.Machine

/-- Settles O18: a step runs the word in CMD, or an operation of the host, or lets time pass. -/
theorem faithfulKept : Obligations.FaithfulKept := by
  unfold Obligations.FaithfulKept
  intro s t hinv hs h
  have hwf : s.spaces.wf = true := by
    simp only [State.invariant, Memory.wf, Bool.and_eq_true, and_assoc] at hinv
    obtain ⟨-, hspaces, -⟩ := hinv
    exact hspaces
  have hpop : s.popHost.faithful = true := State.faithful_of_backing hs rfl
  simp only [step] at h
  split at h
  · split at h
    · exact runWord_faithful hwf hs h
    · cases h
      exact s.quiet_faithful.trans hs
  · split at h
    · exact runWord_faithful hwf hs h
    · exact hostStep_faithful hpop h

end

section
/-! SUPPORT. The invariant of every step taken apart: what a space, the slots, the token buffers and the writer have to
be (20_memory R63, 10_state R33, R43, 47_huffman R277, 48_bit_writer R291), and which writes keep it. -/

namespace Sys2Proof.Machine

/-! ### A space within its size (20_memory R63) -/

/-- A space in canonical form in which no element at or above `n` was ever written. -/
structure Mem.Fits {w : Nat} (m : Mem w) (n : Nat) : Prop where
  wf : m.wf = true
  below : m.below n = true

section
variable {w n : Nat} {m : Mem w}

theorem Mem.Fits.put (h : m.Fits n) {base : Nat} {vs : List (BitVec w)} (hvs : base + vs.length ≤ n) :
    (m.put base vs).Fits n := by
  refine ⟨Mem.wf_put base vs h.wf, ?_⟩
  simp only [Mem.below, List.all_eq_true, decide_eq_true_eq]
  intro c hc
  obtain ⟨-, hlt⟩ | hold := mem_putCells hc
  · omega
  · simpa using List.all_eq_true.1 h.below c hold

theorem Mem.Fits.write (h : m.Fits n) {i : Nat} (hi : i < n) (v : BitVec w) : (m.write i v).Fits n :=
  h.put (by simpa using hi)

theorem Mem.fits_redraw (m : Mem w) (n : Nat) : m.redraw.Fits n := ⟨rfl, rfl⟩

end

/-- Every space and every cost within its size. -/
structure Spaces.Fit (c : Caps) (p : Spaces) : Prop where
  pix : p.pix.Fits c.nMax
  hc0 : p.hc0.Fits c.nMax
  hc1 : p.hc1.Fits c.nMax
  tokA : p.tokA.Fits c.tokCap
  tokB : p.tokB.Fits c.tokCap
  cc : p.cc.Fits Config.cacheSlots
  hist : p.hist.Fits (c.hMax * Config.slotStride)
  grpMap : p.grpMap.Fits c.nMax
  htab : p.htab.Fits (c.hMax * Config.slotStride)
  dpCost : p.dpCost.Fits c.nMax
  dpEdge : p.dpEdge.Fits c.nMax
  out : p.out.Fits c.outCap
  bitCost : p.bitCost.Fits c.hMax
  tableCost : p.tableCost.Fits (5 * c.hMax)

theorem Spaces.fit_redraw (c : Caps) (p : Spaces) : p.redraw.Fit c := by
  constructor <;> exact Mem.fits_redraw _ _

/-! ### The slots (47_huffman R277) -/

/-- The listed slots: numbers rising and below `n`, every slot's valid bits in order. -/
structure SlotsFit (n : Nat) (l : List (Nat × Slot)) : Prop where
  rising : risingFrom none l = true
  below : ∀ c ∈ l, c.1 < n
  ordered : ∀ c ∈ l, c.2.ordered = true

theorem mem_values_of_mem_cellsFrom {α : Type} {vs : List α} {base : Nat} {c : Nat × α}
    (h : c ∈ cellsFrom base vs) : c.2 ∈ vs := by
  induction vs generalizing base with
  | nil => simp [cellsFrom] at h
  | cons v vs ih =>
    obtain rfl | h := List.mem_cons.1 h
    · simp
    · exact List.mem_cons_of_mem v (ih h)

/-- The value of a cell of the result is a value written or the value of a cell that was there. -/
theorem value_of_mem_putCells {α : Type} {l : List (Nat × α)} {base : Nat} {vs : List α} {c : Nat × α}
    (h : c ∈ putCells l base vs) : c.2 ∈ vs ∨ c ∈ l := by
  simp only [putCells, List.mem_append, List.mem_filter] at h
  obtain (⟨hold, -⟩ | hnew) | ⟨hold, -⟩ := h
  · exact .inr hold
  · exact .inl (mem_values_of_mem_cellsFrom hnew)
  · exact .inr hold

theorem mem_of_cellAt {α : Type} {l : List (Nat × α)} {i : Nat} {v : α} (h : cellAt l i = some v) :
    (i, v) ∈ l := by
  induction l with
  | nil => cases h
  | cons c l ih =>
    simp only [cellAt] at h
    split at h
    · rename_i hk
      cases h
      simp [← hk]
    · exact List.mem_cons_of_mem c (ih h)

theorem Slot.ordered_iff {v : Slot} :
    v.ordered = true ↔ (v.codeValid = true → v.lenValid = true) ∧ (v.lenValid = true → v.histValid = true) ∧
      (v.costValid = true → v.histValid = true) ∧ v.hbits.toNat ≤ 10 := by
  simp only [Slot.ordered, Bool.and_eq_true, Bool.or_eq_true, Bool.not_eq_true', decide_eq_true_eq, and_assoc,
    ← Bool.not_eq_true, ← imp_iff_not_or]

/-- A width is all that the order asks of a slot without valid bits. -/
theorem Slot.ordered_invalid {v : Slot} (h : v.ordered = true) : v.invalid.ordered = true := by
  obtain ⟨-, -, -, hbits⟩ := Slot.ordered_iff.1 h
  exact Slot.ordered_iff.2 ⟨nofun, nofun, nofun, hbits⟩

section
variable {n : Nat} {l : List (Nat × Slot)}

theorem SlotsFit.nil (n : Nat) : SlotsFit n [] := ⟨rfl, by simp, by simp⟩

theorem SlotsFit.put (h : SlotsFit n l) {base : Nat} {vs : List Slot} (hlen : base + vs.length ≤ n)
    (hvs : ∀ v ∈ vs, v.ordered = true) : SlotsFit n (putCells l base vs) where
  rising := rising_putCells base vs h.rising
  below c hc := by
    obtain ⟨-, hlt⟩ | hold := mem_putCells hc
    · omega
    · exact h.below c hold
  ordered c hc := (value_of_mem_putCells hc).elim (hvs c.2) (h.ordered c)

theorem SlotsFit.invalid (h : SlotsFit n l) : SlotsFit n (invalidSlots l) where
  rising := rising_invalidSlots h.rising
  below c hc := by
    obtain ⟨d, hd, rfl⟩ := List.mem_map.1 hc
    exact h.below d hd
  ordered c hc := by
    obtain ⟨d, hd, rfl⟩ := List.mem_map.1 hc
    exact Slot.ordered_invalid (h.ordered d hd)

/-- Every slot is in order, an unlisted one too. -/
theorem SlotsFit.slot_ordered {s : State} (h : SlotsFit n s.slots) (k : Nat) : (s.slot k).ordered = true := by
  simp only [State.slot]
  cases hk : cellAt s.slots k with
  | none => rfl
  | some v => exact h.ordered (k, v) (mem_of_cellAt hk)

end

/-! ### The invariant but for the life cycle and the error state -/

/-- Lengths and widths of the token buffers and the cache, and the geometry behind a valid bit (10_state R22, R33,
R43): `State.buffersOk`. -/
structure State.BuffersFit (s : State) : Prop where
  curLen : s.bufs.curLen ≤ s.caps.tokCap
  scrLen : s.bufs.scrLen ≤ s.caps.tokCap
  curBits : s.bufs.curBits.toNat ≤ 10
  scrBits : s.bufs.scrBits.toNat ≤ 10
  ccBits : s.ccBits.toNat ≤ 10
  hasCache : s.flags.curHasCache = true → s.bufs.curBits ≠ 0
  cached : s.flags.curValid = true → s.flags.curHasCache = decide (s.bufs.curBits ≠ 0)
  geometry : (s.flags.hc0Valid = true ∨ s.flags.hc1Valid = true ∨ s.flags.curValid = true ∨
    s.flags.scrValid = true) → 0 < s.pixelCount ∧ s.pixelCount ≤ s.caps.nMax

theorem State.buffersOk_iff {s : State} : s.buffersOk = true ↔ s.BuffersFit := by
  simp only [State.buffersOk, Bool.and_eq_true, Bool.or_eq_true, Bool.not_eq_true', Bool.or_eq_false_iff,
    decide_eq_true_eq]
  constructor
  · rintro ⟨⟨⟨⟨h1, h2, h3, h4, h5⟩, h6⟩, h7⟩, h8⟩
    exact ⟨h1, h2, h3, h4, h5, fun h => h6.resolve_left (by simp [h]), fun h => h7.resolve_left (by simp [h]),
      fun h => h8.resolve_left (by rintro ⟨⟨⟨h0, h1⟩, h2⟩, h3⟩; simp [h0, h1, h2, h3] at h)⟩
  · rintro ⟨h1, h2, h3, h4, h5, h6, h7, h8⟩
    refine ⟨⟨⟨⟨h1, h2, h3, h4, h5⟩, ?_⟩, ?_⟩, ?_⟩
    · cases hc : s.flags.curHasCache
      · exact .inl rfl
      · exact .inr (h6 hc)
    · cases hc : s.flags.curValid
      · exact .inl rfl
      · exact .inr (h7 hc)
    · by_cases hv : s.flags.hc0Valid = true ∨ s.flags.hc1Valid = true ∨ s.flags.curValid = true ∨
          s.flags.scrValid = true
      · exact .inr (h8 hv)
      · simp only [not_or, Bool.not_eq_true] at hv
        exact .inl ⟨⟨⟨hv.1, hv.2.1⟩, hv.2.2.1⟩, hv.2.2.2⟩

/-- The positions of the writer (48_bit_writer R291): `State.writerOk`. -/
structure State.WriterFits (s : State) : Prop where
  used : s.writer.used ≤ 31
  pos : s.writer.pos ≤ s.caps.outCap
  aligned : s.flags.bwOpen = true → s.flags.bwErr = true ∨ s.writer.pos % 4 = 0

theorem State.writerOk_iff {s : State} : s.writerOk = true ↔ s.WriterFits := by
  simp only [State.writerOk, Bool.and_eq_true, Bool.or_eq_true, Bool.not_eq_true', decide_eq_true_eq, or_assoc]
  constructor
  · rintro ⟨⟨hused, hpos⟩, halign⟩
    exact ⟨hused, hpos, fun h => halign.resolve_left (by simp [h])⟩
  · rintro ⟨hused, hpos, halign⟩
    exact ⟨⟨hused, hpos⟩, by cases h : s.flags.bwOpen <;> simp_all⟩

/-- The invariant but for the life cycle and the error state. -/
structure State.Stored (s : State) : Prop extends s.BuffersFit, s.WriterFits where
  caps : s.caps.wf = true
  spaces : s.spaces.Fit s.caps
  slots : SlotsFit s.caps.hMax s.slots

/-- `State.inRange`, the canonical form and the order of the slots, space by space. -/
theorem State.stored_memory_iff {s : State} :
    (s.spaces.wf = true ∧ risingFrom none s.slots = true) ∧ s.inRange = true ∧
        s.slots.all (fun c => c.2.ordered) = true ↔
      s.spaces.Fit s.caps ∧ SlotsFit s.caps.hMax s.slots := by
  simp only [Spaces.wf_iff, State.inRange, Bool.and_eq_true, List.all_eq_true, decide_eq_true_eq]
  constructor
  · rintro ⟨⟨hwf, hrising⟩, ⟨hbelow, hslots⟩, hordered⟩
    refine ⟨?_, hrising, hslots, hordered⟩
    constructor <;> constructor <;> simp only [hwf, hbelow]
  · rintro ⟨hp, hl⟩
    have hs := hl.below
    refine ⟨⟨?_, hl.rising⟩, ?_, hl.ordered⟩
    · simp only [hp.pix.wf, hp.hc0.wf, hp.hc1.wf, hp.tokA.wf, hp.tokB.wf, hp.cc.wf, hp.hist.wf, hp.grpMap.wf,
        hp.htab.wf, hp.dpCost.wf, hp.dpEdge.wf, hp.out.wf, hp.bitCost.wf, hp.tableCost.wf, and_self]
    · simpa only [hp.pix.below, hp.hc0.below, hp.hc1.below, hp.tokA.below, hp.tokB.below, hp.cc.below,
        hp.hist.below, hp.grpMap.below, hp.htab.below, hp.dpCost.below, hp.dpEdge.below, hp.out.below,
        hp.bitCost.below, hp.tableCost.below, true_and] using hs

theorem State.invariant_iff {s : State} :
    s.invariant = true ↔ s.Stored ∧ s.lifeOk = true ∧ s.errorOk = true := by
  simp only [State.invariant, Bool.and_eq_true, State.buffersOk_iff, State.writerOk_iff]
  constructor
  · rintro ⟨⟨⟨⟨⟨⟨⟨hcaps, hwf⟩, hrange⟩, hlife⟩, herror⟩, hbuffers⟩, hwriter⟩, hordered⟩
    obtain ⟨hspaces, hslots⟩ := State.stored_memory_iff.1 ⟨hwf, hrange, hordered⟩
    exact ⟨⟨hbuffers, hwriter, hcaps, hspaces, hslots⟩, hlife, herror⟩
  · rintro ⟨⟨hbuffers, hwriter, hcaps, hspaces, hslots⟩, hlife, herror⟩
    obtain ⟨hwf, hrange, hordered⟩ := State.stored_memory_iff.2 ⟨hspaces, hslots⟩
    exact ⟨⟨⟨⟨⟨⟨⟨hcaps, hwf⟩, hrange⟩, hlife⟩, herror⟩, hbuffers⟩, hwriter⟩, hordered⟩

end Sys2Proof.Machine
end

section
/-! SUPPORT. The invariant at the end of every command (49_system R320, R322, R323, 60_exceptions R346), and what the
pseudocode between the start and the end has to keep. -/

namespace Sys2Proof.Machine

/-! ### The life cycle -/

/-- `State.lifeOk` of a state that no command runs in and that no request was sampled or raised for. -/
theorem State.lifeOk_of_idle {t : State} (hbusy : t.flags.busy = false) (hsampled : t.env.abortSampled = false)
    (hlate : t.env.abortLate = false) (hcode : t.flags.errCode.toNat ≤ 4)
    (hdone : t.flags.done = true → t.flags.errCode = 0 ∧ t.regs.errInfo = 0) : t.lifeOk = true := by
  simp only [State.lifeOk, hbusy, hsampled, hlate, hcode]
  cases hd : t.flags.done
  · rfl
  · simp [hdone hd]

theorem State.endOk_lifeOk (s : State) : s.endOk.lifeOk = true :=
  State.lifeOk_of_idle rfl rfl rfl (Nat.zero_le 4) (fun _ => ⟨rfl, rfl⟩)

theorem State.raise_lifeOk (s : State) (op : BitVec 8) (o : ErrorOutcome) (info : Nat) :
    (s.raise op o info).lifeOk = true :=
  State.lifeOk_of_idle rfl rfl rfl (by cases o <;> simp [ErrorOutcome.code]) nofun

theorem State.softReset_lifeOk (s : State) : s.softReset.lifeOk = true :=
  State.lifeOk_of_idle rfl rfl rfl (Nat.zero_le 4) (fun _ => ⟨rfl, rfl⟩)

/-! ### The error state -/

theorem all_invalid_invalidSlots (l : List (Nat × Slot)) :
    (invalidSlots l).all (fun c => decide (c.2.invalid = c.2)) = true := by
  simp [invalidSlots, Slot.invalid]

/-- Nothing is left of the attempt in the error state, and each slot is invalid already (60_exceptions R346). -/
theorem State.raise_errorOk (s : State) (op : BitVec 8) (o : ErrorOutcome) (info : Nat) :
    (s.raise op o info).errorOk = true := by
  have hslots := all_invalid_invalidSlots s.slots
  simp [State.errorOk, hslots]

theorem State.errorOk_of_calm {t : State} (herror : t.flags.error = false) (hop : t.flags.errOp = 0) :
    t.errorOk = true := by
  simp [State.errorOk, herror, hop]

/-! ### What the ends of a command keep -/

section
variable {s : State}

theorem State.Stored.endOk (h : s.Stored) : s.endOk.Stored := { h with }

theorem State.Stored.discardAttempt (h : s.Stored) : s.discardAttempt.Stored :=
  { h with
    curLen := Nat.zero_le _, scrLen := Nat.zero_le _, curBits := Nat.zero_le _, scrBits := Nat.zero_le _
    ccBits := Nat.zero_le _, hasCache := nofun, cached := nofun, aligned := nofun, slots := h.slots.invalid
    geometry := fun hv => h.geometry (hv.imp id (by simp)) }

theorem State.Stored.raise (h : s.Stored) (op : BitVec 8) (o : ErrorOutcome) (info : Nat) :
    (s.raise op o info).Stored :=
  { h.discardAttempt with
    geometry := fun hv => h.geometry (.inl (by
      simp only [State.raise_flags] at hv
      split at hv <;> simp_all)) }

theorem State.Stored.beginAttempt (h : s.Stored) : s.beginAttempt.Stored :=
  { h.discardAttempt with used := Nat.zero_le _, pos := Nat.zero_le _, aligned := nofun }

theorem State.Stored.softReset (h : s.Stored) : s.softReset.Stored :=
  { h with
    curLen := Nat.zero_le _, scrLen := Nat.zero_le _, curBits := Nat.zero_le _, scrBits := Nat.zero_le _
    ccBits := Nat.zero_le _, hasCache := nofun, cached := nofun, aligned := nofun, slots := .nil _
    geometry := by simp [Flags.reset], used := Nat.zero_le _, pos := Nat.zero_le _ }

theorem State.Stored.raise_invariant (h : s.Stored) (op : BitVec 8) (o : ErrorOutcome) (info : Nat) :
    (s.raise op o info).invariant = true :=
  State.invariant_iff.2 ⟨h.raise op o info, s.raise_lifeOk op o info, s.raise_errorOk op o info⟩

/-- What holds while the pseudocode of a command works: the invariant but for the life cycle, outside the error
state (60_exceptions R348). -/
structure State.Working (s : State) : Prop extends s.Stored where
  error : s.flags.error = false
  errOp : s.flags.errOp = 0

theorem State.Working.endOk_invariant (h : s.Working) : s.endOk.invariant = true :=
  State.invariant_iff.2 ⟨h.toStored.endOk, s.endOk_lifeOk, State.errorOk_of_calm h.error h.errOp⟩

theorem State.working_of_accepts (h : s.invariant = true) (ha : s.accepts = true) : s.Working := by
  obtain ⟨hstored, -, herr⟩ := State.invariant_iff.1 h
  obtain ⟨herror, -⟩ := State.accepts_iff.1 ha
  exact { hstored with error := herror, errOp := by simpa [State.errorOk, herror] using herr }

/-- A command keeps the invariant if its pseudocode, begun after the checks, ends with it, with or without a raise. -/
theorem runCommand_invariant {o : Opcode} {legal : Bool} {checks : List (Nat × Bool)} {cap : Option Nat}
    {body : State → BodyEnd} {t : State} (hs : s.invariant = true)
    (hbody : s.Working → legal = true → (∀ c ∈ checks, c.2 = false) → cap = none → (body s).state.Working)
    (h : runCommand o legal checks cap body s = .next t) : t.invariant = true := by
  obtain ⟨e, info, rfl, -⟩ | ⟨hlegal, ha, hchecks, hcap, hend⟩ := runCommand_cases h
  · exact (State.invariant_iff.1 hs).1.raise_invariant ..
  · have hu := hbody (State.working_of_accepts hs ha) hlegal (firstFailing_none.1 hchecks) hcap
    obtain ⟨u, hbu, rfl⟩ | ⟨e, info, u, hbu, rfl⟩ := hend <;> rw [hbu] at hu
    · exact hu.endOk_invariant
    · exact hu.toStored.raise_invariant ..

end

end Sys2Proof.Machine
end

section
/-! SUPPORT. The shared writes of the pseudocode keep the invariant: token buffers, cache, histogram and code slots
(20_memory R63). -/

namespace Sys2Proof.Machine

/-! ### The room of a table in a slot (10_state R36) -/

/-- The elements a slot reserves for a table. -/
def Table.room : Table → Nat
  | .combined => Config.combinedRoom
  | .red | .blue | .alpha => 256
  | .distance => 40

/-- A table at a width of at most 10 fits its room. -/
theorem Table.size_le_room (t : Table) {bits : Nat} (hb : bits ≤ 10) : t.size bits ≤ t.room := by
  have hpow : 2 ^ bits ≤ 2 ^ 10 := Nat.pow_le_pow_right (by decide) hb
  cases t
  case combined =>
    simp only [Table.size, Table.room, cacheSize, Config.combinedRoom]
    split <;> omega
  all_goals exact le_rfl

/-- A table lies within the part of a slot that is in use. -/
theorem Table.base_add_size_le (t : Table) {bits : Nat} (hb : bits ≤ 10) :
    t.base + t.size bits ≤ Config.slotStride := by
  have hroom := t.size_le_room hb
  cases t <;> simp only [Table.room, Table.base, Config.combinedRoom, Config.slotStride] at * <;> omega

/-- Five tables padded to their rooms, and the unused end, make a whole slot (10_state R36). -/
theorem length_slotLayout {α : Type} (z : α) {p : PerTable (List α)} (hp : ∀ t, (p.get t).length ≤ t.room) :
    (p.get .combined ++ List.replicate (Config.combinedRoom - (p.get .combined).length) z ++
      (p.get .red ++ List.replicate (256 - (p.get .red).length) z) ++
      (p.get .blue ++ List.replicate (256 - (p.get .blue).length) z) ++
      (p.get .alpha ++ List.replicate (256 - (p.get .alpha).length) z) ++
      (p.get .distance ++ List.replicate (40 - (p.get .distance).length) z) ++
      List.replicate (Config.slotStride - Config.slotUsed) z).length = Config.slotStride := by
  have hc := hp .combined
  have hr := hp .red
  have hb := hp .blue
  have ha := hp .alpha
  have hd := hp .distance
  simp only [Table.room] at hc hr hb ha hd
  simp only [List.length_append, List.length_replicate, Config.slotStride, Config.slotUsed,
    Config.combinedRoom] at hc ⊢
  omega

@[simp] theorem PerTable.get_ofFn {α : Type} (f : Table → α) (t : Table) : (PerTable.ofFn f).get t = f t := by
  cases t <;> rfl

theorem PerTable.get_set {α : Type} (p : PerTable α) (t u : Table) (v : α) :
    (p.set t v).get u = if u = t then v else p.get u := by
  cases t <;> cases u <;> rfl

/-! ### Histogram values that fit a slot -/

/-- A width of at most 10, and tables no larger than it gives them. -/
structure Histo.Fits (h : Histo) : Prop where
  bits : h.bits ≤ 10
  counts : ∀ t, (h.counts.get t).length ≤ t.size h.bits

theorem Histo.fits_zero {bits : Nat} (hb : bits ≤ 10) : (histoZero bits).Fits :=
  ⟨hb, fun t => by simp [histoZero]⟩

theorem Histo.Fits.bump {h : Histo} (hh : h.Fits) (t : Table) (sym : Nat) : (h.bump t sym).Fits := by
  refine ⟨hh.bits, fun u => ?_⟩
  simp only [Histo.bump, PerTable.get_set]
  split
  · rename_i hu
    subst hu
    simpa using hh.counts u
  · exact hh.counts u

theorem Histo.Fits.sum {x : Histo} (hx : x.Fits) (y : Histo) : (x.sum y).Fits := by
  refine ⟨hx.bits, fun t => ?_⟩
  have ht := hx.counts t
  simp only [Histo.sum, PerTable.get_ofFn, List.length_zipWith]
  omega

theorem Histo.Fits.foldl_sum {x : Histo} (hx : x.Fits) (ys : List Histo) : (ys.foldl Histo.sum x).Fits := by
  induction ys generalizing x with
  | nil => exact hx
  | cons y ys ih => exact ih (hx.sum y)

theorem Histo.Fits.addToken {f : Fns} {xs : Nat} {h h' : Histo} {t : Token} (hh : h.Fits)
    (ht : addToken f xs h t = .ok h') : h'.Fits := by
  cases t with
  | literal p =>
    cases ht
    exact (((hh.bump _ _).bump _ _).bump _ _).bump _ _
  | cacheRef k =>
    simp only [Machine.addToken] at ht
    split at ht <;> cases ht
    exact hh.bump _ _
  | copy d l =>
    cases ht
    exact (hh.bump _ _).bump _ _

/-- A value that fits takes a whole slot (10_state R36). -/
theorem Histo.Fits.length_elements {h : Histo} (hh : h.Fits) : h.elements.length = Config.slotStride :=
  length_slotLayout 0 (fun t => (hh.counts t).trans (t.size_le_room hh.bits))

/-- The elements of code tables that fit a slot take a whole slot (47_huffman R265). -/
theorem length_slotElements {p : PerTable (List Word)} {bits : Nat} (hb : bits ≤ 10)
    (hp : ∀ t, (p.get t).length ≤ t.size bits) : (slotElements p).length = Config.slotStride :=
  length_slotLayout 0 (fun t => (hp t).trans (t.size_le_room hb))

/-! ### Writes while the pseudocode works -/

section
variable {s : State}

theorem State.Working.withSpaces (h : s.Working) {p : Spaces} (hp : p.Fit s.caps) :
    State.Working { s with spaces := p } := { h with spaces := hp }

theorem State.Working.withHist (h : s.Working) {m : Mem 32} (hm : m.Fits (s.caps.hMax * Config.slotStride)) :
    State.Working { s with spaces := { s.spaces with hist := m } } := h.withSpaces { h.spaces with hist := hm }

theorem State.Working.withHtab (h : s.Working) {m : Mem 32} (hm : m.Fits (s.caps.hMax * Config.slotStride)) :
    State.Working { s with spaces := { s.spaces with htab := m } } := h.withSpaces { h.spaces with htab := hm }

theorem State.Working.setSlots (h : s.Working) {base : Nat} {vs : List Slot} (hlen : base + vs.length ≤ s.caps.hMax)
    (hvs : ∀ v ∈ vs, v.ordered = true) : (s.setSlots base vs).Working := { h with slots := h.slots.put hlen hvs }

theorem State.Working.setSlot (h : s.Working) {k : Nat} (hk : k < s.caps.hMax) {v : Slot}
    (hv : v.ordered = true) : (s.setSlot k v).Working :=
  h.setSlots (vs := [v]) hk (by simpa using hv)

theorem State.Working.putTokens (h : s.Working) (b : Bool) {ts : List Token} (hts : ts.length ≤ s.caps.tokCap) :
    (s.putTokens b ts).Working := by
  have hlen : 0 + (ts.map Token.record).length ≤ s.caps.tokCap := by simpa using hts
  cases b
  · exact h.withSpaces { h.spaces with tokA := h.spaces.tokA.put hlen }
  · exact h.withSpaces { h.spaces with tokB := h.spaces.tokB.put hlen }

theorem State.Working.redrawBuffer (h : s.Working) (b : Bool) : (s.redrawBuffer b).Working := by
  cases b
  · exact h.withSpaces { h.spaces with tokA := Mem.fits_redraw _ _ }
  · exact h.withSpaces { h.spaces with tokB := Mem.fits_redraw _ _ }

theorem State.Working.putCache (h : s.Working) {b : Nat} (hb : b ≤ 10) {c : CacheSlots} (hc : c.length = 2 ^ b) :
    (s.putCache b c).Working := by
  have hpow : 2 ^ b ≤ 2 ^ 10 := Nat.pow_le_pow_right (by decide) hb
  exact { h with
    ccBits := (toNat_ofNat_width hb).le.trans hb
    spaces := { h.spaces with cc := h.spaces.cc.put (by simpa [hc, Config.cacheSlots] using hpow) } }

theorem length_flatMap_elements {hs : List Histo} (hfit : ∀ v ∈ hs, v.Fits) :
    (hs.flatMap (fun v => v.elements.map (BitVec.ofNat 32))).length = hs.length * Config.slotStride := by
  rw [List.length_flatMap, List.map_congr_left (g := fun _ => Config.slotStride)
    (fun v hv => by rw [List.length_map, (hfit v hv).length_elements])]
  simp

theorem State.Working.putHistos (h : s.Working) {base : Nat} {hs : List Histo}
    (hlen : base + hs.length ≤ s.caps.hMax) (hfit : ∀ v ∈ hs, v.Fits) : (s.putHistos base hs).Working := by
  have hslots : ∀ v ∈ hs.zipIdx.map (fun c => (s.slot (base + c.2)).counted c.1), v.ordered = true := by
    intro v hv
    obtain ⟨⟨x, k⟩, hc, rfl⟩ := List.mem_map.1 hv
    have hbits := (hfit x (List.fst_mem_of_mem_zipIdx hc)).bits
    exact Slot.ordered_iff.2 ⟨nofun, nofun, nofun, (toNat_ofNat_width hbits).le.trans hbits⟩
  refine (h.setSlots (by simpa using hlen) hslots).withHist (h.spaces.hist.put ?_)
  rw [length_flatMap_elements hfit, ← Nat.add_mul]
  exact Nat.mul_le_mul_right _ hlen

theorem slot_range_le {k n m : Nat} (hk : k < n) (hm : m ≤ Config.slotStride) :
    k * Config.slotStride + m ≤ n * Config.slotStride := by
  have hmul := Nat.mul_le_mul_right Config.slotStride (Nat.succ_le_of_lt hk)
  rw [Nat.succ_mul] at hmul
  omega

theorem State.Working.putCodes (h : s.Working) {k : Nat} (hk : k < s.caps.hMax) {p : PerTable (List Word)}
    (hp : (slotElements p).length = Config.slotStride) : (s.putCodes k p).Working :=
  h.withHtab (h.spaces.htab.put (slot_range_le hk hp.le))

/-! ### Reading tables of slots -/

theorem State.Working.hbits_le (h : s.Working) (k : Nat) : (s.slot k).hbits.toNat ≤ 10 := by
  obtain ⟨-, -, -, hbits⟩ := Slot.ordered_iff.1 (h.slots.slot_ordered k)
  exact hbits

theorem State.Working.length_histTable (h : s.Working) (k : Nat) (t : Table) :
    (s.histTable k t).length = t.size (s.slot k).hbits.toNat := by
  rw [State.histTable, List.length_map, Mem.length_run _ _ _ h.spaces.hist.wf]

theorem State.Working.length_histRaw (h : s.Working) (k : Nat) : (s.histRaw k).length = Config.slotUsed := by
  rw [State.histRaw, List.length_map, Mem.length_run _ _ _ h.spaces.hist.wf]

theorem State.Working.length_codeTable (h : s.Working) (k : Nat) (t : Table) :
    (s.codeTable k t).length = t.size (s.slot k).hbits.toNat :=
  Mem.length_run _ _ _ h.spaces.htab.wf

end

end Sys2Proof.Machine
end

section
/-! SUPPORT. The pseudocode of the commands on the image and the token buffers keeps the invariant (41_hash_chain,
42_backward_refs, 43_color_cache, 44_optimal_parse). -/

namespace Sys2Proof.Machine

section
variable {s : State}

/-! ### What the checks and the capacity test promise -/

theorem State.pixelCount_pos_of_zeroDims (h : s.zeroDims = false) : 0 < s.pixelCount := by
  obtain ⟨hxs, hys⟩ := State.one_le_of_zeroDims h
  exact Nat.mul_pos hxs hys

theorem State.pixelCount_le_of_overImage {space : Nat} (h : s.overImage space = none) :
    s.pixelCount ≤ s.caps.nMax := by
  simpa [State.overImage] using h

/-! ### Hash chains (41_hash_chain R131, 42_backward_refs R160) -/

theorem hcBuildBody_working (h : s.Working) (hpos : 0 < s.pixelCount) (hcap : s.pixelCount ≤ s.caps.nMax) :
    (hcBuildBody s).state.Working := by
  have hlen : 0 + (packEntries s.hcTable).length ≤ s.caps.nMax := by
    simpa [packEntries, State.length_hcTable] using hcap
  exact { h with spaces := { h.spaces with hc0 := h.spaces.hc0.put hlen }, geometry := fun _ => ⟨hpos, hcap⟩ }

theorem hcBoxBody_working (h : s.Working) (hpos : 0 < s.pixelCount) (hcap : s.pixelCount ≤ s.caps.nMax) :
    (hcBoxBody s).state.Working := by
  have hlen : 0 + (packEntries s.boxTable).length ≤ s.caps.nMax := by
    simpa [packEntries, State.length_boxTable] using hcap
  exact { h with spaces := { h.spaces with hc1 := h.spaces.hc1.put hlen }, geometry := fun _ => ⟨hpos, hcap⟩ }

/-! ### Builders (42_backward_refs R150, R153) -/

/-- Storing tokens leaves the geometry. -/
theorem State.geometry_putTokens (hpos : 0 < s.pixelCount) (hcap : s.pixelCount ≤ s.caps.nMax) (b : Bool)
    (ts : List Token) :
    0 < (s.putTokens b ts).pixelCount ∧ (s.putTokens b ts).pixelCount ≤ (s.putTokens b ts).caps.nMax := by
  rw [State.pixelCount_congr (State.image_putTokens s b ts), State.putTokens_caps]
  exact ⟨hpos, hcap⟩

theorem State.endBuilder_working (h : s.Working) (hpos : 0 < s.pixelCount) (hcap : s.pixelCount ≤ s.caps.nMax)
    (ts : List Token) : (s.endBuilder ts).state.Working := by
  simp only [State.endBuilder]
  split
  · exact h.redrawBuffer _
  · rename_i hfits
    have hts : ts.length ≤ s.caps.tokCap := Nat.not_lt.1 hfits
    have hput := h.putTokens s.bufs.sel hts
    exact { hput with
      curLen := hts.trans_eq (congrArg Caps.tokCap (State.putTokens_caps ..).symm)
      curBits := Nat.zero_le _, hasCache := nofun, cached := fun _ => rfl
      geometry := fun _ => State.geometry_putTokens hpos hcap s.bufs.sel ts }

theorem brGreedyBody_working (h : s.Working) (hpos : 0 < s.pixelCount) (sel : TableSel) :
    (brGreedyBody sel s).state.Working := by
  simp only [brGreedyBody]
  split
  · exact h.redrawBuffer _
  · rename_i hin
    exact State.endBuilder_working h hpos (by simpa [State.outsideImage] using hin) _

/-! ### The cache (42_backward_refs R165, 43_color_cache R182) -/

theorem length_cacheInit (b : Nat) : (cacheInit b).length = 2 ^ b := List.length_replicate

@[simp] theorem length_cacheInsert (f : Fns) (b : Nat) (c : CacheSlots) (p : Pixel) :
    (cacheInsert f b c p).length = c.length := List.length_set

@[simp] theorem length_cacheInsertRun (f : Fns) (b : Nat) (px : Nat → Pixel) (c : CacheSlots) (pos l : Nat) :
    (cacheInsertRun f b px c pos l).length = c.length := by
  induction l generalizing c pos with
  | zero => rfl
  | succ l ih => rw [cacheInsertRun, ih, length_cacheInsert]

/-- A replay keeps the size of the cache. -/
theorem length_cache_of_cacheReplay {f : Fns} {b : Nat} {px : Nat → Pixel} {ts : List Token} {k p : Nat}
    {c : CacheSlots} {r : ReplayEnd} (h : cacheReplay f b px k c p ts = .ok r) : r.cache.length = c.length := by
  induction ts generalizing k p c r with
  | nil =>
    cases h
    rfl
  | cons t ts ih =>
    cases t <;> simp only [cacheReplay] at h
    case literal v =>
      split at h <;> obtain ⟨r', hr', rfl⟩ := ReplayEnd.of_map_push h <;> simp [ReplayEnd.push, ih hr']
    case copy d l =>
      obtain ⟨r', hr', rfl⟩ := ReplayEnd.of_map_push h
      simp [ReplayEnd.push, ih hr']
    case cacheRef idx => cases h

theorem State.failReplay_working (h : s.Working) (info : Nat) : (s.failReplay info).state.Working :=
  (h.redrawBuffer _).withSpaces { (h.redrawBuffer _).spaces with cc := Mem.fits_redraw _ _ }

theorem State.Working.length_curTokens (h : s.Working) {ts : List Token} (hts : s.curTokens = .ok ts) :
    ts.length = s.bufs.curLen := by
  rw [length_of_tokensOf hts, State.length_bufferRun h.spaces.tokA.wf h.spaces.tokB.wf]

theorem ofNat_width_ne_zero {b : Nat} (hb : b ≤ 10) (h0 : b ≠ 0) : BitVec.ofNat 4 b ≠ 0 := by
  intro h
  have hnat := congrArg BitVec.toNat h
  rw [toNat_ofNat_width hb] at hnat
  exact h0 hnat

theorem cacheApplyBody_working (h : s.Working) (hb : s.regs.cacheBits.toNat ≤ 10) :
    (cacheApplyBody s).state.Working := by
  simp only [cacheApplyBody]
  split
  · exact h
  rename_i hb0
  split
  · exact State.failReplay_working h _
  split
  · exact State.failReplay_working h _
  rename_i ts hts
  split
  · exact State.failReplay_working h _
  rename_i r hr
  split
  · exact State.failReplay_working h _
  · have hlen : r.tokens.length ≤ s.caps.tokCap := by
      rw [length_cacheReplay hr, h.length_curTokens hts]
      exact h.curLen
    have hsize : r.cache.length = 2 ^ s.regs.cacheBits.toNat := by
      rw [length_cache_of_cacheReplay hr, length_cacheInit]
    have hnonzero := ofNat_width_ne_zero hb hb0
    have hput := (h.putTokens s.bufs.sel hlen).putCache hb hsize
    exact { hput with
      curBits := (toNat_ofNat_width hb).le.trans hb
      hasCache := fun _ => hnonzero
      cached := fun _ => (decide_eq_true hnonzero).symm }

theorem ccInitBody_working (h : s.Working) {b : Nat} (hb : b ≤ 10) : (ccInitBody b s).state.Working := by
  simp only [ccInitBody]
  split
  · exact { h with ccBits := Nat.zero_le _ }
  · exact h.putCache hb (length_cacheInit b)

theorem ccInsertBody_working (h : s.Working) : (ccInsertBody s).state.Working := by
  have hpow : 2 ^ s.ccBits.toNat ≤ 2 ^ 10 := Nat.pow_le_pow_right (by decide) h.ccBits
  have hk := (ccIndex_lt s.fns s.regs.arg0 (h.ccBits.trans (by decide))).trans_le hpow
  exact h.withSpaces { h.spaces with cc := h.spaces.cc.write hk _ }

theorem cacheSearchBody_working (h : s.Working) : (cacheSearchBody s).state.Working := by
  simp only [cacheSearchBody]
  split
  · exact h
  split
  · exact h
  split
  · exact h
  · exact { h with }

/-! ### Swap and solver (42_backward_refs R170, 44_optimal_parse R201) -/

theorem State.swapBuffers_working (h : s.Working) : s.swapBuffers.Working :=
  { h with
    curLen := h.scrLen, scrLen := h.curLen, curBits := h.scrBits, scrBits := h.curBits
    hasCache := of_decide_eq_true, cached := fun _ => rfl
    geometry := fun hv => h.geometry (hv.imp id (Or.imp id Or.symm)) }

theorem length_relaxCopies (start : Cost) (lenCost : Nat → Cost) (l k : Nat) (cells : List DpCell) :
    (relaxCopies start lenCost l k cells).length = cells.length := by
  induction cells generalizing k with
  | nil => rfl
  | cons c cells ih =>
    simp only [relaxCopies]
    split
    · simp [ih]
    · rfl

theorem length_dpForward (d : DpInput) (fuel i : Nat) (before : Cost) (cache : CacheSlots) (cells : List DpCell) :
    (dpForward d fuel i before cache cells).length = cells.length := by
  induction fuel generalizing i before cache cells with
  | zero => rfl
  | succ fuel ih =>
    cases cells with
    | nil => rfl
    | cons cell rest =>
      simp only [dpForward, List.length_cons, ih]
      split
      · rw [length_relaxCopies]
      · rfl

theorem length_stepCache (f : Fns) (b : Nat) (c : CacheSlots) (p : Pixel) :
    (stepCache f b c p).2.length = c.length := by
  simp only [stepCache]
  split
  · rfl
  split
  · rfl
  · exact length_cacheInsert ..

theorem length_cache_dpReplay (d : DpInput) (i : Nat) (cache : CacheSlots) (path : List Nat) :
    (dpReplay d i cache path).cache.length = cache.length := by
  induction path generalizing i cache with
  | nil => rfl
  | cons k path ih =>
    simp only [dpReplay]
    split
    · simp only [ReplayEnd.push, ih, length_stepCache]
    · simp only [ReplayEnd.push, ih]
      split
      · rfl
      · exact length_cacheInsertRun ..

theorem State.failSolve_working (h : s.Working) (o : ErrorOutcome) (info : Nat) :
    (s.failSolve o info).state.Working :=
  h.withSpaces { h.spaces with
    tokA := Mem.fits_redraw _ _, tokB := Mem.fits_redraw _ _, cc := Mem.fits_redraw _ _
    dpCost := Mem.fits_redraw _ _, dpEdge := Mem.fits_redraw _ _ }

/-- The cache of the replay is stored when there is one. -/
theorem State.Working.putCache_if (h : s.Working) {b : Nat} (hb : b ≤ 10) {c : CacheSlots} (hc : c.length = 2 ^ b) :
    (if b = 0 then s else s.putCache b c).Working := by
  split
  · exact h
  · exact h.putCache hb hc

theorem State.putSolution_working (h : s.Working) (hpos : 0 < s.pixelCount) (hcap : s.pixelCount ≤ s.caps.nMax)
    (hb : s.regs.cacheBits.toNat ≤ 10) {cells : List DpCell} (hcells : cells.length = s.pixelCount)
    {r : ReplayEnd} (hr : r.tokens.length ≤ s.caps.tokCap) (hsize : r.cache.length = 2 ^ s.regs.cacheBits.toNat) :
    (s.putSolution cells r).Working := by
  have hput := h.putTokens (!s.bufs.sel) hr
  obtain ⟨-, hin⟩ := State.geometry_putTokens hpos hcap (!s.bufs.sel) r.tokens
  have hlen : 0 + cells.length ≤ (s.putTokens (!s.bufs.sel) r.tokens).caps.nMax := by
    rw [State.putTokens_caps]
    omega
  refine State.Working.putCache_if ?_ hb hsize
  exact { hput with
    scrLen := hr.trans_eq (congrArg Caps.tokCap (State.putTokens_caps ..).symm)
    scrBits := (toNat_ofNat_width hb).le.trans hb
    spaces := { hput.spaces with
      dpCost := hput.spaces.dpCost.put (by simpa using hlen)
      dpEdge := hput.spaces.dpEdge.put (by simpa using hlen) }
    geometry := fun _ => State.geometry_putTokens hpos hcap (!s.bufs.sel) r.tokens }

theorem State.keepBetter_working (h : s.Working) (new old : Cost) : (s.keepBetter new old).Working := by
  simp only [State.keepBetter]
  split
  · exact { State.swapBuffers_working h with }
  · exact { h with }

theorem dpSolveBody_working (h : s.Working) (hpos : 0 < s.pixelCount) (hcap : s.pixelCount ≤ s.caps.nMax)
    (hb : s.regs.cacheBits.toNat ≤ 10) (sel : TableSel) : (dpSolveBody sel s).state.Working := by
  simp only [dpSolveBody]
  split
  · exact State.failSolve_working h ..
  split
  · exact State.failSolve_working h ..
  split
  · exact State.failSolve_working h ..
  split
  · exact State.failSolve_working h ..
  rename_i hfits
  split
  · exact State.failSolve_working h ..
  split
  · exact State.failSolve_working h ..
  · refine State.keepBetter_working (State.putSolution_working h hpos hcap hb ?_ (Nat.not_lt.1 hfits) ?_) _ _
    · rw [length_dpForward, List.length_replicate]
    · rw [length_cache_dpReplay, length_cacheInit]

end

end Sys2Proof.Machine
end

section
/-! SUPPORT. The pseudocode of the commands on the slots keeps the invariant (45_histogram, 46_clustering,
47_huffman). -/

namespace Sys2Proof.Machine

section
variable {s : State}

/-! ### Histograms (45_histogram) -/

theorem State.failHist_working (h : s.Working) (info : Nat) : (s.failHist info).state.Working :=
  h.withSpaces { h.spaces with hist := Mem.fits_redraw _ _ }

theorem histClearBody_working (h : s.Working) {k : Nat} (hk : k < s.caps.hMax)
    (hb : s.regs.cacheBits.toNat ≤ 10) : (histClearBody k s).state.Working :=
  h.putHistos (hs := [histoZero s.regs.cacheBits.toNat]) hk (by simpa using Histo.fits_zero hb)

/-- Counting keeps the number of values, and each fits its slot. -/
theorem countTokens_fits {f : Fns} {xs : Nat} {slotOf : Nat → Nat} {ts : List Token} {hs hs' : List Histo}
    {pos : Nat} (hfit : ∀ v ∈ hs, v.Fits) (h : countTokens f xs slotOf hs pos ts = .ok hs') :
    hs'.length = hs.length ∧ ∀ v ∈ hs', v.Fits := by
  induction ts generalizing hs pos with
  | nil =>
    cases h
    exact ⟨rfl, hfit⟩
  | cons t ts ih =>
    simp only [countTokens] at h
    split at h
    · cases h
    rename_i v hv
    split at h
    · cases h
    rename_i v' hv'
    have hnew : v'.Fits := (hfit v (List.mem_of_getElem? hv)).addToken hv'
    obtain ⟨hlen, hall⟩ := ih (fun x hx => (List.mem_or_eq_of_mem_set hx).elim (hfit x) (· ▸ hnew)) h
    exact ⟨by simpa using hlen, hall⟩

theorem histBuildBody_working (h : s.Working) {mode : SlotMode} {base : Nat}
    (hcap : base + s.slotCount mode ≤ s.caps.hMax) : (histBuildBody mode base s).state.Working := by
  simp only [histBuildBody]
  split
  · exact State.failHist_working h _
  split
  · exact State.failHist_working h _
  rename_i hs hcount
  split
  · exact State.failHist_working h _
  · have hzero : ∀ v ∈ List.replicate (s.slotCount mode) (histoZero s.bufs.curBits.toNat), v.Fits := fun v hv =>
      List.eq_of_mem_replicate hv ▸ Histo.fits_zero h.curBits
    obtain ⟨hlen, hfit⟩ := countTokens_fits hzero hcount
    exact h.putHistos (by simpa [hlen] using hcap) hfit

theorem histAddBody_working (h : s.Working) {dst src : Nat} (hdst : dst < s.caps.hMax) :
    (histAddBody dst src s).state.Working := by
  simp only [histAddBody]
  split
  · exact State.failHist_working h _
  · have hsums : (List.zipWith (· + ·) (s.histRaw dst) (s.histRaw src)).length ≤ Config.slotStride := by
      rw [List.length_zipWith, h.length_histRaw, h.length_histRaw]
      decide
    refine (h.withHist (h.spaces.hist.put (slot_range_le hdst ?_))).setSlot hdst ?_
    · rwa [List.length_map]
    · exact Slot.ordered_iff.2 ⟨nofun, nofun, nofun, h.hbits_le dst⟩

theorem histEstBody_working (h : s.Working) {k : Nat} (hk : k < s.caps.hMax)
    (hvalid : (s.slot k).histValid = true) : (histEstBody k s).state.Working := by
  obtain ⟨hcode, hlen, -, hbits⟩ := Slot.ordered_iff.1 (h.slots.slot_ordered k)
  have hslot := h.setSlot hk (v := { s.slot k with costValid := true })
    (Slot.ordered_iff.2 ⟨hcode, hlen, fun _ => hvalid, hbits⟩)
  have htables : 5 * k + 5 ≤ 5 * s.caps.hMax := by omega
  exact { hslot with
    spaces := { hslot.spaces with
      bitCost := hslot.spaces.bitCost.write hk _
      tableCost := hslot.spaces.tableCost.put htables } }

/-! ### Clustering (46_clustering R251, R252) -/

theorem length_remapTiles (f : Fns) (cs : List Centroid) (tiles : List Histo) :
    (remapTiles f cs tiles).length = tiles.length := by
  cases cs <;> simp [remapTiles]

/-- No more groups than tiles, and a group for each tile (46_clustering R252). -/
theorem clusterChoice_bounds (f : Fns) (tiles : List Histo) :
    (clusterChoice f tiles).1 ≤ tiles.length ∧ (clusterChoice f tiles).2.length = tiles.length := by
  have hdefault : (clusterDefault f tiles).1 ≤ tiles.length ∧ (clusterDefault f tiles).2.length = tiles.length := by
    simp only [clusterDefault, List.length_map, length_remapTiles, and_true]
    exact (List.length_filter_le _ _).trans_eq List.length_range
  simp only [clusterChoice]
  split
  · exact hdefault
  split
  · rename_i hcontract
    simp only [clusterContract, Bool.and_eq_true, decide_eq_true_eq] at hcontract
    obtain ⟨⟨⟨-, hle, hlen⟩, -⟩, -⟩ := hcontract
    exact ⟨hle, hlen⟩
  · exact hdefault

theorem State.failCluster_working (h : s.Working) (info : Nat) : (s.failCluster info).state.Working :=
  h.withSpaces { h.spaces with hist := Mem.fits_redraw _ _, grpMap := Mem.fits_redraw _ _ }

theorem clusterBody_working (h : s.Working) {first group : Nat} (hcap : group + s.tileCount ≤ s.caps.hMax) :
    (clusterBody first group s).state.Working := by
  simp only [clusterBody]
  split
  · exact State.failCluster_working h _
  rename_i hmap
  split
  · exact State.failCluster_working h _
  rename_i hs hgroups
  obtain ⟨hcount, hlen⟩ := clusterChoice_bounds s.fns ((List.range s.tileCount).map (fun g => s.histo (first + g)))
  simp only [List.length_map, List.length_range] at hcount hlen
  have hs' := groupHistos_ok hgroups
  have hput : (s.putHistos group hs).Working := by
    refine h.putHistos ?_ (fun v hv => ?_)
    · simp only [hs', List.length_map, List.length_range]
      omega
    · rw [hs'] at hv
      obtain ⟨k, -, rfl⟩ := List.mem_map.1 hv
      exact (Histo.fits_zero (h.hbits_le first)).foldl_sum _
  exact { hput with
    spaces := { hput.spaces with
      grpMap := hput.spaces.grpMap.put (by simpa [hlen] using hmap) } }

/-! ### Code lengths and codes (47_huffman R266, R274) -/

theorem length_codeLengths (c : List Nat) (limit : Nat) : (codeLengths c limit).1.length = c.length := by
  simp only [codeLengths]
  split <;> simp

theorem length_rleSmooth (f : Fns) (c : List Nat) : (rleSmooth f c).length = c.length := by
  simp only [rleSmooth]
  split <;> simp

theorem State.Working.length_tableLengths (h : s.Working) (k : Nat) (t : Table) :
    (s.tableLengths k t).1.length = t.size (s.slot k).hbits.toNat := by
  simp only [State.tableLengths, length_codeLengths]
  split
  · rw [length_rleSmooth, h.length_histTable]
  · exact h.length_histTable k t

theorem huffLenBody_working (h : s.Working) {k : Nat} (hk : k < s.caps.hMax)
    (hvalid : (s.slot k).histValid = true) : (huffLenBody k s).state.Working := by
  obtain ⟨-, -, hcost, hbits⟩ := Slot.ordered_iff.1 (h.slots.slot_ordered k)
  refine (h.putCodes hk (length_slotElements (h.hbits_le k) (fun t => ?_))).setSlot hk ?_
  · simp [h.length_tableLengths]
  · exact Slot.ordered_iff.2 ⟨nofun, fun _ => hvalid, hcost, hbits⟩

theorem length_canonicalCodes (lens seen ls : List Nat) : (canonicalCodes lens seen ls).length = ls.length := by
  induction ls generalizing seen with
  | nil => rfl
  | cons l ls ih => simp [canonicalCodes, ih]

theorem length_codedTable (lens : List Nat) : (codedTable lens).length = lens.length := by
  simp [codedTable, length_canonicalCodes]

/-- HTAB with the codes of one table of slot `k` put into `m` (47_huffman R274). -/
def State.codesInto (s : State) (k : Nat) (m : Mem 32) (t : Table) : Mem 32 :=
  m.put (k * Config.slotStride + t.base) (codedTable ((s.codeTable k t).map codeLen))

/-- The codes of one table stay within the slot. -/
theorem State.Working.codesInto_fits (h : s.Working) {k : Nat} (hk : k < s.caps.hMax) {m : Mem 32}
    (hm : m.Fits (s.caps.hMax * Config.slotStride)) (t : Table) :
    (s.codesInto k m t).Fits (s.caps.hMax * Config.slotStride) := by
  refine hm.put ?_
  rw [length_codedTable, List.length_map, h.length_codeTable, Nat.add_assoc]
  exact slot_range_le hk (t.base_add_size_le (h.hbits_le k))

/-- HTAB after HUFF_CODE: the codes of the five tables, one after the other. -/
def State.codedHtab (s : State) (k : Nat) : Mem 32 :=
  [Table.combined, .red, .blue, .alpha, .distance].foldl (s.codesInto k) s.spaces.htab

theorem State.Working.codedHtab_fits (h : s.Working) {k : Nat} (hk : k < s.caps.hMax) :
    (s.codedHtab k).Fits (s.caps.hMax * Config.slotStride) := by
  have hfold : ∀ (ts : List Table) {m : Mem 32}, m.Fits (s.caps.hMax * Config.slotStride) →
      (ts.foldl (s.codesInto k) m).Fits (s.caps.hMax * Config.slotStride) := by
    intro ts
    induction ts with
    | nil => exact id
    | cons t ts ih => exact fun hm => ih (h.codesInto_fits hk hm t)
  exact hfold _ h.spaces.htab

theorem huffCodeBody_eq (k : Nat) (s : State) :
    huffCodeBody k s = .ok (State.setSlot { s with spaces := { s.spaces with htab := s.codedHtab k } } k
      { s.slot k with codeValid := true }) := by
  have hslot : ∀ m, State.slot { s with spaces := { s.spaces with htab := m } } k = s.slot k := fun _ => rfl
  simp only [huffCodeBody, State.codedHtab, List.foldl, State.codesInto, hslot]

theorem huffCodeBody_working (h : s.Working) {k : Nat} (hk : k < s.caps.hMax)
    (hvalid : (s.slot k).lenValid = true) : (huffCodeBody k s).state.Working := by
  obtain ⟨-, hlen, hcost, hbits⟩ := Slot.ordered_iff.1 (h.slots.slot_ordered k)
  rw [huffCodeBody_eq]
  exact (h.withHtab (h.codedHtab_fits hk)).setSlot hk
    (Slot.ordered_iff.2 ⟨fun _ => hvalid, hlen, hcost, hbits⟩)

end

end Sys2Proof.Machine
end

section
/-! SUPPORT. The pseudocode of the bit writer and of EMIT_TOKENS keeps the invariant (48_bit_writer R291 to R300). -/

namespace Sys2Proof.Machine

section
variable {s : State}

/-! ### Words and bytes (48_bit_writer R294, R295, R297) -/

theorem bwInitBody_working (h : s.Working) : (bwInitBody s).state.Working :=
  { h with used := Nat.zero_le _, pos := Nat.zero_le _, aligned := fun _ => .inr rfl }

/-- A word flushed from a writer with bits for it: the bytes fit OUT, or BW_ERR is set. -/
theorem State.flushWord_working (h : s.Working) (acc : BitVec 64) {used : Nat} (hused : used ≤ 63) :
    (State.flushWord { s with writer := { s.writer with acc := acc, used := used } }).Working := by
  have hleft : used - 32 ≤ 31 := by omega
  simp only [State.flushWord]
  split
  · rename_i hroom
    simp only [Bool.and_eq_true, Bool.not_eq_true', decide_eq_true_eq] at hroom
    obtain ⟨hok, hfits⟩ := hroom
    exact { h with
      used := hleft, pos := hfits, spaces := { h.spaces with out := h.spaces.out.put hfits }
      aligned := fun hopen => .inr (by
        have hpos : s.writer.pos % 4 = 0 := (h.aligned hopen).resolve_left (by simp [hok])
        show (s.writer.pos + 4) % 4 = 0
        omega) }
  · exact { h with used := hleft, aligned := fun _ => .inl rfl }

theorem State.putBits_working (h : s.Working) (v : BitVec 64) {n : Nat} (hn : n ≤ 32) :
    (s.putBits v n).Working := by
  have hused := h.used
  simp only [State.putBits]
  split
  · exact State.flushWord_working h _ (by omega)
  · rename_i hfew
    exact { h with used := by show s.writer.used + n ≤ 31; omega }

@[simp] theorem State.flushWord_caps (s : State) : s.flushWord.caps = s.caps := by
  simp only [State.flushWord]
  split <;> rfl

@[simp] theorem State.putBits_caps (s : State) (v : BitVec 64) (n : Nat) : (s.putBits v n).caps = s.caps := by
  simp only [State.putBits]
  split
  · rw [State.flushWord_caps]
  · rfl

/-- The bytes written since the command's start become free values (60_exceptions R346). -/
theorem failOut_working (h : s.Working) {start : State} (hstart : start.writer.pos ≤ s.caps.outCap)
    (o : ErrorOutcome) (info : Nat) : (failOut o info start s).state.Working := by
  have hend := h.pos
  exact { h with
    spaces := { h.spaces with
      out := h.spaces.out.put (by simp only [List.length_map, List.length_range]; omega) } }

/-! ### BW_FINISH (48_bit_writer R297) -/

/-- The writer closed (48_bit_writer R297). -/
def State.closed (s : State) : State := { s with flags := { s.flags with bwOpen := false } }

theorem State.Working.closed (h : s.Working) : s.closed.Working := { h with aligned := nofun }

/-- One turn of the byte loop: behind it BW_POS need not be aligned, so the writer is looked at as closed already. -/
theorem State.finishByte_working (h : s.closed.Working) : s.finishByte.closed.Working := by
  have hleft : s.writer.used - 8 ≤ 31 := (Nat.sub_le _ _).trans h.used
  simp only [State.finishByte]
  split
  · rename_i hroom
    simp only [Bool.and_eq_true, decide_eq_true_eq] at hroom
    obtain ⟨-, hfits⟩ := hroom
    exact { h with
      used := hleft, pos := hfits, aligned := nofun
      spaces := { h.spaces with out := h.spaces.out.put hfits } }
  · exact { h with used := hleft, aligned := nofun }

theorem State.finishByte_caps (s : State) : s.finishByte.caps = s.caps := by
  simp only [State.finishByte]
  split <;> rfl

theorem finishBytes_working (fuel : Nat) {s : State} (h : s.closed.Working) :
    (finishBytes fuel s).closed.Working ∧ (finishBytes fuel s).caps = s.caps := by
  induction fuel generalizing s with
  | zero => exact ⟨h, rfl⟩
  | succ fuel ih =>
    simp only [finishBytes]
    split
    · exact ⟨h, rfl⟩
    · obtain ⟨hworking, hcaps⟩ := ih (State.finishByte_working h)
      exact ⟨hworking, hcaps.trans s.finishByte_caps⟩

theorem bwFinishBody_working (h : s.Working) : (bwFinishBody s).state.Working := by
  obtain ⟨hworking, hcaps⟩ := finishBytes_working s.writer.used h.closed
  simp only [bwFinishBody]
  split
  · exact failOut_working hworking (hcaps ▸ h.pos) _ _
  · exact { hworking with }

/-! ### EMIT_TOKENS (48_bit_writer R300) -/

theorem codeLen_le (e : Word) : codeLen e ≤ 32 := by
  have hlt := (e.extractLsb' 16 4).isLt
  simp only [codeLen]
  omega

/-- An emission that a writer with fewer than 32 bits has room for. -/
def Emission.Short : Emission → Prop
  | .symbol _ _ => True
  | .raw _ n => n ≤ 32

/-- Values up to 2^33 have at most 32 extra bits (30_encoding R106). -/
theorem prefixEncode_nbits_le {v : Nat} (hv : v ≤ 2 ^ 33) : (prefixEncode v).nbits ≤ 32 := by
  simp only [prefixEncode]
  split
  · exact Nat.zero_le _
  · have hlog : Nat.log2 (v - 1) < 33 := (Nat.log2_lt (by omega)).2 (by omega)
    show Nat.log2 (v - 1) - 1 ≤ 32
    omega

theorem planeLut_le (i : Nat) : planeLut.getD i 255 ≤ 255 := by
  have htable : planeLut.all (fun x => decide (x ≤ 255)) = true := rfl
  have hall : ∀ x ∈ planeLut, x ≤ 255 := by simpa using htable
  rw [List.getD_eq_getElem?_getD]
  cases hi : planeLut[i]? with
  | none => exact le_rfl
  | some x => exact hall x (List.mem_of_getElem? hi)

/-- The contract of 30_encoding R108, and the largest code the default takes from its table. -/
theorem distanceCode_le (f : Fns) (xs d : Nat) : distanceCode f xs d ≤ d + 256 := by
  simp only [distanceCode]
  split
  · simp only [distanceCodeDefault]
    have hrow := planeLut_le (d / xs * 16 + 8 - (d - d / xs * xs))
    have hnext := planeLut_le ((d / xs + 1) * 16 + 8 + (xs - (d - d / xs * xs)))
    split
    · omega
    split <;> omega
  · omega

theorem emissionsOf_short (f : Fns) (xs : Nat) {t : Token} (ht : t.Fits) : ∀ e ∈ emissionsOf f xs t, e.Short := by
  cases t with
  | literal p => simp [emissionsOf, Emission.Short]
  | cacheRef k => simp [emissionsOf, Emission.Short]
  | copy d l =>
    obtain ⟨hd, hl⟩ := ht
    have hdist := distanceCode_le f xs d
    simp only [emissionsOf, List.forall_mem_cons, Emission.Short, distancePrefix]
    refine ⟨trivial, prefixEncode_nbits_le (by omega), trivial, prefixEncode_nbits_le (by omega), by simp⟩

/-- The token of a record holds fields of the record's widths (30_encoding R96). -/
theorem fits_of_tokenOfRecord {w : BitVec 64} {t : Token} (h : tokenOfRecord w = some t) : t.Fits := by
  have hlen := (w.extractLsb' 32 16).isLt
  have hval := (w.extractLsb' 0 32).isLt
  simp only [tokenOfRecord] at h
  split at h
  · cases h
  rename_i u hu
  split at h <;> cases h
  simp only [tokenOfFields] at hu
  split at hu
  · cases hu
    trivial
  split at hu
  · cases hu
    exact hval
  split at hu <;> cases hu
  exact ⟨hval, hlen⟩

theorem fits_of_tokensOf {ws : List (BitVec 64)} {k : Nat} {ts : List Token} (h : tokensOf k ws = .ok ts) :
    ∀ t ∈ ts, t.Fits := by
  induction ws generalizing k ts with
  | nil =>
    cases h
    simp
  | cons w ws ih =>
    simp only [tokensOf] at h
    split at h
    · cases h
    rename_i t ht
    split at h <;> cases h
    rename_i rest hrest
    exact List.forall_mem_cons.2 ⟨fits_of_tokenOfRecord ht, ih hrest⟩

theorem State.emitOne_working (h : s.Working) {t : State} {k : Nat} {e : Emission} (he : e.Short)
    (ht : s.emitOne k e = some t) : t.Working ∧ t.caps = s.caps := by
  cases e with
  | raw v n =>
    cases ht
    exact ⟨State.putBits_working h _ he, s.putBits_caps _ _⟩
  | symbol tbl sym =>
    simp only [State.emitOne] at ht
    split at ht
    · cases ht
      exact ⟨State.putBits_working h _ (codeLen_le _), s.putBits_caps _ _⟩
    · split at ht <;> cases ht
      exact ⟨h, rfl⟩

/-- What every emission of a token keeps holds of the state with what was put of it, up to its end or to the first
symbol without a codeword. -/
theorem emitAll_keeps {P : State → Prop} {k : Nat} {es : List Emission}
    (hone : ∀ {e u v}, e ∈ es → P u → u.emitOne k e = some v → P v) {s t : State} (hs : P s)
    (ht : emitAll k s es = .ok t ∨ emitAll k s es = .error t) : P t := by
  induction es generalizing s with
  | nil =>
    obtain ht | ht := ht <;> cases ht
    exact hs
  | cons e es ih =>
    simp only [emitAll] at ht
    cases hu : s.emitOne k e with
    | none =>
      rw [hu] at ht
      obtain ht | ht := ht <;> cases ht
      exact hs
    | some u =>
      rw [hu] at ht
      exact ih (fun he => hone (List.mem_cons_of_mem e he)) (hone List.mem_cons_self hs hu) ht

/-- What the emissions of every token and a raise keep holds at the end of the loop. -/
theorem emitTokensLoop_keeps {P : State → Prop} (mode : SlotMode) (base : Nat) {start : State} {ts : List Token}
    (hput : ∀ {t f xs k e u v}, t ∈ ts → e ∈ emissionsOf f xs t → P u → u.emitOne k e = some v → P v)
    (hfail : ∀ o info u, P u → P (failOut o info start u).state) (k pos : Nat) {s : State} (hs : P s) :
    P (emitTokensLoop mode base start k pos s ts).state := by
  induction ts generalizing k pos s with
  | nil =>
    simp only [emitTokensLoop]
    split
    · exact hfail _ _ _ hs
    · exact hs
  | cons t ts ih =>
    simp only [emitTokensLoop]
    split
    · rename_i u hu
      exact hfail _ _ _ (emitAll_keeps (hput List.mem_cons_self) hs (.inr hu))
    · rename_i u hu
      exact ih (fun ht => hput (List.mem_cons_of_mem t ht)) _ _ (emitAll_keeps (hput List.mem_cons_self) hs (.inl hu))

/-- The invariant, and the capacities of the command's start. -/
def State.WorkingAt (c : Caps) (s : State) : Prop := s.Working ∧ s.caps = c

theorem emitTokensLoop_working (mode : SlotMode) (base : Nat) {start : State} (h : start.Working) {ts : List Token}
    (hts : ∀ t ∈ ts, t.Fits) : (emitTokensLoop mode base start 0 0 start ts).state.Working := by
  refine (emitTokensLoop_keeps (P := State.WorkingAt start.caps) mode base (fun ht he hu hv => ?_)
    (fun o info u hu => ?_) 0 0 ⟨h, rfl⟩).1
  · obtain ⟨hworking, hcaps⟩ := hu
    obtain ⟨hworking', hcaps'⟩ := State.emitOne_working hworking (emissionsOf_short _ _ (hts _ ht) _ he) hv
    exact ⟨hworking', hcaps'.trans hcaps⟩
  · obtain ⟨hworking, hcaps⟩ := hu
    exact ⟨failOut_working hworking (hcaps ▸ h.pos) o info, hcaps⟩

theorem emitTokensBody_working (h : s.Working) (mode : SlotMode) (base : Nat) :
    (emitTokensBody mode base s).state.Working := by
  simp only [emitTokensBody]
  split
  · exact h
  · rename_i ts hts
    exact emitTokensLoop_working mode base h (fits_of_tokensOf hts)

end

end Sys2Proof.Machine
end

section
/-! SUPPORT. Every step keeps the invariant: the commands after their checks (60_exceptions R348), the operations of the
host (20_memory R62), and the statement. -/

namespace Sys2Proof.Machine

section
variable {s t : State}

/-! ### The commands -/

theorem State.lt_hMax_of_badSlot {k : Nat} (h : s.badSlot k = false) : k < s.caps.hMax := by
  simpa [State.badSlot] using h

theorem State.histValid_of_badHist {k : Nat} (h : s.badHist k = false) : (s.slot k).histValid = true := by
  simpa [State.badHist] using h

theorem State.cacheBits_le_of_badCacheBits (h : s.badCacheBits = false) : s.regs.cacheBits.toNat ≤ 10 := by
  simpa [State.badCacheBits] using h

theorem State.le_hMax_of_overSlots {base count : Nat} (h : s.overSlots base count = none) :
    base + count ≤ s.caps.hMax := by
  simpa [State.overSlots] using h

theorem execHcBuild_invariant (hs : s.invariant = true) (h : execHcBuild s = .next t) : t.invariant = true := by
  unfold execHcBuild at h
  exact runCommand_invariant hs (fun hw _ hchecks hcap => hcBuildBody_working hw
    (State.pixelCount_pos_of_zeroDims (hchecks (4, s.zeroDims) (by simp))) (State.pixelCount_le_of_overImage hcap)) h

theorem execHcBox_invariant (hs : s.invariant = true) (h : execHcBox s = .next t) : t.invariant = true := by
  unfold execHcBox at h
  exact runCommand_invariant hs (fun hw _ hchecks hcap => hcBoxBody_working hw
    (State.pixelCount_pos_of_zeroDims (hchecks (4, s.zeroDims) (by simp))) (State.pixelCount_le_of_overImage hcap)) h

theorem execBrGreedy_invariant {sel : TableSel} (hs : s.invariant = true) (h : execBrGreedy sel s = .next t) :
    t.invariant = true := by
  unfold execBrGreedy at h
  exact runCommand_invariant hs (fun hw _ hchecks _ => brGreedyBody_working hw
    (State.pixelCount_pos_of_zeroDims (hchecks (4, s.zeroDims) (by simp))) sel) h

theorem execBrRle_invariant (hs : s.invariant = true) (h : execBrRle s = .next t) : t.invariant = true := by
  unfold execBrRle at h
  exact runCommand_invariant hs (fun hw _ hchecks hcap => State.endBuilder_working hw
    (State.pixelCount_pos_of_zeroDims (hchecks (4, s.zeroDims) (by simp))) (State.pixelCount_le_of_overImage hcap) _) h

theorem execCacheApply_invariant (hs : s.invariant = true) (h : execCacheApply s = .next t) :
    t.invariant = true := by
  unfold execCacheApply at h
  exact runCommand_invariant hs (fun hw _ hchecks _ => cacheApplyBody_working hw
    (State.cacheBits_le_of_badCacheBits (hchecks (7, s.badCacheBits) (by simp)))) h

theorem execDpSolve_invariant {sel : TableSel} (hs : s.invariant = true) (h : execDpSolve sel s = .next t) :
    t.invariant = true := by
  unfold execDpSolve at h
  exact runCommand_invariant hs (fun hw _ hchecks hcap => dpSolveBody_working hw
    (State.pixelCount_pos_of_zeroDims (hchecks (4, s.zeroDims) (by simp))) (State.pixelCount_le_of_overImage hcap)
    (State.cacheBits_le_of_badCacheBits (hchecks (7, s.badCacheBits) (by simp))) sel) h

theorem execHistClear_invariant {slot : BitVec 16} (hs : s.invariant = true) (h : execHistClear slot s = .next t) :
    t.invariant = true := by
  unfold execHistClear at h
  exact runCommand_invariant hs (fun hw _ hchecks _ => histClearBody_working hw
    (State.lt_hMax_of_badSlot (hchecks (11, s.badSlot slot.toNat) (by simp)))
    (State.cacheBits_le_of_badCacheBits (hchecks (7, s.badCacheBits) (by simp)))) h

theorem execHistBuild_invariant {mode : SlotMode} {slot : BitVec 16} (hs : s.invariant = true)
    (h : execHistBuild mode slot s = .next t) : t.invariant = true := by
  unfold execHistBuild at h
  exact runCommand_invariant hs (fun hw _ _ hcap => histBuildBody_working hw (State.le_hMax_of_overSlots hcap)) h

theorem execHistAdd_invariant {slot : BitVec 16} (hs : s.invariant = true) (h : execHistAdd slot s = .next t) :
    t.invariant = true := by
  unfold execHistAdd at h
  refine runCommand_invariant hs (fun hw _ hchecks _ => ?_) h
  obtain ⟨hdst, -⟩ := Bool.or_eq_false_iff.1
    (hchecks (11, s.badSlot slot.toNat || s.badSlot s.regs.arg0.toNat) (by simp))
  exact histAddBody_working hw (State.lt_hMax_of_badSlot hdst)

theorem execHistEst_invariant {slot : BitVec 16} (hs : s.invariant = true) (h : execHistEst slot s = .next t) :
    t.invariant = true := by
  unfold execHistEst at h
  exact runCommand_invariant hs (fun hw _ hchecks _ => histEstBody_working hw
    (State.lt_hMax_of_badSlot (hchecks (11, s.badSlot slot.toNat) (by simp)))
    (State.histValid_of_badHist (hchecks (14, s.badHist slot.toNat) (by simp)))) h

theorem execCluster_invariant {slot : BitVec 16} (hs : s.invariant = true) (h : execCluster slot s = .next t) :
    t.invariant = true := by
  unfold execCluster at h
  refine runCommand_invariant hs (fun hw _ _ hcap => clusterBody_working hw ?_) h
  by_contra hover
  rw [if_pos (.inr (Nat.not_le.1 hover))] at hcap
  cases hcap

theorem execHuffLen_invariant {slot : BitVec 16} (hs : s.invariant = true) (h : execHuffLen slot s = .next t) :
    t.invariant = true := by
  unfold execHuffLen at h
  exact runCommand_invariant hs (fun hw _ hchecks _ => huffLenBody_working hw
    (State.lt_hMax_of_badSlot (hchecks (11, s.badSlot slot.toNat) (by simp)))
    (State.histValid_of_badHist (hchecks (14, s.badHist slot.toNat) (by simp)))) h

theorem execHuffCode_invariant {slot : BitVec 16} (hs : s.invariant = true) (h : execHuffCode slot s = .next t) :
    t.invariant = true := by
  unfold execHuffCode at h
  exact runCommand_invariant hs (fun hw _ hchecks _ => huffCodeBody_working hw
    (State.lt_hMax_of_badSlot (hchecks (11, s.badSlot slot.toNat) (by simp)))
    (by simpa using hchecks (15, !(s.slot slot.toNat).lenValid) (by simp))) h

theorem execBwPut_invariant {n : BitVec 6} (hs : s.invariant = true) (h : execBwPut n s = .next t) :
    t.invariant = true := by
  unfold execBwPut at h
  refine runCommand_invariant hs (fun hw hlegal _ _ => ?_) h
  exact State.putBits_working hw _ (of_decide_eq_true hlegal)

theorem execCcInit_invariant {bits : BitVec 4} (hs : s.invariant = true) (h : execCcInit bits s = .next t) :
    t.invariant = true := by
  unfold execCcInit at h
  exact runCommand_invariant hs (fun hw hlegal _ _ => ccInitBody_working hw (of_decide_eq_true hlegal)) h

theorem execAttemptBegin_invariant (hs : s.invariant = true) : s.beginAttempt.endOk.invariant = true :=
  State.invariant_iff.2 ⟨(State.invariant_iff.1 hs).1.beginAttempt.endOk, s.beginAttempt.endOk_lifeOk,
    State.errorOk_of_calm rfl rfl⟩

theorem execSoftReset_invariant (hs : s.invariant = true) : s.softReset.invariant = true :=
  State.invariant_iff.2 ⟨(State.invariant_iff.1 hs).1.softReset, s.softReset_lifeOk, State.errorOk_of_calm rfl rfl⟩

/-- NOP leaves the error state as it is (49_system R321). -/
theorem execNop_invariant (hs : s.invariant = true) : s.endOk.invariant = true := by
  obtain ⟨hstored, -, herror⟩ := State.invariant_iff.1 hs
  exact State.invariant_iff.2 ⟨hstored.endOk, s.endOk_lifeOk, herror⟩

/-- Every command keeps the invariant, however it ends. -/
theorem exec_invariant {i : Instr} (hs : s.invariant = true) (h : exec i s = .next t) : t.invariant = true := by
  cases i with
  | nop =>
    cases h
    exact execNop_invariant hs
  | softReset =>
    cases h
    exact execSoftReset_invariant hs
  | attemptBegin =>
    cases h
    exact execAttemptBegin_invariant hs
  | hcBuild => exact execHcBuild_invariant hs h
  | hcBox => exact execHcBox_invariant hs h
  | brGreedy sel => exact execBrGreedy_invariant hs h
  | brRle => exact execBrRle_invariant hs h
  | cacheApply => exact execCacheApply_invariant hs h
  | cacheSearch =>
    simp only [exec, execCacheSearch] at h
    exact runCommand_invariant hs (fun hw _ _ _ => cacheSearchBody_working hw) h
  | tokSwap =>
    simp only [exec, execTokSwap] at h
    refine runCommand_invariant hs (fun hw _ _ _ => ?_) h
    exact State.swapBuffers_working hw
  | dpSolve sel => exact execDpSolve_invariant hs h
  | histClear slot => exact execHistClear_invariant hs h
  | histBuild mode slot => exact execHistBuild_invariant hs h
  | histAdd slot => exact execHistAdd_invariant hs h
  | histEst slot => exact execHistEst_invariant hs h
  | histCombine slot =>
    simp only [exec, execHistCombine] at h
    refine runCommand_invariant hs (fun hw _ _ _ => ?_) h
    exact { hw with }
  | cluster slot => exact execCluster_invariant hs h
  | huffLen slot => exact execHuffLen_invariant hs h
  | huffCode slot => exact execHuffCode_invariant hs h
  | bwInit =>
    simp only [exec, execBwInit] at h
    exact runCommand_invariant hs (fun hw _ _ _ => bwInitBody_working hw) h
  | bwPut n => exact execBwPut_invariant hs h
  | bwFinish =>
    simp only [exec, execBwFinish] at h
    exact runCommand_invariant hs (fun hw _ _ _ => bwFinishBody_working hw) h
  | emitTokens mode slot =>
    simp only [exec, execEmitTokens] at h
    exact runCommand_invariant hs (fun hw _ _ _ => emitTokensBody_working hw mode _) h
  | ccInit bits => exact execCcInit_invariant hs h
  | ccLookup =>
    simp only [exec, execCcLookup] at h
    refine runCommand_invariant hs (fun hw _ _ _ => ?_) h
    exact { hw with }
  | ccInsert =>
    simp only [exec, execCcInsert] at h
    exact runCommand_invariant hs (fun hw _ _ _ => ccInsertBody_working hw) h

theorem runWord_invariant (hs : s.invariant = true) (h : runWord s = .next t) : t.invariant = true := by
  simp only [runWord] at h
  split at h
  · exact exec_invariant hs h
  · cases h
    exact (State.invariant_iff.1 hs).1.raise_invariant ..

/-! ### The operations of the host -/

/-- The invariant up to the abort line: a request raised for a running command by a line still high is pending once
the line is seen (60_exceptions R352, R353). -/
structure State.BeforeLatch (s : State) : Prop extends s.Stored where
  running : s.flags.busy = true → s.flags.done = false ∧ s.flags.errCode = 0
  ended : s.flags.done = true → s.flags.errCode = 0 ∧ s.regs.errInfo = 0
  code : s.flags.errCode.toNat ≤ 4
  sampled : s.env.abortSampled = true → s.flags.busy = true
  late : s.env.abortLate = true → s.flags.busy = true ∧ (s.flags.abortPending || s.env.abortLine) = true
  errorOk : s.errorOk = true

theorem State.lifeOk_iff : s.lifeOk = true ↔
    (s.flags.busy = true → s.flags.done = false ∧ s.flags.errCode = 0) ∧
    (s.flags.done = true → s.flags.errCode = 0 ∧ s.regs.errInfo = 0) ∧ s.flags.errCode.toNat ≤ 4 ∧
    (s.env.abortSampled = true → s.flags.busy = true) ∧
    (s.env.abortLate = true → s.flags.busy = true ∧ s.flags.abortPending = true) := by
  simp only [State.lifeOk, Bool.and_eq_true, Bool.or_eq_true, Bool.not_eq_true', decide_eq_true_eq, and_assoc,
    ← Bool.not_eq_true, ← imp_iff_not_or, or_comm (a := s.flags.busy = true)]

theorem State.beforeLatch_of_invariant (h : s.invariant = true) : s.BeforeLatch := by
  obtain ⟨hstored, hlife, herror⟩ := State.invariant_iff.1 h
  obtain ⟨hrunning, hended, hcode, hsampled, hlate⟩ := State.lifeOk_iff.1 hlife
  exact { hstored with
    running := hrunning, ended := hended, code := hcode, sampled := hsampled, errorOk := herror
    late := fun hl => (hlate hl).imp id (fun hpending => (Bool.or_eq_true _ _).mpr (.inl hpending)) }

theorem State.BeforeLatch.quiet_invariant (h : s.BeforeLatch) : s.quiet.invariant = true := by
  refine State.invariant_iff.2
    ⟨{ h with }, State.lifeOk_iff.2 ⟨h.running, h.ended, h.code, h.sampled, fun hl => ?_⟩, h.errorOk⟩
  obtain hl | hline := (Bool.or_eq_true _ _).mp hl
  · exact h.late hl
  · obtain ⟨hbusy, hhigh⟩ := (Bool.and_eq_true _ _).mp hline
    exact ⟨hbusy, (Bool.or_eq_true _ _).mpr (.inr hhigh)⟩

/-- Clearing what is derived from the image keeps the error state empty (10_state R46). -/
theorem State.imageChanged_errorOk (h : s.errorOk = true) : s.imageChanged.errorOk = true := by
  cases herror : s.flags.error
  · exact State.errorOk_of_calm herror (by simpa [State.errorOk, herror] using h)
  · simp only [State.errorOk, State.imageChanged, herror, if_true, Bool.and_eq_true] at h ⊢
    obtain ⟨⟨⟨⟨-, hopen⟩, hbufs⟩, hcc⟩, -⟩ := h
    exact ⟨⟨⟨⟨by decide, hopen⟩, hbufs⟩, hcc⟩, all_invalid_invalidSlots s.slots⟩

theorem State.BeforeLatch.startCommand (h : s.BeforeLatch) (w : Word) : (s.startCommand w).BeforeLatch :=
  { h with
    running := fun _ => ⟨rfl, rfl⟩, ended := nofun, code := Nat.zero_le _, sampled := fun _ => rfl
    late := fun hline => ⟨rfl, (Bool.or_eq_true _ _).mpr (.inr hline)⟩ }

theorem State.BeforeLatch.writeAbort (h : s.BeforeLatch) (v : Word) : (s.writeAbort v).BeforeLatch := by
  simp only [State.writeAbort]
  split
  · exact { h with
      late := fun hl => ⟨((Bool.or_eq_true _ _).mp hl).elim (fun hl => (h.late hl).1) id, rfl⟩ }
  · exact h

/-- New pixels or a new geometry: no valid bit stays that speaks of the old ones (10_state R46). -/
theorem State.BeforeLatch.imageChanged (h : s.BeforeLatch) {regs : Regs} (herr : regs.errInfo = s.regs.errInfo)
    {p : Spaces} (hp : p.Fit s.caps) :
    (State.imageChanged { s with regs := regs, spaces := p }).BeforeLatch :=
  { h with
    hasCache := nofun, cached := nofun, geometry := by simp, spaces := hp, slots := h.slots.invalid
    ended := fun hd => by simpa [herr] using h.ended hd
    errorOk := State.imageChanged_errorOk h.errorOk }

theorem State.BeforeLatch.writeReg (h : s.BeforeLatch) (r : Reg) (v : Word) : (s.writeReg r v).BeforeLatch := by
  cases r
  case cmd => exact h.startCommand v
  case abort => exact h.writeAbort v
  case xsize => exact h.imageChanged (regs := { s.regs with xsize := v }) rfl h.spaces
  case ysize => exact h.imageChanged (regs := { s.regs with ysize := v }) rfl h.spaces
  all_goals exact { h with }

theorem State.BeforeLatch.hostRegWrite (h : s.BeforeLatch) (off : BitVec 8) (v : Word) :
    (s.hostRegWrite off v).BeforeLatch := by
  simp only [State.hostRegWrite]
  split
  · exact h
  split
  · split
    · exact h.writeAbort v
    · exact h
  · exact h.writeReg _ v

theorem State.BeforeLatch.hostSpaceWrite (h : s.BeforeLatch) {sp : SpaceId} {i : Nat} (hi : i < s.spaceSize sp)
    (v : BitVec 64) : (s.hostSpaceWrite sp i v).BeforeLatch := by
  simp only [State.hostSpaceWrite]
  split
  · exact h
  cases sp
  case pix => exact h.imageChanged rfl { h.spaces with pix := h.spaces.pix.write hi _ }
  case grpMap => exact { h with spaces := { h.spaces with grpMap := h.spaces.grpMap.write hi _ } }
  case out => exact { h with spaces := { h.spaces with out := h.spaces.out.write hi _ } }
  all_goals exact h

theorem State.BeforeLatch.answer (h : s.BeforeLatch) (v : BitVec 64) : (s.answer v).BeforeLatch := { h with }

theorem State.BeforeLatch.answerFree (h : s.BeforeLatch) : s.answerFree.BeforeLatch := { h with }

/-- Whatever the level of the line becomes, a request for the running command stays pending (60_exceptions R352). -/
theorem State.abortLine_beforeLatch (h : s.invariant = true) (level : Bool) :
    State.BeforeLatch { s with env := { s.env with abortLine := level } } := by
  obtain ⟨-, hlife, -⟩ := State.invariant_iff.1 h
  obtain ⟨-, -, -, -, hlate⟩ := State.lifeOk_iff.1 hlife
  exact { State.beforeLatch_of_invariant h with
    late := fun hl => (hlate hl).imp id (fun hpending => (Bool.or_eq_true _ _).mpr (.inl hpending)) }

theorem State.hardReset_invariant (hcaps : s.caps.wf = true) : s.hardReset.invariant = true := by
  refine State.invariant_iff.2 ⟨?_, State.lifeOk_of_idle rfl rfl rfl (Nat.zero_le 4) nofun,
    State.errorOk_of_calm rfl rfl⟩
  exact {
    curLen := Nat.zero_le _, scrLen := Nat.zero_le _, curBits := Nat.zero_le _, scrBits := Nat.zero_le _
    ccBits := Nat.zero_le _, hasCache := nofun, cached := nofun, geometry := by simp [Flags.reset]
    used := Nat.zero_le _, pos := Nat.zero_le _, aligned := nofun
    caps := hcaps, spaces := s.spaces.fit_redraw s.caps, slots := .nil _ }

theorem hostStep_invariant {op : HostOp} (hs : s.invariant = true) (h : hostStep op s = .next t) :
    t.invariant = true := by
  have hb := State.beforeLatch_of_invariant hs
  cases op with
  | regRead off =>
    cases h
    refine State.BeforeLatch.quiet_invariant ?_
    simp only [State.hostRegRead]
    split
    · exact hb.answer _
    split
    · exact hb.answerFree
    · exact hb.answer _
  | regWrite off v =>
    cases h
    exact (hb.hostRegWrite off v).quiet_invariant
  | spaceRead sp i =>
    simp only [hostStep] at h
    split at h <;> cases h
    refine State.BeforeLatch.quiet_invariant ?_
    simp only [State.hostSpaceRead]
    split
    · exact hb.answerFree
    · exact hb.answer _
  | spaceWrite sp i v =>
    simp only [hostStep] at h
    split at h <;> cases h
    rename_i hi
    exact (hb.hostSpaceWrite hi v).quiet_invariant
  | infoRead sel =>
    cases h
    exact (hb.answer _).quiet_invariant
  | abortLine level =>
    cases h
    exact (State.abortLine_beforeLatch hs level).quiet_invariant
  | hardReset =>
    cases h
    exact State.hardReset_invariant hb.caps

theorem State.popHost_invariant (h : s.invariant = true) : s.popHost.invariant = true := h

end

end Sys2Proof.Machine

open Sys2Proof Sys2Proof.Machine

/-- Settles O16: a step runs the word in CMD, or an operation of the host, or lets time pass. -/
theorem invariantKept : Obligations.InvariantKept := by
  unfold Obligations.InvariantKept
  intro s t hs h
  simp only [step] at h
  split at h
  · split at h
    · exact runWord_invariant hs h
    · cases h
      exact (State.beforeLatch_of_invariant hs).quiet_invariant
  · split at h
    · exact runWord_invariant hs h
    · exact hostStep_invariant (State.popHost_invariant hs) h

end

section
/-! SUPPORT. Which spaces a command changes, whatever its outcome: the W entries of its row (20_memory R66). -/

namespace Sys2Proof.Machine

/-! ### Spaces that differ in some places alone -/

/-- Every space outside `l` is as before; where nothing is said of a space, the two have the same by computation. -/
structure SpacesKept (l : List SpaceId) (p q : Spaces) : Prop where
  pix : .pix ∉ l → q.pix = p.pix := by exact fun _ => rfl
  hc0 : .hc0 ∉ l → q.hc0 = p.hc0 := by exact fun _ => rfl
  hc1 : .hc1 ∉ l → q.hc1 = p.hc1 := by exact fun _ => rfl
  tokA : .tokA ∉ l → q.tokA = p.tokA := by exact fun _ => rfl
  tokB : .tokB ∉ l → q.tokB = p.tokB := by exact fun _ => rfl
  cc : .cc ∉ l → q.cc = p.cc := by exact fun _ => rfl
  hist : .hist ∉ l → q.hist = p.hist := by exact fun _ => rfl
  grpMap : .grpMap ∉ l → q.grpMap = p.grpMap := by exact fun _ => rfl
  htab : .htab ∉ l → q.htab = p.htab := by exact fun _ => rfl
  dpCost : .dpCost ∉ l → q.dpCost = p.dpCost := by exact fun _ => rfl
  dpEdge : .dpEdge ∉ l → q.dpEdge = p.dpEdge := by exact fun _ => rfl
  out : .out ∉ l → q.out = p.out := by exact fun _ => rfl

theorem SpacesKept.refl (l : List SpaceId) (p : Spaces) : SpacesKept l p p where

section
variable (p : Spaces)

theorem SpacesKept.of_pix (m : Mem 32) : SpacesKept [.pix] p { p with pix := m } where pix := by simp
theorem SpacesKept.of_hc0 (m : Mem 32) : SpacesKept [.hc0] p { p with hc0 := m } where hc0 := by simp
theorem SpacesKept.of_hc1 (m : Mem 32) : SpacesKept [.hc1] p { p with hc1 := m } where hc1 := by simp
theorem SpacesKept.of_tokA (m : Mem 64) : SpacesKept [.tokA] p { p with tokA := m } where tokA := by simp
theorem SpacesKept.of_tokB (m : Mem 64) : SpacesKept [.tokB] p { p with tokB := m } where tokB := by simp
theorem SpacesKept.of_cc (m : Mem 33) : SpacesKept [.cc] p { p with cc := m } where cc := by simp
theorem SpacesKept.of_hist (m : Mem 32) : SpacesKept [.hist] p { p with hist := m } where hist := by simp
theorem SpacesKept.of_grpMap (m : Mem 16) : SpacesKept [.grpMap] p { p with grpMap := m } where grpMap := by simp
theorem SpacesKept.of_htab (m : Mem 32) : SpacesKept [.htab] p { p with htab := m } where htab := by simp
theorem SpacesKept.of_out (m : Mem 8) : SpacesKept [.out] p { p with out := m } where out := by simp

/-- The costs of the slots are no space of 10_state R30. -/
theorem SpacesKept.of_costs (l : List SpaceId) (b c : Mem 64) :
    SpacesKept l p { p with bitCost := b, tableCost := c } where

theorem SpacesKept.of_hist_grpMap (m : Mem 32) (g : Mem 16) :
    SpacesKept [.hist, .grpMap] p { p with hist := m, grpMap := g } where
  hist := by simp
  grpMap := by simp

/-- The spaces of the solver: both buffers, the cache and the forward pass. -/
theorem SpacesKept.of_solver (a b : Mem 64) (c : Mem 33) (cost : Mem 64) (edge : Mem 16) :
    SpacesKept [.tokA, .tokB, .cc, .dpCost, .dpEdge] p
      { p with tokA := a, tokB := b, cc := c, dpCost := cost, dpEdge := edge } where
  tokA := by simp
  tokB := by simp
  cc := by simp
  dpCost := by simp
  dpEdge := by simp

end

theorem SpacesKept.readElem {l : List SpaceId} {s t : State} (h : SpacesKept l s.spaces t.spaces) {sp : SpaceId}
    (hsp : sp ∉ l) (j : Nat) : t.readElem sp j = s.readElem sp j := by
  cases sp
  case pix => simp only [State.readElem, h.pix hsp]
  case hc0 => simp only [State.readElem, h.hc0 hsp]
  case hc1 => simp only [State.readElem, h.hc1 hsp]
  case tokA => simp only [State.readElem, h.tokA hsp]
  case tokB => simp only [State.readElem, h.tokB hsp]
  case cc => simp only [State.readElem, h.cc hsp]
  case hist => simp only [State.readElem, h.hist hsp]
  case grpMap => simp only [State.readElem, h.grpMap hsp]
  case htab => simp only [State.readElem, h.htab hsp]
  case dpCost => simp only [State.readElem, h.dpCost hsp]
  case dpEdge => simp only [State.readElem, h.dpEdge hsp]
  case out => simp only [State.readElem, h.out hsp]

section
variable {s t : State}

/-- The end of a command moves no element, so a command keeps what its pseudocode keeps. -/
theorem runCommand_kept {l : List SpaceId} {o : Opcode} {legal : Bool} {checks : List (Nat × Bool)}
    {cap : Option Nat} {body : State → BodyEnd} (hbody : SpacesKept l s.spaces (body s).state.spaces)
    (h : runCommand o legal checks cap body s = .next t) : SpacesKept l s.spaces t.spaces := by
  obtain ⟨e, info, rfl, -⟩ | ⟨-, -, -, -, ⟨u, hu, rfl⟩ | ⟨e, info, u, hu, rfl⟩⟩ := runCommand_cases h
  · exact .refl l s.spaces
  · rwa [hu] at hbody
  · rwa [hu] at hbody

/-! ### Token buffers, cache and solver -/

theorem State.putTokens_kept (b : Bool) (ts : List Token) :
    SpacesKept [bufferId b] s.spaces (s.putTokens b ts).spaces := by
  cases b
  · exact .of_tokA ..
  · exact .of_tokB ..

theorem State.redrawBuffer_kept (b : Bool) : SpacesKept [bufferId b] s.spaces (s.redrawBuffer b).spaces := by
  cases b
  · exact .of_tokA ..
  · exact .of_tokB ..

theorem State.endBuilder_kept (ts : List Token) :
    SpacesKept [bufferId s.bufs.sel] s.spaces (s.endBuilder ts).state.spaces := by
  simp only [State.endBuilder]
  split
  · exact State.redrawBuffer_kept _
  · exact State.putTokens_kept _ _

theorem brGreedyBody_kept (sel : TableSel) :
    SpacesKept [bufferId s.bufs.sel] s.spaces (brGreedyBody sel s).state.spaces := by
  simp only [brGreedyBody]
  split
  · exact State.redrawBuffer_kept _
  · exact State.endBuilder_kept _

/-- The cache beside what a change of a token buffer keeps. -/
theorem SpacesKept.withCache {sp : SpaceId} {p q : Spaces} (h : SpacesKept [sp] p q) (m : Mem 33) :
    SpacesKept [sp, .cc] p { q with cc := m } where
  pix hp := h.pix (by simp_all)
  hc0 hp := h.hc0 (by simp_all)
  hc1 hp := h.hc1 (by simp_all)
  tokA hp := h.tokA (by simp_all)
  tokB hp := h.tokB (by simp_all)
  cc := by simp
  hist hp := h.hist (by simp_all)
  grpMap hp := h.grpMap (by simp_all)
  htab hp := h.htab (by simp_all)
  dpCost hp := h.dpCost (by simp_all)
  dpEdge hp := h.dpEdge (by simp_all)
  out hp := h.out (by simp_all)

theorem State.failReplay_kept (info : Nat) :
    SpacesKept [bufferId s.bufs.sel, .cc] s.spaces (s.failReplay info).state.spaces :=
  (State.redrawBuffer_kept _).withCache _

theorem cacheApplyBody_kept : SpacesKept [bufferId s.bufs.sel, .cc] s.spaces (cacheApplyBody s).state.spaces := by
  simp only [cacheApplyBody]
  split
  · exact .refl _ _
  split
  · exact State.failReplay_kept _
  split
  · exact State.failReplay_kept _
  split
  · exact State.failReplay_kept _
  split
  · exact State.failReplay_kept _
  · exact (State.putTokens_kept _ _).withCache _

theorem cacheSearchBody_spaces : (cacheSearchBody s).state.spaces = s.spaces := by
  simp only [cacheSearchBody]
  split
  · rfl
  split
  · rfl
  split <;> rfl

theorem State.putSolution_kept (cells : List DpCell) (r : ReplayEnd) :
    SpacesKept [.tokA, .tokB, .cc, .dpCost, .dpEdge] s.spaces (s.putSolution cells r).spaces := by
  simp only [State.putSolution]
  cases s.bufs.sel <;> split <;>
    exact .of_solver ..

theorem State.keepBetter_spaces (new old : Cost) : (s.keepBetter new old).spaces = s.spaces := by
  simp only [State.keepBetter]
  split <;> rfl

theorem State.failSolve_kept (o : ErrorOutcome) (info : Nat) :
    SpacesKept [.tokA, .tokB, .cc, .dpCost, .dpEdge] s.spaces (s.failSolve o info).state.spaces :=
  .of_solver ..

theorem dpSolveBody_kept (sel : TableSel) :
    SpacesKept [.tokA, .tokB, .cc, .dpCost, .dpEdge] s.spaces (dpSolveBody sel s).state.spaces := by
  simp only [dpSolveBody]
  split
  · exact State.failSolve_kept ..
  split
  · exact State.failSolve_kept ..
  split
  · exact State.failSolve_kept ..
  split
  · exact State.failSolve_kept ..
  split
  · exact State.failSolve_kept ..
  split
  · exact State.failSolve_kept ..
  · rw [BodyEnd.state, State.keepBetter_spaces]
    exact State.putSolution_kept ..

theorem ccInitBody_kept (b : Nat) : SpacesKept [.cc] s.spaces (ccInitBody b s).state.spaces := by
  simp only [ccInitBody]
  split
  · exact .refl _ _
  · exact .of_cc ..

/-! ### Slots -/

theorem histBuildBody_kept (mode : SlotMode) (base : Nat) :
    SpacesKept [.hist] s.spaces (histBuildBody mode base s).state.spaces := by
  simp only [histBuildBody]
  split
  · exact .of_hist ..
  split
  · exact .of_hist ..
  split <;> exact .of_hist ..

theorem histAddBody_kept (dst src : Nat) : SpacesKept [.hist] s.spaces (histAddBody dst src s).state.spaces := by
  simp only [histAddBody]
  split <;> exact .of_hist ..

theorem clusterBody_kept (first group : Nat) :
    SpacesKept [.hist, .grpMap] s.spaces (clusterBody first group s).state.spaces := by
  simp only [clusterBody]
  split
  · exact .of_hist_grpMap ..
  split <;> exact .of_hist_grpMap ..

theorem huffLenBody_kept (k : Nat) : SpacesKept [.htab] s.spaces (huffLenBody k s).state.spaces := by
  simp only [huffLenBody, BodyEnd.state, State.setSlot_spaces, State.putCodes_spaces]
  exact .of_htab ..

theorem huffCodeBody_kept (k : Nat) : SpacesKept [.htab] s.spaces (huffCodeBody k s).state.spaces := by
  rw [huffCodeBody_eq, BodyEnd.state, State.setSlot_spaces]
  exact .of_htab ..

/-! ### The bit writer -/

/-- Only OUT differs. -/
def OnlyOut (p q : Spaces) : Prop := ∃ m, q = { p with out := m }

theorem OnlyOut.refl (p : Spaces) : OnlyOut p p := ⟨p.out, rfl⟩

theorem OnlyOut.trans {p q r : Spaces} (h : OnlyOut p q) (h' : OnlyOut q r) : OnlyOut p r := by
  obtain ⟨m, rfl⟩ := h
  obtain ⟨m', rfl⟩ := h'
  exact ⟨m', rfl⟩

theorem OnlyOut.kept {p q : Spaces} (h : OnlyOut p q) : SpacesKept [.out] p q := by
  obtain ⟨m, rfl⟩ := h
  exact .of_out ..

theorem State.putBits_onlyOut (s : State) (v : BitVec 64) (n : Nat) : OnlyOut s.spaces (s.putBits v n).spaces := by
  simp only [State.putBits, State.flushWord]
  split
  · split
    · exact ⟨_, rfl⟩
    · exact .refl _
  · exact .refl _

theorem State.finishByte_onlyOut (s : State) : OnlyOut s.spaces s.finishByte.spaces := by
  simp only [State.finishByte]
  split
  · exact ⟨_, rfl⟩
  · exact .refl _

theorem finishBytes_onlyOut (fuel : Nat) (s : State) : OnlyOut s.spaces (finishBytes fuel s).spaces := by
  induction fuel generalizing s with
  | zero => exact .refl _
  | succ fuel ih =>
    simp only [finishBytes]
    split
    · exact .refl _
    · exact s.finishByte_onlyOut.trans (ih _)

theorem failOut_onlyOut (o : ErrorOutcome) (info : Nat) (start s : State) :
    OnlyOut s.spaces (failOut o info start s).state.spaces := ⟨_, rfl⟩

theorem bwFinishBody_onlyOut (s : State) : OnlyOut s.spaces (bwFinishBody s).state.spaces := by
  have hbytes := finishBytes_onlyOut s.writer.used s
  simp only [bwFinishBody]
  split
  · exact hbytes.trans (failOut_onlyOut .outOfMemory 11 s _)
  · exact hbytes

theorem State.emitOne_onlyOut {k : Nat} {e : Emission} (h : s.emitOne k e = some t) :
    OnlyOut s.spaces t.spaces := by
  cases e with
  | raw v n =>
    cases h
    exact s.putBits_onlyOut _ _
  | symbol tbl sym =>
    simp only [State.emitOne] at h
    split at h
    · cases h
      exact s.putBits_onlyOut _ _
    · split at h <;> cases h
      exact .refl _

theorem emitTokensBody_onlyOut (mode : SlotMode) (base : Nat) (s : State) :
    OnlyOut s.spaces (emitTokensBody mode base s).state.spaces := by
  simp only [emitTokensBody]
  split
  · exact .refl _
  · exact emitTokensLoop_keeps (P := fun u => OnlyOut s.spaces u.spaces) mode base
      (fun _ _ hu hv => hu.trans (State.emitOne_onlyOut hv))
      (fun o info u hu => hu.trans (failOut_onlyOut o info s u)) 0 0 (.refl _)

/-! ### Every command -/

/-- A command changes no space outside the W entries of its row (20_memory R66). -/
theorem exec_kept {i : Instr} (h : exec i s = .next t) : SpacesKept (s.mayWrite i) s.spaces t.spaces := by
  cases i with
  | nop | softReset | attemptBegin =>
    cases h
    exact .refl _ _
  | hcBuild =>
    simp only [exec, execHcBuild] at h
    refine runCommand_kept ?_ h
    exact .of_hc0 ..
  | hcBox =>
    simp only [exec, execHcBox] at h
    refine runCommand_kept ?_ h
    exact .of_hc1 ..
  | brGreedy sel =>
    simp only [exec, execBrGreedy] at h
    exact runCommand_kept (brGreedyBody_kept sel) h
  | brRle =>
    simp only [exec, execBrRle] at h
    refine runCommand_kept ?_ h
    exact State.endBuilder_kept _
  | cacheApply =>
    simp only [exec, execCacheApply] at h
    exact runCommand_kept cacheApplyBody_kept h
  | cacheSearch =>
    simp only [exec, execCacheSearch] at h
    exact runCommand_kept (by rw [cacheSearchBody_spaces]; exact .refl _ _) h
  | tokSwap =>
    simp only [exec, execTokSwap] at h
    exact runCommand_kept (.refl _ _) h
  | dpSolve sel =>
    simp only [exec, execDpSolve] at h
    exact runCommand_kept (dpSolveBody_kept sel) h
  | histClear slot =>
    simp only [exec, execHistClear] at h
    refine runCommand_kept ?_ h
    exact .of_hist ..
  | histBuild mode slot =>
    simp only [exec, execHistBuild] at h
    exact runCommand_kept (histBuildBody_kept mode _) h
  | histAdd slot =>
    simp only [exec, execHistAdd] at h
    exact runCommand_kept (histAddBody_kept _ _) h
  | histEst slot =>
    simp only [exec, execHistEst] at h
    refine runCommand_kept ?_ h
    exact .of_costs ..
  | histCombine slot =>
    simp only [exec, execHistCombine] at h
    refine runCommand_kept ?_ h
    exact .refl _ _
  | cluster slot =>
    simp only [exec, execCluster] at h
    exact runCommand_kept (clusterBody_kept _ _) h
  | huffLen slot =>
    simp only [exec, execHuffLen] at h
    exact runCommand_kept (huffLenBody_kept _) h
  | huffCode slot =>
    simp only [exec, execHuffCode] at h
    exact runCommand_kept (huffCodeBody_kept _) h
  | bwInit =>
    simp only [exec, execBwInit] at h
    exact runCommand_kept (.refl _ _) h
  | bwPut n =>
    simp only [exec, execBwPut] at h
    refine runCommand_kept ?_ h
    exact (s.putBits_onlyOut _ _).kept
  | bwFinish =>
    simp only [exec, execBwFinish] at h
    exact runCommand_kept (bwFinishBody_onlyOut s).kept h
  | emitTokens mode slot =>
    simp only [exec, execEmitTokens] at h
    exact runCommand_kept (emitTokensBody_onlyOut mode _ s).kept h
  | ccInit bits =>
    simp only [exec, execCcInit] at h
    exact runCommand_kept (ccInitBody_kept _) h
  | ccLookup =>
    simp only [exec, execCcLookup] at h
    exact runCommand_kept (.refl _ _) h
  | ccInsert =>
    simp only [exec, execCcInsert] at h
    refine runCommand_kept ?_ h
    exact .of_cc ..

end

end Sys2Proof.Machine

open Sys2Proof Sys2Proof.Machine

/-- Settles O14: the pseudocode of each command changes no other space, and neither does the end of a command. -/
theorem writesOnlyItsSpaces : Obligations.WritesOnlyItsSpaces := by
  unfold Obligations.WritesOnlyItsSpaces
  intro s t i h sp hsp j
  exact (exec_kept h).readElem hsp j

end

section
/-! SUPPORT. What the host reads and writes, while a command runs and while none does (20_memory R62 to R73). -/

namespace Sys2Proof.Machine

section
variable {s : State} {e : Bool}

/-! ### Answers -/

theorem sameCore_answer (s : State) (v : BitVec 64) : SameCore s (s.popHost.answer v).quiet :=
  ⟨rfl, rfl, rfl, rfl, rfl, rfl, rfl, rfl, rfl, rfl⟩

theorem sameCore_answerFree (s : State) : SameCore s s.popHost.answerFree.quiet :=
  ⟨rfl, rfl, rfl, rfl, rfl, rfl, rfl, rfl, rfl, rfl⟩

theorem State.readData_answer_quiet (s : State) (v : BitVec 64) : (s.answer v).quiet.env.readData = v := rfl

theorem State.hostRegRead_unassigned {off : BitVec 8} (h : ∀ r : Reg, r.offset ≠ off) :
    s.hostRegRead off = s.answer 0 := by
  cases hoff : Reg.ofOffset off with
  | none => simp [State.hostRegRead, hoff]
  | some r => exact absurd (Reg.offset_of_ofOffset hoff) (h r)

/-- A register the spec leaves open while a command runs answers freely, every other its value (20_memory R71). -/
theorem State.hostRegRead_offset (s : State) (r : Reg) :
    s.hostRegRead r.offset =
      if s.flags.busy && r.isResult then s.answerFree else s.answer ((s.regValue r).setWidth 64) := by
  simp [State.hostRegRead]

theorem sameCore_hostRegRead (s : State) (off : BitVec 8) : SameCore s (s.popHost.hostRegRead off).quiet := by
  simp only [State.hostRegRead]
  split
  · exact sameCore_answer s 0
  split
  · exact sameCore_answerFree s
  · exact sameCore_answer s _

theorem State.spaceSize_popHost (s : State) (sp : SpaceId) : s.popHost.spaceSize sp = s.spaceSize sp := by
  cases sp <;> rfl

/-! ### Writes -/

theorem State.hostRegWrite_busy (hbusy : s.flags.busy = true) {off : BitVec 8} (hoff : off ≠ 0x4C) (w : Word) :
    s.hostRegWrite off w = s := by
  simp only [State.hostRegWrite, hbusy, if_true]
  split
  · rfl
  · rename_i r hr
    have habort : r ≠ .abort := by
      rintro rfl
      exact hoff (Reg.offset_of_ofOffset hr).symm
    rw [if_neg habort]

theorem State.hostRegWrite_abort (s : State) (w : Word) : s.hostRegWrite 0x4C w = s.writeAbort w := by
  have habort : Reg.ofOffset 0x4C = some .abort := Reg.ofOffset_offset .abort
  simp only [State.hostRegWrite, habort]
  split <;> rfl

theorem State.hostSpaceWrite_busy (hbusy : s.flags.busy = true) (sp : SpaceId) (i : Nat) (v : BitVec 64) :
    s.hostSpaceWrite sp i v = s := if_pos hbusy

/-- Only PIX, GRPMAP and OUT are the host's to write (20_memory R73). -/
theorem State.writeElem_dropped (s : State) {sp : SpaceId} (hsp : ¬ (sp = .pix ∨ sp = .grpMap ∨ sp = .out))
    (i : Nat) (v : BitVec 64) : s.writeElem sp i v = s := by
  cases sp <;> simp_all [State.writeElem]

/-- The low bits of a value, the bits above cut off. -/
theorem setWidth_setWidth_eq_and (v : BitVec 64) {k : Nat} (hk : k ≤ 64) :
    (v.setWidth k).setWidth 64 = v &&& BitVec.ofNat 64 (2 ^ k - 1) := by
  have hpow : 2 ^ k ≤ 2 ^ 64 := Nat.pow_le_pow_right (by decide) hk
  have hpos : 0 < 2 ^ k := Nat.two_pow_pos k
  have hlow : v.toNat % 2 ^ k < 2 ^ k := Nat.mod_lt _ hpos
  apply BitVec.eq_of_toNat_eq
  rw [BitVec.toNat_and, BitVec.toNat_ofNat, Nat.mod_eq_of_lt (show 2 ^ k - 1 < 2 ^ 64 by omega),
    Nat.and_two_pow_sub_one_eq_mod, BitVec.toNat_setWidth, BitVec.toNat_setWidth,
    Nat.mod_eq_of_lt (show v.toNat % 2 ^ k < 2 ^ 64 by omega)]

/-- The element written holds the value, cut to its width (20_memory R63). -/
theorem State.readElem_writeElem_self (s : State) {sp : SpaceId} (hsp : sp = .pix ∨ sp = .grpMap ∨ sp = .out)
    (i : Nat) (v : BitVec 64) : (s.writeElem sp i v).readElem sp i =
      v &&& (if sp = .pix then 0xFFFFFFFF#64 else if sp = .grpMap then 0xFFFF#64 else 0xFF#64) := by
  obtain rfl | rfl | rfl := hsp <;>
    simp only [State.writeElem, State.imageChanged_spaces, State.readElem, Mem.read_write, if_true]
  · exact setWidth_setWidth_eq_and v (k := 32) (by decide)
  · exact setWidth_setWidth_eq_and v (k := 16) (by decide)
  · exact setWidth_setWidth_eq_and v (k := 8) (by decide)

theorem State.writeElem_kept (s : State) (sp : SpaceId) (i : Nat) (v : BitVec 64) :
    SpacesKept [sp] s.spaces (s.writeElem sp i v).spaces := by
  cases sp
  case pix => exact .of_pix ..
  case grpMap => exact .of_grpMap ..
  case out => exact .of_out ..
  all_goals exact .refl ..

/-- Every other element is as before (20_memory R63). -/
theorem State.readElem_writeElem_of_ne (s : State) {sp q : SpaceId} {i j : Nat} (v : BitVec 64)
    (hne : ¬ (q = sp ∧ j = i)) : (s.writeElem sp i v).readElem q j = s.readElem q j := by
  by_cases hq : q = sp
  · subst hq
    have hj : j ≠ i := fun hj => hne ⟨rfl, hj⟩
    cases q <;> simp [State.writeElem, State.readElem, Mem.read_write, hj]
  · exact (s.writeElem_kept sp i v).readElem (by simpa using hq) j

theorem State.readElem_quiet (s : State) (sp : SpaceId) (i : Nat) : s.quiet.readElem sp i = s.readElem sp i :=
  State.readElem_congr rfl sp i

theorem State.readElem_popHost (s : State) (sp : SpaceId) (i : Nat) : s.popHost.readElem sp i = s.readElem sp i :=
  State.readElem_congr rfl sp i

theorem step_infoRead {sel : Nat} (hbusy : s.flags.busy = true → e = true)
    (hop : s.hostNext e (.infoRead sel) = true) :
    step s = .next (s.popHost.answer ((s.infoValue sel).setWidth 64)).quiet :=
  step_hostNext hop hbusy

end

end Sys2Proof.Machine

open Sys2Proof Sys2Proof.Machine

/-- Settles O22: a read answers and leaves all but the environment. -/
theorem hostReadsChangeNothing : Obligations.HostReadsChangeNothing := by
  unfold Obligations.HostReadsChangeNothing
  intro s e hbusy
  refine ⟨fun off hop => ?_, fun sp i hi hop => ?_, fun sel hop => ?_⟩
  · refine ⟨_, step_hostNext hop hbusy, sameCore_hostRegRead s off, ?_, fun hnone => ?_⟩
    · rintro r rfl hopen
      have hfree : (s.popHost.flags.busy && r.isResult) = false := by
        obtain h | h := hopen <;> simp [h]
      rw [State.hostRegRead_offset, hfree, if_neg Bool.false_ne_true, State.readData_answer_quiet,
        State.regValue_popHost]
    · rw [State.hostRegRead_unassigned hnone]
      rfl
  · have hstep := step_hostNext hop hbusy
    rw [hostStep, if_pos (by rwa [State.spaceSize_popHost])] at hstep
    refine ⟨_, hstep, ?_, fun hidle => ?_⟩
    · simp only [State.hostSpaceRead]
      split
      · exact sameCore_answerFree s
      · exact sameCore_answer s _
    · simp only [State.hostSpaceRead, State.popHost_flags, hidle]
      exact s.readElem_popHost sp i
  · exact ⟨_, step_infoRead hbusy hop, sameCore_answer s _, rfl⟩

/-- Settles O21: while a command runs a write is dropped, but one of ABORT, which leaves its request. -/
theorem busyDropsWrites : Obligations.BusyDropsWrites := by
  unfold Obligations.BusyDropsWrites
  refine ⟨fun s op hrunning hop hcase => ?_, fun s e w hbusy hop => ?_⟩
  · have hstep := step_hostNext hop (fun _ => rfl)
    obtain ⟨off, w, rfl, hoff⟩ | ⟨sp, i, v, rfl, hi⟩ := hcase
    · rw [hostStep, State.hostRegWrite_busy (s := s.popHost) hrunning hoff] at hstep
      exact ⟨_, hstep, sameCore_quiet_popHost s⟩
    · rw [hostStep, if_pos (by rwa [State.spaceSize_popHost]),
        State.hostSpaceWrite_busy (s := s.popHost) hrunning] at hstep
      exact ⟨_, hstep, sameCore_quiet_popHost s⟩
  · have hstep := step_hostNext hop hbusy
    rw [hostStep, State.hostRegWrite_abort, State.writeAbort] at hstep
    refine ⟨_, hstep, ?_⟩
    split
    · refine ⟨rfl, ?_, rfl, rfl, rfl, ⟨rfl, rfl, rfl⟩, rfl⟩
      show (s.env.abortLate || s.flags.busy || (s.flags.busy && s.env.abortLine)) =
        (s.env.abortLate || s.flags.busy)
      cases s.flags.busy <;> simp
    · exact sameCore_quiet_popHost s

/-- Settles O24: the space takes the value cut to its element, or the write is dropped. -/
theorem spaceAccess : Obligations.SpaceAccess := by
  unfold Obligations.SpaceAccess
  intro s e sp i v hidle hop hi
  refine ⟨_, step_spaceWrite hidle hop hi, ?_⟩
  split
  · rename_i hsp
    refine ⟨?_, fun q j hne => ?_, ?_⟩
    · rw [State.readElem_quiet, State.readElem_writeElem_self _ hsp]
    · rw [State.readElem_quiet, State.readElem_writeElem_of_ne _ v hne, State.readElem_popHost]
    · obtain rfl | rfl | rfl := hsp <;> exact ⟨rfl, ⟨rfl, rfl, rfl⟩, ⟨fun _ => rfl, fun _ _ => rfl⟩, rfl⟩
  · rename_i hsp
    rw [State.writeElem_dropped _ hsp]
    exact sameCore_quiet_popHost s

end

section
/-! SUPPORT. The info window, selector by selector (20_memory R72). -/

namespace Sys2Proof.Machine

/-- The flags of a slot bit by bit: HBITS, four zeros, the valid bits from bit 8 on, zeros (20_memory R72). -/
theorem Slot.getLsbD_word (v : Slot) (i : Nat) :
    v.word.getLsbD i =
      if i < 4 then v.hbits.getLsbD i
      else if i < 8 then false
      else [v.histValid, v.costValid, v.lenValid, v.codeValid].getD (i - 8) false := by
  rcases Nat.lt_or_ge i 12 with hi | hi
  · simp only [Slot.word, bit, BitVec.getLsbD_setWidth, BitVec.getLsbD_append]
    interval_cases i <;> simp
  · rw [if_neg (by omega), if_neg (by omega), List.getD_eq_default _ _ (by simpa using Nat.le_sub_of_add_le hi),
      Slot.word, BitVec.getLsbD_setWidth, BitVec.getLsbD_of_ge _ _ hi, Bool.and_false]

/-- The fields of the word (20_memory R72). -/
theorem Slot.word_fields (v : Slot) :
    v.word.extractLsb' 0 4 = v.hbits ∧ v.word.getLsbD 8 = v.histValid ∧ v.word.getLsbD 9 = v.costValid ∧
      v.word.getLsbD 10 = v.lenValid ∧ v.word.getLsbD 11 = v.codeValid ∧ v.word.extractLsb' 4 4 = 0 ∧
      v.word.extractLsb' 12 20 = 0 := by
  simp only [Slot.getLsbD_word]
  refine ⟨?hbits, rfl, rfl, rfl, rfl, ?zeros, ?top⟩ <;> apply BitVec.eq_of_getLsbD_eq <;> intro i hi <;>
    simp only [BitVec.getLsbD_extractLsb', Slot.getLsbD_word, hi, decide_true, Bool.true_and]
  case hbits => simp [hi]
  case zeros => simp [show ¬ 4 + i < 4 by omega, show 4 + i < 8 by omega]
  case top => simp [show ¬ 12 + i < 4 by omega, show ¬ 12 + i < 8 by omega, show 4 ≤ 12 + i - 8 by omega]

section
variable (s : State)

/-- Above the selectors of the machine stand those of the slots. -/
theorem State.infoValue_of_gt {sel : Nat} (h : 0x00C < sel) :
    s.infoValue sel = if 0x100 ≤ sel ∧ (sel - 0x100) / 32 < s.caps.hMax then
      s.slotInfo ((sel - 0x100) / 32) ((sel - 0x100) % 32) else 0 := by
  unfold State.infoValue
  iterate 13 rw [if_neg (by omega)]

theorem State.infoValue_unassigned {sel : Nat}
    (h : (0x00C < sel ∧ sel < 0x100) ∨ 0x100 + 32 * s.caps.hMax ≤ sel) : s.infoValue sel = 0 := by
  rw [State.infoValue_of_gt s (by omega), if_neg (by omega)]

theorem State.infoValue_slot {k j : Nat} (hk : k < s.caps.hMax) (hj : j < 32) :
    s.infoValue (0x100 + 32 * k + j) = s.slotInfo k j := by
  have hdiv : (0x100 + 32 * k + j - 0x100) / 32 = k := by omega
  have hmod : (0x100 + 32 * k + j - 0x100) % 32 = j := by omega
  rw [State.infoValue_of_gt s (by omega), hdiv, hmod, if_pos ⟨by omega, hk⟩]

theorem State.slotInfo_tableCost (k : Nat) (t : Table) (high : Bool) :
    s.slotInfo k (4 + 2 * t.index + high.toNat) = costHalf (s.tableCostOf k t.index) high := by
  cases t <;> cases high <;> rfl

theorem State.slotInfo_trivial (k : Nat) (t : Table) :
    s.slotInfo k (16 + t.index) = markWord ((s.slot k).trivialSym.get t) := by
  cases t <;> rfl

theorem State.slotInfo_single (k : Nat) (t : Table) :
    s.slotInfo k (24 + t.index) = markWord ((s.slot k).single.get t) := by
  cases t <;> rfl

theorem State.slotInfo_unassigned (k : Nat) {j : Nat} (hj : j ∈ [1, 14, 15, 21, 22, 23, 29, 30, 31]) :
    s.slotInfo k j = 0 := by
  simp only [List.mem_cons, List.not_mem_nil, or_false] at hj
  unfold State.slotInfo
  iterate 5 rw [if_neg (by omega)]

theorem Table.index_lt (t : Table) : t.index < 5 := by
  cases t <;> decide

theorem toNat_widths (cur scr : BitVec 4) :
    ((scr ++ cur).setWidth 32 : Word).toNat = cur.toNat + 16 * scr.toNat := by
  have hc := cur.isLt
  have hs := scr.isLt
  rw [BitVec.toNat_setWidth, BitVec.toNat_append, ← Nat.shiftLeft_add_eq_or_of_lt hc, Nat.shiftLeft_eq]
  omega

end

end Sys2Proof.Machine

open Sys2Proof Sys2Proof.Machine

/-- Settles O25: an info read answers `State.infoValue`, the value of each selector. -/
theorem infoWindow : Obligations.InfoWindow := by
  unfold Obligations.InfoWindow
  intro s e sel hbusy hop
  refine ⟨_, step_infoRead hbusy hop, ?_⟩
  intro v
  have hv : v = s.infoValue sel := by
    show ((s.infoValue sel).setWidth 64).setWidth 32 = _
    simp
  clear_value v
  subst hv
  refine ⟨?sel, ?curLen, ?scrLen, ?ccBits, ?accLow, ?accHigh, ?used, ?pos, ?nMax, ?tokCap, ?hMax, ?outCap, ?widths,
    fun h hh => ⟨?word, ?unassigned, ?costLow, ?costHigh, fun tbl => ?tables⟩, s.infoValue_unassigned⟩
  case sel =>
    rintro rfl
    cases hsel : s.bufs.sel <;> simp [State.infoValue, hsel]
  case ccBits =>
    rintro rfl
    exact BitVec.toNat_setWidth_of_le (show 4 ≤ 32 by decide)
  case widths =>
    rintro rfl
    exact toNat_widths s.bufs.curBits s.bufs.scrBits
  case word =>
    rintro rfl
    have hword : s.infoValue (0x100 + 32 * h) = (s.slot h).word := s.infoValue_slot hh (j := 0) (by decide)
    rw [hword]
    exact (s.slot h).word_fields
  case unassigned =>
    rintro k hk rfl
    have hlt : k < 32 := by
      simp only [List.mem_cons, List.not_mem_nil, or_false] at hk
      omega
    rw [s.infoValue_slot hh hlt, s.slotInfo_unassigned h hk]
  case costLow =>
    rintro rfl
    exact s.infoValue_slot hh (by decide)
  case costHigh =>
    rintro rfl
    exact s.infoValue_slot hh (by decide)
  case tables =>
    have ht := tbl.index_lt
    refine ⟨?_, ?_, ?_, ?_⟩ <;> rintro rfl
    · rw [Nat.add_assoc, s.infoValue_slot hh (by omega)]
      exact s.slotInfo_tableCost h tbl false
    · rw [Nat.add_assoc, s.infoValue_slot hh (by omega), show 5 + 2 * tbl.index = 4 + 2 * tbl.index + 1 by omega]
      exact s.slotInfo_tableCost h tbl true
    · rw [Nat.add_assoc, s.infoValue_slot hh (by omega), s.slotInfo_trivial]
      rfl
    · rw [Nat.add_assoc, s.infoValue_slot hh (by omega), s.slotInfo_single]
      rfl
  all_goals
    rintro rfl
    rfl

end

section
/-! SUPPORT. The command word is read and written by the same fields, so decoding and encoding are inverse to each
other, and a word that is no command's does no work (30_encoding R91 to R94). -/

namespace Sys2Proof

/-! ### The word and its fields (30_encoding R91) -/

/-- The four fields are the whole word. -/
theorem packWord_fields (w : Word) : packWord (opField w) (aField w) (bField w) (immField w) = w := by
  apply BitVec.eq_of_toNat_eq
  have hw := w.isLt
  simp only [packWord, opField, aField, bField, immField, BitVec.toNat_cast, BitVec.toNat_append,
    BitVec.extractLsb'_toNat, Nat.shiftRight_eq_div_pow]
  rw [← Nat.shiftLeft_add_eq_or_of_lt (by omega), ← Nat.shiftLeft_add_eq_or_of_lt (by omega),
    ← Nat.shiftLeft_add_eq_or_of_lt (by omega)]
  simp only [Nat.shiftLeft_eq]
  omega

@[simp] theorem Opcode.ofByte_byte (o : Opcode) : Opcode.ofByte o.byte = some o := by
  cases o <;> decide

theorem Opcode.byte_of_ofByte {b : BitVec 8} {o : Opcode} (h : Opcode.ofByte b = some o) : o.byte = b := by
  simpa using List.find?_some h

theorem Opcode.ofByte_eq_some {b : BitVec 8} {o : Opcode} : Opcode.ofByte b = some o ↔ o.byte = b :=
  ⟨Opcode.byte_of_ofByte, fun h => h ▸ Opcode.ofByte_byte o⟩

theorem Opcode.ofByte_eq_none {b : BitVec 8} : Opcode.ofByte b = none ↔ ∀ o : Opcode, o.byte ≠ b := by
  simp [Option.eq_none_iff_forall_ne_some, Opcode.ofByte_eq_some]

@[simp] theorem decodeSel_bits (sel : TableSel) : decodeSel sel.bits = some sel := by
  cases sel <;> rfl

theorem bits_of_decodeSel {a : BitVec 4} {sel : TableSel} (h : decodeSel a = some sel) : sel.bits = a := by
  unfold decodeSel at h
  split_ifs at h with h0 h1 <;> cases h
  exacts [h0.symm, h1.symm]

@[simp] theorem decodeMode_bits (m : SlotMode) : decodeMode m.bits = some m := by
  cases m <;> rfl

theorem bits_of_decodeMode {a : BitVec 4} {m : SlotMode} (h : decodeMode a = some m) : m.bits = a := by
  unfold decodeMode at h
  split_ifs at h with h0 h1 h2 <;> cases h
  exacts [h0.symm, h1.symm, h2.symm]

/-! ### Reading the operands back (30_encoding R93, R94) -/

/-- `i` is a well-formed command of opcode `o` that a word carries in its fields `a` and `imm`. -/
structure Instr.Carried (i : Instr) (o : Opcode) (a : BitVec 4) (imm : BitVec 16) : Prop where
  opcode : i.opcode = o
  aBits : i.aBits = a
  immBits : i.immBits = imm
  wf : i.wf = true

/-- A word that carries a command is the command's own. -/
theorem Instr.Carried.encode_eq {i : Instr} {o : Opcode} {a : BitVec 4} {imm : BitVec 16} (h : i.Carried o a imm) :
    encode i = packWord o.byte a 0 imm := by
  rw [encode, h.opcode, h.aBits, h.immBits]

section
variable {o : Opcode} {a : BitVec 4} {imm : BitVec 16} {i : Instr}

theorem carried_of_formatZ {j : Instr} (hj : j.Carried o 0 0) (h : formatZ a imm j = some i) : i.Carried o a imm := by
  unfold formatZ at h
  split_ifs at h with hzero
  obtain ⟨rfl, rfl⟩ := hzero
  cases h
  exact hj

theorem carried_of_formatA {f : TableSel → Instr} (hf : ∀ sel, (f sel).Carried o sel.bits 0)
    (h : formatA a imm f = some i) : i.Carried o a imm := by
  unfold formatA at h
  split_ifs at h with hzero
  obtain ⟨sel, hsel, rfl⟩ := Option.map_eq_some_iff.1 h
  rw [hzero, ← bits_of_decodeSel hsel]
  exact hf sel

theorem carried_of_formatI {f : BitVec 16 → Instr} (hf : ∀ slot, (f slot).Carried o 0 slot)
    (h : formatI a imm f = some i) : i.Carried o a imm := by
  unfold formatI at h
  split_ifs at h with hzero
  cases h
  exact hzero ▸ hf imm

theorem carried_of_formatAI {f : SlotMode → BitVec 16 → Instr} (hf : ∀ m slot, (f m slot).Carried o m.bits slot)
    (h : formatAI a imm f = some i) : i.Carried o a imm := by
  obtain ⟨m, hm, rfl⟩ := Option.map_eq_some_iff.1 h
  rw [← bits_of_decodeMode hm]
  exact hf m imm

/-- A small number survives in the low bits of its field. -/
theorem setWidth_setWidth_of_lt {k : Nat} (h : imm.toNat < 2 ^ k) : (imm.setWidth k).setWidth 16 = imm := by
  apply BitVec.eq_of_toNat_eq
  rw [BitVec.toNat_setWidth, BitVec.toNat_setWidth, Nat.mod_eq_of_lt h, Nat.mod_eq_of_lt imm.isLt]

/-- A number within its limit, held in the low `k` bits of `imm`: the operand of BW_PUT and of CC_INIT. -/
theorem carried_of_limit {k limit : Nat} {f : BitVec k → Instr} (hk : limit < 2 ^ k)
    (hf : ∀ n : BitVec k, n.toNat ≤ limit → (f n).Carried o 0 (n.setWidth 16))
    (h : (if a = 0 ∧ imm.toNat ≤ limit then some (f (imm.setWidth k)) else none) = some i) : i.Carried o a imm := by
  split_ifs at h with hlegal
  obtain ⟨rfl, hle⟩ := hlegal
  cases h
  have hlt : imm.toNat < 2 ^ k := by omega
  have hcarried := hf (imm.setWidth k) (by rwa [BitVec.toNat_setWidth, Nat.mod_eq_of_lt hlt])
  rwa [setWidth_setWidth_of_lt hlt] at hcarried

/-- The operands read are those the word carries, and the field `b` is zero. -/
theorem carried_of_decodeOperands {b : BitVec 4} (h : decodeOperands o a b imm = some i) :
    b = 0 ∧ i.Carried o a imm := by
  unfold decodeOperands at h
  by_cases hb : b ≠ 0
  · rw [if_pos hb] at h
    cases h
  rw [if_neg hb] at h
  refine ⟨not_not.1 hb, ?_⟩
  cases o
  case brGreedy | dpSolve => exact carried_of_formatA (fun _ => ⟨rfl, rfl, rfl, rfl⟩) h
  case histClear | histAdd | histEst | histCombine | cluster | huffLen | huffCode =>
    exact carried_of_formatI (fun _ => ⟨rfl, rfl, rfl, rfl⟩) h
  case histBuild | emitTokens => exact carried_of_formatAI (fun _ _ => ⟨rfl, rfl, rfl, rfl⟩) h
  case bwPut =>
    exact carried_of_limit (f := .bwPut) (by decide) (fun _ hn => ⟨rfl, rfl, rfl, decide_eq_true hn⟩) h
  case ccInit =>
    exact carried_of_limit (f := .ccInit) (by decide) (fun _ hn => ⟨rfl, rfl, rfl, decide_eq_true hn⟩) h
  all_goals exact carried_of_formatZ ⟨rfl, rfl, rfl, rfl⟩ h

end

/-- A number within its limit is read back from the low bits of `imm`: the operand of BW_PUT and of CC_INIT. -/
theorem readLimit_setWidth {k limit : Nat} (f : BitVec k → Instr) (hk : k ≤ 16) {n : BitVec k}
    (hn : n.toNat ≤ limit) :
    (if (0 : BitVec 4) = 0 ∧ (n.setWidth 16).toNat ≤ limit then some (f ((n.setWidth 16).setWidth k)) else none) =
      some (f n) := by
  rw [if_pos ⟨rfl, by rwa [BitVec.toNat_setWidth_of_le hk]⟩, BitVec.setWidth_setWidth_of_le n hk,
    BitVec.setWidth_eq]

/-- The operands of a well-formed command are read back. -/
theorem decodeOperands_fields {i : Instr} (hi : i.wf = true) :
    decodeOperands i.opcode i.aBits 0 i.immBits = some i := by
  cases i
  case brGreedy sel | dpSolve sel => simp [decodeOperands, formatA, Instr.opcode, Instr.aBits, Instr.immBits]
  case histBuild m slot | emitTokens m slot =>
    simp [decodeOperands, formatAI, Instr.opcode, Instr.aBits, Instr.immBits]
  case bwPut n => exact readLimit_setWidth .bwPut (by decide) (of_decide_eq_true hi)
  case ccInit bits => exact readLimit_setWidth .ccInit (by decide) (of_decide_eq_true hi)
  all_goals rfl

/-- A word decodes to the command whose word it is, and to no other. -/
theorem decodeWord_eq_ok {w : Word} {i : Instr} : decodeWord w = .ok i ↔ encode i = w ∧ i.wf = true := by
  constructor
  · intro h
    unfold decodeWord at h
    split at h
    · cases h
    · rename_i o ho
      split at h
      · cases h
      · rename_i j hoperands
        cases h
        obtain ⟨hb, hcarried⟩ := carried_of_decodeOperands hoperands
        refine ⟨?_, hcarried.wf⟩
        rw [hcarried.encode_eq, Opcode.byte_of_ofByte ho, ← hb, packWord_fields]
  · rintro ⟨rfl, hwf⟩
    obtain ⟨hop, ha, hb, himm⟩ := Laws.encode_fields i
    simp only [decodeWord, hop, ha, hb, himm, Opcode.ofByte_byte, decodeOperands_fields hwf]

/-- Why a word is illegal: no command has its opcode, or one has and its fields break the format. -/
theorem decodeWord_error {w : Word} {e : DecodeError} (h : decodeWord w = .error e) :
    (e = .unknownOpcode (opField w) ∧ ∀ o : Opcode, o.byte ≠ opField w) ∨
      (e = .illegalField (opField w) ∧ ∃ o : Opcode, o.byte = opField w) := by
  unfold decodeWord at h
  split at h
  · rename_i hnone
    cases h
    exact .inl ⟨rfl, Opcode.ofByte_eq_none.1 hnone⟩
  · rename_i o ho
    split at h
    · cases h
      exact .inr ⟨rfl, o, Opcode.byte_of_ofByte ho⟩
    · cases h

namespace Machine

/-- With no operation of the host between, a step runs the word in CMD (49_system R320). -/
theorem step_of_commandNext {s : State} (h : s.commandNext = true) : step s = runWord s := by
  unfold step
  revert h
  unfold State.commandNext
  cases s.env.host with
  | nil => exact fun hbusy => if_pos hbusy
  | cons e _ => exact fun hlate => if_pos hlate

theorem runWord_error {s : State} {e : DecodeError} (h : decodeWord s.regs.cmd = .error e) :
    runWord s = .next (s.raise e.op .invalidParam e.check) := by
  simp only [runWord, h]

end Machine

end Sys2Proof

open Sys2Proof Sys2Proof.Machine

/-- Settles O2: the fields of a command's word are those its operands are read from. -/
theorem decodeEncode : Obligations.DecodeEncode := by
  unfold Obligations.DecodeEncode
  intro i hwf
  exact decodeWord_eq_ok.2 ⟨rfl, hwf⟩

/-- Settles O3: a word that decodes carries the command in all its fields. -/
theorem encodeDecode : Obligations.EncodeDecode := by
  unfold Obligations.EncodeDecode
  intro w i h
  exact decodeWord_eq_ok.1 h

/-- Settles O5: a word that is no command's does not decode, and its error is raised before any work. -/
theorem illegalWordEnds : Obligations.IllegalWordEnds := by
  unfold Obligations.IllegalWordEnds
  intro s hnext hillegal
  rw [step_of_commandNext hnext]
  cases hdecode : decodeWord s.regs.cmd with
  | ok i =>
    obtain ⟨hword, hwf⟩ := decodeWord_eq_ok.1 hdecode
    exact absurd hword (hillegal i hwf)
  | error e =>
    refine ⟨_, runWord_error hdecode, ?_⟩
    obtain ⟨rfl, hnone⟩ | ⟨rfl, hsome⟩ := decodeWord_error hdecode
    · exact ⟨fun _ => State.raise_atStart .., fun ⟨o, ho⟩ => absurd ho (hnone o)⟩
    · obtain ⟨o, ho⟩ := hsome
      exact ⟨fun hnone => absurd ho (hnone o), fun _ => State.raise_atStart ..⟩

/-- Settles O1: each of the words is evaluated. -/
theorem decodeSamples : Obligations.DecodeSamples := by
  unfold Obligations.DecodeSamples
  decide

end

section
/-! SUPPORT. Prefix codes and distance codes: their parts, their inverse and their ranges (30_encoding R104 to
R108). -/

namespace Sys2Proof.Machine

/-! ### Prefix codes (30_encoding R106, R107) -/

theorem prefixEncode_of_le_two {v : Nat} (hv : v ≤ 2) : prefixEncode v = ⟨v - 1, 0, 0⟩ := if_pos hv

theorem prefixEncode_of_three_le {v : Nat} (hv : 3 ≤ v) :
    prefixEncode v = ⟨2 * Nat.log2 (v - 1) + (v - 1) / 2 ^ (Nat.log2 (v - 1) - 1) % 2, Nat.log2 (v - 1) - 1,
      (v - 1) % 2 ^ (Nat.log2 (v - 1) - 1)⟩ := if_neg (by omega)

theorem log2_pos_of_two_le {d : Nat} (hd : 2 ≤ d) : 1 ≤ Nat.log2 d :=
  (Nat.le_log2 (by omega)).2 hd

/-- The two highest bits of a number from 2 on: the upper one is set. -/
theorem div_two_pow_log2_sub_one {d : Nat} (hd : 2 ≤ d) :
    d / 2 ^ (Nat.log2 d - 1) = 2 + d / 2 ^ (Nat.log2 d - 1) % 2 := by
  obtain ⟨m, hm⟩ : ∃ m, Nat.log2 d = m + 1 := ⟨_, (Nat.sub_add_cancel (log2_pos_of_two_le hd)).symm⟩
  have hlow : 2 ^ (m + 1) ≤ d := hm ▸ Nat.log2_self_le (by omega)
  have hhigh : d < 2 ^ (m + 1 + 1) := hm ▸ Nat.lt_log2_self
  have htwo : 2 ≤ d / 2 ^ m := (Nat.le_div_iff_mul_le (Nat.two_pow_pos m)).2 (by omega)
  have hfour : d / 2 ^ m < 4 := (Nat.div_lt_iff_lt_mul (Nat.two_pow_pos m)).2 (by omega)
  rw [hm, Nat.add_sub_cancel]
  omega

/-- What `prefixEncode` splits a number into: its two highest bits, then the extra bits. -/
theorem prefixEncode_inverse {d : Nat} (hd : 2 ≤ d) :
    d = (2 + d / 2 ^ (Nat.log2 d - 1) % 2) * 2 ^ (Nat.log2 d - 1) + d % 2 ^ (Nat.log2 d - 1) := by
  rw [← div_two_pow_log2_sub_one hd, Nat.div_add_mod']

/-- The codes below `2 * k` are those of the values up to `2 ^ k`. -/
theorem prefixEncode_code_lt {v k : Nat} (hk : 1 ≤ k) (hv : v ≤ 2 ^ k) : (prefixEncode v).code < 2 * k := by
  rcases Nat.lt_or_ge 2 v with h | h
  · have hlog : Nat.log2 (v - 1) < k := (Nat.log2_lt (by omega)).2 (by omega)
    rw [prefixEncode_of_three_le h]
    show 2 * Nat.log2 (v - 1) + _ % 2 < 2 * k
    omega
  · rw [prefixEncode_of_le_two h]
    show v - 1 < 2 * k
    omega

/-! ### Distance codes (30_encoding R108, R109) -/

/-- Only row 0 has entries that are no code: those of the pixel itself and of what follows it. -/
theorem planeLut_le_119 : ∀ i < 128, i < 8 ∨ 16 ≤ i → planeLut.getD i 255 ≤ 119 := by decide

/-- A pixel in the plane gets its entry, any other its distance after the 120 entries. -/
theorem distanceCodeDefault_bounds (xs : Nat) {d : Nat} (hd : 1 ≤ d) :
    1 ≤ distanceCodeDefault xs d ∧ distanceCodeDefault xs d ≤ d + 120 := by
  have hfirst : d / xs = 0 → d - d / xs * xs = d := fun h => by simp [h]
  simp only [distanceCodeDefault]
  generalize d - d / xs * xs = xo at hfirst ⊢
  generalize d / xs = yo at hfirst ⊢
  split_ifs with hleft hright
  · have hentry := planeLut_le_119 (yo * 16 + 8 - xo) (by omega) (by omega)
    omega
  · have hentry := planeLut_le_119 ((yo + 1) * 16 + 8 + (xs - xo)) (by omega) (by omega)
    omega
  · omega

theorem distanceCode_bounds (f : Fns) (xs : Nat) {d : Nat} (hd : 1 ≤ d) :
    1 ≤ distanceCode f xs d ∧ distanceCode f xs d ≤ d + 120 := by
  unfold distanceCode
  split
  · exact distanceCodeDefault_bounds xs hd
  · omega

end Sys2Proof.Machine

open Sys2Proof Sys2Proof.Machine

/-- Settles O59: the code holds the two highest bits of the value less one, and the bits below are extra bits. -/
theorem prefixCodes : Obligations.PrefixCodes := by
  unfold Obligations.PrefixCodes
  refine ⟨fun v _ hv => prefixEncode_of_le_two hv, fun v hv => ?_⟩
  have hinverse := prefixEncode_inverse (d := v - 1) (by omega)
  have hlog : 1 ≤ Nat.log2 (v - 1) := log2_pos_of_two_le (by omega)
  rw [prefixEncode_of_three_le hv]
  dsimp only
  generalize Nat.log2 (v - 1) = hb at hinverse hlog ⊢
  have hnbits : hb - 1 = extraBits (2 * hb + (v - 1) / 2 ^ (hb - 1) % 2) := by
    unfold extraBits
    split_ifs <;> omega
  refine ⟨rfl, rfl, rfl, hnbits, hnbits, Nat.mod_lt _ (Nat.two_pow_pos _), ?_⟩
  split_ifs with hsmall
  · obtain rfl : hb = 1 := by omega
    simp only [Nat.sub_self, pow_zero, Nat.div_one] at hinverse ⊢
    omega
  · have hparity : (2 * hb + (v - 1) / 2 ^ (hb - 1) % 2) % 2 = (v - 1) / 2 ^ (hb - 1) % 2 := by omega
    rw [hparity, ← hinverse]
    omega

/-- Settles O60: a distance code is at most 2^20, a length at most 2^12. -/
theorem distanceCodes : Obligations.DistanceCodes := by
  unfold Obligations.DistanceCodes
  refine ⟨fun f xs d _ hd => ?_, fun l _ hl => ?_, by decide, by decide, by decide, by decide, by decide, by decide⟩
  · obtain ⟨hpos, hle⟩ := distanceCode_bounds f xs hd
    refine ⟨hpos, hle, fun hwindow => ?_⟩
    have hmax : distanceCode f xs d ≤ 2 ^ 20 := by
      have : Config.windowSize = 2 ^ 20 - 120 := rfl
      omega
    exact ⟨hmax, Nat.le_of_lt_succ (prefixEncode_code_lt (by decide) hmax)⟩
  · exact Nat.le_of_lt_succ (prefixEncode_code_lt (k := 12) (by decide) (by omega))

end

section
/-! SUPPORT. HC_BUILD: the table as a function of its inputs, and which match each entry is (41_hash_chain R130 to
R140). -/

namespace Sys2Proof.Machine

section
variable {s : State} {px : Nat → Pixel}

/-! ### Pixels, run lengths and keys (41_hash_chain R134) -/

theorem pixelRun_eq (hwf : s.spaces.pix.wf = true) :
    s.spaces.pix.run 0 0 s.pixelCount = (List.range' 0 s.pixelCount).map s.px := by
  simp [Mem.run_eq 0 0 s.pixelCount hwf, List.range_eq_range', State.px]

/-- The number of equal pixels from position `i` on, of those below `n`. -/
def runAt (px : Nat → Pixel) (n i : Nat) : Nat := 1 + lcp px i (i + 1) (n - 1 - i)

theorem runLengths_cons_cons {p q : Pixel} {rest : List Pixel} {r : Nat} {rs : List Nat}
    (h : runLengths (q :: rest) = r :: rs) :
    runLengths (p :: q :: rest) = (if p = q then r + 1 else 1) :: r :: rs := by
  conv_lhs => unfold runLengths
  rw [h]

theorem runLengths_pixels (px : Nat → Pixel) (p k : Nat) :
    runLengths ((List.range' p k).map px) = (List.range' p k).map (runAt px (p + k)) := by
  induction k generalizing p with
  | zero => rfl
  | succ k ih =>
    cases k with
    | zero => simp [runLengths, runAt, lcp]
    | succ k =>
      have hrest := ih (p + 1)
      have hmore : p + 1 + (k + 1) - 1 - (p + 1) = k := by omega
      have hhere : p + 1 + (k + 1) - 1 - p = k + 1 := by omega
      rw [show p + (k + 1 + 1) = p + 1 + (k + 1) by omega, List.range'_succ (s := p)]
      rw [List.range'_succ] at hrest ⊢
      simp only [List.map_cons] at hrest ⊢
      rw [runLengths_cons_cons hrest]
      congr 1
      simp only [runAt, hhere, hmore, lcp]
      split <;> omega

theorem chainKeys_pixels (f : Fns) (px : Nat → Pixel) (r : Nat → Nat) (p k : Nat) :
    chainKeys f ((List.range' p (k + 1)).map px) ((List.range' p (k + 1)).map r) =
      (List.range' p k).map (fun i => chainKey f (r i) (px i) (px (i + 1))) := by
  induction k generalizing p with
  | zero => rfl
  | succ k ih =>
    have hrest := ih (p + 1)
    rw [List.range'_succ] at hrest
    simp only [List.range'_succ (s := p), List.range'_succ (s := p + 1), List.map_cons, chainKeys,
      List.cons.injEq, true_and]
    simpa only [List.map_cons] using hrest

/-! ### The chain (41_hash_chain R134) -/

/-- The latest position before `p` with key `k`. -/
def latest (key : Nat → Option Nat) (p k : Nat) : Option Nat :=
  (List.range p).reverse.find? (fun q => decide (key q = some k))

theorem latest_succ (key : Nat → Option Nat) (p k : Nat) :
    latest key (p + 1) k = if key p = some k then some p else latest key p k := by
  simp only [latest, List.range_succ, List.reverse_append, List.reverse_singleton, List.singleton_append,
    List.find?_cons]
  by_cases h : key p = some k <;> simp [h]

/-- A map from buckets to their latest positions answers the chain; position `n - 2`, which it leaves out, is the
last one looked up. -/
theorem chainPrevs_eq (n : Nat) (key : Nat → Option Nat) (p k : Nat) (hk : p + k + 1 ≤ n)
    {head : List (Nat × Nat)} (hhead : 0 < k → ∀ v, cellAt head v = latest key p v) :
    chainPrevs n p head ((List.range' p k).map key) =
      (List.range' p k).map (fun i => (key i).bind (latest key i)) := by
  induction k generalizing p head with
  | zero => rfl
  | succ k ih =>
    have hlatest := hhead (Nat.succ_pos k)
    simp only [List.range'_succ, List.map_cons]
    cases hkey : key p with
    | none =>
      simp only [chainPrevs, Option.bind_none, List.cons.injEq, true_and]
      refine ih (p + 1) (by omega) (fun _ v => ?_)
      rw [hlatest, latest_succ, hkey, if_neg (by simp)]
    | some u =>
      simp only [chainPrevs, Option.bind_some, hlatest, List.cons.injEq, true_and]
      refine ih (p + 1) (by omega) (fun hpos v => ?_)
      rw [if_pos (by omega), latest_succ, hkey]
      simp only [cellAt, hlatest, Option.some.injEq]

theorem State.chainPrev_eq (s : State) (p : Nat) :
    s.chainPrev p = (s.chainKeyAt p).bind (latest s.chainKeyAt p) := by
  unfold State.chainPrev
  cases hkey : s.chainKeyAt p with
  | none => simp
  | some k => simp [latest]

/-- The chain the search walks is the one of 41_hash_chain R134. -/
theorem State.matchInput_prev (hwf : s.spaces.pix.wf = true) {p : Nat} (hp : p + 2 ≤ s.pixelCount) :
    s.matchInput.prev p = s.chainPrev p := by
  have hkeys : chainKeys s.fns (s.spaces.pix.run 0 0 s.pixelCount)
      (runLengths (s.spaces.pix.run 0 0 s.pixelCount)) =
        (List.range' 0 (s.pixelCount - 1)).map s.chainKeyAt := by
    obtain ⟨k, hk⟩ : ∃ k, s.pixelCount = k + 1 := ⟨s.pixelCount - 1, by omega⟩
    rw [pixelRun_eq hwf, runLengths_pixels, Nat.zero_add, hk, chainKeys_pixels, Nat.add_sub_cancel, ← hk]
    rfl
  have hprevs := chainPrevs_eq s.pixelCount s.chainKeyAt 0 (s.pixelCount - 1) (by omega) (head := [])
    (fun _ _ => rfl)
  have hlt : p < s.pixelCount - 1 := by omega
  rw [State.chainPrev_eq]
  simp [State.matchInput, hkeys, hprevs, hlt]

/-! ### The search (41_hash_chain R136, R137) -/

/-- The pixels counted lie in the image. -/
theorem lcp_congr {px' : Nat → Pixel} {n a b m : Nat} (hpx : ∀ q, q < n → px q = px' q) (hab : a ≤ b)
    (hb : b + m ≤ n) : lcp px a b m = lcp px' a b m := by
  induction m generalizing a b with
  | zero => rfl
  | succ m ih =>
    simp only [lcp]
    rw [hpx a (by omega), hpx b (by omega), ih (by omega) (by omega)]

theorem State.matchLength_eq (hwf : s.spaces.pix.wf = true) {p : Nat} (hp : p < s.pixelCount) (d : Nat) :
    lcp s.matchInput.px (p - d) p (min (s.pixelCount - p) Config.maxLength) = s.matchLength p d :=
  lcp_congr (fun q hq => (State.matchInput_px hwf q hq).symm) (Nat.sub_le p d) (by omega)

/-- `e` is the longest match among the distances `ds`, of equal lengths the nearest. -/
def BestOf (len : Nat → Nat) (ds : List Nat) (e : Nat × Nat) : Prop :=
  (e = (0, 0) ∧ ∀ d ∈ ds, len d = 0) ∨
  (e.1 ∈ ds ∧ e.2 = len e.1 ∧ 0 < e.2 ∧ ∀ d ∈ ds, len d ≤ e.2 ∧ (len d = e.2 → e.1 ≤ d))

theorem State.bestExamined_iff {p : Nat} {e : Nat × Nat} :
    s.BestExamined p e ↔ BestOf (s.matchLength p) (s.examined p) e := Iff.rfl

theorem BestOf.nil (len : Nat → Nat) : BestOf len [] (0, 0) := .inl ⟨rfl, by simp⟩

/-- One more candidate considered (41_hash_chain R137). -/
theorem BestOf.consider {base maxLen : Nat} {len : Nat → Nat}
    (hlen : ∀ d, lcp px (base - d) base maxLen = len d) {ds : List Nat} {e : Nat × Nat} (h : BestOf len ds e)
    (d : Nat) : BestOf len (ds ++ [d]) (consider px base maxLen e d) := by
  simp only [BestOf, Machine.consider, hlen, List.mem_append, List.mem_singleton, or_imp, forall_and,
    forall_eq] at h ⊢
  obtain ⟨rfl, hnone⟩ | ⟨hmem, he, hpos, hmax, hnear⟩ := h
  · by_cases hd : len d = 0
    · exact .inl ⟨by simp [hd], hnone, hd⟩
    · refine .inr ?_
      have hbetter : 0 < len d := Nat.pos_of_ne_zero hd
      rw [if_pos (.inl hbetter)]
      exact ⟨.inr rfl, rfl, hbetter, ⟨fun q hq => by simp [hnone q hq], Nat.le_refl _⟩,
        fun q hq heq => by rw [hnone q hq] at heq; omega, fun _ => Nat.le_refl d⟩
  · refine .inr ?_
    split
    · rename_i hbetter
      refine ⟨.inr rfl, rfl, by dsimp only; omega, ⟨fun q hq => ?_, Nat.le_refl _⟩, fun q hq heq => ?_,
        fun _ => Nat.le_refl d⟩
      · have := hmax q hq
        dsimp only
        omega
      · have := hmax q hq
        have := hnear q hq
        dsimp only at heq ⊢
        omega
    · exact ⟨.inl hmem, he, hpos, ⟨hmax, by omega⟩, hnear, by omega⟩

theorem BestOf.foldl {base maxLen : Nat} {len : Nat → Nat}
    (hlen : ∀ d, lcp px (base - d) base maxLen = len d) (es : List Nat) {ds : List Nat} {e : Nat × Nat}
    (h : BestOf len ds e) : BestOf len (ds ++ es) (es.foldl (Machine.consider px base maxLen) e) := by
  induction es generalizing ds e with
  | nil => simpa using h
  | cons d es ih => simpa using ih (h.consider hlen d)

/-- The walk considers the distances of the chain, nearest first (41_hash_chain R136). -/
theorem State.chainWalk_eq (hwf : s.spaces.pix.wf = true) (hxs : 1 ≤ s.xs) {base maxLen : Nat}
    (hbase : base + 2 ≤ s.pixelCount) (budget : Nat) {q : Nat} (hq : q ≤ base) (best : Nat × Nat) :
    chainWalk s.matchInput.px s.matchInput.prev base maxLen (if s.window < base then base - s.window else 0)
        budget (s.matchInput.prev q) best =
      (s.chainDistances base budget q).foldl (consider s.matchInput.px base maxLen) best := by
  induction budget generalizing q best with
  | zero => rfl
  | succ budget ih =>
    rw [State.matchInput_prev hwf (by omega)]
    cases hprev : s.chainPrev q with
    | none => simp [chainWalk, State.chainDistances, hprev]
    | some r =>
      have hr : r < q :=
        (State.matchInput_sound hxs).prev q r (by rw [State.matchInput_prev hwf (by omega), hprev])
      simp only [chainWalk, State.chainDistances, hprev]
      by_cases hwindow : base ≤ r + s.window
      · rw [if_neg (by split <;> omega), if_pos hwindow, ih (by omega), List.foldl_cons]
      · rw [if_pos (by split <;> omega), if_neg hwindow, List.foldl_nil]

theorem State.matchInput_n (s : State) : s.matchInput.n = s.pixelCount := rfl
theorem State.matchInput_xs (s : State) : s.matchInput.xs = s.xs := rfl
theorem State.matchInput_im (s : State) : s.matchInput.im = iterMax s.regs.quality.toNat := rfl
theorem State.matchInput_win (s : State) : s.matchInput.win = s.window := rfl
theorem State.matchInput_low (s : State) : s.matchInput.low = s.lowEffort := rfl

/-- A search considers the examined distances in their order (41_hash_chain R136). -/
theorem State.matchSearch_eq (hwf : s.spaces.pix.wf = true) (hxs : 1 ≤ s.xs) {p : Nat}
    (hp : p + 2 ≤ s.pixelCount) :
    matchSearch s.matchInput p = (s.examined p).foldl
      (consider s.matchInput.px p (min (s.pixelCount - p) Config.maxLength)) (0, 0) := by
  have hwalk := fun budget best => State.chainWalk_eq hwf hxs hp budget (Nat.le_refl p) best
    (maxLen := min (s.pixelCount - p) Config.maxLength)
  rw [matchSearch, s.matchInput_n, s.matchInput_xs, s.matchInput_im, s.matchInput_win, s.matchInput_low]
  simp only [hwalk, State.examined, iterMax]
  split_ifs <;> rfl

/-- A search finds the best examined match (41_hash_chain R137). -/
theorem State.matchSearch_best (hwf : s.spaces.pix.wf = true) (hxs : 1 ≤ s.xs) {p : Nat}
    (hp : p + 2 ≤ s.pixelCount) : s.BestExamined p (matchSearch s.matchInput p) := by
  rw [State.bestExamined_iff, State.matchSearch_eq hwf hxs hp]
  exact (BestOf.nil _).foldl (State.matchLength_eq hwf (by omega)) _

/-! ### The window (41_hash_chain R132) -/

theorem one_le_windowFor (f : Fns) (q : Nat) {xs : Nat} (hxs : 1 ≤ xs) : 1 ≤ windowFor f q xs := by
  have hfold : ∀ (l : List Nat) (w : Nat), 1 ≤ w →
      1 ≤ l.foldl (fun w k => max w (min Config.windowSize (Config.ownWindowFor k xs))) w := by
    intro l
    induction l with
    | nil => exact fun w hw => hw
    | cons k l ih => exact fun w hw => ih _ (le_max_of_le_left hw)
  have hsize : 1 ≤ Config.windowSize := by decide
  unfold windowFor
  split
  · refine Nat.le_min.2 ⟨hsize, ?_⟩
    split_ifs <;> omega
  · split
    · exact hsize
    · exact hfold _ _ (Nat.le_refl 1)

theorem State.chainDistances_le_window {p budget q d : Nat} (h : d ∈ s.chainDistances p budget q) :
    d ≤ s.window := by
  induction budget generalizing q with
  | zero => cases h
  | succ budget ih =>
    simp only [State.chainDistances] at h
    split at h
    · cases h
    · split at h
      · obtain rfl | h := List.mem_cons.1 h
        · omega
        · exact ih h
      · cases h

theorem State.examined_le_window (hxs : 1 ≤ s.xs) {p d : Nat} (h : d ∈ s.examined p) : d ≤ s.window := by
  have hone : 1 ≤ s.window := one_le_windowFor _ _ hxs
  simp only [State.examined] at h
  split_ifs at h with hlow hrow
  · exact State.chainDistances_le_window h
  · obtain rfl | rfl | h : d = s.xs ∨ d = 1 ∨ _ := by simpa using h
    · exact hrow.2
    · exact hone
    · exact State.chainDistances_le_window h
  · obtain rfl | h := List.mem_cons.1 h
    · exact hone
    · exact State.chainDistances_le_window h

theorem State.one_mem_examined (hlow : s.lowEffort = false) (p : Nat) : 1 ∈ s.examined p := by
  simp only [State.examined, hlow, Bool.false_eq_true, if_false]
  split <;> simp

theorem State.BestExamined.le_window (hxs : 1 ≤ s.xs) {p : Nat} {e : Nat × Nat} (h : s.BestExamined p e) :
    e.1 ≤ s.window := by
  obtain ⟨rfl, -⟩ | ⟨hmem, -⟩ := h
  · exact Nat.zero_le _
  · exact State.examined_le_window hxs hmem

/-- A pixel equal to its left neighbour has a match at distance 1. -/
theorem State.matchLength_one_pos {p : Nat} (hp : p < s.pixelCount) (hpx : s.px p = s.px (p - 1)) :
    0 < s.matchLength p 1 := by
  unfold State.matchLength
  obtain ⟨m, hm⟩ : ∃ m, min (s.pixelCount - p) 4095 = m + 1 :=
    ⟨min (s.pixelCount - p) 4095 - 1, by omega⟩
  rw [hm, lcp, if_pos hpx.symm]
  exact Nat.succ_pos _

/-- Where distance 1 is examined a pixel equal to its left neighbour gets a match. -/
theorem State.BestExamined.len_pos {p : Nat} {e : Nat × Nat} (h : s.BestExamined p e)
    (hlow : s.lowEffort = false) (hp : p < s.pixelCount) (hpx : s.px p = s.px (p - 1)) : 0 < e.2 := by
  obtain ⟨-, hnone⟩ | ⟨-, -, hpos, -⟩ := h
  · have hzero := hnone 1 (s.one_mem_examined hlow p)
    have hone := State.matchLength_one_pos hp hpx
    omega
  · exact hpos

/-! ### Propagation to the left (41_hash_chain R138) -/

/-- The match `c` of the next position holds at position `p`: `State.carriesLeft` over a pixel function. -/
def Carries (px : Nat → Pixel) (p : Nat) (c : CarriedMatch) : Prop :=
  c.dist ≠ 0 ∧ c.dist ≤ p ∧ px (p - c.dist) = px p

variable {p : Nat} {c : CarriedMatch}

theorem propagate_of_not_carries (h : ¬ Carries px p c) : propagate px p c = none := by
  by_cases hend : c.dist = 0 ∨ p = 0
  · rw [propagate, if_pos hend]
  · have hleft : p < c.dist ∨ px (p - c.dist) ≠ px p := by
      by_contra hholds
      obtain ⟨hle, hpx⟩ := not_or.1 hholds
      exact h ⟨fun hzero => hend (.inl hzero), Nat.not_lt.1 hle, not_not.1 hpx⟩
    rw [propagate, if_neg hend, if_pos hleft]

theorem propagate_of_carries (hp : 1 ≤ p) (h : Carries px p c) :
    propagate px p c =
      if c.len = Config.maxLength ∧ c.dist ≠ 1 ∧ p + Config.maxLength < c.maxBase then none
      else if c.len < Config.maxLength then some ⟨c.dist, c.len + 1, p⟩ else some c := by
  obtain ⟨hdist, hle, hpx⟩ := h
  rw [propagate, if_neg (by omega), if_neg (not_or.2 ⟨by omega, not_not.2 hpx⟩)]

theorem propagate_grows (hp : 1 ≤ p) (h : Carries px p c) (hlen : c.len < 4095) :
    propagate px p c = some ⟨c.dist, c.len + 1, p⟩ := by
  rw [propagate_of_carries hp h, if_neg (fun hexit => Nat.ne_of_lt hlen hexit.1),
    if_pos (show c.len < Config.maxLength from hlen)]

theorem propagate_capped (hp : 1 ≤ p) (h : Carries px p c) (hlen : c.len = 4095) :
    propagate px p c = some c ∨ (c.dist ≠ 1 ∧ propagate px p c = none) := by
  rw [propagate_of_carries hp h]
  split_ifs with hexit hlt
  · exact .inr ⟨hexit.2.1, rfl⟩
  · exact absurd hlen (Nat.ne_of_lt hlt)
  · exact .inl rfl

/-- The match stored at position `p` after `c` at the next one: carried to the left, or searched for. -/
def matchAfter (m : MatchInput) (p : Nat) (c : CarriedMatch) : CarriedMatch :=
  (propagate m.px p c).getD ⟨(matchSearch m p).1, (matchSearch m p).2, p⟩

/-- Entry `e` of position `p` follows from entry `r` of the next one, wherever that was last lengthened. -/
def EntryFollows (m : MatchInput) (p : Nat) (r e : Nat × Nat) : Prop :=
  ∃ far, e = ((matchAfter m p ⟨r.1, r.2, far⟩).dist, (matchAfter m p ⟨r.1, r.2, far⟩).len)

/-- Every entry of consecutive positions from `p` on follows from its right neighbour. -/
def EntriesFollow (m : MatchInput) : Nat → List (Nat × Nat) → Prop
  | _, [] => True
  | _, [_] => True
  | p, e :: r :: es => EntryFollows m p r e ∧ EntriesFollow m (p + 1) (r :: es)

theorem EntriesFollow.getD {m : MatchInput} {es : List (Nat × Nat)} (h : EntriesFollow m p es) (i : Nat)
    (hi : i + 1 < es.length) : EntryFollows m (p + i) (es.getD (i + 1) (0, 0)) (es.getD i (0, 0)) := by
  induction i generalizing p es with
  | zero =>
    match es, h with
    | e :: r :: es, h => exact h.1
  | succ i ih =>
    match es, h with
    | e :: r :: es, h =>
      have hrest := ih h.2 (by simpa using hi)
      rwa [show p + 1 + i = p + (i + 1) by omega] at hrest

theorem matchLoop_succ (m : MatchInput) (b : Nat) (c : CarriedMatch) (acc : List (Nat × Nat)) :
    matchLoop m (b + 1) (propagate m.px (b + 1) c) acc =
      matchLoop m b (propagate m.px b (matchAfter m (b + 1) c))
        (((matchAfter m (b + 1) c).dist, (matchAfter m (b + 1) c).len) :: acc) := by
  unfold matchAfter
  cases h : propagate m.px (b + 1) c <;> simp only [matchLoop] <;> rfl

/-- The loop carries each match on from the one stored before it. -/
theorem matchLoop_follow (m : MatchInput) (b : Nat) (c : CarriedMatch) {acc : List (Nat × Nat)}
    (hacc : EntriesFollow m (b + 1) ((c.dist, c.len) :: acc)) :
    EntriesFollow m 1 (matchLoop m b (propagate m.px b c) ((c.dist, c.len) :: acc)) := by
  induction b generalizing c acc with
  | zero => exact hacc
  | succ b ih =>
    rw [matchLoop_succ]
    exact ih _ ⟨⟨c.maxBase, rfl⟩, hacc⟩

end

/-! ### The table (41_hash_chain R131, R139) -/

section
variable {s : State}

theorem State.hcTable_eq (hn : 3 ≤ s.pixelCount) :
    s.hcTable = (0, 0) :: matchLoop s.matchInput (s.pixelCount - 2) none [(0, 0)] :=
  if_neg (by omega)

/-- What was stored before the loop stands behind the entries it stores. -/
theorem getD_matchLoop (m : MatchInput) (b : Nat) (carried : Option CarriedMatch) (acc : List (Nat × Nat))
    (i : Nat) (e : Nat × Nat) : (matchLoop m b carried acc).getD (b + i) e = acc.getD i e := by
  induction b generalizing carried acc i with
  | zero => simp only [matchLoop, Nat.zero_add]
  | succ b ih =>
    simp only [matchLoop]
    rw [show b + 1 + i = b + (i + 1) by omega, ih, List.getD_cons_succ]

theorem State.hcTable_of_small (hn : s.pixelCount < 3) (p : Nat) : s.hcTable.getD p (0, 0) = (0, 0) := by
  simp only [State.hcTable, if_pos hn, List.getD_eq_getElem?_getD, List.getElem?_replicate]
  split <;> rfl

theorem State.hcTable_zero (s : State) : s.hcTable.getD 0 (0, 0) = (0, 0) := by
  by_cases hn : s.pixelCount < 3
  · exact State.hcTable_of_small hn 0
  · rw [State.hcTable_eq (Nat.not_lt.1 hn), List.getD_cons_zero]

theorem State.hcTable_last (s : State) : s.hcTable.getD (s.pixelCount - 1) (0, 0) = (0, 0) := by
  by_cases hn : s.pixelCount < 3
  · exact State.hcTable_of_small hn _
  · rw [State.hcTable_eq (Nat.not_lt.1 hn), show s.pixelCount - 1 = s.pixelCount - 2 + 1 by omega,
      List.getD_cons_succ]
    exact getD_matchLoop _ _ _ _ 0 _

theorem State.hcTable_getD_true (hwf : s.spaces.pix.wf = true) (hxs : 1 ≤ s.xs) {p : Nat}
    (hp : p < s.pixelCount) : MatchTrue s.px s.pixelCount p (s.hcTable.getD p (0, 0)) := by
  have hlen : p < s.hcTable.length := by rwa [State.length_hcTable]
  rw [List.getD_eq_getElem _ _ hlen]
  exact State.hcTable_true hwf hxs p hlen

theorem State.hcTable_follows {p : Nat} (h1 : 1 ≤ p) (h2 : p + 2 ≤ s.pixelCount) :
    EntryFollows s.matchInput p (s.hcTable.getD (p + 1) (0, 0)) (s.hcTable.getD p (0, 0)) := by
  have hfollow := matchLoop_follow s.matchInput (s.pixelCount - 2) ⟨0, 0, 0⟩ (acc := []) trivial
  obtain ⟨i, rfl⟩ : ∃ i, p = i + 1 := ⟨p - 1, by omega⟩
  have hentry := hfollow.getD i (by simp only [length_matchLoop, List.length_singleton]; omega)
  rw [Nat.add_comm 1 i] at hentry
  rw [State.hcTable_eq (by omega), List.getD_cons_succ, List.getD_cons_succ]
  exact hentry

/-! ### Which match an entry is (41_hash_chain R137, R138) -/

/-- What `Obligations.HcBuildTable` says of the entry `e` of position `p` when the next one holds `right`. -/
def State.EntryChosen (s : State) (p : Nat) (right e : Nat × Nat) : Prop :=
  if s.carriesLeft p right = true then
    (right.2 < 4095 → e = (right.1, right.2 + 1)) ∧
    (right.2 = 4095 → e = right ∨ (right.1 ≠ 1 ∧ s.BestExamined p e))
  else s.BestExamined p e

variable {p : Nat} {right e : Nat × Nat}

theorem State.carriesLeft_iff (hwf : s.spaces.pix.wf = true) (hp : p < s.pixelCount) (far : Nat) :
    s.carriesLeft p right = true ↔ Carries s.matchInput.px p ⟨right.1, right.2, far⟩ := by
  simp [State.carriesLeft, Carries, State.matchInput_px hwf p hp,
    State.matchInput_px hwf (p - right.1) (by omega)]

/-- An entry that follows from its right neighbour is that match grown, or the best examined one. -/
theorem State.entryChosen_of_follows (hwf : s.spaces.pix.wf = true) (hxs : 1 ≤ s.xs) (h1 : 1 ≤ p)
    (h2 : p + 2 ≤ s.pixelCount) (h : EntryFollows s.matchInput p right e) : s.EntryChosen p right e := by
  obtain ⟨far, rfl⟩ := h
  have hbest := State.matchSearch_best hwf hxs h2
  unfold State.EntryChosen matchAfter
  by_cases hcarries : Carries s.matchInput.px p ⟨right.1, right.2, far⟩
  · rw [if_pos ((State.carriesLeft_iff hwf (by omega) far).2 hcarries)]
    refine ⟨fun hlt => ?_, fun hmax => ?_⟩
    · rw [propagate_grows h1 hcarries hlt]
      rfl
    · obtain hsame | ⟨hdist, hnone⟩ := propagate_capped h1 hcarries hmax
      · rw [hsame]
        exact .inl rfl
      · rw [hnone]
        exact .inr ⟨hdist, hbest⟩
  · rw [if_neg (fun h => hcarries ((State.carriesLeft_iff hwf (by omega) far).1 h)),
      propagate_of_not_carries hcarries]
    exact hbest

/-- Carried from the right with its distance, or the best examined match. -/
theorem State.EntryChosen.cases (h : s.EntryChosen p right e) (hlen : right.2 ≤ 4095) :
    (e.1 = right.1 ∧ 0 < e.2) ∨ s.BestExamined p e := by
  unfold State.EntryChosen at h
  split at h
  · obtain ⟨hgrown, hcapped⟩ := h
    rcases Nat.lt_or_eq_of_le hlen with hlt | hmax
    · rw [hgrown hlt]
      exact .inl ⟨rfl, Nat.succ_pos _⟩
    · obtain rfl | ⟨-, hbest⟩ := hcapped hmax
      · exact .inl ⟨rfl, by omega⟩
      · exact .inr hbest
  · exact .inr h

theorem MatchTrue.len_le {px : Nat → Pixel} {n : Nat} (h : MatchTrue px n p e) : e.2 ≤ 4095 := by
  obtain rfl | ⟨-, -, -, -, hmax, -⟩ := h
  · exact Nat.zero_le _
  · exact hmax.trans (min_le_right _ _)

theorem State.hcTable_chosen (hwf : s.spaces.pix.wf = true) (hxs : 1 ≤ s.xs) (h1 : 1 ≤ p)
    (h2 : p + 2 ≤ s.pixelCount) :
    s.EntryChosen p (s.hcTable.getD (p + 1) (0, 0)) (s.hcTable.getD p (0, 0)) :=
  State.entryChosen_of_follows hwf hxs h1 h2 (State.hcTable_follows h1 h2)

/-- No distance exceeds the window: from the right end on each is an examined one or that of the right neighbour. -/
theorem State.hcTable_le_window (hwf : s.spaces.pix.wf = true) (hxs : 1 ≤ s.xs) (k : Nat)
    (hp : p + 1 + k = s.pixelCount) : (s.hcTable.getD p (0, 0)).1 ≤ s.window := by
  induction k generalizing p with
  | zero =>
    obtain rfl : p = s.pixelCount - 1 := by omega
    rw [State.hcTable_last]
    exact Nat.zero_le _
  | succ k ih =>
    have hright := ih (p := p + 1) (by omega)
    rcases Nat.eq_zero_or_pos p with rfl | hpos
    · rw [State.hcTable_zero]
      exact Nat.zero_le _
    · obtain ⟨hdist, -⟩ | hbest := (State.hcTable_chosen hwf hxs hpos (by omega)).cases
        (State.hcTable_getD_true hwf hxs (by omega)).len_le
      · rwa [hdist]
      · exact hbest.le_window hxs

/-! ### The command (41_hash_chain R131) -/

theorem starts_hcBuild (h : s.starts .hcBuild = true) :
    s.accepts = true ∧ firstFailing [(4, s.zeroDims), (5, s.badQuality), (6, s.badCtrl)] = none ∧
      s.overImage 1 = none := by
  simp only [State.starts, Bool.and_eq_true, decide_eq_true_eq] at h
  obtain ⟨⟨⟨-, haccepts⟩, hchecks⟩, hcap⟩ := h
  refine ⟨haccepts, ?_, hcap⟩
  simp only [State.checksPass, Instr.checks, State.fails, List.all_cons, List.all_nil, Bool.and_true,
    Bool.and_eq_true, Bool.not_eq_true', decide_eq_false_iff_not] at hchecks
  obtain ⟨hdims, hquality, hctrl⟩ := hchecks
  simp only [firstFailing_none, List.mem_cons, List.not_mem_nil, or_false, forall_eq_or_imp, forall_eq]
  refine ⟨?_, by simpa [State.badQuality] using hquality, by simpa [State.badCtrl] using hctrl⟩
  simpa [State.zeroDims, State.xs, State.ys, BitVec.toNat_eq] using hdims

/-- The state HC_BUILD leaves where it starts. -/
def State.hcBuilt (s : State) : State := (hcBuildBody s).state.endOk

theorem exec_hcBuild_of_starts (h : s.starts .hcBuild = true) : exec .hcBuild s = .next s.hcBuilt := by
  obtain ⟨haccepts, hchecks, hcap⟩ := starts_hcBuild h
  exact runCommand_ok (body := hcBuildBody) haccepts hchecks hcap rfl

theorem one_le_dims_of_starts (h : s.starts .hcBuild = true) : 1 ≤ s.xs ∧ 1 ≤ s.pixelCount := by
  obtain ⟨-, hchecks, -⟩ := starts_hcBuild h
  have hpos := State.pixelCount_pos_of_zeroDims (firstFailing_none.1 hchecks (4, s.zeroDims) (by simp))
  exact ⟨Nat.pos_of_mul_pos_right hpos, hpos⟩

theorem pix_wf_of_memory (h : Memory.wf s = true) : s.spaces.pix.wf = true :=
  (Spaces.wf_iff.1 (Memory.wf_iff.1 h).1).1

theorem State.length_packEntries (s : State) : (packEntries s.hcTable).length = s.pixelCount := by
  simp [packEntries, State.length_hcTable]

theorem State.hcBuilt_read (hp : p < s.pixelCount) :
    s.hcBuilt.spaces.hc0.read 1 p = (packEntries s.hcTable).getD p 0 :=
  Mem.read_put_zero _ _ _ (by rwa [State.length_packEntries])

theorem State.hcBuilt_entry (hwf : s.spaces.pix.wf = true) (hxs : 1 ≤ s.xs) (hp : p < s.pixelCount) :
    s.hcBuilt.hcEntry .hc0 p = s.hcTable.getD p (0, 0) := by
  have hlen : p < s.hcTable.length := by rwa [State.length_hcTable]
  have hpacked : (packEntries s.hcTable).getD p 0 = packEntry s.hcTable[p].1 s.hcTable[p].2 := by
    simp [packEntries, hlen]
  rw [State.hcEntry, State.hcBuilt_read hp, hpacked, List.getD_eq_getElem _ _ hlen]
  exact (State.hcTable_true hwf hxs p hlen).unpack_pack

/-- HC_BUILD writes HC0[0 .. N-1] alone (20_memory R66). -/
theorem State.hcBuilt_onlyWrites (s : State) :
    OnlyWrites (fun sp i => sp = .hc0 ∧ i < s.pixelCount) noSlots s s.hcBuilt := by
  refine ⟨fun sp i hout => ?_, fun h _ => ⟨rfl, rfl, fun _ _ => rfl⟩, rfl, rfl, rfl, rfl⟩
  cases sp
  case hc0 =>
    have hi : s.pixelCount ≤ i := by simpa using hout
    have hread : s.hcBuilt.spaces.hc0.read 1 i = s.spaces.hc0.read 1 i :=
      Mem.read_put_out _ _ _ _ _ (.inr (by rwa [State.length_packEntries, Nat.zero_add]))
    simp only [State.readElem, hread]
  all_goals rfl

/-- The table depends on the inputs R130 lists and on nothing else. -/
theorem State.hcTable_congr {u : State} (hs : s.spaces.pix.wf = true) (hu : u.spaces.pix.wf = true)
    (hfns : s.fns = u.fns) (hxs : s.xs = u.xs) (hcount : s.pixelCount = u.pixelCount)
    (hquality : s.regs.quality = u.regs.quality) (hlow : s.lowEffort = u.lowEffort)
    (hpx : ∀ p, p < s.pixelCount → s.px p = u.px p) : s.hcTable = u.hcTable := by
  have hpixels : s.spaces.pix.run 0 0 s.pixelCount = u.spaces.pix.run 0 0 u.pixelCount := by
    rw [pixelRun_eq hs, pixelRun_eq hu, ← hcount]
    exact List.map_congr_left (fun q hq => hpx q (by simpa using hq))
  have hinput : s.matchInput = u.matchInput := by
    rw [← hcount] at hpixels
    simp only [State.matchInput, ← hcount, hpixels, hfns, hxs, hquality, hlow]
  simp only [State.hcTable, hinput, hcount]

end

end Sys2Proof.Machine

open Sys2Proof Sys2Proof.Machine

/-- Settles O30: every entry follows from its right neighbour as R138 says, a search takes the best examined match, and
each distance is an examined one or that of the right neighbour. -/
theorem hcBuildTable : Obligations.HcBuildTable := by
  unfold Obligations.HcBuildTable
  intro s hstarts hmem
  have hwf := pix_wf_of_memory hmem
  obtain ⟨hxs, hcount⟩ := one_le_dims_of_starts hstarts
  have hentry := fun p (hp : p < s.pixelCount) => State.hcBuilt_entry hwf hxs hp
  refine ⟨s.hcBuilt, exec_hcBuild_of_starts hstarts, rfl, rfl, ⟨rfl, rfl, rfl⟩, s.hcBuilt_onlyWrites, ?_, ?_,
    windowFor_le _ _ _, fun p d l hp hdl => ?_⟩
  · rw [hentry 0 hcount, State.hcTable_zero]
  · rw [hentry _ (by omega), State.hcTable_last]
  rw [hentry p hp] at hdl
  have htrue := State.hcTable_getD_true hwf hxs hp
  have hwindow := State.hcTable_le_window hwf hxs (p := p) (s.pixelCount - (p + 1)) (by omega)
  rw [hdl] at htrue hwindow
  refine ⟨?_, fun hl => ?_, fun h1 h2 => ?_⟩
  · obtain hzero | ⟨hd, -, -, hl, -⟩ := htrue
    · cases hzero
      exact Iff.rfl
    · exact ⟨fun h => absurd h (Nat.ne_of_gt hl), fun h => absurd h (Nat.ne_of_gt hd)⟩
  · obtain hzero | ⟨hd, hdp, -, -, hmax, heq⟩ := htrue
    · cases hzero
      exact absurd hl (Nat.lt_irrefl 0)
    · exact ⟨hd, hdp, hwindow, hmax, heq⟩
  · have hchosen := State.hcTable_chosen hwf hxs h1 h2
    have hlen := (State.hcTable_getD_true hwf hxs (p := p + 1) (by omega)).len_le
    rw [hdl] at hchosen
    rw [hentry (p + 1) (by omega)]
    refine ⟨hchosen, fun hlow hpx => ?_⟩
    obtain ⟨-, hpos⟩ | hbest := hchosen.cases hlen
    · exact hpos
    · exact hbest.len_pos hlow hp hpx

/-- Settles O31: the table depends on the inputs listed, and HC0 holds it packed. -/
theorem hcBuildPure : Obligations.HcBuildPure := by
  unfold Obligations.HcBuildPure
  intro s u hs hu hsmem humem hfns hxsize hysize hquality hlow hpx
  have hxs : s.xs = u.xs := congrArg BitVec.toNat hxsize
  have hcount : s.pixelCount = u.pixelCount := congrArg₂ (· * ·) hxs (congrArg BitVec.toNat hysize)
  refine ⟨s.hcBuilt, u.hcBuilt, exec_hcBuild_of_starts hs, exec_hcBuild_of_starts hu, fun p hp => ?_⟩
  have htable := State.hcTable_congr (pix_wf_of_memory hsmem) (pix_wf_of_memory humem) hfns hxs hcount hquality
    hlow hpx
  simp only [State.readElem, State.hcBuilt_read hp, State.hcBuilt_read (hcount ▸ hp), htable]

end

section
/-! SUPPORT. A command that passes every test of its start: how it ends, and what the ends leave of the state in which
it was started (49_system R320, 60_exceptions R346, R348). -/

namespace Sys2Proof.Machine

section
variable {s t u : State} {i : Instr}

/-! ### The tests of the start (60_exceptions R348 to R350) -/

theorem State.starts_tests (h : s.starts i = true) :
    s.accepts = true ∧ s.checksPass i = true ∧ s.overCapacity i = none := by
  simp only [State.starts, Bool.and_eq_true, decide_eq_true_eq] at h
  obtain ⟨⟨⟨-, haccepts⟩, hchecks⟩, hcap⟩ := h
  exact ⟨haccepts, hchecks, hcap⟩

theorem State.fails_of_starts (h : s.starts i = true) {n : Nat} (hn : n ∈ i.checks) : s.fails i n = false := by
  obtain ⟨-, hchecks, -⟩ := State.starts_tests h
  simpa using List.all_eq_true.1 hchecks n hn

theorem State.fails_four (s : State) (i : Instr) : s.fails i 4 = s.zeroDims := by
  rw [Bool.eq_iff_iff]
  simp [State.fails, State.zeroDims, State.xs, State.ys, BitVec.toNat_eq]

/-- A command that runs check 4 has an image. -/
theorem State.one_le_of_starts (h : s.starts i = true) (h4 : 4 ∈ i.checks) :
    1 ≤ s.xs ∧ 1 ≤ s.pixelCount := by
  have hdims := State.fails_of_starts h h4
  rw [State.fails_four] at hdims
  exact ⟨(State.one_le_of_zeroDims hdims).1, State.pixelCount_pos_of_zeroDims hdims⟩

/-! ### How a command ends (49_system R320, 60_exceptions R346) -/

/-- The state after the command with opcode byte `op` whose pseudocode ended so. -/
def BodyEnd.ended (op : BitVec 8) : BodyEnd → State
  | .ok u => u.endOk
  | .fail o info u => u.raise op o info

/-- The checks a command lists are those `State.fails` numbers, so one that starts runs its pseudocode. -/
theorem runCommand_of_starts {o : Opcode} {checks : List (Nat × Bool)} {cap : Option Nat}
    {body : State → BodyEnd} (h : s.starts i = true)
    (hchecks : i.checks.map (fun n => (n, s.fails i n)) = checks) (hcap : s.overCapacity i = cap) :
    runCommand o true checks cap body s = .next ((body s).ended o.byte) := by
  obtain ⟨haccepts, -, hnone⟩ := State.starts_tests h
  have hpass : firstFailing checks = none := by
    rw [firstFailing_none, ← hchecks]
    intro c hc
    obtain ⟨n, hn, rfl⟩ := List.mem_map.1 hc
    exact State.fails_of_starts h hn
  rw [runCommand_body haccepts hpass (hcap ▸ hnone)]
  cases body s <;> rfl

theorem exec_hcBox_of_starts (h : s.starts .hcBox = true) :
    exec .hcBox s = .next ((hcBoxBody s).ended 0x11) := by
  rw [exec, execHcBox]
  exact runCommand_of_starts h (by simp [Instr.checks, State.fails_four]) rfl

theorem exec_brGreedy_of_starts {sel : TableSel} (h : s.starts (.brGreedy sel) = true) :
    exec (.brGreedy sel) s = .next ((brGreedyBody sel s).ended 0x20) :=
  runCommand_of_starts h (by simp only [Instr.checks, List.map, State.fails_four]; rfl) rfl

theorem exec_brRle_of_starts (h : s.starts .brRle = true) :
    exec .brRle s = .next ((brRleBody s).ended 0x21) := by
  rw [exec, execBrRle]
  exact runCommand_of_starts h (by simp [Instr.checks, State.fails_four]) rfl

theorem exec_cacheApply_of_starts (h : s.starts .cacheApply = true) :
    exec .cacheApply s = .next ((cacheApplyBody s).ended 0x23) := by
  rw [exec, execCacheApply]
  exact runCommand_of_starts h rfl rfl

theorem exec_tokSwap_of_starts (h : s.starts .tokSwap = true) :
    exec .tokSwap s = .next s.swapBuffers.endOk :=
  runCommand_of_starts (checks := []) (cap := none) (body := fun t => .ok t.swapBuffers) h rfl rfl

theorem exec_dpSolve_of_starts {sel : TableSel} (h : s.starts (.dpSolve sel) = true) :
    exec (.dpSolve sel) s = .next ((dpSolveBody sel s).ended 0x30) :=
  runCommand_of_starts h (by simp only [Instr.checks, List.map, State.fails_four]; rfl) rfl

theorem ErrorOutcome.code_ne_zero (o : ErrorOutcome) : o.code ≠ 0 := by
  cases o <;> decide

/-- A command that leaves no error code ran its pseudocode to the end. -/
theorem runCommand_of_errCode_zero {o : Opcode} {legal : Bool} {checks : List (Nat × Bool)} {cap : Option Nat}
    {body : State → BodyEnd} (h : runCommand o legal checks cap body s = .next t) (hcode : t.flags.errCode = 0) :
    (∀ c ∈ checks, c.2 = false) ∧ ∃ u, body s = .ok u ∧ t = u.endOk := by
  obtain ⟨e, info, rfl, -⟩ | ⟨-, -, hchecks, -, hok | ⟨e, info, u, -, rfl⟩⟩ := runCommand_cases h
  · exact absurd hcode e.code_ne_zero
  · exact ⟨firstFailing_none.1 hchecks, hok⟩
  · exact absurd hcode e.code_ne_zero

/-! ### What the pseudocode of the builders leaves (20_memory R66) -/

/-- Configuration, registers, writer, slots with their costs, program counter and environment as before. -/
structure BodyFrame (s u : State) : Prop where
  caps : u.caps = s.caps := by rfl
  fns : u.fns = s.fns := by rfl
  regs : u.regs = s.regs := by rfl
  writer : u.writer = s.writer := by rfl
  slots : u.slots = s.slots := by rfl
  bitCost : u.spaces.bitCost = s.spaces.bitCost := by rfl
  tableCost : u.spaces.tableCost = s.spaces.tableCost := by rfl
  pc : u.pc = s.pc := by rfl
  env : u.env = s.env := by rfl

theorem BodyFrame.refl (s : State) : BodyFrame s s where

theorem BodyFrame.putTokens (s : State) (b : Bool) (ts : List Token) : BodyFrame s (s.putTokens b ts) := by
  cases b <;> exact {}

theorem BodyFrame.redrawBuffer (s : State) (b : Bool) : BodyFrame s (s.redrawBuffer b) := by
  cases b <;> exact {}

theorem BodyFrame.sameCosts (h : BodyFrame s u) : SameCosts s u :=
  ⟨fun _ => by simp only [State.bitCostOf, h.bitCost], fun _ _ => by simp only [State.tableCostOf, h.tableCost]⟩

theorem BodyFrame.endOk_regs (h : BodyFrame s u) : u.endOk.regs = s.okRegs := by
  rw [State.endOk_regs, h.regs]
  rfl

theorem BodyFrame.onlyWrites (h : BodyFrame s u) {W : SpaceId → Nat → Prop} (helems : SameElems W s u) :
    OnlyWrites W noSlots s u.endOk := by
  refine ⟨fun sp i hout => (u.readElem_endOk sp i).trans (helems sp i hout), fun k _ => ?_, h.caps, h.fns, ?_, ?_⟩
  · obtain ⟨hbit, htable⟩ := h.sameCosts
    exact ⟨by simp only [State.slot, State.endOk_slots, h.slots], hbit k, fun j _ => htable k j⟩
  · rw [State.endOk_pc, h.pc]
  · simp only [State.endOk_env, h.env, State.doneIE, h.regs]

/-- A run-time raise: the error entry, the writer as before, and no element changed outside `W` (60_exceptions
R346). -/
def RaisedAtRun (s t : State) (op : BitVec 8) (o : ErrorOutcome) (info : Nat) (W : SpaceId → Nat → Prop) : Prop :=
  ErrorEntry s t op o info ∧ t.flags.bwErr = s.flags.bwErr ∧ t.writer = s.writer ∧ SameElems W s t

theorem BodyFrame.raised (h : BodyFrame s u) (hflags : u.flags = s.flags) (hbufs : u.bufs = s.bufs)
    {W : SpaceId → Nat → Prop} (helems : SameElems W s u) (op : BitVec 8) (o : ErrorOutcome) (info : Nat) :
    RaisedAtRun s (u.raise op o info) op o info W := by
  refine ⟨⟨?_, ?_, ?_, rfl, fun k => ?_, h.sameCosts, h.caps, h.fns, ?_, s.env.freeCount, ?_⟩, ?_, ?_,
    fun sp i hout => (u.readElem_raise op o info sp i).trans (helems sp i hout)⟩
  · simp only [State.raise_flags, State.errorFlags, hflags, h.env]
    rfl
  · rw [State.raise_regs, h.regs]
  · rw [State.raise_bufs, hbufs]
    rfl
  · rw [State.slot_raise]
    simp only [State.slot, h.slots]
  · rw [State.raise_pc, h.pc]
  · simp only [State.raise_env, h.env, State.doneIE, h.regs]
  · rw [State.raise_flags, hflags]
  · rw [State.raise_writer, h.writer]

theorem SpacesKept.sameElems {l : List SpaceId} (h : SpacesKept l s.spaces u.spaces) :
    SameElems (fun sp _ => sp ∈ l) s u := fun _ i hsp => h.readElem hsp i

/-! ### Token buffers -/

/-- Storing tokens changes the elements of their numbers alone. -/
theorem State.putTokens_sameElems (s : State) (b : Bool) (ts : List Token) :
    SameElems (fun sp i => sp = bufferId b ∧ i < ts.length) s (s.putTokens b ts) := by
  intro sp i hout
  by_cases hsp : sp = bufferId b
  · subst hsp
    have hi : 0 + (ts.map Token.record).length ≤ i := by simpa using hout
    cases b
    · exact Mem.read_put_out _ _ _ _ _ (.inr hi)
    · exact Mem.read_put_out _ _ _ _ _ (.inr hi)
  · exact (State.putTokens_kept b ts).readElem (by simpa using hsp) i

theorem State.redrawBuffer_sameElems (s : State) (b : Bool) :
    SameElems (fun sp _ => sp = bufferId b) s (s.redrawBuffer b) :=
  fun _ i hout => (State.redrawBuffer_kept b).readElem (by simpa using hout) i

/-- CUR holds what was stored in it. -/
theorem State.curTokens_of_stored {ts : List Token} (hrun : u.bufferRun u.bufs.sel ts.length = ts.map Token.record)
    (hlen : u.bufs.curLen = ts.length) (hfits : ∀ tok ∈ ts, tok.Fits) : u.curTokens = .ok ts := by
  rw [State.curTokens, hlen, hrun, tokensOf_records hfits]

theorem tokens_wf_of_memory (h : Memory.wf s = true) : s.spaces.tokA.wf = true ∧ s.spaces.tokB.wf = true := by
  obtain ⟨-, -, -, hA, hB, -⟩ := Spaces.wf_iff.1 (Memory.wf_iff.1 h).1
  exact ⟨hA, hB⟩

end

end Sys2Proof.Machine

open Sys2Proof Sys2Proof.Machine

/-- Settles O38: the second swap exchanges everything back, CUR_HAS_CACHE where it was in step with CUR_BITS. -/
theorem tokSwapEffect : Obligations.TokSwapEffect := by
  unfold Obligations.TokSwapEffect
  intro s hstarts
  have hframe : BodyFrame s s.swapBuffers := {}
  refine ⟨_, exec_tokSwap_of_starts hstarts, rfl, rfl, rfl, rfl, rfl, hframe.onlyWrites (fun _ _ _ => rfl),
    fun hcache => ?_⟩
  have hagain : s.swapBuffers.endOk.starts .tokSwap = true := by
    obtain ⟨haccepts, -, -⟩ := State.starts_tests hstarts
    obtain ⟨herror, -⟩ := State.accepts_iff.1 haccepts
    have haccepts' : s.swapBuffers.endOk.accepts = true := State.accepts_iff.2 ⟨herror, rfl⟩
    simp [State.starts, haccepts', State.checksPass, Instr.checks, State.overCapacity, Instr.wf]
  refine ⟨_, exec_tokSwap_of_starts hagain, ?_, ?_⟩
  · simp
  · simp only [State.endOk_flags, State.swapBuffers_flags, State.endOk_bufs, State.swapBuffers_bufs,
      State.okFlags, hcache]
    rfl

end

section
/-! SUPPORT. HC_BOX: which match each entry is (42_backward_refs R160, R161, R163). -/

namespace Sys2Proof.Machine

section
variable {s : State} {p : Nat}

/-! ### The offsets (42_backward_refs R161) -/

theorem mem_nearDistances {f : Fns} {xs bound : Nat} {e : Nat × Nat} :
    e ∈ nearDistances f xs bound ↔ 1 ≤ e.2 ∧ e.2 ≤ bound ∧ e.1 = distanceCode f xs e.2 ∧ e.1 ≤ 32 := by
  simp only [nearDistances, List.mem_filterMap, List.mem_range, Option.ite_none_right_eq_some, Option.some.injEq]
  constructor
  · rintro ⟨k, hk, hcode, rfl⟩
    exact ⟨Nat.succ_pos k, hk, rfl, hcode⟩
  · rintro ⟨hpos, hbound, hcode, hnear⟩
    refine ⟨e.2 - 1, by omega, ?_⟩
    rw [Nat.sub_add_cancel hpos, ← hcode]
    exact ⟨hnear, rfl⟩

/-- The offsets of one distance code, in their order. -/
theorem mem_offsetsOfCode {f : Fns} {xs bound c o : Nat} (hc : c < 32) :
    o ∈ ((nearDistances f xs bound).filter (fun e => e.1 == c + 1)).map Prod.snd ↔
      1 ≤ o ∧ o ≤ bound ∧ distanceCode f xs o = c + 1 := by
  simp only [List.mem_map, List.mem_filter, mem_nearDistances, beq_iff_eq]
  constructor
  · rintro ⟨e, ⟨⟨hpos, hbound, hcode, -⟩, he⟩, rfl⟩
    exact ⟨hpos, hbound, hcode ▸ he⟩
  · rintro ⟨hpos, hbound, hcode⟩
    exact ⟨(c + 1, o), ⟨⟨hpos, hbound, hcode.symm, hc⟩, rfl⟩, rfl⟩

/-- The offsets are the distances up to the bound whose code is at most 32. -/
theorem mem_boxOffsets_iff {f : Fns} {xs bound o : Nat} :
    o ∈ boxOffsets f xs bound ↔ 1 ≤ o ∧ o ≤ bound ∧ distanceCode f xs o ≤ 32 := by
  simp only [boxOffsets, List.mem_flatMap, List.mem_range]
  constructor
  · rintro ⟨c, hc, ho⟩
    obtain ⟨hpos, hbound, hcode⟩ := (mem_offsetsOfCode hc).1 ho
    exact ⟨hpos, hbound, by omega⟩
  · rintro ⟨hpos, hbound, hnear⟩
    obtain ⟨hcode, -⟩ := distanceCode_bounds f xs hpos
    have hlt : distanceCode f xs o - 1 < 32 := by omega
    exact ⟨_, hlt, (mem_offsetsOfCode hlt).2 ⟨hpos, hbound, by omega⟩⟩

/-- The offsets stand in the order of their codes. -/
theorem boxOffsets_sorted (f : Fns) (xs bound : Nat) :
    (boxOffsets f xs bound).Pairwise (fun o q => distanceCode f xs o ≤ distanceCode f xs q) := by
  refine List.pairwise_flatMap.2 ⟨fun c hc => ?_, ?_⟩
  · refine List.pairwise_of_forall_mem_list (fun o ho q hq => ?_)
    obtain ⟨-, -, hcode⟩ := (mem_offsetsOfCode (List.mem_range.1 hc)).1 ho
    obtain ⟨-, -, hcode'⟩ := (mem_offsetsOfCode (List.mem_range.1 hc)).1 hq
    omega
  · refine List.pairwise_lt_range.imp_of_mem (fun {c c'} hc hc' hlt o ho q hq => ?_)
    obtain ⟨-, -, hcode⟩ := (mem_offsetsOfCode (List.mem_range.1 hc)).1 ho
    obtain ⟨-, -, hcode'⟩ := (mem_offsetsOfCode (List.mem_range.1 hc')).1 hq
    omega

/-! ### The best offset (42_backward_refs R160) -/

/-- `e` is the longest of the matches at the offsets of `os` within `i` that are longer than `best`, of equal lengths
the one of least code, or `best` where none is longer. -/
def FirstLongest (len code : Nat → Nat) (i : Nat) (os : List Nat) (best e : Nat × Nat) : Prop :=
  (e = best ∧ ∀ o ∈ os, o ≤ i → len o ≤ best.2) ∨
  (e.1 ∈ os ∧ e.1 ≤ i ∧ e.2 = len e.1 ∧ best.2 < e.2 ∧
    ∀ o ∈ os, o ≤ i → len o ≤ e.2 ∧ (len o = e.2 → code e.1 ≤ code o))

theorem boxBest_firstLongest (px : Nat → Pixel) (code : Nat → Nat) (i maxLen : Nat) {os : List Nat}
    (hsorted : os.Pairwise (fun o q => code o ≤ code q)) (best : Nat × Nat) :
    FirstLongest (fun o => lcp px (i - o) i maxLen) code i os best (boxBest px i maxLen os best) := by
  induction os generalizing best with
  | nil => exact .inl ⟨rfl, by simp⟩
  | cons o os ih =>
    obtain ⟨hleast, hrest⟩ := List.pairwise_cons.1 hsorted
    simp only [boxBest]
    split
    · rename_i hbetter
      obtain ⟨heq, hshorter⟩ | ⟨hmem, hi, hlen, hlonger, hall⟩ := ih hrest (o, lcp px (i - o) i maxLen)
      · rw [heq]
        refine .inr ⟨List.mem_cons_self, hbetter.1, rfl, hbetter.2, List.forall_mem_cons.2
          ⟨fun _ => ⟨le_rfl, fun _ => le_rfl⟩, fun q hq hqi => ⟨hshorter q hq hqi, fun _ => hleast q hq⟩⟩⟩
      · refine .inr ⟨List.mem_cons_of_mem o hmem, hi, hlen, hbetter.2.trans hlonger, List.forall_mem_cons.2
          ⟨fun _ => ⟨hlonger.le, fun h => absurd h hlonger.ne⟩, hall⟩⟩
    · rename_i hworse
      have ho : o ≤ i → lcp px (i - o) i maxLen ≤ best.2 := fun hoi => Nat.not_lt.1 (fun h => hworse ⟨hoi, h⟩)
      obtain ⟨heq, hshorter⟩ | ⟨hmem, hi, hlen, hlonger, hall⟩ := ih hrest best
      · exact .inl ⟨heq, List.forall_mem_cons.2 ⟨ho, hshorter⟩⟩
      · have hless : o ≤ i → lcp px (i - o) i maxLen < (boxBest px i maxLen os best).2 :=
          fun hoi => (ho hoi).trans_lt hlonger
        exact .inr ⟨List.mem_cons_of_mem o hmem, hi, hlen, hlonger, List.forall_mem_cons.2
          ⟨fun hoi => ⟨(hless hoi).le, fun h => absurd h (hless hoi).ne⟩, hall⟩⟩

/-! ### The table (42_backward_refs R160, R163) -/

theorem State.nearOffset_iff {q : Nat} :
    s.nearOffset p q = true ↔ 1 ≤ q ∧ q ≤ Config.windowSize ∧ q ≤ p ∧ distanceCode s.fns s.xs q ≤ 32 := by
  simp [State.nearOffset]

/-- `e` is the longest match of 4 pixels or more among the near offsets, of equal lengths the one of least code, or
(0, 0) where there is none. -/
def State.BoxChosen (s : State) (p : Nat) (e : Nat × Nat) : Prop :=
  (e = (0, 0) ∧ ∀ q, s.nearOffset p q = true → s.matchLength p q < 4) ∨
  (s.nearOffset p e.1 = true ∧ 4 ≤ e.2 ∧ e.2 = s.matchLength p e.1 ∧
    ∀ q, s.nearOffset p q = true → s.matchLength p q ≤ e.2 ∧
      (s.matchLength p q = e.2 → distanceCode s.fns s.xs e.1 ≤ distanceCode s.fns s.xs q))

/-- The offsets tried at a position are the near ones. -/
theorem State.nearOffset_iff_mem (hp : p < s.pixelCount) {q : Nat} :
    s.nearOffset p q = true ↔
      q ∈ boxOffsets s.fns s.xs (min Config.windowSize (s.pixelCount - 1)) ∧ q ≤ p := by
  rw [State.nearOffset_iff, mem_boxOffsets_iff]
  omega

theorem State.boxTable_chosen (hp : p < s.pixelCount) : s.BoxChosen p (s.boxTable.getD p (0, 0)) := by
  have hentry : s.boxTable.getD p (0, 0) = boxEntry s.px s.pixelCount
      (boxOffsets s.fns s.xs (min Config.windowSize (s.pixelCount - 1))) p := by
    simp [State.boxTable, hp]
  have hbest := boxBest_firstLongest s.px (distanceCode s.fns s.xs) p
    (min (s.pixelCount - p) Config.maxLength)
    (boxOffsets_sorted s.fns s.xs (min Config.windowSize (s.pixelCount - 1))) (0, 0)
  rw [hentry]
  simp only [boxEntry]
  split
  · rename_i hzero
    refine .inl ⟨rfl, fun q hq => ?_⟩
    obtain ⟨hpos, -, hle, -⟩ := State.nearOffset_iff.1 hq
    omega
  · obtain ⟨heq, hnone⟩ | ⟨hmem, hle, hlen, -, hall⟩ := hbest
    · rw [heq, if_neg (by decide)]
      refine .inl ⟨rfl, fun q hq => ?_⟩
      obtain ⟨hq, hqp⟩ := (State.nearOffset_iff_mem hp).1 hq
      exact (hnone q hq hqp).trans_lt (by decide)
    · have hlongest := fun q hq => hall q ((State.nearOffset_iff_mem hp).1 hq).1 ((State.nearOffset_iff_mem hp).1 hq).2
      split
      · rename_i hlong
        exact .inr ⟨(State.nearOffset_iff_mem hp).2 ⟨hmem, hle⟩, hlong, hlen, hlongest⟩
      · rename_i hshort
        exact .inl ⟨rfl, fun q hq => (hlongest q hq).1.trans_lt (Nat.not_le.1 hshort)⟩

/-- A distance code of at most 32 is sent as a code of at most 9 with at most 3 extra bits (42_backward_refs R163). -/
theorem prefixEncode_of_near {v : Nat} (hv : v ≤ 32) : (prefixEncode v).code ≤ 9 ∧ (prefixEncode v).nbits ≤ 3 := by
  refine ⟨Nat.le_of_lt_succ (prefixEncode_code_lt (k := 5) (by decide) hv), ?_⟩
  rcases Nat.lt_or_ge 2 v with h | h
  · have hlog : Nat.log2 (v - 1) < 5 := (Nat.log2_lt (by omega)).2 (by omega)
    rw [prefixEncode_of_three_le h]
    show Nat.log2 (v - 1) - 1 ≤ 3
    omega
  · rw [prefixEncode_of_le_two h]
    exact Nat.zero_le 3

/-! ### The command -/

/-- The state HC_BOX leaves where it starts. -/
def State.hcBoxed (s : State) : State := (hcBoxBody s).state.endOk

theorem State.hcBoxed_read (hp : p < s.pixelCount) :
    s.hcBoxed.spaces.hc1.read 2 p = (packEntries s.boxTable).getD p 0 :=
  Mem.read_put_zero _ _ _ (by simpa [packEntries, State.length_boxTable] using hp)

theorem State.hcBoxed_entry (hp : p < s.pixelCount) :
    s.hcBoxed.hcEntry .hc1 p = s.boxTable.getD p (0, 0) := by
  have hlen : p < s.boxTable.length := by rwa [State.length_boxTable]
  have hpacked : (packEntries s.boxTable).getD p 0 = packEntry s.boxTable[p].1 s.boxTable[p].2 := by
    simp [packEntries, hlen]
  rw [State.hcEntry, State.hcBoxed_read hp, hpacked, List.getD_eq_getElem _ _ hlen]
  exact (s.boxTable_true p hlen).unpack_pack

/-- HC_BOX writes HC1[0 .. N-1] alone (20_memory R66). -/
theorem State.hcBoxed_onlyWrites (s : State) :
    OnlyWrites (fun sp i => sp = .hc1 ∧ i < s.pixelCount) noSlots s s.hcBoxed := by
  have hframe : BodyFrame s (hcBoxBody s).state := {}
  refine hframe.onlyWrites (fun sp i hout => ?_)
  by_cases hsp : sp = .hc1
  · subst hsp
    have hi : 0 + (packEntries s.boxTable).length ≤ i := by
      simpa [packEntries, State.length_boxTable] using hout
    exact congrArg (BitVec.setWidth 64) (Mem.read_put_out _ _ _ _ _ (.inr hi))
  · exact (SpacesKept.of_hc1 s.spaces _).readElem (s := s) (t := (hcBoxBody s).state) (by simpa using hsp) i

end

end Sys2Proof.Machine

open Sys2Proof Sys2Proof.Machine

/-- Settles O32: the offsets are tried in the order of their codes and only a longer match replaces the best, so an
entry is the longest near match, of equal lengths the one of least code. -/
theorem hcBoxTable : Obligations.HcBoxTable := by
  unfold Obligations.HcBoxTable
  intro s hstarts
  refine ⟨s.hcBoxed, exec_hcBox_of_starts hstarts, rfl, rfl, ⟨rfl, rfl, rfl⟩, s.hcBoxed_onlyWrites,
    fun p o l hp hol => ?_⟩
  rw [State.hcBoxed_entry hp] at hol
  have hchosen := State.boxTable_chosen hp
  rw [hol] at hchosen
  obtain ⟨hzero, hnone⟩ | ⟨hnear, hlong, hlen, hlongest⟩ := hchosen
  · cases hzero
    exact ⟨fun h => absurd h (Nat.lt_irrefl 0), fun _ => ⟨rfl, rfl⟩,
      fun q hq h => absurd h (Nat.not_le.2 (hnone q hq))⟩
  · dsimp only at hnear hlong hlen hlongest
    obtain ⟨hpos, hwindow, hle, hcode⟩ := State.nearOffset_iff.1 hnear
    obtain ⟨hprefix, hextra⟩ := prefixEncode_of_near hcode
    refine ⟨fun _ => ⟨hpos, hwindow, hcode, hle, hlong, ?_, fun j hj => ?_, hprefix, hextra⟩, fun hnone => ?_,
      fun q hq _ => ⟨hnear, hlen, hlongest q hq⟩⟩
    · rw [hlen]
      exact lcp_le _ _ _ _
    · rw [hlen] at hj
      exact px_eq_of_lt_lcp hj
    · have := hnone o hnear
      omega

end

section
/-! SUPPORT. The builders: every token is the one its rule chooses, and the two ends of a builder (42_backward_refs R150
to R155, R171). -/

namespace Sys2Proof.Machine

section
variable {s t : State}

/-! ### The tokens a builder emits (42_backward_refs R151, R155) -/

/-- A literal, or a copy of MIN_LENGTH to MAX_LENGTH pixels. -/
def Token.Built (t : Token) : Prop := (∃ v, t = .literal v) ∨ ∃ d l, t = .copy d l ∧ 4 ≤ l ∧ l ≤ 4095

theorem Token.Built.one_le_len {t : Token} (h : t.Built) : 1 ≤ t.len := by
  obtain ⟨v, rfl⟩ | ⟨d, l, rfl, hl, -⟩ := h
  · exact le_rfl
  · exact (by decide : 1 ≤ 4).trans hl

theorem State.hcEntry_len_le (s : State) (sel : TableSel) (p : Nat) : (s.hcEntry sel p).2 ≤ 4095 := by
  cases sel <;> exact Nat.le_of_lt_succ (Nat.mod_lt _ (by decide))

theorem State.greedyChoice_built {sel : TableSel} {p : Nat} {tok : Token} (h : s.greedyChoice sel p tok = true) :
    tok.Built := by
  simp only [State.greedyChoice] at h
  split at h
  · rename_i hlong
    simp only [Bool.and_eq_true, decide_eq_true_eq] at hlong h
    exact .inr ⟨_, _, h, hlong.1, s.hcEntry_len_le sel p⟩
  · exact .inl ⟨_, of_decide_eq_true h⟩

theorem State.rleChoice_built {p : Nat} {tok : Token} (h : s.rleChoice p tok = true) : tok.Built := by
  have hmax : ∀ a, lcp s.px a p (min (s.pixelCount - p) Config.maxLength) ≤ 4095 :=
    fun a => (lcp_le _ _ _ _).trans (min_le_right _ _)
  simp only [State.rleChoice] at h
  generalize hu : (if p < s.xs ∨ Config.windowSize < s.xs then 0
    else lcp s.px (p - s.xs) p (min (s.pixelCount - p) Config.maxLength)) = u at h
  have humax : u ≤ 4095 := by
    split at hu <;> subst hu
    · exact Nat.zero_le _
    · exact hmax _
  split_ifs at h with hfirst hrun hrow
  · exact .inl ⟨_, of_decide_eq_true h⟩
  · exact .inr ⟨_, _, of_decide_eq_true h, hrun.2, hmax _⟩
  · exact .inr ⟨_, _, of_decide_eq_true h, hrow, humax⟩
  · exact .inl ⟨_, of_decide_eq_true h⟩

/-- What a choice makes of every token a list of chosen tokens is. -/
theorem forall_of_chosenBy {choice : Nat → Token → Bool} {P : Token → Prop}
    (hchoice : ∀ p tok, choice p tok = true → P tok) {ts : List Token} {p : Nat}
    (h : chosenBy choice p ts = true) : ∀ tok ∈ ts, P tok := by
  induction ts generalizing p with
  | nil => simp
  | cons tok ts ih =>
    simp only [chosenBy, Bool.and_eq_true] at h
    exact List.forall_mem_cons.2 ⟨hchoice p tok h.1, ih h.2⟩

theorem length_le_tokensLen {ts : List Token} (h : ∀ tok ∈ ts, 1 ≤ tok.len) : ts.length ≤ tokensLen ts := by
  induction ts with
  | nil => exact le_rfl
  | cons tok ts ih =>
    obtain ⟨htok, hts⟩ := List.forall_mem_cons.1 h
    have := ih hts
    simp only [List.length_cons, tokensLen]
    omega

theorem State.length_le_of_tokensTrue {ts : List Token} {b : Nat} (h : s.tokensTrue b ts = true)
    (hbuilt : ∀ tok ∈ ts, tok.Built) : ts.length ≤ s.pixelCount := by
  have hlen := length_le_tokensLen (fun tok htok => (hbuilt tok htok).one_le_len)
  obtain ⟨-, hsum⟩ := State.tokensTrue_iff.1 h
  omega

/-! ### BR_GREEDY (42_backward_refs R151) -/

/-- The tokens BR_GREEDY emits. -/
def State.greedyStream (s : State) (sel : TableSel) : List Token :=
  greedyTokens s.px (s.hcEntry sel) s.pixelCount s.pixelCount 0

theorem greedyTokens_chosen (sel : TableSel) (fuel i : Nat) :
    chosenBy (s.greedyChoice sel) i (greedyTokens s.px (s.hcEntry sel) s.pixelCount fuel i) = true := by
  induction fuel generalizing i with
  | zero => rfl
  | succ fuel ih =>
    simp only [greedyTokens]
    split_ifs with hin hlong hdefer
    · simp only [chosenBy, Token.len, ih, Bool.and_true, State.greedyChoice, hdefer, and_self, decide_true,
        Bool.not_true, Bool.and_false, Bool.false_eq_true, if_false]
    · simp only [chosenBy, Token.len, ih, State.greedyChoice, hlong, hdefer, decide_true, decide_false,
        Bool.not_false, Bool.and_self, if_true]
    · simp only [chosenBy, Token.len, ih, Bool.and_true, State.greedyChoice, hlong, decide_true,
        decide_false, Bool.false_and, Bool.false_eq_true, if_false]
    · rfl

theorem length_greedyTokens_le (px : Nat → Pixel) (hc : Nat → Nat × Nat) (n fuel i : Nat) :
    (greedyTokens px hc n fuel i).length ≤ fuel := by
  induction fuel generalizing i with
  | zero => exact le_rfl
  | succ fuel ih =>
    simp only [greedyTokens]
    split_ifs
    · exact Nat.succ_le_succ (ih _)
    · exact Nat.succ_le_succ (ih _)
    · exact Nat.succ_le_succ (ih _)
    · exact Nat.zero_le _

theorem State.greedyStream_true {sel : TableSel} (h : s.tableTrue sel = true) :
    s.tokensTrue 0 (s.greedyStream sel) = true := by
  simp only [State.tableTrue, List.all_eq_true, List.mem_range] at h
  exact State.tokensTrue_iff.2
    (greedyTokens_codes (fun p hp => State.entryTrue_iff.1 (h p hp)) _ _ _ (by omega) (Nat.zero_le _))

/-! ### BR_RLE (42_backward_refs R155) -/

/-- The tokens BR_RLE emits. -/
def State.rleStream (s : State) : List Token :=
  .literal (s.px 0) :: rleTokens s.px s.pixelCount s.xs s.pixelCount 1

theorem rleTokens_chosen (fuel : Nat) {i : Nat} (hi : 1 ≤ i) :
    chosenBy s.rleChoice i (rleTokens s.px s.pixelCount s.xs fuel i) = true := by
  induction fuel generalizing i with
  | zero => rfl
  | succ fuel ih =>
    have hchosen : ∀ {tok : Token}, s.rleChoice i tok = true →
        chosenBy s.rleChoice i (tok :: rleTokens s.px s.pixelCount s.xs fuel (i + tok.len)) = true := by
      intro tok htok
      simp only [chosenBy, htok, Bool.true_and]
      exact ih (by omega)
    have hfirst : i ≠ 0 := by omega
    simp only [State.rleChoice, if_neg hfirst] at hchosen
    simp only [rleTokens]
    generalize (if i < s.xs ∨ Config.windowSize < s.xs then 0
      else lcp s.px (i - s.xs) i (min (s.pixelCount - i) Config.maxLength)) = u at hchosen ⊢
    split
    · split
      · rename_i hrun
        exact hchosen (tok := .copy 1 _) (by rw [if_pos hrun, decide_eq_true rfl])
      · rename_i hrun
        split
        · rename_i hrow
          exact hchosen (tok := .copy s.xs _) (by rw [if_neg hrun, if_pos hrow, decide_eq_true rfl])
        · rename_i hrow
          exact hchosen (tok := .literal _) (by rw [if_neg hrun, if_neg hrow, decide_eq_true rfl])
    · rfl

theorem State.rleStream_chosen (s : State) : chosenBy s.rleChoice 0 s.rleStream = true := by
  have hfirst : s.rleChoice 0 (.literal (s.px 0)) = true := by
    simp only [State.rleChoice, if_true, decide_true]
  simp only [State.rleStream, chosenBy, hfirst, Bool.true_and]
  exact rleTokens_chosen _ le_rfl

theorem State.rleStream_true (hxs : 1 ≤ s.xs) (hcount : 1 ≤ s.pixelCount) : s.tokensTrue 0 s.rleStream = true :=
  State.tokensTrue_iff.2
    (.cons (s.tokenTrue_literal ..) (rleTokens_codes hxs _ 1 _ le_rfl (by omega) hcount))

/-- Pixels that differ make no run. -/
theorem lcp_of_ne {px : Nat → Pixel} {a b : Nat} (h : px a ≠ px b) (m : Nat) : lcp px a b m = 0 := by
  cases m with
  | zero => rfl
  | succ m => exact if_neg h

/-- Without two equal pixels every token is a literal. -/
theorem length_rleTokens_of_distinct {px : Nat → Pixel} {n xs : Nat} (hxs : 1 ≤ xs)
    (hdistinct : ∀ p q, p < q → q < n → px p ≠ px q) (fuel i : Nat) (hpos : 1 ≤ i) (hfuel : n ≤ i + fuel) :
    (rleTokens px n xs fuel i).length = n - i := by
  induction fuel generalizing i with
  | zero => exact (Nat.sub_eq_zero_of_le hfuel).symm
  | succ fuel ih =>
    simp only [rleTokens]
    split
    · rename_i hlt
      have hleft := lcp_of_ne (hdistinct (i - 1) i (by omega) hlt) (min (n - i) Config.maxLength)
      have habove : (if i < xs ∨ Config.windowSize < xs then 0
          else lcp px (i - xs) i (min (n - i) Config.maxLength)) = 0 := by
        split
        · rfl
        · exact lcp_of_ne (hdistinct (i - xs) i (by omega) hlt) _
      rw [hleft, habove, if_neg (by decide), if_neg (by decide), List.length_cons,
        ih (i + 1) (by omega) (by omega)]
      omega
    · simp only [List.length_nil]
      omega

/-! ### The end of a builder (42_backward_refs R150, R153) -/

/-- CUR holds the tokens and nothing else but it and its valid bit changed. -/
def CurBuilt (s t : State) (ts : List Token) : Prop :=
  t.curTokens = .ok ts ∧ t.bufs = { s.bufs with curLen := ts.length, curBits := 0 } ∧
    t.regs = s.okRegs ∧ t.flags = { s.okFlags with curValid := true, curHasCache := false } ∧
    t.ccBits = s.ccBits ∧ t.writer = s.writer ∧
    OnlyWrites (fun sp i => sp = bufferId s.bufs.sel ∧ i < ts.length) noSlots s t

/-- The raise of a builder whose tokens overflow CUR, which alone is unspecified then. -/
def CurOverflowed (s t : State) (op : BitVec 8) : Prop :=
  RaisedAtRun s t op .outOfMemory (if s.bufs.sel then 4 else 3) (fun sp _ => sp = bufferId s.bufs.sel)

theorem State.endBuilder_of_fits {ts : List Token} (h : ts.length ≤ s.caps.tokCap) :
    s.endBuilder ts = .ok { s.putTokens s.bufs.sel ts with
      bufs := { s.bufs with curLen := ts.length, curBits := 0 }
      flags := { s.flags with curValid := true, curHasCache := false } } := by
  simp [State.endBuilder, Nat.not_lt.2 h]

theorem State.endBuilder_of_overflow {ts : List Token} (h : s.caps.tokCap < ts.length) :
    s.endBuilder ts = .fail .outOfMemory (bufferSpace s.bufs.sel) (s.redrawBuffer s.bufs.sel) := if_pos h

theorem State.endBuilder_built (hwf : Memory.wf s = true) {ts : List Token} (hfits : ∀ tok ∈ ts, tok.Fits)
    (h : ts.length ≤ s.caps.tokCap) (op : BitVec 8) : CurBuilt s ((s.endBuilder ts).ended op) ts := by
  obtain ⟨hA, hB⟩ := tokens_wf_of_memory hwf
  have hput := BodyFrame.putTokens s s.bufs.sel ts
  rw [State.endBuilder_of_fits h]
  refine ⟨?_, rfl, ?_, ?_, State.putTokens_ccBits .., hput.writer, ?_⟩
  · exact State.curTokens_of_stored
      ((State.bufferRun_congr rfl rfl _ _).trans (State.bufferRun_putTokens hA hB s.bufs.sel ts)) rfl hfits
  · exact BodyFrame.endOk_regs { hput with }
  · simp only [BodyEnd.ended, State.endOk_flags, State.putTokens_env, State.okFlags]
  · refine BodyFrame.onlyWrites { hput with } (fun sp i hout => ?_)
    exact (State.readElem_congr rfl sp i).trans (s.putTokens_sameElems s.bufs.sel ts sp i hout)

theorem State.endBuilder_overflowed {ts : List Token} (h : s.caps.tokCap < ts.length) (op : BitVec 8) :
    CurOverflowed s ((s.endBuilder ts).ended op) op := by
  rw [State.endBuilder_of_overflow h]
  exact (BodyFrame.redrawBuffer s s.bufs.sel).raised (State.redrawBuffer_flags ..) (State.redrawBuffer_bufs ..)
    (s.redrawBuffer_sameElems s.bufs.sel) op .outOfMemory _

/-- The two ends of a builder: CUR holds the tokens, or they overflow it. -/
theorem State.endBuilder_ends (hwf : Memory.wf s = true) {ts : List Token} (htrue : s.tokensTrue 0 ts = true)
    (op : BitVec 8) :
    if ts.length ≤ s.caps.tokCap then CurBuilt s ((s.endBuilder ts).ended op) ts
    else CurOverflowed s ((s.endBuilder ts).ended op) op := by
  split
  · rename_i hfits
    exact State.endBuilder_built hwf (State.fits_of_streamTrue (State.tokensTrue_iff.1 htrue).1) hfits op
  · rename_i hover
    exact State.endBuilder_overflowed (Nat.not_le.1 hover) op

/-- A builder that ends with ERRCODE 1 emitted more than TOK_CAP tokens. -/
theorem State.overflow_of_errCode_one {ts : List Token} {op : BitVec 8}
    (h : ((s.endBuilder ts).ended op).flags.errCode = 1) : s.caps.tokCap < ts.length := by
  by_contra hfits
  rw [State.endBuilder_of_fits (Nat.not_lt.1 hfits)] at h
  exact absurd h (by decide : ¬ (0 : BitVec 4) = 1)

theorem brGreedyBody_of_inside {sel : TableSel} (h : s.pixelCount ≤ s.caps.nMax) :
    brGreedyBody sel s = s.endBuilder (s.greedyStream sel) := if_neg (by simpa [State.outsideImage] using h)

/-- BR_GREEDY ends with ERRCODE 1 in its end alone: an image beyond N_MAX is an internal error. -/
theorem brGreedyBody_of_errCode_one {sel : TableSel} {op : BitVec 8}
    (h : ((brGreedyBody sel s).ended op).flags.errCode = 1) :
    brGreedyBody sel s = s.endBuilder (s.greedyStream sel) := by
  simp only [brGreedyBody] at h ⊢
  split at h
  · exact absurd h (by decide : ¬ ErrorOutcome.internal.code = 1)
  · rename_i hin
    exact if_neg hin

end

end Sys2Proof.Machine

open Sys2Proof Sys2Proof.Machine

/-- Settles O33: the loop of BR_GREEDY makes the choice of R151 at every position, and its tokens fit CUR or overflow
it. -/
theorem greedyTokens : Obligations.GreedyTokens := by
  unfold Obligations.GreedyTokens
  intro s sel hstarts hwf htable hin
  have htrue := State.greedyStream_true htable
  have hchosen := greedyTokens_chosen (s := s) sel s.pixelCount 0
  have hbuilt := forall_of_chosenBy (fun _ _ h => State.greedyChoice_built h) hchosen
  refine ⟨_, s.greedyStream sel, exec_brGreedy_of_starts hstarts, htrue, State.length_le_of_tokensTrue htrue hbuilt,
    hchosen, hbuilt, ?_⟩
  rw [brGreedyBody_of_inside hin]
  exact State.endBuilder_ends hwf htrue 0x20

/-- Settles O34: the loop of BR_RLE makes the choice of R155 at every position, and its tokens fit CUR or overflow
it. -/
theorem rleTokens : Obligations.RleTokens := by
  unfold Obligations.RleTokens
  intro s hstarts hwf
  obtain ⟨hxs, hcount⟩ := State.one_le_of_starts hstarts (by decide)
  have htrue := State.rleStream_true hxs hcount
  have hbuilt := forall_of_chosenBy (fun _ _ h => State.rleChoice_built h) s.rleStream_chosen
  exact ⟨_, s.rleStream, exec_brRle_of_starts hstarts, htrue, State.length_le_of_tokensTrue htrue hbuilt,
    s.rleStream_chosen, hbuilt, State.endBuilder_ends hwf htrue 0x21⟩

end

section
/-! SUPPORT. Where the token buffers overflow, and the Token-sum invariant (42_backward_refs R153, R171,
44_optimal_parse R201, R208, R210). -/

namespace Sys2Proof.Machine

section
variable {s t u : State}

/-! ### The builders (42_backward_refs R153, R171) -/

/-- A builder's list of at most N tokens overflows CUR only where N exceeds TOK_CAP. -/
theorem State.endBuilder_of_errCode_one {ts : List Token} {op : BitVec 8}
    (h : ((s.endBuilder ts).ended op).flags.errCode = 1) (hlen : ts.length ≤ s.pixelCount) :
    s.caps.tokCap < s.pixelCount ∧ CurOverflowed s ((s.endBuilder ts).ended op) op := by
  have hover := State.overflow_of_errCode_one h
  exact ⟨hover.trans_le hlen, State.endBuilder_overflowed hover op⟩

theorem State.length_rleStream_le (hxs : 1 ≤ s.xs) (hcount : 1 ≤ s.pixelCount) :
    s.rleStream.length ≤ s.pixelCount :=
  State.length_le_of_tokensTrue (State.rleStream_true hxs hcount)
    (forall_of_chosenBy (fun _ _ h => State.rleChoice_built h) s.rleStream_chosen)

theorem State.length_rleStream_of_distinct (hxs : 1 ≤ s.xs) (hcount : 1 ≤ s.pixelCount)
    (hdistinct : ∀ p q, p < q → q < s.pixelCount → s.px p ≠ s.px q) : s.rleStream.length = s.pixelCount := by
  rw [State.rleStream, List.length_cons,
    length_rleTokens_of_distinct hxs hdistinct _ 1 le_rfl (Nat.le_add_left _ _)]
  omega

/-- A builder that ends without error sets CUR_VALID and leaves the image. -/
theorem State.endBuilder_ok {ts : List Token} (h : s.endBuilder ts = .ok u) :
    u.flags.curValid = true ∧ u.image = s.image := by
  simp only [State.endBuilder] at h
  split at h <;> cases h
  exact ⟨rfl, State.image_putTokens s s.bufs.sel ts⟩

theorem brGreedyBody_ok {sel : TableSel} (h : brGreedyBody sel s = .ok u) :
    u.flags.curValid = true ∧ u.image = s.image := by
  simp only [brGreedyBody] at h
  split at h
  · cases h
  · exact State.endBuilder_ok h

/-! ### The solver (44_optimal_parse R201, R208, R210) -/

theorem length_dpTrace_le {edge : Nat → Nat} (fuel : Nat) {left : Nat} {path result : List Nat}
    (h : dpTrace edge fuel left path = .ok result) : result.length ≤ fuel + path.length := by
  induction fuel generalizing left path with
  | zero =>
    cases left <;> cases h
    omega
  | succ fuel ih =>
    cases left with
    | zero =>
      cases h
      omega
    | succ left =>
      simp only [dpTrace] at h
      split at h
      · cases h
      · have := ih h
        simp only [List.length_cons] at this
        omega

/-- The replay emits one token for each edge. -/
theorem length_dpReplay (d : DpInput) (i : Nat) (cache : CacheSlots) (path : List Nat) :
    (dpReplay d i cache path).tokens.length = path.length := by
  induction path generalizing i cache with
  | nil => rfl
  | cons k path ih =>
    simp only [dpReplay]
    split <;> simp [ReplayEnd.push, ih]

/-- DP_SOLVE runs out of memory where the tokens of its path, at most one for each pixel, overflow SCR. -/
theorem dpSolveBody_of_errCode_one {sel : TableSel} {op : BitVec 8}
    (h : ((dpSolveBody sel s).ended op).flags.errCode = 1) :
    dpSolveBody sel s = s.failSolve .outOfMemory (bufferSpace (!s.bufs.sel)) ∧ s.caps.tokCap < s.pixelCount := by
  have hinternal : ∀ info, ((s.failSolve .internal info).ended op).flags.errCode ≠ 1 :=
    fun _ => (by decide : ErrorOutcome.internal.code ≠ 1)
  simp only [dpSolveBody] at h ⊢
  split at h
  · exact absurd h (hinternal _)
  split at h
  · exact absurd h (hinternal _)
  split at h
  · exact absurd h (hinternal _)
  rename_i path htrace
  split at h
  · rename_i hover
    refine ⟨if_pos hover, ?_⟩
    have hlen := length_dpTrace_le _ htrace
    rw [length_dpReplay] at hover
    exact hover.trans_le hlen
  split at h
  · exact absurd h (hinternal _)
  split at h
  · exact absurd h (hinternal _)
  · exact absurd h (by decide : ¬ (0 : BitVec 4) = 1)

theorem BodyFrame.failSolve (s : State) (o : ErrorOutcome) (info : Nat) :
    BodyFrame s (s.failSolve o info).state := {}

theorem State.failSolve_raised (s : State) (op : BitVec 8) (o : ErrorOutcome) (info : Nat) :
    RaisedAtRun s ((s.failSolve o info).ended op) op o info
      (fun sp _ => sp ∈ [.tokA, .tokB, .cc, .dpCost, .dpEdge]) :=
  (BodyFrame.failSolve s o info).raised rfl rfl (State.failSolve_kept o info).sameElems op o info

/-- Whichever stream was kept, both buffers are valid at the end and the image is as before. -/
theorem State.keepBetter_valid {new old : Cost} (hcur : s.flags.curValid = true) (hscr : s.flags.scrValid = true) :
    (s.keepBetter new old).flags.curValid = true ∧ (s.keepBetter new old).flags.scrValid = true ∧
      (s.keepBetter new old).image = s.image := by
  simp only [State.keepBetter]
  split
  · exact ⟨hscr, hcur, rfl⟩
  · exact ⟨hcur, hscr, rfl⟩

theorem dpSolveBody_ok {sel : TableSel} (hcur : s.flags.curValid = true) (h : dpSolveBody sel s = .ok u) :
    u.flags.curValid = true ∧ u.flags.scrValid = true ∧ u.image = s.image := by
  simp only [dpSolveBody] at h
  split at h
  · cases h
  split at h
  · cases h
  split at h
  · cases h
  split at h
  · cases h
  split at h
  · cases h
  split at h <;> cases h
  rw [← State.putSolution_image s _ _]
  exact State.keepBetter_valid (by rw [State.putSolution_flags]; exact hcur) (by rw [State.putSolution_flags])

/-! ### The Token-sum invariant (42_backward_refs R171) -/

theorem State.tokensLen_of_tokensTrue {b : Nat} {ts : List Token} (h : s.tokensTrue b ts = true) :
    tokensLen ts = s.pixelCount := by
  obtain ⟨-, hsum⟩ := State.tokensTrue_iff.1 h
  omega

/-- The lengths of the tokens in a valid CUR sum to the pixel count. -/
theorem State.curTokens_sum (hfaith : t.faithful = true) (hvalid : t.flags.curValid = true)
    (himage : t.image = s.image) : ∃ ts, t.curTokens = .ok ts ∧ tokensLen ts = s.pixelCount := by
  obtain ⟨-, -, hcur, -⟩ := State.faithful_iff.1 hfaith
  obtain ⟨ts, hts, htrue⟩ := State.curTokens_of_curTrue (hcur hvalid)
  exact ⟨ts, hts, (State.tokensLen_of_tokensTrue htrue).trans (State.pixelCount_congr himage)⟩

/-- The tokens of a true scratch buffer. -/
theorem State.scrTokens_of_scrTrue (h : s.scrTrue = true) :
    ∃ ts, s.scrTokens = .ok ts ∧ s.tokensTrue s.bufs.scrBits.toNat ts = true := by
  simp only [State.scrTrue, State.bufferTrue] at h
  simp only [State.scrTokens]
  split at h
  · rename_i ts hts
    exact ⟨ts, hts, h⟩
  · cases h

/-- The lengths of the tokens in a valid SCR sum to the pixel count. -/
theorem State.scrTokens_sum (hfaith : t.faithful = true) (hvalid : t.flags.scrValid = true)
    (himage : t.image = s.image) : ∃ ts, t.scrTokens = .ok ts ∧ tokensLen ts = s.pixelCount := by
  obtain ⟨-, -, -, hscr⟩ := State.faithful_iff.1 hfaith
  obtain ⟨ts, hts, htrue⟩ := State.scrTokens_of_scrTrue (hscr hvalid)
  exact ⟨ts, hts, (State.tokensLen_of_tokensTrue htrue).trans (State.pixelCount_congr himage)⟩

end

end Sys2Proof.Machine

open Sys2Proof Sys2Proof.Machine

/-- Settles O35: a builder that ends without error sets CUR_VALID, the solver leaves SCR_VALID set too, and what these
bits promise includes the sum. -/
theorem tokenSum : Obligations.TokenSum := by
  unfold Obligations.TokenSum
  intro s t i hinv hfaith hi hexec hcode
  obtain ⟨hstored, -, -⟩ := State.invariant_iff.1 hinv
  obtain ⟨⟨hwf, -⟩, -⟩ := State.stored_memory_iff.2 ⟨hstored.spaces, hstored.slots⟩
  have hfaith' := exec_faithful hwf hfaith hexec
  obtain rfl | ⟨sel, rfl | rfl⟩ := hi
  · simp only [exec, execBrRle] at hexec
    obtain ⟨-, u, hu, rfl⟩ := runCommand_of_errCode_zero hexec hcode
    obtain ⟨hvalid, himage⟩ := State.endBuilder_ok hu
    exact ⟨State.curTokens_sum hfaith' hvalid himage, nofun⟩
  · simp only [exec, execBrGreedy] at hexec
    obtain ⟨-, u, hu, rfl⟩ := runCommand_of_errCode_zero hexec hcode
    obtain ⟨hvalid, himage⟩ := brGreedyBody_ok hu
    exact ⟨State.curTokens_sum hfaith' hvalid himage, nofun⟩
  · simp only [exec, execDpSolve] at hexec
    obtain ⟨hchecks, u, hu, rfl⟩ := runCommand_of_errCode_zero hexec hcode
    have hcur : s.badCur = false := hchecks (13, s.badCur) (by simp)
    obtain ⟨hvalid, hscr, himage⟩ := dpSolveBody_ok (by simpa [State.badCur] using hcur) hu
    exact ⟨State.curTokens_sum hfaith' hvalid himage, fun _ => State.scrTokens_sum hfaith' hscr himage⟩

/-- Settles O36: a builder and the solver emit at most one token for each pixel, and BR_RLE one for each where no two
pixels are equal. -/
theorem builderOverflow : Obligations.BuilderOverflow := by
  unfold Obligations.BuilderOverflow
  refine ⟨fun s t i hi hstarts hexec hcode => ?_, fun s hstarts hover hdistinct => ?_,
    fun s t sel hstarts hexec hcode => ?_⟩
  · obtain rfl | ⟨sel, rfl⟩ := hi
    · rw [exec_brRle_of_starts hstarts] at hexec
      cases hexec
      obtain ⟨hxs, hcount⟩ := State.one_le_of_starts hstarts (by decide)
      exact State.endBuilder_of_errCode_one hcode (State.length_rleStream_le hxs hcount)
    · rw [exec_brGreedy_of_starts hstarts] at hexec
      cases hexec
      have hbody := brGreedyBody_of_errCode_one hcode
      rw [hbody] at hcode ⊢
      exact State.endBuilder_of_errCode_one hcode (length_greedyTokens_le ..)
  · obtain ⟨hxs, hcount⟩ := State.one_le_of_starts hstarts (by decide)
    refine ⟨_, exec_brRle_of_starts hstarts, ?_⟩
    have hlong : s.caps.tokCap < s.rleStream.length := by
      rwa [State.length_rleStream_of_distinct hxs hcount hdistinct]
    exact congrArg (fun e => (e.ended 0x21).flags.errCode) (State.endBuilder_of_overflow hlong)
  · rw [exec_dpSolve_of_starts hstarts] at hexec
    cases hexec
    obtain ⟨hbody, hover⟩ := dpSolveBody_of_errCode_one hcode
    have hspace : bufferSpace (!s.bufs.sel) = if s.bufs.sel then 3 else 4 := by
      cases s.bufs.sel <;> rfl
    rw [hbody, hspace]
    exact ⟨hover, s.failSolve_raised 0x30 .outOfMemory _⟩

end

section
/-! SUPPORT. CACHE_APPLY: the stream and the cache a replay leaves (42_backward_refs R165 to R167). -/

namespace Sys2Proof.Machine

section
variable {s : State} {b : Nat}

/-! ### The replay (42_backward_refs R165, R166) -/

theorem cacheInsertRun_add (f : Fns) (b : Nat) (px : Nat → Pixel) (c : CacheSlots) (p m n : Nat) :
    cacheInsertRun f b px c p (m + n) = cacheInsertRun f b px (cacheInsertRun f b px c p m) (p + m) n := by
  induction m generalizing c p with
  | zero => simp only [Nat.zero_add, cacheInsertRun, Nat.add_zero]
  | succ m ih =>
    rw [show m + 1 + n = m + n + 1 by omega, cacheInsertRun, cacheInsertRun, ih,
      show p + 1 + m = p + (m + 1) by omega]

/-- A token put before a replay that started after its pixels is one of the whole replay. -/
theorem ReplayEnd.push_replay (s : State) (b : Nat) (c : CacheSlots) (p : Nat) (t : Token) (ts : List Token) :
    (ReplayEnd.push (replayChoice s.fns b c t)
        ⟨s.replayOf b (cacheInsertRun s.fns b s.px c p t.len) (p + t.len) ts,
          cacheInsertRun s.fns b s.px (cacheInsertRun s.fns b s.px c p t.len) (p + t.len) (tokensLen ts),
          p + t.len + tokensLen ts⟩ : ReplayEnd) =
      ⟨s.replayOf b c p (t :: ts), cacheInsertRun s.fns b s.px c p (tokensLen (t :: ts)),
        p + tokensLen (t :: ts)⟩ := by
  simp only [ReplayEnd.push, State.replayOf, tokensLen, cacheInsertRun_add, Nat.add_assoc]

/-- A replay of a true stream without cache succeeds: it makes the choice of R165 for every token, and steps the cache
over every pixel, since inserting a pixel that hits changes nothing. -/
theorem cacheReplay_eq {ts : List Token} {k p : Nat} {c c₀ : CacheSlots} (hts : s.streamTrue 0 c₀ p ts = true) :
    cacheReplay s.fns b s.px k c p ts = .ok
      ⟨s.replayOf b c p ts, cacheInsertRun s.fns b s.px c p (tokensLen ts), p + tokensLen ts⟩ := by
  induction ts generalizing k p c c₀ with
  | nil => rfl
  | cons t ts ih =>
    simp only [State.streamTrue, Bool.and_eq_true] at hts
    obtain ⟨htok, hrest⟩ := hts
    have hnext := fun j => ih (k := j) (c := cacheInsertRun s.fns b s.px c p t.len) hrest
    rw [← ReplayEnd.push_replay]
    cases t with
    | literal v =>
      obtain rfl : v = s.px p := by simpa [State.tokenTrue] using htok
      have hone : cacheInsertRun s.fns b s.px c p (Token.literal (s.px p)).len = cacheInsert s.fns b c (s.px p) := rfl
      rw [hone] at hnext ⊢
      simp only [cacheReplay]
      split
      · rename_i idx hit
        obtain ⟨rfl, hslot⟩ := cacheLookup_eq_some hit
        rw [cacheInsert_of_hit hit] at hnext ⊢
        rw [show p + 1 = p + (Token.literal (s.px p)).len from rfl, hnext, replayChoice, if_pos hslot]
        rfl
      · rename_i hmiss
        have hslot : c.getD (ccIndex s.fns (s.px p) b) none ≠ some (s.px p) := by
          intro h
          rw [cacheLookup, if_pos h] at hmiss
          cases hmiss
        rw [show p + 1 = p + (Token.literal (s.px p)).len from rfl, hnext, replayChoice, if_neg hslot]
        rfl
    | copy d l =>
      simp only [cacheReplay]
      exact congrArg (Except.map _) (hnext (k + 1))
    | cacheRef idx => simp [State.tokenTrue] at htok

/-! ### The cache stored in CC (30_encoding R114, 43_color_cache R182) -/

theorem State.ccSlot_of_read {k : Nat} {o : Option Pixel} (h : s.spaces.cc.read 5 k = slotElem o) :
    s.ccSlot k = o := by
  simp only [State.ccSlot, h]
  cases o with
  | none => rfl
  | some p =>
    have hvalid : (slotElem (some p)).getLsbD 32 = true := by
      rw [slotElem, BitVec.getLsbD_cast, BitVec.getLsbD_append]
      rfl
    have hpixel : (slotElem (some p)).setWidth 32 = p := by
      apply BitVec.eq_of_getLsbD_eq
      intro i hi
      simp only [slotElem, BitVec.getLsbD_setWidth, BitVec.getLsbD_cast, BitVec.getLsbD_append, hi, decide_true,
        Bool.true_and, if_true]
    rw [hvalid, hpixel, if_pos rfl]

/-- Each slot holds what the cache value holds there. -/
theorem State.ccSlot_putCache {c : CacheSlots} {k : Nat} (hk : k < c.length) :
    (s.putCache b c).ccSlot k = c.getD k none := by
  refine State.ccSlot_of_read ?_
  rw [State.putCache_spaces, Mem.read_put_zero _ _ _ (by simpa using hk)]
  simp [hk]

/-- Storing a cache changes the slots of its size alone. -/
theorem State.putCache_sameElems (s : State) (b : Nat) (c : CacheSlots) :
    SameElems (fun sp i => sp = .cc ∧ i < c.length) s (s.putCache b c) := by
  intro sp i hout
  by_cases hsp : sp = .cc
  · subst hsp
    have hi : 0 + (c.map slotElem).length ≤ i := by simpa using hout
    exact congrArg (BitVec.setWidth 64) (Mem.read_put_out _ _ _ _ _ (.inr hi))
  · exact (SpacesKept.of_cc s.spaces _).readElem (t := s.putCache b c) (by simpa using hsp) i

/-! ### The command (42_backward_refs R165) -/

/-- The tokens and the cache CACHE_APPLY leaves of the token list in CUR. -/
def State.replayed (s : State) (b : Nat) (ts : List Token) : State :=
  let t := (s.putTokens s.bufs.sel (s.replayOf b (cacheInit b) 0 ts)).putCache b (s.imageCache b)
  { t with bufs := { s.bufs with curBits := BitVec.ofNat 4 b }, flags := { s.flags with curHasCache := true } }

theorem length_imageCache (s : State) (b : Nat) : (s.imageCache b).length = 2 ^ b := by
  rw [State.imageCache, length_cacheInsertRun, length_cacheInit]

theorem length_replayOf (s : State) (b : Nat) (c : CacheSlots) (p : Nat) (ts : List Token) :
    (s.replayOf b c p ts).length = ts.length := by
  induction ts generalizing c p with
  | nil => rfl
  | cons t ts ih => simp only [State.replayOf, List.length_cons, ih]

variable {ts : List Token}

theorem cacheReplay_of_tokensTrue (htrue : s.tokensTrue 0 ts = true) :
    cacheReplay s.fns b s.px 0 (cacheInit b) 0 ts =
      .ok ⟨s.replayOf b (cacheInit b) 0 ts, s.imageCache b, s.pixelCount⟩ := by
  obtain ⟨hstream, hsum⟩ := State.tokensTrue_iff.1 htrue
  rw [cacheReplay_eq hstream, hsum, State.imageCache, ← hsum, Nat.zero_add]

theorem cacheApplyBody_of_zero (h : s.regs.cacheBits = 0) : cacheApplyBody s = .ok s := by
  simp [cacheApplyBody, h]

theorem cacheApplyBody_of_tokensTrue (hb : s.regs.cacheBits.toNat ≠ 0) (hin : s.pixelCount ≤ s.caps.nMax)
    (hts : s.curTokens = .ok ts) (htrue : s.tokensTrue 0 ts = true) :
    cacheApplyBody s = .ok (s.replayed s.regs.cacheBits.toNat ts) := by
  have hinside : s.outsideImage = false := by simpa [State.outsideImage] using hin
  simp [cacheApplyBody, hb, hinside, hts, cacheReplay_of_tokensTrue htrue, State.replayed]

/-- A replay of a valid stream without cache is valid at the new width. -/
theorem State.replayOf_true (hb : 1 ≤ b) (hb' : b ≤ 10) (htrue : s.tokensTrue 0 ts = true) :
    s.tokensTrue b (s.replayOf b (cacheInit b) 0 ts) = true :=
  State.tokensTrue_iff.2 (cacheReplay_codes hb hb' (State.tokensTrue_iff.1 htrue).1
    (cacheReplay_of_tokensTrue htrue) rfl)

theorem State.replayed_run (hwf : Memory.wf s = true) :
    (s.replayed b ts).endOk.bufferRun s.bufs.sel (s.replayOf b (cacheInit b) 0 ts).length =
      (s.replayOf b (cacheInit b) 0 ts).map Token.record := by
  obtain ⟨hA, hB⟩ := tokens_wf_of_memory hwf
  exact (State.bufferRun_congr rfl rfl _ _).trans (State.bufferRun_putTokens hA hB s.bufs.sel _)

/-- CUR holds the replay, a valid stream at the new width. -/
theorem State.replayed_cur (hwf : Memory.wf s = true) (hlen : ts.length = s.bufs.curLen) (hb : b ≤ 10)
    (hnew : s.tokensTrue b (s.replayOf b (cacheInit b) 0 ts) = true) :
    (s.replayed b ts).endOk.curTokens = .ok (s.replayOf b (cacheInit b) 0 ts) ∧
      (s.replayed b ts).endOk.curTrue = true := by
  have hrun := State.replayed_run (b := b) (ts := ts) hwf
  have himage : (s.replayed b ts).endOk.image = s.image := State.image_putTokens s s.bufs.sel _
  have htrue := State.bufferTrue_of_records hrun (by rwa [State.tokensTrue_congr himage])
  rw [length_replayOf, hlen] at htrue
  refine ⟨State.curTokens_of_stored hrun (hlen.symm.trans (length_replayOf ..).symm)
    (State.fits_of_streamTrue (State.tokensTrue_iff.1 hnew).1), ?_⟩
  show State.bufferTrue _ s.bufs.sel s.bufs.curLen (BitVec.ofNat 4 b).toNat = true
  rwa [toNat_ofNat_width hb]

theorem State.replayed_ccSlot {k : Nat} (hk : k < 2 ^ b) :
    (s.replayed b ts).endOk.ccSlot k = (s.imageCache b).getD k none :=
  State.ccSlot_putCache (b := b) (by rwa [length_imageCache])

theorem State.replayed_frame (s : State) (b : Nat) (ts : List Token) : BodyFrame s (s.replayed b ts) :=
  { BodyFrame.putTokens s s.bufs.sel (s.replayOf b (cacheInit b) 0 ts) with }

/-- CACHE_APPLY writes the records of CUR and the slots of the width alone (20_memory R66). -/
theorem State.replayed_onlyWrites (s : State) (b : Nat) (ts : List Token) :
    OnlyWrites (fun sp i => (sp = bufferId s.bufs.sel ∧ i < ts.length) ∨ (sp = .cc ∧ i < 2 ^ b)) noSlots s
      (s.replayed b ts).endOk := by
  refine (s.replayed_frame b ts).onlyWrites (fun sp i hout => ?_)
  obtain ⟨hcur, hcc⟩ := not_or.1 hout
  rw [← length_replayOf s b (cacheInit b) 0 ts] at hcur
  rw [← length_imageCache s b] at hcc
  calc (s.replayed b ts).readElem sp i
      = ((s.putTokens s.bufs.sel (s.replayOf b (cacheInit b) 0 ts)).putCache b (s.imageCache b)).readElem sp i :=
        State.readElem_congr rfl sp i
    _ = (s.putTokens s.bufs.sel (s.replayOf b (cacheInit b) 0 ts)).readElem sp i :=
        State.putCache_sameElems _ b _ sp i hcc
    _ = s.readElem sp i := s.putTokens_sameElems s.bufs.sel _ sp i hcur

/-- What checks 7, 13 and 18 say of a CACHE_APPLY that starts (60_exceptions R350). -/
theorem cacheApply_checks (h : s.starts .cacheApply = true) :
    s.regs.cacheBits.toNat ≤ 10 ∧ s.flags.curValid = true ∧ s.bufs.curBits = 0 := by
  have hwidth := State.fails_of_starts h (n := 7) (by decide)
  have hvalid := State.fails_of_starts h (n := 13) (by decide)
  have hplain := State.fails_of_starts h (n := 18) (by decide)
  exact ⟨by simpa [State.fails] using hwidth, by simpa [State.fails] using hvalid,
    by simpa [State.fails, State.widthMismatch] using hplain⟩

end

end Sys2Proof.Machine

open Sys2Proof Sys2Proof.Machine

/-- Settles O37: a replay of a valid stream without cache makes the choice of R165 for every token and steps the cache
over every pixel. -/
theorem cacheApplyStream : Obligations.CacheApplyStream := by
  unfold Obligations.CacheApplyStream
  intro s hstarts hinv hcur
  refine ⟨fun hzero => ⟨s.endOk, ?_, rfl, rfl, ⟨rfl, rfl, rfl⟩, ?_⟩, fun hwidth => ?_⟩
  · rw [exec_cacheApply_of_starts hstarts, cacheApplyBody_of_zero hzero]
    rfl
  · exact (BodyFrame.refl s).onlyWrites (fun _ _ _ => rfl)
  obtain ⟨hmax, hvalid, hplain⟩ := cacheApply_checks hstarts
  obtain ⟨hstored, -, -⟩ := State.invariant_iff.1 hinv
  have hwf : Memory.wf s = true :=
    Memory.wf_iff.2 (State.stored_memory_iff.2 ⟨hstored.spaces, hstored.slots⟩).1
  have hnonzero : s.regs.cacheBits.toNat ≠ 0 := fun h => hwidth (BitVec.eq_of_toNat_eq h)
  obtain ⟨-, hin⟩ := hstored.geometry (.inr (.inr (.inl hvalid)))
  obtain ⟨ts, hts, htrue⟩ := State.curTokens_of_curTrue hcur
  rw [hplain] at htrue
  have hlen : ts.length = s.bufs.curLen := by
    obtain ⟨hA, hB⟩ := tokens_wf_of_memory hwf
    rw [length_of_tokensOf hts, State.length_bufferRun hA hB]
  have hnew := State.replayOf_true (Nat.one_le_iff_ne_zero.2 hnonzero) hmax htrue
  obtain ⟨htokens, hcurTrue⟩ := State.replayed_cur hwf hlen hmax hnew
  have hframe := s.replayed_frame s.regs.cacheBits.toNat ts
  refine ⟨(s.replayed s.regs.cacheBits.toNat ts).endOk, ts, ?_, hts, htokens, hcurTrue, rfl, rfl,
    fun k hk => State.replayed_ccSlot hk, hframe.writer, hframe.endOk_regs, ?_, ?_⟩
  · rw [exec_cacheApply_of_starts hstarts, cacheApplyBody_of_tokensTrue hnonzero hin hts htrue]
    rfl
  · simp only [State.endOk_flags, hframe.env]
    rfl
  · rw [← hlen]
    exact s.replayed_onlyWrites s.regs.cacheBits.toNat ts

end

section
/-! SUPPORT. What a decoder makes of a true token list: the pixels of the image (43_color_cache R195, R196). -/

namespace Sys2Proof.Machine

section
variable {f : Fns} {px : Nat → Pixel} {b : Nat}

/-- The pixels of the positions below `p`, in raster order: what a decoder has put out there. -/
def pixelsBelow (px : Nat → Pixel) (p : Nat) : List Pixel := (List.range p).map px

@[simp] theorem length_pixelsBelow (px : Nat → Pixel) (p : Nat) : (pixelsBelow px p).length = p := by
  simp [pixelsBelow]

theorem pixelsBelow_succ (px : Nat → Pixel) (p : Nat) : pixelsBelow px (p + 1) = pixelsBelow px p ++ [px p] := by
  simp [pixelsBelow, List.range_succ]

theorem getD_pixelsBelow (px : Nat → Pixel) {p q : Nat} (h : q < p) : (pixelsBelow px p).getD q 0 = px q := by
  simp [pixelsBelow, h]

/-- A copy from where the pixels repeat puts out the next pixels, also where it reads what it has just put out. -/
theorem expandCopy_pixels {d : Nat} (hd : 1 ≤ d) (l : Nat) {p : Nat} (c : CacheSlots) (hdp : d ≤ p)
    (hrepeat : ∀ j, j < l → px (p - d + j) = px (p + j)) :
    expandCopy f b d l (pixelsBelow px p) c = (pixelsBelow px (p + l), cacheInsertRun f b px c p l) := by
  induction l generalizing p c with
  | zero => rfl
  | succ l ih =>
    have hsource : (pixelsBelow px p).getD ((pixelsBelow px p).length - d) 0 = px p := by
      rw [length_pixelsBelow, getD_pixelsBelow px (by omega)]
      exact hrepeat 0 (Nat.succ_pos l)
    have hrest : ∀ j, j < l → px (p + 1 - d + j) = px (p + 1 + j) := by
      intro j hj
      rw [show p + 1 - d + j = p - d + (j + 1) by omega, show p + 1 + j = p + (j + 1) by omega]
      exact hrepeat (j + 1) (by omega)
    rw [expandCopy, hsource, ← pixelsBelow_succ, ih _ (by omega) hrest, show p + 1 + l = p + (l + 1) by omega]
    rfl

variable {s : State}

/-- One true token puts out the pixels of its positions and leaves the cache stepped over them. -/
theorem State.expandTokens_cons {c : CacheSlots} {p : Nat} {t : Token} (ht : s.tokenTrue b c p t = true)
    (ts : List Token) :
    expandTokens s.fns b (pixelsBelow s.px p) c (t :: ts) =
      expandTokens s.fns b (pixelsBelow s.px (p + t.len)) (cacheInsertRun s.fns b s.px c p t.len) ts := by
  cases t with
  | literal v =>
    obtain rfl : v = s.px p := by simpa [State.tokenTrue] using ht
    simp only [expandTokens, ← pixelsBelow_succ, Token.len, cacheInsertRun]
  | cacheRef k =>
    simp only [State.tokenTrue, decide_eq_true_eq] at ht
    obtain ⟨-, -, -, -, hslot⟩ := ht
    simp only [expandTokens, hslot, ← pixelsBelow_succ, Token.len, cacheInsertRun]
  | copy d l =>
    simp only [State.tokenTrue, Bool.and_eq_true, decide_eq_true_eq, State.pixelsRepeat_iff] at ht
    obtain ⟨⟨-, -, hd, hdp, -⟩, hrepeat⟩ := ht
    have hsource : ¬ (d = 0 ∨ (pixelsBelow s.px p).length < d) := by
      rw [length_pixelsBelow]
      omega
    rw [expandTokens, if_neg hsource, expandCopy_pixels hd l c hdp hrepeat]
    rfl

/-- A true stream decodes to the pixels from where it starts on. -/
theorem State.expandTokens_streamTrue {ts : List Token} {c : CacheSlots} {p : Nat}
    (h : s.streamTrue b c p ts = true) :
    expandTokens s.fns b (pixelsBelow s.px p) c ts = some (pixelsBelow s.px (p + tokensLen ts)) := by
  induction ts generalizing c p with
  | nil => rfl
  | cons t ts ih =>
    simp only [State.streamTrue, Bool.and_eq_true] at h
    obtain ⟨ht, hts⟩ := h
    rw [State.expandTokens_cons ht, ih hts, tokensLen, Nat.add_assoc]

theorem State.expandTokens_tokensTrue {ts : List Token} (h : s.tokensTrue b ts = true) :
    expandTokens s.fns b [] (cacheInit b) ts = some (pixelsBelow s.px s.pixelCount) := by
  obtain ⟨hstream, hsum⟩ := State.tokensTrue_iff.1 h
  rw [← hsum]
  exact State.expandTokens_streamTrue hstream

end

end Sys2Proof.Machine

open Sys2Proof Sys2Proof.Machine

/-- Settles O39: each true token puts out the pixels of its positions and leaves the cache stepped over them; a valid
bit promises a true stream. -/
theorem tokensExpand : Obligations.TokensExpand := by
  unfold Obligations.TokensExpand
  refine ⟨fun s b ts htrue => State.expandTokens_tokensTrue htrue, fun s hfaith => ?_⟩
  obtain ⟨-, -, hcur, hscr⟩ := State.faithful_iff.1 hfaith
  refine ⟨fun hvalid => ?_, fun hvalid => ?_⟩
  · obtain ⟨ts, hts, htrue⟩ := State.curTokens_of_curTrue (hcur hvalid)
    exact ⟨ts, hts, State.expandTokens_tokensTrue htrue⟩
  · obtain ⟨ts, hts, htrue⟩ := State.scrTokens_of_scrTrue (hscr hvalid)
    exact ⟨ts, hts, State.expandTokens_tokensTrue htrue⟩

end

section
/-! SUPPORT. The commands on single cache slots: CC_INIT, CC_LOOKUP and CC_INSERT (43_color_cache R182 to R186), and the
frame of a command that answers in registers and flags alone. -/

namespace Sys2Proof.Machine

section
variable {s : State}

/-! ### How the commands end (49_system R320) -/

theorem State.wf_of_starts {i : Instr} (h : s.starts i = true) : i.wf = true := by
  simp only [State.starts, Bool.and_eq_true] at h
  obtain ⟨⟨⟨hwf, -⟩, -⟩, -⟩ := h
  exact hwf

theorem exec_ccInit_of_starts {bits : BitVec 4} (h : s.starts (.ccInit bits) = true) :
    exec (.ccInit bits) s = .next ((ccInitBody bits.toNat s).ended 0x70) := by
  rw [exec, execCcInit, State.wf_of_starts h]
  exact runCommand_of_starts h rfl rfl

theorem exec_ccLookup_of_starts (h : s.starts .ccLookup = true) :
    exec .ccLookup s = .next ((ccLookupBody s).ended 0x71) := by
  rw [exec, execCcLookup]
  exact runCommand_of_starts h rfl rfl

theorem exec_ccInsert_of_starts (h : s.starts .ccInsert = true) :
    exec .ccInsert s = .next ((ccInsertBody s).ended 0x72) := by
  rw [exec, execCcInsert]
  exact runCommand_of_starts h rfl rfl

/-- A command that answers in registers other than CTRL and in flags writes no element and no slot. -/
theorem State.answered_onlyWrites (s : State) (f : Flags) {r : Regs} (hctrl : r.ctrl = s.regs.ctrl) :
    OnlyWrites noElems noSlots s { s with regs := r, flags := f }.endOk := by
  refine ⟨fun sp i _ => State.readElem_congr rfl sp i, fun _ _ => ⟨rfl, rfl, fun _ _ => rfl⟩, rfl, rfl, rfl, ?_⟩
  simp only [State.endOk_env, State.doneIE, hctrl]

/-! ### CC_INIT (43_color_cache R184) -/

theorem State.ccSlot_putCache_init {b k : Nat} (hk : k < 2 ^ b) : (s.putCache b (cacheInit b)).ccSlot k = none := by
  rw [State.ccSlot_putCache (by rwa [length_cacheInit])]
  simp [cacheInit, hk]

/-- The elements of an emptied cache are zero (30_encoding R114). -/
theorem State.readElem_putCache_init {b k : Nat} (hk : k < 2 ^ b) :
    (s.putCache b (cacheInit b)).readElem .cc k = 0 := by
  have hread : (s.spaces.cc.put 0 ((cacheInit b).map slotElem)).read 5 k = 0 := by
    rw [Mem.read_put_zero _ _ _ (by simpa [cacheInit] using hk)]
    simp [cacheInit, hk, slotElem]
  simp only [State.readElem, State.putCache_spaces, hread]
  rfl

/-! ### CC_INSERT (43_color_cache R186) -/

theorem State.ccSlot_write (s : State) (k : Nat) (o : Option Pixel) :
    ({ s with spaces := { s.spaces with cc := s.spaces.cc.write k (slotElem o) } } : State).ccSlot k = o :=
  State.ccSlot_of_read (by rw [Mem.read_write, if_pos rfl])

/-- Writing one slot changes no other (20_memory R63). -/
theorem State.writeCc_sameElems (s : State) (k : Nat) (e : BitVec 33) :
    SameElems (fun sp i => sp = .cc ∧ i = k) s
      { s with spaces := { s.spaces with cc := s.spaces.cc.write k e } } := by
  intro sp i hout
  by_cases hsp : sp = .cc
  · subst hsp
    have hi : i ≠ k := by simpa using hout
    simp only [State.readElem, Mem.read_write, if_neg hi]
  · exact (SpacesKept.of_cc s.spaces (s.spaces.cc.write k e)).readElem (by simpa using hsp) i

end

end Sys2Proof.Machine

open Sys2Proof Sys2Proof.Machine

/-- Settles O40: the emptied cache is stored over the slots of its width alone. -/
theorem ccInitEffect : Obligations.CcInitEffect := by
  unfold Obligations.CcInitEffect
  intro s bits hstarts
  rw [exec_ccInit_of_starts hstarts]
  by_cases hzero : bits = 0
  · subst hzero
    have hframe : BodyFrame s { s with ccBits := 0 } := {}
    exact ⟨_, rfl, rfl, fun h => absurd rfl h, rfl, rfl, rfl, rfl, hframe.onlyWrites (fun _ _ _ => rfl)⟩
  · have hnonzero : bits.toNat ≠ 0 := fun h => hzero (BitVec.eq_of_toNat_eq h)
    have hframe : BodyFrame s (s.putCache bits.toNat (cacheInit bits.toNat)) := {}
    rw [ccInitBody, if_neg hnonzero]
    refine ⟨_, rfl, (by simp : BitVec.ofNat 4 bits.toNat = bits), fun _ k hk => ⟨?_, ?_⟩, rfl, rfl, rfl, rfl,
      hframe.onlyWrites (fun sp i hout => ?_)⟩
    · exact State.ccSlot_putCache_init (b := bits.toNat) hk
    · exact (State.readElem_endOk ..).trans (State.readElem_putCache_init hk)
    · refine State.putCache_sameElems s bits.toNat _ sp i (fun hin => hout ⟨hzero, ?_⟩)
      rwa [length_cacheInit] at hin

/-- Settles O41: both commands address the slot of the pixel's hash, and CC_LOOKUP answers in registers and flags
alone. -/
theorem ccLookupInsert : Obligations.CcLookupInsert := by
  unfold Obligations.CcLookupInsert
  refine ⟨fun s hstarts => ?_, fun s hstarts hbits => ?_⟩
  · exact ⟨_, exec_ccLookup_of_starts hstarts, rfl, rfl, ⟨rfl, rfl, rfl⟩, s.answered_onlyWrites _ rfl⟩
  · have hframe : BodyFrame s (ccInsertBody s).state := {}
    exact ⟨_, exec_ccInsert_of_starts hstarts, ccIndex_lt _ _ (hbits.trans (by decide)), s.ccSlot_write _ _, rfl, rfl,
      ⟨rfl, rfl, rfl⟩, hframe.onlyWrites (s.writeCc_sameElems _ _)⟩

end

section
/-! SUPPORT. CACHE_SEARCH: the order of the costs that are numbers (49_system R337), and the least width of lowest
estimate (43_color_cache R190). -/

namespace Sys2Proof.Machine

/-! ### The order of costs (49_system R337) -/

/-- A finite value as a rational number. -/
def finValue (neg : Bool) (m : Nat) (e : Int) : ℚ := (if neg then -(m : ℚ) else m) * 2 ^ e

theorem scaled_mul_two_zpow (neg : Bool) (m : Nat) {e lo : Int} (h : lo ≤ e) :
    (Bin64.scaled neg m e lo : ℚ) * 2 ^ lo = finValue neg m e := by
  have hsplit : (2 : ℚ) ^ e = 2 ^ (e - lo).toNat * 2 ^ lo := by
    rw [← zpow_natCast, ← zpow_add₀ two_ne_zero, Int.toNat_of_nonneg (by omega), Int.sub_add_cancel]
  rw [finValue, hsplit, Bin64.scaled]
  cases neg <;> simp [mul_assoc]

theorem scaled_lt_scaled (a b : Bool) (m n : Nat) (d e : Int) :
    Bin64.scaled a m d (min d e) < Bin64.scaled b n e (min d e) ↔ finValue a m d < finValue b n e := by
  rw [← scaled_mul_two_zpow a m (min_le_left d e), ← scaled_mul_two_zpow b n (min_le_right d e),
    mul_lt_mul_iff_left₀ (by positivity), Int.cast_lt]

/-- The place of a number among the rationals and the two infinities; what is no number has none, and stands at the
bottom here. -/
def Real64.rank : Real64 → WithBot (WithTop ℚ)
  | .fin neg m e => ((finValue neg m e : WithTop ℚ) : WithBot (WithTop ℚ))
  | .inf true => ⊥
  | .inf false => ((⊤ : WithTop ℚ) : WithBot (WithTop ℚ))
  | .nan => ⊥

/-- A cost that is a number. -/
def Bin64.IsNumber (x : Cost) : Prop := Bin64.value x ≠ .nan

theorem Bin64.lt_iff {x y : Cost} (hx : Bin64.IsNumber x) (hy : Bin64.IsNumber y) :
    Bin64.lt x y = true ↔ (Bin64.value x).rank < (Bin64.value y).rank := by
  unfold Bin64.IsNumber at hx hy
  unfold Bin64.lt
  cases hvx : Bin64.value x with
  | nan => exact absurd hvx hx
  | inf a =>
    cases hvy : Bin64.value y with
    | nan => exact absurd hvy hy
    | inf b => cases a <;> cases b <;> simp [Real64.rank]
    | fin b n e => cases a <;> simp [Real64.rank]
  | fin a m d =>
    cases hvy : Bin64.value y with
    | nan => exact absurd hvy hy
    | inf b =>
      cases b
      · exact iff_of_true rfl (WithBot.coe_lt_coe.2 (WithTop.coe_lt_top _))
      · simp [Real64.rank]
    | fin b n e => simp [Real64.rank, scaled_lt_scaled]

theorem Bin64.lt_eq_false_iff {x y : Cost} (hx : Bin64.IsNumber x) (hy : Bin64.IsNumber y) :
    Bin64.lt x y = false ↔ (Bin64.value y).rank ≤ (Bin64.value x).rank := by
  rw [← not_lt, ← Bin64.lt_iff hx hy, Bool.not_eq_true]

/-! ### The search (43_color_cache R190) -/

/-- `w` is the least number below `n` with the lowest cost. -/
def LeastCost (cost : Nat → Cost) (n w : Nat) : Prop :=
  w < n ∧ ∀ k, k < n → Bin64.lt (cost k) (cost w) = false ∧ (k < w → Bin64.lt (cost w) (cost k) = true)

section
variable {cost : Nat → Cost} {n w : Nat}

/-- Among numbers that is a statement about their places. -/
theorem leastCost_iff (hnum : ∀ k, k < n → Bin64.IsNumber (cost k)) :
    LeastCost cost n w ↔ w < n ∧ ∀ k, k < n →
      (Bin64.value (cost w)).rank ≤ (Bin64.value (cost k)).rank ∧
      (k < w → (Bin64.value (cost w)).rank < (Bin64.value (cost k)).rank) := by
  refine and_congr_right (fun hw => forall₂_congr (fun k hk => ?_))
  rw [Bin64.lt_eq_false_iff (hnum k hk) (hnum w hw), Bin64.lt_iff (hnum w hw) (hnum k hk)]

/-- One more candidate, taken exactly where its cost is strictly lower. -/
theorem LeastCost.succ (hnum : ∀ k, k < n + 1 → Bin64.IsNumber (cost k)) (h : LeastCost cost n w) :
    LeastCost cost (n + 1) (if Bin64.lt (cost n) (cost w) then n else w) := by
  obtain ⟨hw, hbest⟩ := (leastCost_iff (fun k hk => hnum k (by omega))).1 h
  have hnew := Bin64.lt_iff (hnum n (by omega)) (hnum w (by omega))
  rw [leastCost_iff hnum]
  split
  · rename_i hlower
    have hlower := hnew.1 hlower
    refine ⟨by omega, fun k hk => ?_⟩
    obtain hk | rfl := Nat.lt_succ_iff_lt_or_eq.1 hk
    · obtain ⟨hle, -⟩ := hbest k hk
      have hbelow := hlower.trans_le hle
      exact ⟨hbelow.le, fun _ => hbelow⟩
    · exact ⟨le_rfl, fun hlt => absurd hlt (Nat.lt_irrefl k)⟩
  · rename_i hkeep
    have hkeep := not_lt.1 (mt hnew.2 hkeep)
    refine ⟨by omega, fun k hk => ?_⟩
    obtain hk | rfl := Nat.lt_succ_iff_lt_or_eq.1 hk
    · exact hbest k hk
    · exact ⟨hkeep, fun hlt => absurd hw (by omega)⟩

/-- The search from candidate `n` on, the best of those before at hand. -/
theorem searchWidths_least {tried : Nat → Except Nat Cost} (m : Nat)
    (htried : ∀ k, k < n + m → tried k = .ok (cost k)) (hnum : ∀ k, k < n + m → Bin64.IsNumber (cost k))
    (h : LeastCost cost n w) :
    ∃ best, searchWidths tried m n (some (w, cost w)) = .ok best ∧ LeastCost cost (n + m) best := by
  induction m generalizing n w with
  | zero => exact ⟨w, rfl, h⟩
  | succ m ih =>
    have hend : n + 1 + m = n + (m + 1) := by omega
    rw [← hend] at htried hnum ⊢
    obtain ⟨best, hbest, hleast⟩ := ih htried hnum (h.succ (fun k hk => hnum k (by omega)))
    refine ⟨best, ?_, hleast⟩
    simp only [searchWidths, htried n (by omega)]
    split at hbest
    · rename_i hlower
      rwa [if_pos hlower]
    · rename_i hkeep
      rwa [if_neg hkeep]

theorem leastCost_one (hnum : Bin64.IsNumber (cost 0)) : LeastCost cost 1 0 := by
  refine ⟨Nat.one_pos, fun k hk => ?_⟩
  obtain rfl := Nat.lt_one_iff.1 hk
  exact ⟨(Bin64.lt_eq_false_iff hnum hnum).2 le_rfl, fun hlt => absurd hlt (Nat.lt_irrefl 0)⟩

/-- The search keeps the first candidate without a comparison. -/
theorem searchWidths_start {tried : Nat → Except Nat Cost} (m : Nat)
    (htried : ∀ k, k < m + 1 → tried k = .ok (cost k)) (hnum : ∀ k, k < m + 1 → Bin64.IsNumber (cost k)) :
    ∃ best, searchWidths tried (m + 1) 0 none = .ok best ∧ LeastCost cost (m + 1) best := by
  rw [Nat.add_comm m 1] at htried hnum ⊢
  obtain ⟨best, hbest, hleast⟩ := searchWidths_least m htried hnum (leastCost_one (hnum 0 (by omega)))
  refine ⟨best, ?_, hleast⟩
  rw [Nat.add_comm 1 m, searchWidths, htried 0 (by omega)]
  exact hbest

end

/-! ### The estimates (43_color_cache R190) -/

section
variable {s : State} {ts : List Token}

/-- On a true stream without cache the search judges the replay of each width. -/
theorem State.widthCost_eq (htrue : s.tokensTrue 0 ts = true) (b : Nat) :
    widthCost s.fns s.px s.xs ts b = (s.widthHisto ts b).map (Histo.estimateBits s.fns) := by
  have hreplayed : replayedTokens s.fns s.px ts b =
      .ok (if b = 0 then ts else s.replayOf b (cacheInit b) 0 ts) := by
    rw [replayedTokens, cacheReplay_of_tokensTrue htrue]
    split <;> rfl
  rw [widthCost, hreplayed]
  rfl

/-- The histograms the search estimates. -/
theorem State.exists_widthHistos (hcosts : s.searchCosts = true) (hts : s.curTokens = .ok ts) :
    ∃ histo : Nat → Histo, (∀ b, b < s.maxWidth + 1 → s.widthHisto ts b = .ok (histo b)) ∧
      ∀ b, b < s.maxWidth + 1 → Bin64.IsNumber ((histo b).estimateBits s.fns) := by
  have hall : ∀ b, b < s.maxWidth + 1 →
      ∃ h, s.widthHisto ts b = .ok h ∧ Bin64.IsNumber (h.estimateBits s.fns) := by
    intro b hb
    simp only [State.searchCosts, hts, List.all_eq_true, List.mem_range] at hcosts
    have hcost := hcosts b hb
    split at hcost
    · cases hcost
    · rename_i h hh
      exact ⟨h, hh, (of_decide_eq_true hcost : Bin64.value _ ≠ .nan)⟩
  have : Nonempty Histo := ⟨histoZero 0⟩
  choose! histo hhisto hnum using hall
  exact ⟨histo, hhisto, hnum⟩

/-! ### The command (43_color_cache R190) -/

theorem exec_cacheSearch_of_starts (h : s.starts .cacheSearch = true) :
    exec .cacheSearch s = .next ((cacheSearchBody s).ended 0x24) := by
  rw [exec, execCacheSearch]
  exact runCommand_of_starts h (by simp only [Instr.checks, List.map, State.fails_four]; rfl) rfl

/-- What checks 13 and 18 say of a CACHE_SEARCH that starts (60_exceptions R350). -/
theorem cacheSearch_checks (h : s.starts .cacheSearch = true) : s.flags.curValid = true ∧ s.bufs.curBits = 0 := by
  have hvalid := State.fails_of_starts h (n := 13) (by decide)
  have hplain := State.fails_of_starts h (n := 18) (by decide)
  exact ⟨by simpa [State.fails] using hvalid, by simpa [State.fails, State.widthMismatch] using hplain⟩

theorem cacheSearchBody_of_searchWidths {best : Nat} (hin : s.pixelCount ≤ s.caps.nMax)
    (hts : s.curTokens = .ok ts)
    (hsearch : searchWidths (widthCost s.fns s.px s.xs ts) (s.maxWidth + 1) 0 none = .ok best) :
    cacheSearchBody s = .ok { s with regs := { s.regs with
      result0 := BitVec.ofNat 32 best, result1 := 0, cacheBits := BitVec.ofNat 32 best } } := by
  have hinside : s.outsideImage = false := by simpa [State.outsideImage] using hin
  simp [cacheSearchBody, hinside, hts, hsearch, State.setResult]

end

end Sys2Proof.Machine

open Sys2Proof Sys2Proof.Machine

/-- Settles O42: the estimates are numbers, which lie in a linear order, and the search keeps the least width of the
lowest of them. -/
theorem cacheSearchBest : Obligations.CacheSearchBest := by
  unfold Obligations.CacheSearchBest
  intro s hstarts hinv hcur hcosts
  obtain ⟨hvalid, hplain⟩ := cacheSearch_checks hstarts
  obtain ⟨hstored, -, -⟩ := State.invariant_iff.1 hinv
  obtain ⟨-, hin⟩ := hstored.geometry (.inr (.inr (.inl hvalid)))
  obtain ⟨ts, hts, htrue⟩ := State.curTokens_of_curTrue hcur
  rw [hplain] at htrue
  obtain ⟨histo, hhisto, hnum⟩ := State.exists_widthHistos hcosts hts
  have htried : ∀ b, b < s.maxWidth + 1 →
      widthCost s.fns s.px s.xs ts b = .ok ((histo b).estimateBits s.fns) := by
    intro b hb
    rw [State.widthCost_eq htrue, hhisto b hb]
    rfl
  obtain ⟨best, hsearch, hbest, hleast⟩ := searchWidths_start s.maxWidth htried hnum
  refine ⟨_, ts, best, exec_cacheSearch_of_starts hstarts, hts, Nat.le_of_lt_succ hbest,
    fun b hb hbest' hle hwidth hwidth' => ?_, ?_⟩
  · have hlt : b < s.maxWidth + 1 := Nat.lt_succ_of_le hle
    obtain rfl : histo b = hb := Except.ok.inj ((hhisto b hlt).symm.trans hwidth)
    obtain rfl : histo best = hbest' := Except.ok.inj ((hhisto best hbest).symm.trans hwidth')
    exact hleast b hlt
  · rw [cacheSearchBody_of_searchWidths hin hts hsearch]
    exact ⟨rfl, rfl, ⟨rfl, rfl, rfl⟩, s.answered_onlyWrites _ rfl⟩

end

section
/-! SUPPORT. DP_SOLVE: the forward pass finds a cheapest edge that ends at each position, of equally cheap ones the
longest (44_optimal_parse R204, R213). -/

namespace Sys2Proof.Machine

/-! ### The order of costs, a NaN among them or not (49_system R337) -/

theorem Bin64.isNumber_of_lt {x y : Cost} (h : Bin64.lt x y = true) : Bin64.IsNumber x ∧ Bin64.IsNumber y := by
  refine ⟨fun hx => ?_, fun hy => ?_⟩
  · simp [Bin64.lt, hx] at h
  · cases hx : Bin64.value x <;> simp [Bin64.lt, hx, hy] at h

theorem Bin64.lt_asymm {x y : Cost} (h : Bin64.lt x y = true) : Bin64.lt y x = false := by
  obtain ⟨hx, hy⟩ := Bin64.isNumber_of_lt h
  exact (Bin64.lt_eq_false_iff hy hx).2 ((Bin64.lt_iff hx hy).1 h).le

theorem Bin64.lt_irrefl (x : Cost) : Bin64.lt x x = false :=
  Bool.eq_false_iff.2 (fun h => by simp [Bin64.lt_asymm h] at h)

/-- What is not below a cost is not below a lower one. -/
theorem Bin64.not_lt_of_lt {x y z : Cost} (hlower : Bin64.lt y z = true) (h : Bin64.lt x z = false) :
    Bin64.lt x y = false := by
  obtain ⟨hy, hz⟩ := Bin64.isNumber_of_lt hlower
  by_contra hxy
  rw [Bool.not_eq_false] at hxy
  obtain ⟨hx, -⟩ := Bin64.isNumber_of_lt hxy
  have hxz := ((Bin64.lt_iff hx hy).1 hxy).trans ((Bin64.lt_iff hy hz).1 hlower)
  rw [(Bin64.lt_iff hx hz).2 hxz] at h
  cases h

/-! ### The cache of the solver (44_optimal_parse R204, R210) -/

/-- The solver's cache before position `i`, every pixel before it inserted; with width 0 it is never stepped. -/
def State.solverCache (s : State) (b i : Nat) : CacheSlots :=
  if b = 0 then cacheInit 0 else cacheInsertRun s.fns b s.px (cacheInit b) 0 i

section
variable {s : State} {sel : TableSel}

theorem State.solverCache_start (s : State) (b : Nat) : s.solverCache b 0 = cacheInit b := by
  rw [State.solverCache]
  split
  · rename_i hzero
    rw [hzero]
  · rfl

theorem State.length_solverCache (s : State) (b i : Nat) : (s.solverCache b i).length = 2 ^ b := by
  rw [State.solverCache]
  split
  · rename_i hzero
    rw [hzero, length_cacheInit]
  · rw [length_cacheInsertRun, length_cacheInit]

theorem State.solverCache_add {b : Nat} (hb : b ≠ 0) (i k : Nat) :
    s.solverCache b (i + k) = cacheInsertRun s.fns b s.px (s.solverCache b i) i k := by
  simp only [State.solverCache, if_neg hb, cacheInsertRun_add, Nat.zero_add]

theorem stepCache_fst {f : Fns} {b : Nat} (hb : b ≠ 0) (c : CacheSlots) (p : Pixel) :
    (stepCache f b c p).1 = cacheLookup f b c p := by
  simp only [stepCache, if_neg hb]
  split
  · rename_i hit
    exact hit.symm
  · rename_i hmiss
    exact hmiss.symm

/-- The solver steps its cache over a pixel and hits where `State.hitAt` says. -/
theorem State.stepCache_solverCache (s : State) (b i : Nat) :
    stepCache s.fns b (s.solverCache b i) (s.px i) = (s.hitAt b i, s.solverCache b (i + 1)) := by
  by_cases hb : b = 0
  · subst hb
    rfl
  · refine Prod.ext ?_ ?_
    · simp only [stepCache_fst hb, cacheLookup, State.hitAt, State.solverCache, hb, ne_eq, not_false_eq_true,
        true_and, if_false]
    · rw [stepCache_cache hb, State.solverCache_add hb]
      rfl

/-! ### The forward pass takes cheapest edges (44_optimal_parse R204, R213) -/

/-- A cell of position `j` holds a cheapest edge among those that start before position `i`, of equally cheap ones the
longest; `before p` is what the pixels before `p` cost. -/
structure State.CellCheapest (s : State) (sel : TableSel) (m : CostModel) (before : Nat → Cost) (i j : Nat)
    (c : DpCell) : Prop where
  attained : c.edge ≠ 0 → ∃ p, p < i ∧ p + c.edge = j + 1 ∧ s.edgeOpen sel p c.edge = true ∧
    c.cost = s.edgeCost sel m (before p) p c.edge
  least : ∀ p q, p < i → p + q = j + 1 → s.edgeOpen sel p q = true →
    Bin64.lt (s.edgeCost sel m (before p) p q) c.cost = false ∧
      (c.edge ≠ 0 → c.edge < q → s.edgeCost sel m (before p) p q ≠ c.cost)

/-- So do the cells of the positions from `j` on. -/
def State.CellsCheapest (s : State) (sel : TableSel) (m : CostModel) (before : Nat → Cost) (i : Nat) :
    Nat → List DpCell → Prop
  | _, [] => True
  | j, c :: cs => s.CellCheapest sel m before i j c ∧ s.CellsCheapest sel m before i (j + 1) cs

variable {m : CostModel} {before : Nat → Cost} {i j k : Nat} {c : DpCell} {cells : List DpCell}

/-- A cell stays as it is where the edge from the next position, if any ends here, is none to be preferred. -/
theorem State.CellCheapest.keep (h : s.CellCheapest sel m before i j c)
    (hnew : ∀ q, i + q = j + 1 → s.edgeOpen sel i q = true →
      Bin64.lt (s.edgeCost sel m (before i) i q) c.cost = false) : s.CellCheapest sel m before (i + 1) j c := by
  refine ⟨fun hne => ?_, fun p q hp hpq hpopen => ?_⟩
  · obtain ⟨p, hp, hrest⟩ := h.attained hne
    exact ⟨p, Nat.lt_succ_of_lt hp, hrest⟩
  obtain hp | rfl := Nat.lt_succ_iff_lt_or_eq.1 hp
  · exact h.least p q hp hpq hpopen
  · refine ⟨hnew q hpq hpopen, fun hne hlonger => ?_⟩
    obtain ⟨p', hp', hend, -⟩ := h.attained hne
    omega

/-- The edge from the next position is shorter than those tried before it, and is taken where it is strictly cheaper. -/
theorem State.CellCheapest.relax (h : s.CellCheapest sel m before i j c) (hj : i + k = j + 1)
    (hopen : s.edgeOpen sel i k = true) :
    s.CellCheapest sel m before (i + 1) j (c.relax (s.edgeCost sel m (before i) i k) k) := by
  have hlength : ∀ q, i + q = j + 1 → q = k := fun q hq => by omega
  simp only [DpCell.relax]
  split
  · rename_i hcheaper
    refine ⟨fun _ => ⟨i, Nat.lt_succ_self i, hj, hopen, rfl⟩, fun p q hp hpq hpopen => ?_⟩
    obtain hp | rfl := Nat.lt_succ_iff_lt_or_eq.1 hp
    · obtain ⟨hleast, -⟩ := h.least p q hp hpq hpopen
      refine ⟨Bin64.not_lt_of_lt hcheaper hleast, fun _ _ heq => ?_⟩
      rw [heq, hcheaper] at hleast
      cases hleast
    · rw [hlength q hpq]
      exact ⟨Bin64.lt_irrefl _, fun _ hlt => absurd hlt (Nat.lt_irrefl k)⟩
  · rename_i hkeep
    refine h.keep (fun q hq _ => ?_)
    rw [hlength q hq]
    exact Bool.eq_false_iff.2 hkeep

theorem State.cellsCheapest_unreached (n j : Nat) :
    s.CellsCheapest sel m before 0 j (List.replicate n dpUnreached) := by
  induction n generalizing j with
  | zero => trivial
  | succ n ih => exact ⟨⟨fun hne => absurd rfl hne, fun p _ hp => absurd hp (Nat.not_lt_zero p)⟩, ih (j + 1)⟩

/-- Where the next position has no edge of length `k` or more, the cells from its end on stay as they are. -/
theorem State.CellsCheapest.skip (h : s.CellsCheapest sel m before i j cells) (hj : i + k = j + 1)
    (hclosed : ∀ q, k ≤ q → s.edgeOpen sel i q = false) : s.CellsCheapest sel m before (i + 1) j cells := by
  induction cells generalizing j k with
  | nil => trivial
  | cons c cells ih =>
    obtain ⟨hc, hrest⟩ := h
    refine ⟨hc.keep (fun q hq hopen => ?_), ih (k := k + 1) hrest (by omega) (fun q hq => hclosed q (by omega))⟩
    rw [hclosed q (by omega)] at hopen
    cases hopen

/-- A copy edge is open for the lengths from 2 to that of the entry. -/
theorem State.edgeOpen_copy_iff (hk : 2 ≤ k) :
    s.edgeOpen sel i k = true ↔ 1 ≤ i ∧ k ≤ (s.hcEntry sel i).2 := by
  have hone : k ≠ 1 := by omega
  simp [State.edgeOpen, hone, hk]

/-- The copy edges from position `i` are tried at the cells they end at. -/
theorem State.CellsCheapest.relaxCopies (h : s.CellsCheapest sel m before i j cells) (hj : i + k = j + 1)
    (hi : 1 ≤ i) (hk : 2 ≤ k) :
    s.CellsCheapest sel m before (i + 1) j
      (relaxCopies (Bin64.add (before i) (m.dist (distanceCode s.fns s.xs (s.hcEntry sel i).1))) m.len
        (s.hcEntry sel i).2 k cells) := by
  induction cells generalizing j k with
  | nil => trivial
  | cons c cells ih =>
    obtain ⟨hc, hrest⟩ := h
    simp only [Machine.relaxCopies]
    split
    · rename_i hle
      have hrelaxed := hc.relax hj ((State.edgeOpen_copy_iff hk).2 ⟨hi, hle⟩)
      rw [State.edgeCost, if_neg (show k ≠ 1 by omega)] at hrelaxed
      exact ⟨hrelaxed, ih hrest (by omega) (by omega)⟩
    · rename_i hover
      refine State.CellsCheapest.skip (k := k) ⟨hc, hrest⟩ hj (fun q hq => Bool.eq_false_iff.2 (fun hopen => ?_))
      obtain ⟨-, hle⟩ := (State.edgeOpen_copy_iff (by omega)).1 hopen
      omega

/-- The cells after position `i` once its copy edges are tried, the pixels before it costing `cost`. -/
def State.tryCopies (s : State) (sel : TableSel) (m : CostModel) (cost : Cost) (i : Nat) (cells : List DpCell) :
    List DpCell :=
  if 1 ≤ i ∧ Config.dpMinLength ≤ (s.hcEntry sel i).2 then
    relaxCopies (Bin64.add cost (m.dist (distanceCode s.fns s.xs (s.hcEntry sel i).1))) m.len (s.hcEntry sel i).2
      Config.dpMinLength cells
  else cells

theorem State.length_tryCopies (cost : Cost) (cells : List DpCell) :
    (s.tryCopies sel m cost i cells).length = cells.length := by
  rw [State.tryCopies]
  split
  · exact length_relaxCopies ..
  · rfl

theorem State.CellsCheapest.tryCopies (h : s.CellsCheapest sel m before i (i + 1) cells) :
    s.CellsCheapest sel m before (i + 1) (i + 1) (s.tryCopies sel m (before i) i cells) := by
  rw [State.tryCopies]
  split
  · rename_i hcopy
    exact h.relaxCopies rfl hcopy.1 le_rfl
  · rename_i hnone
    refine h.skip (k := 2) rfl (fun q hq => Bool.eq_false_iff.2 (fun hopen => hnone ?_))
    obtain ⟨hi, hle⟩ := (State.edgeOpen_copy_iff hq).1 hopen
    exact ⟨hi, hq.trans hle⟩

/-- One position of the forward pass: its literal or cache edge, then its copy edges (44_optimal_parse R204). -/
theorem State.dpForward_cons (h : Histo) (fuel i : Nat) (cost : Cost) (c : DpCell) (cells : List DpCell) :
    dpForward (s.dpInput sel h) (fuel + 1) i cost (s.solverCache s.regs.cacheBits.toNat i) (c :: cells) =
      c.relax (s.edgeCost sel (costModelBuild s.fns h) cost i 1) 1 ::
        dpForward (s.dpInput sel h) fuel (i + 1) (c.relax (s.edgeCost sel (costModelBuild s.fns h) cost i 1) 1).cost
          (s.solverCache s.regs.cacheBits.toNat (i + 1))
          (s.tryCopies sel (costModelBuild s.fns h) cost i cells) := by
  simp only [dpForward, State.dpInput, s.stepCache_solverCache, State.edgeCost, if_true]
  cases s.hitAt s.regs.cacheBits.toNat i <;> rfl

/-- Every cell of the forward pass from position `i` on, if `before` is what these cells say. -/
theorem State.cellCheapest_dpForward (h : Histo) (fuel : Nat) {out : List DpCell}
    (hout : dpForward (s.dpInput sel h) fuel i (before i) (s.solverCache s.regs.cacheBits.toNat i) cells = out)
    (hfuel : cells.length ≤ fuel) (hcells : s.CellsCheapest sel (costModelBuild s.fns h) before i i cells)
    (hbefore : ∀ n, n < cells.length → before (i + n + 1) = (out.getD n dpUnreached).cost)
    (n : Nat) (hn : n < cells.length) :
    s.CellCheapest sel (costModelBuild s.fns h) before (i + n + 1) (i + n) (out.getD n dpUnreached) := by
  induction fuel generalizing i cells out n with
  | zero => omega
  | succ fuel ih =>
    cases cells with
    | nil => exact absurd hn (Nat.not_lt_zero n)
    | cons c cells =>
      obtain ⟨hc, hrest⟩ := hcells
      rw [State.dpForward_cons] at hout
      subst hout
      have hnext := hbefore 0 (Nat.succ_pos _)
      simp only [List.getD_cons_zero, Nat.add_zero] at hnext
      cases n with
      | zero => exact hc.relax rfl (by simp [State.edgeOpen])
      | succ n =>
        rw [← hnext] at hbefore ⊢
        have hlen := State.length_tryCopies (s := s) (sel := sel) (m := costModelBuild s.fns h) (i := i) (before i)
          cells
        have hrest' := ih (i := i + 1) rfl (by simpa [hlen] using hfuel) hrest.tryCopies
          (fun n hn => by
            have hn' := hbefore (n + 1) (by simpa [hlen] using hn)
            rwa [show i + (n + 1) + 1 = i + 1 + n + 1 by omega, List.getD_cons_succ] at hn')
          n (by simpa [hlen] using hn)
        rwa [show i + 1 + n = i + (n + 1) by omega] at hrest'

/-- The forward pass of DP_SOLVE. -/
def State.solverCells (s : State) (sel : TableSel) (h : Histo) : List DpCell :=
  dpForward (s.dpInput sel h) s.pixelCount 0 0 (cacheInit s.regs.cacheBits.toNat)
    (List.replicate s.pixelCount dpUnreached)

theorem State.length_solverCells (s : State) (sel : TableSel) (h : Histo) :
    (s.solverCells sel h).length = s.pixelCount := by
  rw [State.solverCells, length_dpForward, List.length_replicate]

/-- What the pixels before position `i` cost by these cells. -/
def costUpTo (cells : List DpCell) (i : Nat) : Cost := if i = 0 then 0 else (cells.getD (i - 1) dpUnreached).cost

theorem State.cellCheapest_solverCells (s : State) (sel : TableSel) (h : Histo) {j : Nat} (hj : j < s.pixelCount) :
    s.CellCheapest sel (costModelBuild s.fns h) (costUpTo (s.solverCells sel h)) (j + 1) j
      ((s.solverCells sel h).getD j dpUnreached) := by
  have hcell := State.cellCheapest_dpForward (sel := sel) (before := costUpTo (s.solverCells sel h)) (i := 0) h
    s.pixelCount (out := s.solverCells sel h) (by rw [State.solverCache_start]; rfl) (by simp)
    (State.cellsCheapest_unreached s.pixelCount 0) (fun n _ => by simp [costUpTo]) j (by simpa using hj)
  rwa [Nat.zero_add] at hcell

/-- An edge of the forward pass is none yet, or an open one that ends there. -/
theorem State.edgeEndsAt_solverCells (s : State) (sel : TableSel) (h : Histo) (j : Nat) :
    s.EdgeEndsAt sel j ((s.solverCells sel h).getD j dpUnreached).edge := by
  have hcells := State.edgesOpen_dpForward (s := s) (sel := sel) h s.pixelCount 0
    (cacheInit s.regs.cacheBits.toNat) (State.edgesOpen_unreached s.pixelCount 0)
  have hedge := hcells.getD j
  rwa [Nat.zero_add] at hedge

/-! ### DPCOST and DPEDGE (44_optimal_parse R204, R213) -/

/-- What the cells say the spaces say. -/
theorem State.CellCheapest.cheapestEnd {t : State} (hne : (cells.getD j dpUnreached).edge ≠ 0)
    (h : s.CellCheapest sel m (costUpTo cells) (j + 1) j (cells.getD j dpUnreached))
    (hcost : ∀ p, p ≤ j → t.readElem .dpCost p = (cells.getD p dpUnreached).cost)
    (hedge : (t.readElem .dpEdge j).toNat = (cells.getD j dpUnreached).edge) : State.CheapestEnd s t sel m j := by
  have hbefore : ∀ p, p < j + 1 → t.costBefore p = costUpTo cells p := by
    intro p hp
    simp only [State.costBefore, costUpTo]
    split
    · rfl
    · exact hcost (p - 1) (by omega)
  obtain ⟨p, hp, hend, hopen, heq⟩ := h.attained hne
  simp only [State.CheapestEnd, hedge, hcost j le_rfl]
  rw [show j + 1 - (cells.getD j dpUnreached).edge = p by omega, hbefore p hp]
  refine ⟨Nat.one_le_iff_ne_zero.2 hne, by omega, hopen, heq, fun i q hiq hiopen => ?_⟩
  have hi : i < j + 1 := by
    simp only [State.edgeOpen, decide_eq_true_eq] at hiopen
    omega
  obtain ⟨hleast, hlongest⟩ := h.least i q hi hiq hiopen
  rw [hbefore i hi]
  exact ⟨hleast, hlongest hne⟩

/-- An edge fits an element of DPEDGE (30_encoding R114). -/
theorem State.edge_solverCells_lt (s : State) (sel : TableSel) (h : Histo) (j : Nat) :
    ((s.solverCells sel h).getD j dpUnreached).edge < 2 ^ 16 := by
  obtain hzero | ⟨-, hopen⟩ := s.edgeEndsAt_solverCells sel h j
  · omega
  · simp only [State.edgeOpen, decide_eq_true_eq] at hopen
    have hmax := s.hcEntry_len_le sel (j + 1 - ((s.solverCells sel h).getD j dpUnreached).edge)
    omega

end

end Sys2Proof.Machine

end

section
/-! SUPPORT. DP_SOLVE: the path its trace takes, the tokens its replay makes of it, and the pseudocode up to its end
(44_optimal_parse R201, R208, R210). -/

namespace Sys2Proof.Machine

section
variable {s : State} {sel : TableSel} {i k : Nat}

/-! ### The trace (44_optimal_parse R208) -/

/-- The edges of a path from position `i` to position `n` are those their ends hold. -/
def PathTraced (edge : Nat → Nat) (n : Nat) : Nat → List Nat → Prop
  | i, [] => i = n
  | i, k :: path => 1 ≤ k ∧ edge (i + k - 1) = k ∧ PathTraced edge n (i + k) path

section
variable {edge : Nat → Nat} {n left : Nat} {path result : List Nat}

theorem PathTraced.end_eq (h : PathTraced edge n i path) : i + path.sum = n := by
  induction path generalizing i with
  | nil => exact h
  | cons k path ih =>
    obtain ⟨-, -, hrest⟩ := h
    rw [List.sum_cons, ← Nat.add_assoc]
    exact ih hrest

/-- A path depends on the edges below its end alone. -/
theorem PathTraced.congr {edge' : Nat → Nat} (hedge : ∀ j, j < n → edge' j = edge j)
    (h : PathTraced edge n i path) : PathTraced edge' n i path := by
  induction path generalizing i with
  | nil => exact h
  | cons k path ih =>
    obtain ⟨hk, hend, hrest⟩ := h
    have hn := hrest.end_eq
    exact ⟨hk, (hedge _ (by omega)).trans hend, ih hrest⟩

theorem pathTraced_dpTrace (fuel : Nat) (hpath : PathTraced edge n left path)
    (h : dpTrace edge fuel left path = .ok result) : PathTraced edge n 0 result := by
  induction fuel generalizing left path with
  | zero =>
    cases left <;> cases h
    exact hpath
  | succ fuel ih =>
    cases left with
    | zero =>
      cases h
      exact hpath
    | succ left =>
      simp only [dpTrace] at h
      split at h
      · cases h
      · rename_i hok
        obtain ⟨hne, hle⟩ := not_or.1 hok
        refine ih (path := edge left :: path) ⟨by omega, congrArg edge (by omega), ?_⟩ h
        rwa [Nat.sub_add_cancel (Nat.not_lt.1 hle)]

/-- The trace succeeds where every position was reached. -/
theorem exists_dpTrace (fuel : Nat) (hfuel : left ≤ fuel) (hedge : ∀ j, j < left → edge j ≠ 0 ∧ edge j ≤ j + 1)
    (path : List Nat) : ∃ result, dpTrace edge fuel left path = .ok result := by
  induction fuel generalizing left path with
  | zero =>
    obtain rfl := Nat.le_zero.1 hfuel
    exact ⟨path, rfl⟩
  | succ fuel ih =>
    cases left with
    | zero => exact ⟨path, rfl⟩
    | succ left =>
      obtain ⟨hne, hle⟩ := hedge left (Nat.lt_succ_self left)
      obtain ⟨result, hresult⟩ := ih (left := left + 1 - edge left) (by omega)
        (fun j hj => hedge j (by omega)) (edge left :: path)
      refine ⟨result, ?_⟩
      rw [dpTrace, if_neg (by omega)]
      exact hresult

end

/-! ### The replay (44_optimal_parse R210) -/

/-- The token of an edge from position `i` on: a reference where the cache hits, a literal elsewhere, or a copy at the
table's distance. -/
def State.solverToken (s : State) (sel : TableSel) (i k : Nat) : Token :=
  if k = 1 then
    match s.hitAt s.regs.cacheBits.toNat i with
    | some idx => .cacheRef idx
    | none => .literal (s.px i)
  else .copy (s.hcEntry sel i).1 k

/-- The tokens of a path from position `i` on. -/
def State.solverTokens (s : State) (sel : TableSel) : Nat → List Nat → List Token
  | _, [] => []
  | i, k :: path => s.solverToken sel i k :: s.solverTokens sel (i + k) path

theorem State.len_solverToken (s : State) (sel : TableSel) (i k : Nat) : (s.solverToken sel i k).len = k := by
  rw [State.solverToken]
  split
  · rename_i hone
    rw [hone]
    split <;> rfl
  · rfl

theorem State.solverToken_chosen (hopen : s.edgeOpen sel i k = true) :
    s.solverChoice sel i (s.solverToken sel i k) = true := by
  rw [State.solverToken]
  split
  · split
    · rename_i hhit
      exact decide_eq_true hhit
    · rename_i hmiss
      exact decide_eq_true hmiss
  · rename_i hk
    simp only [State.edgeOpen, decide_eq_true_eq] at hopen
    obtain ⟨-, htwo, hle⟩ := hopen.resolve_left hk
    exact decide_eq_true ⟨rfl, htwo, hle⟩

theorem State.solverTokens_chosen {path : List Nat} (h : s.PathOpen sel i path) :
    chosenBy (s.solverChoice sel) i (s.solverTokens sel i path) = true := by
  induction path generalizing i with
  | nil => rfl
  | cons k path ih =>
    obtain ⟨-, hopen, hrest⟩ := h
    simp only [State.solverTokens, chosenBy, State.solverToken_chosen hopen, State.len_solverToken, ih hrest,
      Bool.and_self]

/-- The tokens follow the edges of the path. -/
theorem State.solverTokens_follow {edge : Nat → Nat} {n : Nat} {path : List Nat} (h : PathTraced edge n i path) :
    chosenBy (fun p tok => decide (edge (p + tok.len - 1) = tok.len)) i (s.solverTokens sel i path) = true := by
  induction path generalizing i with
  | nil => rfl
  | cons k path ih =>
    obtain ⟨-, hedge, hrest⟩ := h
    simp only [State.solverTokens, chosenBy, State.len_solverToken, hedge, decide_true, ih hrest, Bool.and_self]

/-- One edge of the replay: its token, and the cache stepped over its pixels. -/
theorem State.dpReplay_cons (h : Histo) (i k : Nat) (path : List Nat) :
    dpReplay (s.dpInput sel h) i (s.solverCache s.regs.cacheBits.toNat i) (k :: path) =
      (dpReplay (s.dpInput sel h) (i + k) (s.solverCache s.regs.cacheBits.toNat (i + k)) path).push
        (s.solverToken sel i k) := by
  simp only [dpReplay, State.solverToken]
  split
  · rename_i hone
    subst hone
    cases hhit : s.hitAt s.regs.cacheBits.toNat i with
    | none => simp only [State.dpInput, s.stepCache_solverCache, hhit]
    | some idx => simp only [State.dpInput, s.stepCache_solverCache, hhit]
  · have hcache : (if s.regs.cacheBits.toNat = 0 then s.solverCache s.regs.cacheBits.toNat i
        else cacheInsertRun s.fns s.regs.cacheBits.toNat s.px (s.solverCache s.regs.cacheBits.toNat i) i k) =
        s.solverCache s.regs.cacheBits.toNat (i + k) := by
      split
      · rename_i hzero
        simp only [State.solverCache, if_pos hzero]
      · rename_i hb
        exact (State.solverCache_add hb i k).symm
    rw [← hcache]
    rfl

/-- The replay of a path: its tokens, and the cache stepped over its pixels. -/
theorem State.dpReplay_eq (h : Histo) (i : Nat) (path : List Nat) :
    dpReplay (s.dpInput sel h) i (s.solverCache s.regs.cacheBits.toNat i) path =
      ⟨s.solverTokens sel i path, s.solverCache s.regs.cacheBits.toNat (i + path.sum), i + path.sum⟩ := by
  induction path generalizing i with
  | nil => rfl
  | cons k path ih =>
    rw [State.dpReplay_cons, ih, List.sum_cons, ← Nat.add_assoc]
    rfl

/-! ### The histogram of a valid stream (45_histogram R222, R224) -/

theorem bits_of_addToken {f : Fns} {xs : Nat} {h h' : Histo} {t : Token} (ht : addToken f xs h t = .ok h') :
    h'.bits = h.bits := by
  cases t with
  | literal p =>
    cases ht
    rfl
  | cacheRef k =>
    simp only [addToken] at ht
    split at ht <;> cases ht
    rfl
  | copy d l =>
    cases ht
    rfl

theorem State.exists_addToken {b p : Nat} {c : CacheSlots} {t : Token} (ht : s.tokenTrue b c p t = true)
    {h : Histo} (hbits : h.bits = b) (f : Fns) (xs : Nat) : ∃ h', addToken f xs h t = .ok h' := by
  cases t with
  | literal v => exact ⟨_, rfl⟩
  | copy d l => exact ⟨_, rfl⟩
  | cacheRef k =>
    simp only [State.tokenTrue, decide_eq_true_eq] at ht
    obtain ⟨hb, -, hk, -⟩ := ht
    have hsize : ¬ cacheSize h.bits ≤ k := by
      rw [hbits, cacheSize, if_neg (by omega)]
      omega
    exact ⟨_, if_neg hsize⟩

theorem State.exists_addTokens {b p : Nat} {c : CacheSlots} {ts : List Token} (hts : s.streamTrue b c p ts = true)
    {h : Histo} (hbits : h.bits = b) (f : Fns) (xs : Nat) : ∃ h', addTokens f xs h ts = .ok h' := by
  induction ts generalizing p c h with
  | nil => exact ⟨h, rfl⟩
  | cons t ts ih =>
    simp only [State.streamTrue, Bool.and_eq_true] at hts
    obtain ⟨ht, hrest⟩ := hts
    obtain ⟨h', hh'⟩ := State.exists_addToken ht hbits f xs
    simp only [addTokens, hh']
    exact ih hrest ((bits_of_addToken hh').trans hbits)

/-- A valid stream has a histogram at its width. -/
theorem State.exists_histogramOf {b : Nat} {ts : List Token} (h : s.tokensTrue b ts = true) :
    ∃ histo, histogramOf s.fns s.xs ts b = .ok histo :=
  State.exists_addTokens (State.tokensTrue_iff.1 h).1 rfl s.fns s.xs

/-- The tokens of a valid stream fit their records. -/
theorem State.fits_of_tokensTrue {b : Nat} {ts : List Token} (h : s.tokensTrue b ts = true) :
    ∀ tok ∈ ts, tok.Fits := by
  obtain ⟨hstream, -⟩ := State.tokensTrue_iff.1 h
  exact State.fits_of_streamTrue hstream

/-! ### The pseudocode up to its end (44_optimal_parse R201) -/

/-- The reference stream, its histogram and the path the trace takes. -/
structure State.Traced (s : State) (sel : TableSel) (old : List Token) (h : Histo) (path : List Nat) : Prop where
  cur : s.curTokens = .ok old
  histo : histogramOf s.fns s.xs old s.regs.cacheBits.toNat = .ok h
  trace : dpTrace (fun i => ((s.solverCells sel h).getD i dpUnreached).edge) s.pixelCount s.pixelCount [] = .ok path

section
variable {old : List Token} {h : Histo} {path : List Nat} {u : State}

theorem State.Traced.pathTraced (ht : s.Traced sel old h path) :
    PathTraced (fun i => ((s.solverCells sel h).getD i dpUnreached).edge) s.pixelCount 0 path :=
  pathTraced_dpTrace (path := []) _ rfl ht.trace

theorem State.Traced.pathOpen (ht : s.Traced sel old h path) : s.PathOpen sel 0 path :=
  State.pathOpen_dpTrace (s.edgeEndsAt_solverCells sel h) _ (path := []) le_rfl trivial ht.trace

theorem State.length_solverTokens (s : State) (sel : TableSel) (i : Nat) (path : List Nat) :
    (s.solverTokens sel i path).length = path.length := by
  induction path generalizing i with
  | nil => rfl
  | cons k path ih => simp only [State.solverTokens, List.length_cons, ih]

theorem State.Traced.length_le (ht : s.Traced sel old h path) :
    (s.solverTokens sel 0 path).length ≤ s.pixelCount := by
  have hlen := length_dpTrace_le _ ht.trace
  rwa [List.length_nil, Nat.add_zero, ← s.length_solverTokens sel 0] at hlen

/-- What the replay of the traced path leaves. -/
def State.solution (s : State) (sel : TableSel) (path : List Nat) : ReplayEnd :=
  ⟨s.solverTokens sel 0 path, s.solverCache s.regs.cacheBits.toNat s.pixelCount, s.pixelCount⟩

theorem State.Traced.replay (ht : s.Traced sel old h path) :
    dpReplay (s.dpInput sel h) 0 (cacheInit s.regs.cacheBits.toNat) path = s.solution sel path := by
  have hend := ht.pathTraced.end_eq
  rw [← State.solverCache_start, State.dpReplay_eq, hend]
  rfl

/-- The built stream is valid. -/
theorem State.Traced.tokensTrue (ht : s.Traced sel old h path) (hs : s.faithful = true) (hv : s.hcValid sel = true)
    (hb : s.regs.cacheBits.toNat ≤ 10) :
    s.tokensTrue s.regs.cacheBits.toNat (s.solverTokens sel 0 path) = true := by
  have hcodes := State.dpReplay_codes (c := cacheInit s.regs.cacheBits.toNat) h hb
    (State.matchTrue_of_valid hs hv) ht.pathOpen (fun _ => rfl)
    (by rw [ht.replay]; rfl)
  rw [ht.replay] at hcodes
  exact State.tokensTrue_iff.2 hcodes

/-- Past the trace DP_SOLVE overflows SCR, or keeps the better of the two streams. -/
theorem State.Traced.body (ht : s.Traced sel old h path) {new : Histo}
    (hnew : histogramOf s.fns s.xs (s.solverTokens sel 0 path) s.regs.cacheBits.toNat = .ok new) :
    dpSolveBody sel s =
      if s.caps.tokCap < (s.solverTokens sel 0 path).length then
        s.failSolve .outOfMemory (bufferSpace (!s.bufs.sel))
      else .ok ((s.putSolution (s.solverCells sel h) (s.solution sel path)).keepBetter
        (new.estimateBits s.fns) (h.estimateBits s.fns)) := by
  have htrace := ht.trace
  simp only [State.solverCells] at htrace
  simp only [dpSolveBody, ht.cur, ht.histo, htrace, ht.replay, State.solution, hnew]
  simp only [State.solverCells, ne_eq, not_true_eq_false, if_false]

/-- A DP_SOLVE that ends without error has traced a path. -/
theorem State.exists_traced_of_ok (hok : dpSolveBody sel s = .ok u) : ∃ old h path, s.Traced sel old h path := by
  simp only [dpSolveBody] at hok
  split at hok
  · cases hok
  rename_i old hcur
  split at hok
  · cases hok
  rename_i h hhisto
  split at hok
  · cases hok
  rename_i path htrace
  exact ⟨old, h, path, hcur, hhisto, htrace⟩

/-- Where the forward pass reached every position there is a path. -/
theorem State.exists_traced_of_reaches (hreach : s.solverReaches sel = true) :
    ∃ old h path, s.Traced sel old h path ∧
      ∀ j, j < s.pixelCount → ((s.solverCells sel h).getD j dpUnreached).edge ≠ 0 := by
  simp only [State.solverReaches] at hreach
  split at hreach
  · cases hreach
  rename_i old hcur
  split at hreach
  · cases hreach
  rename_i h hhisto
  have hedge : ∀ j, j < s.pixelCount → ((s.solverCells sel h).getD j dpUnreached).edge ≠ 0 := by
    intro j hj
    rw [← s.length_solverCells sel h] at hj
    rw [List.getD_eq_getElem _ _ hj]
    exact of_decide_eq_true (List.all_eq_true.1 hreach _ (List.getElem_mem hj))
  obtain ⟨path, htrace⟩ := exists_dpTrace (edge := fun i => ((s.solverCells sel h).getD i dpUnreached).edge)
    s.pixelCount le_rfl (fun j hj => ⟨hedge j hj, ((s.edgeEndsAt_solverCells sel h j).resolve_left (hedge j hj)).1⟩)
    []
  exact ⟨old, h, path, ⟨hcur, hhisto, htrace⟩, hedge⟩

end

end

end Sys2Proof.Machine

end

section
/-! SUPPORT. DP_SOLVE: what it stores, and which of the two streams it keeps (44_optimal_parse R201, R212). -/

namespace Sys2Proof.Machine

section
variable {s : State} {sel : TableSel} {cells : List DpCell} {j k : Nat}

/-! ### What DP_SOLVE stores (44_optimal_parse R201) -/

/-- The cells in DPCOST and DPEDGE. -/
def State.putForward (s : State) (cells : List DpCell) : State :=
  { s with spaces := { s.spaces with
      dpCost := s.spaces.dpCost.put 0 (cells.map DpCell.cost)
      dpEdge := s.spaces.dpEdge.put 0 (cells.map (fun c => BitVec.ofNat 16 c.edge)) } }

section
variable {n : Nat} {r : ReplayEnd}

theorem State.readElem_putForward_dpCost (hj : j < cells.length) :
    (s.putForward cells).readElem .dpCost j = (cells.getD j dpUnreached).cost := by
  have hread : (s.spaces.dpCost.put 0 (cells.map DpCell.cost)).read 9 j = (cells.getD j dpUnreached).cost := by
    rw [Mem.read_put_zero _ _ _ (by simpa using hj)]
    simp [hj]
  exact hread

theorem State.readElem_putForward_dpEdge (hj : j < cells.length)
    (hfits : (cells.getD j dpUnreached).edge < 2 ^ 16) :
    ((s.putForward cells).readElem .dpEdge j).toNat = (cells.getD j dpUnreached).edge := by
  have hread : (s.spaces.dpEdge.put 0 (cells.map (fun c => BitVec.ofNat 16 c.edge))).read 10 j =
      BitVec.ofNat 16 (cells.getD j dpUnreached).edge := by
    rw [Mem.read_put_zero _ _ _ (by simpa using hj)]
    simp [hj]
  simp only [State.readElem, State.putForward, hread, BitVec.toNat_setWidth, BitVec.toNat_ofNat]
  omega

theorem State.putForward_sameElems (s : State) (cells : List DpCell) :
    SameElems (fun sp i => (sp = .dpCost ∨ sp = .dpEdge) ∧ i < cells.length) s (s.putForward cells) := by
  intro sp i hout
  by_cases hsp : sp = .dpCost ∨ sp = .dpEdge
  · have hi : cells.length ≤ i := by simpa [hsp] using hout
    obtain rfl | rfl := hsp
    · exact Mem.read_put_out _ _ _ _ _ (.inr (by simpa using hi))
    · exact congrArg (BitVec.setWidth 64) (Mem.read_put_out _ _ _ _ _ (.inr (by simpa using hi)))
  · have hkept : SpacesKept [.dpCost, .dpEdge] s.spaces (s.putForward cells).spaces :=
      { dpCost := by simp, dpEdge := by simp }
    exact hkept.readElem (by simpa using hsp) i

/-- Storing the solution fills SCR, DPCOST and DPEDGE, and CC where there is a cache. -/
theorem State.putSolution_spaces (s : State) (cells : List DpCell) (r : ReplayEnd) :
    (s.putSolution cells r).spaces =
      (if s.regs.cacheBits.toNat = 0 then (s.putTokens (!s.bufs.sel) r.tokens).putForward cells
        else ((s.putTokens (!s.bufs.sel) r.tokens).putForward cells).putCache s.regs.cacheBits.toNat
          r.cache).spaces := by
  simp only [State.putSolution]
  split <;> rfl

theorem BodyFrame.putSolution (s : State) (cells : List DpCell) (r : ReplayEnd) :
    BodyFrame s (s.putSolution cells r) := by
  have hput := BodyFrame.putTokens s (!s.bufs.sel) r.tokens
  simp only [State.putSolution]
  split
  · exact { hput with }
  · exact { hput with }

/-- The cache is stored beside the rest. -/
theorem State.putSolution_readElem (cells : List DpCell) (hcache : r.cache.length = n) {sp : SpaceId} {i : Nat}
    (hout : ¬ (s.regs.cacheBits ≠ 0 ∧ sp = .cc ∧ i < n)) :
    (s.putSolution cells r).readElem sp i = ((s.putTokens (!s.bufs.sel) r.tokens).putForward cells).readElem sp i := by
  rw [State.readElem_congr (s.putSolution_spaces cells r)]
  split
  · rfl
  · rename_i hb
    have hne : s.regs.cacheBits ≠ 0 := fun h => hb (congrArg BitVec.toNat h)
    refine State.putCache_sameElems _ _ _ sp i (fun hin => hout ⟨hne, ?_⟩)
    rwa [hcache] at hin

theorem State.putSolution_sameElems (cells : List DpCell) (hcache : r.cache.length = n) :
    SameElems (fun sp i => (sp = bufferId (!s.bufs.sel) ∧ i < r.tokens.length) ∨
      ((sp = .dpCost ∨ sp = .dpEdge) ∧ i < cells.length) ∨ (s.regs.cacheBits ≠ 0 ∧ sp = .cc ∧ i < n)) s
      (s.putSolution cells r) := by
  intro sp i hout
  obtain ⟨hbuffer, hout⟩ := not_or.1 hout
  obtain ⟨hforward, hcc⟩ := not_or.1 hout
  calc (s.putSolution cells r).readElem sp i
      = ((s.putTokens (!s.bufs.sel) r.tokens).putForward cells).readElem sp i :=
        State.putSolution_readElem cells hcache hcc
    _ = (s.putTokens (!s.bufs.sel) r.tokens).readElem sp i := State.putForward_sameElems _ cells sp i hforward
    _ = s.readElem sp i := s.putTokens_sameElems (!s.bufs.sel) r.tokens sp i hbuffer

theorem State.putSolution_ccBits (s : State) (cells : List DpCell) (r : ReplayEnd) :
    (s.putSolution cells r).ccBits =
      if s.regs.cacheBits.toNat = 0 then s.ccBits else BitVec.ofNat 4 s.regs.cacheBits.toNat := by
  simp only [State.putSolution]
  split
  · exact State.putTokens_ccBits ..
  · rfl

theorem State.ccSlot_congr {s t : State} (h : t.spaces.cc = s.spaces.cc) (k : Nat) : t.ccSlot k = s.ccSlot k := by
  simp only [State.ccSlot, h]

theorem State.putSolution_ccSlot (cells : List DpCell) (hb : s.regs.cacheBits.toNat ≠ 0) (hk : k < r.cache.length) :
    (s.putSolution cells r).ccSlot k = r.cache.getD k none := by
  have hspaces := s.putSolution_spaces cells r
  rw [if_neg hb] at hspaces
  rw [State.ccSlot, hspaces]
  exact State.ccSlot_putCache hk

theorem State.putSolution_curTokens (s : State) (cells : List DpCell) (r : ReplayEnd) :
    (s.putSolution cells r).curTokens = s.curTokens := by
  have hother := s.bufferRun_putTokens_other (!s.bufs.sel) r.tokens s.bufs.curLen
  rw [Bool.not_not] at hother
  simp only [State.curTokens, State.putSolution_bufs, State.bufferRun_putSolution, hother]

theorem State.putSolution_scrTokens (hwf : Memory.wf s = true) (cells : List DpCell)
    (hfits : ∀ tok ∈ r.tokens, tok.Fits) : (s.putSolution cells r).scrTokens = .ok r.tokens := by
  obtain ⟨hA, hB⟩ := tokens_wf_of_memory hwf
  simp only [State.scrTokens, State.putSolution_bufs, State.bufferRun_putSolution, State.bufferRun_putTokens hA hB,
    tokensOf_records hfits]

end

/-! ### Which stream is kept (44_optimal_parse R201, R212) -/

section
variable {u : State} (new old : Cost)

theorem State.keepBetter_curTokens :
    (u.keepBetter new old).curTokens = if Bin64.lt new old then u.scrTokens else u.curTokens := by
  simp only [State.keepBetter]
  split <;> rfl

theorem State.keepBetter_scrTokens :
    (u.keepBetter new old).scrTokens = if Bin64.lt new old then u.curTokens else u.scrTokens := by
  simp only [State.keepBetter]
  split
  · simp only [State.scrTokens, State.setResultCost_bufs, State.swapBuffers_bufs, Bool.not_not]
    rfl
  · rfl

theorem State.keepBetter_bufs (hbits : u.bufs.scrBits = u.bufs.curBits) :
    (u.keepBetter new old).bufs.sel = (u.bufs.sel != Bin64.lt new old) ∧
      (u.keepBetter new old).bufs.curBits = u.bufs.curBits ∧ (u.keepBetter new old).bufs.scrBits = u.bufs.curBits := by
  simp only [State.keepBetter]
  split
  · rename_i hbetter
    simp [hbetter, hbits]
  · rename_i hkeep
    simp [hkeep, hbits]

/-- Where both buffers are valid at one width the swap changes no flag. -/
theorem State.keepBetter_flags (hcur : u.flags.curValid = true) (hscr : u.flags.scrValid = true)
    (hcache : u.flags.curHasCache = decide (u.bufs.scrBits ≠ 0)) :
    (u.keepBetter new old).flags = { u.flags with dpImproved := Bin64.lt new old } := by
  simp only [State.keepBetter]
  split
  · rename_i hbetter
    simp only [State.setResultCost_flags, State.swapBuffers_flags, hcur, hscr, ← hcache, hbetter]
  · rename_i hkeep
    simp only [State.setResultCost_flags, hkeep]

theorem State.keepBetter_regs :
    (u.keepBetter new old).regs = { u.regs with
      result0 := (if Bin64.lt new old then new else old).extractLsb' 0 32
      result1 := (if Bin64.lt new old then new else old).extractLsb' 32 32 } := by
  simp only [State.keepBetter]
  split <;> rfl

theorem State.keepBetter_ccBits : (u.keepBetter new old).ccBits = u.ccBits := by
  simp only [State.keepBetter]
  split <;> rfl

theorem State.keepBetter_env : (u.keepBetter new old).env = u.env := by
  simp only [State.keepBetter]
  split <;> rfl

theorem State.keepBetter_writer : (u.keepBetter new old).writer = u.writer := by
  simp only [State.keepBetter]
  split <;> rfl

/-- The swap writes nothing. -/
theorem State.keepBetter_onlyWrites {W : SpaceId → Nat → Prop} {D : Nat → Prop} (h : OnlyWrites W D s u.endOk) :
    OnlyWrites W D s (u.keepBetter new old).endOk := by
  simp only [State.keepBetter]
  split <;> exact h

end

/-! ### The command (44_optimal_parse R201) -/

/-- What checks 7, 12, 13 and 18 say of a DP_SOLVE that passes them (60_exceptions R350). -/
structure State.SolverChecks (s : State) (sel : TableSel) : Prop where
  width : s.regs.cacheBits.toNat ≤ 10
  table : s.hcValid sel = true
  cur : s.flags.curValid = true
  same : s.bufs.curBits.toNat = s.regs.cacheBits.toNat

theorem State.solverChecks_of_starts (h : s.starts (.dpSolve sel) = true) : s.SolverChecks sel := by
  have hwidth := State.fails_of_starts h (n := 7) (by simp [Instr.checks])
  have htable := State.fails_of_starts h (n := 12) (by simp [Instr.checks])
  have hcur := State.fails_of_starts h (n := 13) (by simp [Instr.checks])
  have hsame := State.fails_of_starts h (n := 18) (by simp [Instr.checks])
  exact ⟨by simpa [State.fails] using hwidth, by simpa [State.fails, Instr.tableSel] using htable,
    by simpa [State.fails] using hcur, by simpa [State.fails, State.widthMismatch] using hsame⟩

/-- A DP_SOLVE that ends without error passed its checks and ran its pseudocode to the end. -/
theorem State.solverChecks_of_ok {t : State} (h : exec (.dpSolve sel) s = .next t) (hcode : t.flags.errCode = 0) :
    s.SolverChecks sel ∧ ∃ u, dpSolveBody sel s = .ok u ∧ t = u.endOk := by
  simp only [exec, execDpSolve] at h
  obtain ⟨hchecks, hok⟩ := runCommand_of_errCode_zero h hcode
  simp only [List.forall_mem_cons, State.badCacheBits, State.badTable, State.badCur, Bool.not_eq_false',
    decide_eq_false_iff_not, not_lt, not_not] at hchecks
  obtain ⟨-, hwidth, htable, hcur, hsame, -⟩ := hchecks
  exact ⟨⟨hwidth, htable, hcur, hsame⟩, hok⟩

theorem State.memory_wf_of_invariant (h : s.invariant = true) : Memory.wf s = true := by
  obtain ⟨hstored, -, -⟩ := State.invariant_iff.1 h
  exact Memory.wf_iff.2 (State.stored_memory_iff.2 ⟨hstored.spaces, hstored.slots⟩).1

section
variable {old : List Token} {h : Histo} {path : List Nat}

/-- The state DP_SOLVE leaves where the built stream, of estimate `new`, fits SCR; that of the reference stream is
`ref`. -/
def State.solved (s : State) (sel : TableSel) (h : Histo) (path : List Nat) (new ref : Cost) : State :=
  ((s.putSolution (s.solverCells sel h) (s.solution sel path)).keepBetter new ref).endOk

theorem State.length_solution_cache (s : State) (sel : TableSel) (path : List Nat) :
    (s.solution sel path).cache.length = 2 ^ s.regs.cacheBits.toNat := s.length_solverCache _ _

variable {new ref : Cost}

theorem State.solved_tokens (hwf : Memory.wf s = true) (hcur : s.curTokens = .ok old)
    (hfits : ∀ tok ∈ s.solverTokens sel 0 path, tok.Fits) :
    (s.solved sel h path new ref).curTokens =
        .ok (if Bin64.lt new ref then s.solverTokens sel 0 path else old) ∧
      (s.solved sel h path new ref).scrTokens =
        .ok (if Bin64.lt new ref then old else s.solverTokens sel 0 path) := by
  have hc := s.putSolution_curTokens (s.solverCells sel h) (s.solution sel path)
  have hs := State.putSolution_scrTokens (r := s.solution sel path) hwf (s.solverCells sel h) hfits
  rw [hcur] at hc
  refine ⟨(State.keepBetter_curTokens _ _).trans ?_, (State.keepBetter_scrTokens _ _).trans ?_⟩
  · rw [hc, hs, ← apply_ite Except.ok]
    rfl
  · rw [hc, hs, ← apply_ite Except.ok]
    rfl

theorem State.solved_spaces (s : State) (sel : TableSel) (h : Histo) (path : List Nat) (new ref : Cost) :
    (s.solved sel h path new ref).spaces = (s.putSolution (s.solverCells sel h) (s.solution sel path)).spaces :=
  State.keepBetter_spaces _ _

theorem State.solved_dpCost (hj : j < s.pixelCount) :
    (s.solved sel h path new ref).readElem .dpCost j = ((s.solverCells sel h).getD j dpUnreached).cost := by
  rw [State.readElem_congr (s.solved_spaces sel h path new ref),
    State.putSolution_readElem _ (s.length_solution_cache sel path) (by simp)]
  exact State.readElem_putForward_dpCost (by rwa [State.length_solverCells])

theorem State.solved_dpEdge (hj : j < s.pixelCount) :
    ((s.solved sel h path new ref).readElem .dpEdge j).toNat =
      ((s.solverCells sel h).getD j dpUnreached).edge := by
  rw [State.readElem_congr (s.solved_spaces sel h path new ref),
    State.putSolution_readElem _ (s.length_solution_cache sel path) (by simp)]
  exact State.readElem_putForward_dpEdge (by rwa [State.length_solverCells]) (s.edge_solverCells_lt sel h j)

theorem State.solved_cc (s : State) (sel : TableSel) (h : Histo) (path : List Nat) (new ref : Cost) :
    if s.regs.cacheBits = 0 then (s.solved sel h path new ref).ccBits = s.ccBits
    else (s.solved sel h path new ref).ccBits = s.regs.cacheBits.setWidth 4 ∧
      ∀ k, k < 2 ^ s.regs.cacheBits.toNat →
        (s.solved sel h path new ref).ccSlot k = (s.imageCache s.regs.cacheBits.toNat).getD k none := by
  have hbits : (s.solved sel h path new ref).ccBits = _ :=
    (State.keepBetter_ccBits _ _).trans (s.putSolution_ccBits (s.solverCells sel h) (s.solution sel path))
  split
  · rename_i hzero
    have hb : s.regs.cacheBits.toNat = 0 := congrArg BitVec.toNat hzero
    rwa [if_pos hb] at hbits
  · rename_i hne
    have hb : s.regs.cacheBits.toNat ≠ 0 := fun h => hne (BitVec.eq_of_toNat_eq h)
    rw [if_neg hb] at hbits
    refine ⟨hbits, fun k hk => ?_⟩
    have hslot := State.putSolution_ccSlot (r := s.solution sel path) (s.solverCells sel h) hb
      (by rwa [State.length_solution_cache])
    have himage : (s.solution sel path).cache = s.imageCache s.regs.cacheBits.toNat := if_neg hb
    rw [himage] at hslot
    rw [← hslot]
    exact State.ccSlot_congr (congrArg Spaces.cc (s.solved_spaces sel h path new ref)) k

theorem State.solved_onlyWrites (s : State) (sel : TableSel) (h : Histo) (path : List Nat) (new ref : Cost) :
    OnlyWrites (fun sp i => (sp = bufferId (!s.bufs.sel) ∧ i < (s.solverTokens sel 0 path).length) ∨
      ((sp = .dpCost ∨ sp = .dpEdge) ∧ i < s.pixelCount) ∨
      (s.regs.cacheBits ≠ 0 ∧ sp = .cc ∧ i < 2 ^ s.regs.cacheBits.toNat)) noSlots s
      (s.solved sel h path new ref) := by
  have helems := State.putSolution_sameElems (s := s) (s.solverCells sel h) (s.length_solution_cache sel path)
  rw [State.length_solverCells] at helems
  exact State.keepBetter_onlyWrites _ _ ((BodyFrame.putSolution s _ _).onlyWrites helems)

theorem State.SolverChecks.curBits (hc : s.SolverChecks sel) :
    BitVec.ofNat 4 s.regs.cacheBits.toNat = s.bufs.curBits :=
  BitVec.eq_of_toNat_eq ((toNat_ofNat_width hc.width).trans hc.same.symm)

theorem State.SolverChecks.solved_bufs (hc : s.SolverChecks sel) :
    (s.solved sel h path new ref).bufs.sel = (s.bufs.sel != Bin64.lt new ref) ∧
      (s.solved sel h path new ref).bufs.curBits = s.bufs.curBits ∧
      (s.solved sel h path new ref).bufs.scrBits = s.bufs.curBits := by
  have hbufs := s.putSolution_bufs (s.solverCells sel h) (s.solution sel path)
  have hkept := State.keepBetter_bufs (u := s.putSolution (s.solverCells sel h) (s.solution sel path)) new ref
    (by rw [hbufs]; exact hc.curBits)
  rwa [hbufs] at hkept

theorem State.SolverChecks.solved_flags (hc : s.SolverChecks sel)
    (hcache : s.flags.curHasCache = decide (s.bufs.curBits ≠ 0)) :
    (s.solved sel h path new ref).flags =
      { s.okFlags with scrValid := true, dpImproved := Bin64.lt new ref } := by
  have hflags := s.putSolution_flags (s.solverCells sel h) (s.solution sel path)
  have hbufs := s.putSolution_bufs (s.solverCells sel h) (s.solution sel path)
  have hkept := State.keepBetter_flags (u := s.putSolution (s.solverCells sel h) (s.solution sel path)) new ref
    (by rw [hflags]; exact hc.cur) (by rw [hflags]) (by rw [hflags, hbufs]; exact hc.curBits ▸ hcache)
  rw [State.solved, State.endOk_flags, hkept, hflags, State.keepBetter_env, (BodyFrame.putSolution s _ _).env]
  rfl

theorem State.solved_regs (s : State) (sel : TableSel) (h : Histo) (path : List Nat) (new ref : Cost) :
    (s.solved sel h path new ref).regs = { s.okRegs with
      result0 := (if Bin64.lt new ref then new else ref).extractLsb' 0 32
      result1 := (if Bin64.lt new ref then new else ref).extractLsb' 32 32 } := by
  rw [State.solved, State.endOk_regs, State.keepBetter_regs, (BodyFrame.putSolution s _ _).regs]
  rfl

theorem State.solved_writer (s : State) (sel : TableSel) (h : Histo) (path : List Nat) (new ref : Cost) :
    (s.solved sel h path new ref).writer = s.writer :=
  (State.keepBetter_writer _ _).trans (BodyFrame.putSolution s _ _).writer

/-- DPCOST and DPEDGE hold cheapest edges where every position was reached. -/
theorem State.solved_cheapestEnd (hreached : ((s.solverCells sel h).getD j dpUnreached).edge ≠ 0)
    (hj : j < s.pixelCount) :
    State.CheapestEnd s (s.solved sel h path new ref) sel (costModelBuild s.fns h) j :=
  (s.cellCheapest_solverCells sel h hj).cheapestEnd hreached (fun _ hp => State.solved_dpCost (hp.trans_lt hj))
    (State.solved_dpEdge hj)

/-- The tokens of the built stream follow DPEDGE. -/
theorem State.Traced.follow (ht : s.Traced sel old h path) :
    chosenBy (fun p tok => decide
        (((s.solved sel h path new ref).readElem .dpEdge (p + tok.len - 1)).toNat = tok.len)) 0
      (s.solverTokens sel 0 path) = true :=
  State.solverTokens_follow (edge := fun j => ((s.solved sel h path new ref).readElem .dpEdge j).toNat)
    (ht.pathTraced.congr (fun _ hj => State.solved_dpEdge hj))

end

end

end Sys2Proof.Machine

open Sys2Proof Sys2Proof.Machine

/-- Settles O43: every cell of the forward pass holds a cheapest edge, the trace and the replay turn them into a valid
stream, and the swap decides which of the two buffers is CUR. -/
theorem dpSolveStream : Obligations.DpSolveStream := by
  unfold Obligations.DpSolveStream
  intro s sel hstarts hinv hfaith hreach
  have hchecks := State.solverChecks_of_starts hstarts
  obtain ⟨old, h, path, ht, hreached⟩ := State.exists_traced_of_reaches hreach
  have htrue := ht.tokensTrue hfaith hchecks.table hchecks.width
  obtain ⟨new, hnew⟩ := State.exists_histogramOf htrue
  refine ⟨_, old, s.solverTokens sel 0 path, h, new, exec_dpSolve_of_starts hstarts, ht.cur, htrue,
    State.solverTokens_chosen ht.pathOpen, ht.length_le, ht.histo, hnew, ?_⟩
  rw [ht.body hnew]
  split
  · rename_i hfits
    rw [if_neg (Nat.not_lt.2 hfits)]
    obtain ⟨hstored, -, -⟩ := State.invariant_iff.1 hinv
    obtain ⟨hcur, hscr⟩ := State.solved_tokens (State.memory_wf_of_invariant hinv) ht.cur
      (State.fits_of_tokensTrue htrue)
    obtain ⟨hsel, hcurBits, hscrBits⟩ := hchecks.solved_bufs
    exact ⟨⟨hcur, hscr, hsel, hcurBits, hscrBits, hchecks.solved_flags (hstored.cached hchecks.cur),
      s.solved_regs ..⟩, fun j hj => State.solved_cheapestEnd (hreached j hj) hj, ht.follow, s.solved_cc ..,
      s.solved_writer .., s.solved_onlyWrites ..⟩
  · rename_i hover
    rw [if_pos (Nat.not_le.1 hover)]
    have hspace : bufferSpace (!s.bufs.sel) = if s.bufs.sel then 3 else 4 := by
      cases s.bufs.sel <;> rfl
    rw [hspace]
    exact s.failSolve_raised 0x30 .outOfMemory _

/-- Settles O44: the built stream becomes CUR only where its estimate is strictly lower, and no cost is below itself. -/
theorem dpSolveMonotone : Obligations.DpSolveMonotone := by
  unfold Obligations.DpSolveMonotone
  intro s t sel hinv hfaith hexec hcode
  obtain ⟨hchecks, u, hu, rfl⟩ := State.solverChecks_of_ok hexec hcode
  obtain ⟨old, h, path, ht⟩ := State.exists_traced_of_ok hu
  have htrue := ht.tokensTrue hfaith hchecks.table hchecks.width
  obtain ⟨new, hnew⟩ := State.exists_histogramOf htrue
  rw [ht.body hnew] at hu
  split at hu <;> cases hu
  obtain ⟨hafter, -⟩ := State.solved_tokens (State.memory_wf_of_invariant hinv) ht.cur
    (State.fits_of_tokensTrue htrue)
  by_cases hbetter : Bin64.lt (new.estimateBits s.fns) (h.estimateBits s.fns) = true
  · rw [if_pos hbetter] at hafter
    exact ⟨old, _, h, new, ht.cur, hafter, ht.histo, hnew, Bin64.lt_asymm hbetter⟩
  · rw [if_neg hbetter] at hafter
    exact ⟨old, old, h, h, ht.cur, hafter, ht.histo, ht.histo, Bin64.lt_irrefl _⟩

end

section
/-! SUPPORT. Histogram values and the slots that hold them: the marks, the first element that overflows, the elements of
a value, and what a slot reads after values were stored (10_state R36 to R38, 45_histogram R220, R226). -/

namespace Sys2Proof.Machine

/-! ### Marks and overflow (10_state R38, 45_histogram R226) -/

/-- A symbol is marked where its entry is all that the filter of `soleSymbol` keeps. -/
theorem soleSymbol_eq_some_iff_entry {l : List Nat} {sym : Nat} :
    soleSymbol l = some sym ↔ ∃ v, ∀ c : Nat × Nat, l[c.2]? = some c.1 ∧ c.1 ≠ 0 ↔ c = (v, sym) := by
  have hnodup : (l.zipIdx.filter (fun c => c.1 != 0)).Nodup := 
    ((List.nodup_zipIdx_map_snd l).of_map _).filter _
  have hsingle : ∀ a, l.zipIdx.filter (fun c => c.1 != 0) = [a] ↔
      ∀ c : Nat × Nat, l[c.2]? = some c.1 ∧ c.1 ≠ 0 ↔ c = a := by
    intro a
    rw [← List.perm_singleton, List.perm_ext_iff_of_nodup hnodup (List.nodup_singleton a)]
    simp only [List.mem_filter, List.mem_zipIdx_iff_getElem?, bne_iff_ne, List.mem_singleton]
  simp only [← hsingle, soleSymbol]
  split
  · rename_i c hc
    simp [hc, Prod.ext_iff]
  · rename_i hne
    exact ⟨nofun, fun ⟨v, hv⟩ => absurd hv (hne _)⟩

/-- The symbol marked is the one whose count is not zero. -/
theorem soleSymbol_eq_some {l : List Nat} {sym : Nat} :
    soleSymbol l = some sym ↔ l.getD sym 0 ≠ 0 ∧ ∀ q, q ≠ sym → l.getD q 0 = 0 := by
  rw [soleSymbol_eq_some_iff_entry]
  have hentry : ∀ q v, l[q]? = some v ∧ v ≠ 0 ↔ l.getD q 0 = v ∧ v ≠ 0 := by
    intro q v
    rw [List.getD_eq_getElem?_getD]
    cases l[q]? <;> simp +contextual [eq_comm]
  constructor
  · rintro ⟨v, hv⟩
    obtain ⟨hat, hne⟩ := (hentry sym v).1 ((hv (v, sym)).2 rfl)
    refine ⟨hat ▸ hne, fun q hq => ?_⟩
    by_contra hzero
    exact hq (congrArg Prod.snd ((hv (l.getD q 0, q)).1 ((hentry q _).2 ⟨rfl, hzero⟩)))
  · rintro ⟨hne, hothers⟩
    refine ⟨l.getD sym 0, fun ⟨v, q⟩ => ?_⟩
    rw [hentry, Prod.mk.injEq]
    constructor
    · rintro ⟨hq, hv⟩
      obtain rfl : q = sym := not_imp_comm.1 (hothers q) (hq ▸ hv)
      exact ⟨hq.symm, rfl⟩
    · rintro ⟨rfl, rfl⟩
      exact ⟨rfl, hne⟩

/-- The offset answered is the first at which a count reaches 2^32. -/
theorem overflowAt_eq_findIdx (l : List Nat) : overflowAt l = l.findIdx? (fun n => decide (2 ^ 32 ≤ n)) := by
  rw [List.findIdx?_eq_fst_find?_zipIdx]
  rfl

theorem overflowAt_eq_none {l : List Nat} : overflowAt l = none ↔ ∀ n ∈ l, n < 2 ^ 32 := by
  simp [overflowAt_eq_findIdx, List.findIdx?_eq_none_iff]

theorem overflowAt_eq_some {l : List Nat} {e : Nat} (he : e < l.length) (hover : 2 ^ 32 ≤ l[e])
    (hbefore : ∀ q (hq : q < e), l[q] < 2 ^ 32) : overflowAt l = some e := by
  rw [overflowAt_eq_findIdx, List.findIdx?_eq_some_iff_getElem]
  exact ⟨he, by simpa using hover, fun q hq => by simpa using hbefore q hq⟩

/-! ### The elements of a value (10_state R36) -/

/-- The elements of a table: its counts, then zeros up to the room of the table. -/
def Histo.block (h : Histo) (t : Table) : List Nat :=
  h.counts.get t ++ List.replicate (t.room - (h.counts.get t).length) 0

theorem Histo.elements_eq (h : Histo) : h.elements =
    h.block .combined ++ (h.block .red ++ (h.block .blue ++ (h.block .alpha ++ (h.block .distance ++
      List.replicate (Config.slotStride - Config.slotUsed) 0)))) := by
  simp only [← List.append_assoc]
  rfl

theorem Histo.Fits.length_block {h : Histo} (hh : h.Fits) (t : Table) : (h.block t).length = t.room := by
  have := (hh.counts t).trans (t.size_le_room hh.bits)
  simp only [Histo.block, List.length_append, List.length_replicate]
  omega

theorem Histo.getD_block (h : Histo) (t : Table) (k : Nat) : (h.block t).getD k 0 = (h.counts.get t).getD k 0 := by
  obtain hk | hk := Nat.lt_or_ge k (h.counts.get t).length
  · exact List.getD_append _ _ _ _ hk
  · rw [Histo.block, List.getD_append_right _ _ _ _ hk, List.getD_eq_default _ _ hk]
    simp

theorem Histo.mem_block {h : Histo} {t : Table} {n : Nat} (hn : n ∈ h.block t) : n = 0 ∨ n ∈ h.counts.get t :=
  (List.mem_append.1 hn).elim .inr (fun h => .inl (List.eq_of_mem_replicate h))

/-- Every element is a count or zero. -/
theorem Histo.mem_elements {h : Histo} {n : Nat} (hn : n ∈ h.elements) : n = 0 ∨ ∃ t, n ∈ h.counts.get t := by
  simp only [Histo.elements_eq, List.mem_append] at hn
  obtain hn | hn | hn | hn | hn | hn := hn
  case inr.inr.inr.inr.inr => exact .inl (List.eq_of_mem_replicate hn)
  all_goals exact (Histo.mem_block hn).imp_right (⟨_, ·⟩)

theorem getD_append_first {l m : List Nat} {n k : Nat} (hl : l.length = n) (hk : k < n) :
    (l ++ m).getD k 0 = l.getD k 0 := List.getD_append _ _ _ _ (hl ▸ hk)

theorem getD_append_rest {l m : List Nat} {n k i : Nat} (hl : l.length = n) (hi : i = n + k) :
    (l ++ m).getD i 0 = m.getD k 0 := by
  rw [List.getD_append_right _ _ _ _ (by omega), hl, hi, Nat.add_sub_cancel_left]

/-- The counts of a table stand from its base on. -/
theorem Histo.Fits.getD_elements {h : Histo} (hh : h.Fits) (t : Table) {k : Nat} (hk : k < t.room) :
    h.elements.getD (t.base + k) 0 = (h.counts.get t).getD k 0 := by
  have hlen := hh.length_block
  rw [← h.getD_block t k, Histo.elements_eq]
  cases t
  case combined =>
    rw [show Table.combined.base + k = k from Nat.zero_add k]
    exact getD_append_first (hlen .combined) hk
  case red => exact (getD_append_rest (hlen .combined) rfl).trans (getD_append_first (hlen .red) hk)
  case blue =>
    exact (getD_append_rest (hlen .combined) (Nat.add_assoc 1304 256 k)).trans <|
      (getD_append_rest (hlen .red) rfl).trans (getD_append_first (hlen .blue) hk)
  case alpha =>
    exact (getD_append_rest (hlen .combined) (Nat.add_assoc 1304 512 k)).trans <|
      (getD_append_rest (hlen .red) (Nat.add_assoc 256 256 k)).trans <|
      (getD_append_rest (hlen .blue) rfl).trans (getD_append_first (hlen .alpha) hk)
  case distance =>
    exact (getD_append_rest (hlen .combined) (Nat.add_assoc 1304 768 k)).trans <|
      (getD_append_rest (hlen .red) (Nat.add_assoc 256 512 k)).trans <|
      (getD_append_rest (hlen .blue) (Nat.add_assoc 256 256 k)).trans <|
      (getD_append_rest (hlen .alpha) rfl).trans (getD_append_first (hlen .distance) hk)

/-! ### Slots that hold values (45_histogram R220) -/

/-- Every table has the size the width gives it (10_state R36). -/
def Histo.Sized (h : Histo) : Prop := ∀ t, (h.counts.get t).length = t.size h.bits

theorem Histo.sized_zero (bits : Nat) : (histoZero bits).Sized := fun t => by simp [histoZero]

/-- A value as a slot can hold it: a width of at most 10, whole tables, and counts below 2^32. -/
structure Histo.Storable (h : Histo) : Prop where
  bits : h.bits ≤ 10
  size : h.Sized
  small : ∀ t, ∀ n ∈ h.counts.get t, n < 2 ^ 32

theorem Histo.Storable.fits {h : Histo} (hh : h.Storable) : h.Fits := ⟨hh.bits, fun t => (hh.size t).le⟩

theorem Histo.storable_zero {bits : Nat} (hb : bits ≤ 10) : (histoZero bits).Storable where
  bits := hb
  size := Histo.sized_zero bits
  small t n hn := by
    rw [histoZero, PerTable.get_ofFn] at hn
    exact List.eq_of_mem_replicate hn ▸ by decide

/-- No element of such a value overflows. -/
theorem Histo.Storable.overflowAt {h : Histo} (hh : h.Storable) : overflowAt h.elements = none := by
  refine overflowAt_eq_none.2 (fun n hn => ?_)
  obtain rfl | ⟨t, ht⟩ := Histo.mem_elements hn
  · decide
  · exact hh.small t n ht

/-- Element `e` of part `g` where every part has length `n`. -/
theorem getD_flatMap_of_length {α β : Type} {f : α → List β} {n : Nat} {l : List α}
    (hlen : ∀ x ∈ l, (f x).length = n) {g e : Nat} (hg : g < l.length) (he : e < n) (d : β) :
    (l.flatMap f).getD (g * n + e) d = (f l[g]).getD e d := by
  induction l generalizing g with
  | nil => cases hg
  | cons x l ih =>
    obtain ⟨hx, hl⟩ := List.forall_mem_cons.1 hlen
    rw [List.flatMap_cons]
    cases g with
    | zero => rw [Nat.zero_mul, Nat.zero_add, List.getD_append _ _ _ _ (hx ▸ he), List.getElem_cons_zero]
    | succ g =>
      rw [List.getD_append_right _ _ _ _ (by rw [hx, Nat.succ_mul]; omega), hx,
        show (g + 1) * n + e - n = g * n + e by rw [Nat.succ_mul]; omega, ih hl (Nat.lt_of_succ_lt_succ hg),
        List.getElem_cons_succ]

section
variable {s : State} {base g : Nat} {hs : List Histo}

theorem State.putHistos_read (hfit : ∀ v ∈ hs, v.Fits) (hg : g < hs.length) {e : Nat} (he : e < Config.slotStride) :
    (s.putHistos base hs).spaces.hist.read 6 ((base + g) * Config.slotStride + e) =
      BitVec.ofNat 32 (hs[g].elements.getD e 0) := by
  have hlen : ∀ v ∈ hs, (v.elements.map (BitVec.ofNat 32)).length = Config.slotStride :=
    fun v hv => (List.length_map _).trans (hfit v hv).length_elements
  have hin : (base + g) * Config.slotStride + e = base * Config.slotStride + (g * Config.slotStride + e) := by
    rw [Nat.add_mul, Nat.add_assoc]
  have hbound := slot_range_le hg (Nat.succ_le_of_lt he)
  rw [State.putHistos_spaces, hin, Mem.read_put_in _ _ _ _ _ (Nat.le_add_right _ _)
    (by rw [length_flatMap_elements hfit]; omega),
    Nat.add_sub_cancel_left, getD_flatMap_of_length hlen hg he]
  exact List.getD_map hs[g].elements 0 (BitVec.ofNat 32)

theorem State.putHistos_slot (s : State) (base : Nat) (hg : g < hs.length) :
    (s.putHistos base hs).slot (base + g) = (s.slot (base + g)).counted hs[g] := by
  have hslot := s.slot_setSlots base (base + g) (hs.zipIdx.map (fun c => (s.slot (base + c.2)).counted c.1))
  refine hslot.trans ?_
  simp [hg]

theorem State.putHistos_hbits (s : State) (base : Nat) (hg : g < hs.length) (hb : hs[g].bits ≤ 10) :
    ((s.putHistos base hs).slot (base + g)).hbits.toNat = hs[g].bits := by
  rw [State.putHistos_slot s base hg]
  exact toNat_ofNat_width hb

/-- The tables of a slot are those of the value stored in it. -/
theorem State.putHistos_histTable (hwf : s.spaces.hist.wf = true) (hstore : ∀ v ∈ hs, v.Storable)
    (hg : g < hs.length) (t : Table) : (s.putHistos base hs).histTable (base + g) t = hs[g].counts.get t := by
  have hv := hstore _ (List.getElem_mem hg)
  have hfit : ∀ v ∈ hs, v.Fits := fun v hv => (hstore v hv).fits
  have hput : (s.putHistos base hs).spaces.hist.wf = true := Mem.wf_put _ _ hwf
  rw [State.histTable, State.putHistos_hbits s base hg hv.bits, Mem.run_eq _ _ _ hput, List.map_map]
  refine List.ext_getElem (by simp [hv.size t]) (fun k hk hk' => ?_)
  have hsize : k < t.size hs[g].bits := (hv.size t) ▸ hk'
  have hroom := t.size_le_room hv.bits
  have hbase := t.base_add_size_le hv.bits
  have hsmall := hv.small t _ (List.getElem_mem hk')
  rw [List.getElem_map, List.getElem_range, Function.comp_apply, Nat.add_assoc,
    State.putHistos_read hfit hg (by omega), hv.fits.getD_elements t (by omega), List.getD_eq_getElem _ _ hk',
    BitVec.toNat_ofNat, Nat.mod_eq_of_lt hsmall]

/-- Marks taken from the counts of a slot are right. -/
theorem State.marksRight_of_soleSymbol {t : State} {h : Nat}
    (hmarks : ∀ tbl, (t.slot h).trivialSym.get tbl = soleSymbol (t.histTable h tbl)) : t.MarksRight h := by
  intro tbl sym
  rw [hmarks, soleSymbol_eq_some]
  rfl

theorem State.putHistos_slotCounted (hwf : s.spaces.hist.wf = true) (hstore : ∀ v ∈ hs, v.Storable)
    (hg : g < hs.length) {bits : BitVec 4} (hbits : hs[g].bits = bits.toNat) :
    SlotCounted s (s.putHistos base hs) (base + g) bits := by
  refine ⟨?_, State.marksRight_of_soleSymbol (fun tbl => ?_)⟩
  · rw [State.putHistos_slot s base hg, Slot.counted, hbits, BitVec.ofNat_toNat, BitVec.setWidth_eq]
  · rw [State.putHistos_histTable hwf hstore hg, State.putHistos_slot s base hg]
    exact PerTable.get_ofFn _ tbl

/-- Storing values changes the elements of their slots alone. -/
theorem State.putHistos_sameElems (s : State) (base : Nat) (hfit : ∀ v ∈ hs, v.Fits) :
    SameElems
      (fun sp i => sp = .hist ∧ base * Config.slotStride ≤ i ∧ i < (base + hs.length) * Config.slotStride) s
      (s.putHistos base hs) := by
  intro sp i hout
  by_cases hsp : sp = .hist
  · subst hsp
    have hi : i < base * Config.slotStride ∨
        base * Config.slotStride + hs.length * Config.slotStride ≤ i := by
      rw [Nat.add_mul] at hout
      simp only [true_and] at hout
      omega
    simp only [State.readElem, State.putHistos_spaces]
    rw [Mem.read_put_out _ _ _ _ _ (by rwa [length_flatMap_elements hfit])]
  · exact (SpacesKept.of_hist s.spaces _).readElem (t := s.putHistos base hs) (by simpa using hsp) i

/-- Storing values changes the hidden fields of their slots alone, and no cost. -/
theorem State.putHistos_sameSlots (s : State) (base : Nat) (hs : List Histo) :
    SameSlots (fun k => base ≤ k ∧ k < base + hs.length) s (s.putHistos base hs) := by
  intro k hout
  refine ⟨?_, rfl, fun _ _ => rfl⟩
  refine (s.slot_setSlots base k (hs.zipIdx.map (fun c => (s.slot (base + c.2)).counted c.1))).trans ?_
  rw [List.length_map, List.length_zipIdx, if_neg hout]

end

/-! ### What a command without error wrote (20_memory R66) -/

section
variable {s t u : State} {W W' : SpaceId → Nat → Prop} {D D' : Nat → Prop}

/-- The end of a command adds nothing to what its pseudocode wrote. -/
theorem State.endOk_onlyWrites (helems : SameElems W s u) (hslots : SameSlots D s u)
    (hcaps : u.caps = s.caps := by rfl) (hfns : u.fns = s.fns := by rfl) (hpc : u.pc = s.pc := by rfl)
    (henv : u.env = s.env := by rfl) (hctrl : u.regs.ctrl = s.regs.ctrl := by rfl) : OnlyWrites W D s u.endOk := by
  refine ⟨fun sp i hout => (u.readElem_endOk sp i).trans (helems sp i hout), hslots, hcaps, hfns, ?_, ?_⟩
  · rw [State.endOk_pc, hpc]
  · simp only [State.endOk_env, henv, State.doneIE, hctrl]

theorem OnlyWrites.mono (h : OnlyWrites W D s t) (hW : ∀ sp i, W sp i → W' sp i) (hD : ∀ k, D k → D' k) :
    OnlyWrites W' D' s t := by
  obtain ⟨helems, hslots, hended⟩ := h
  exact ⟨fun sp i hout => helems sp i (mt (hW sp i) hout), fun k hout => hslots k (mt (hD k) hout), hended⟩

theorem State.putHistos_onlyWrites (s : State) (base : Nat) {hs : List Histo} (hfit : ∀ v ∈ hs, v.Fits) :
    OnlyWrites
      (fun sp i => sp = .hist ∧ base * Config.slotStride ≤ i ∧ i < (base + hs.length) * Config.slotStride)
      (fun k => base ≤ k ∧ k < base + hs.length) s (s.putHistos base hs).endOk :=
  State.endOk_onlyWrites (s.putHistos_sameElems base hfit) (s.putHistos_sameSlots base hs)

end

end Sys2Proof.Machine
end

section
/-! SUPPORT. What the tokens of a stream add to a histogram: one count for each symbol of a token (30_encoding R103,
45_histogram R222, R224). -/

namespace Sys2Proof.Machine

/-! ### The symbols of a token (30_encoding R103) -/

/-- The symbols a token puts into the tables (45_histogram R222). -/
def Token.symbols (f : Fns) (xs : Nat) : Token → List (Table × Nat)
  | .literal p => [(.combined, greenOf p), (.red, redOf p), (.blue, blueOf p), (.alpha, alphaOf p)]
  | .cacheRef k => [(.combined, 280 + k)]
  | .copy d l => [(.combined, 256 + (prefixEncode l).code), (.distance, (distancePrefix f xs d).code)]

theorem Token.nodup_symbols (f : Fns) (xs : Nat) (t : Token) : (t.symbols f xs).Nodup := by
  refine List.Nodup.of_map Prod.fst ?_
  cases t <;> simp [Token.symbols]

theorem Token.counts_iff (f : Fns) (xs : Nat) (tbl : Table) (sym : Nat) (t : Token) :
    t.counts f xs tbl sym = true ↔ (tbl, sym) ∈ t.symbols f xs := by
  cases t with
  | literal p =>
    have hp := p.isLt
    have halpha : p.toNat / 2 ^ 24 % 2 ^ 8 = p.toNat / 2 ^ 24 := Nat.mod_eq_of_lt (by omega)
    cases tbl <;>
      simp only [Token.counts, Token.symbols, greenOf, redOf, blueOf, alphaOf, BitVec.extractLsb'_toNat,
        Nat.shiftRight_eq_div_pow, halpha] <;> simp
  | cacheRef k => simp [Token.counts, Token.symbols]
  | copy d l => simp [Token.counts, Token.symbols, distancePrefix]

/-- The token puts a symbol into the table: each into the first, a literal into the next three, a copy into the
last. -/
def Token.feeds (tbl : Table) (t : Token) : Bool :=
  match tbl with
  | .combined => true
  | .red | .blue | .alpha => t.isLiteral
  | .distance => t.isCopy

/-- A token puts at most one symbol into a table. -/
theorem Token.countP_symbols (f : Fns) (xs : Nat) (tbl : Table) (t : Token) :
    (t.symbols f xs).countP (fun c => c.1 = tbl) = if t.feeds tbl then 1 else 0 := by
  cases t <;> cases tbl <;> rfl

theorem Token.count_symbols (f : Fns) (xs : Nat) (tbl : Table) (sym : Nat) (t : Token) :
    (t.symbols f xs).count (tbl, sym) = if t.counts f xs tbl sym then 1 else 0 := by
  rw [(t.nodup_symbols f xs).count]
  simp only [Token.counts_iff]

/-- The tables have every symbol of the token at a cache width. -/
def Token.Codable (f : Fns) (xs b : Nat) (t : Token) : Prop := ∀ c ∈ t.symbols f xs, c.2 < c.1.size b

/-! ### Counting symbols (45_histogram R222) -/

/-- A value with the symbols of a token list counted. -/
def Histo.counting (f : Fns) (xs : Nat) (h : Histo) (ts : List Token) : Histo :=
  (ts.flatMap (Token.symbols f xs)).foldl (fun v c => v.bump c.1 c.2) h

theorem Histo.counting_cons (f : Fns) (xs : Nat) (h : Histo) (t : Token) (ts : List Token) :
    h.counting f xs (t :: ts) = (h.counting f xs [t]).counting f xs ts := by
  simp [Histo.counting, List.flatMap_cons, List.foldl_append]

theorem Histo.Sized.bump {h : Histo} (hh : h.Sized) (t : Table) (sym : Nat) : (h.bump t sym).Sized := by
  intro u
  simp only [Histo.bump, PerTable.get_set]
  split
  · rename_i hu
    subst hu
    simpa using hh u
  · exact hh u

theorem Histo.getD_bump {h : Histo} {t : Table} {sym : Nat} (hsym : sym < (h.counts.get t).length) (u : Table)
    (q : Nat) : ((h.bump t sym).counts.get u).getD q 0 =
      (h.counts.get u).getD q 0 + if (t, sym) = (u, q) then 1 else 0 := by
  simp only [Histo.bump, PerTable.get_set, Prod.mk.injEq]
  by_cases hu : u = t
  · subst hu
    by_cases hq : sym = q
    · subst hq
      simp [List.getD_eq_getElem?_getD, hsym]
    · simp [List.getD_eq_getElem?_getD, hq]
  · simp [hu, Ne.symm hu]

theorem Histo.sum_bump {h : Histo} {t : Table} {sym : Nat} (hsym : sym < (h.counts.get t).length) (u : Table) :
    ((h.bump t sym).counts.get u).sum = (h.counts.get u).sum + if t = u then 1 else 0 := by
  simp only [Histo.bump, PerTable.get_set]
  by_cases hu : u = t
  · subst hu
    obtain ⟨l₁, a, l₂, hl, -, hmod⟩ := List.exists_of_modify (· + 1) hsym
    rw [if_pos rfl, if_pos rfl, hmod, hl]
    simp only [List.sum_append, List.sum_cons]
    omega
  · rw [if_neg hu, if_neg (Ne.symm hu), Nat.add_zero]

theorem Histo.bits_foldl_bump (h : Histo) (cs : List (Table × Nat)) :
    (cs.foldl (fun v c => v.bump c.1 c.2) h).bits = h.bits := by
  induction cs generalizing h with
  | nil => rfl
  | cons c cs ih => exact ih (h.bump c.1 c.2)

theorem Histo.Sized.foldl_bump {h : Histo} (hh : h.Sized) (cs : List (Table × Nat)) :
    (cs.foldl (fun v c => v.bump c.1 c.2) h).Sized := by
  induction cs generalizing h with
  | nil => exact hh
  | cons c cs ih => exact ih (hh.bump c.1 c.2)

/-- Counting symbols of the tables raises each count by the number of its occurrences, and each table's sum by the
number of its symbols. -/
theorem Histo.Sized.counts_foldl_bump {h : Histo} (hh : h.Sized) {cs : List (Table × Nat)}
    (hcs : ∀ c ∈ cs, c.2 < c.1.size h.bits) (tbl : Table) :
    (∀ sym, ((cs.foldl (fun v c => v.bump c.1 c.2) h).counts.get tbl).getD sym 0 =
      (h.counts.get tbl).getD sym 0 + cs.count (tbl, sym)) ∧
    ((cs.foldl (fun v c => v.bump c.1 c.2) h).counts.get tbl).sum =
      (h.counts.get tbl).sum + cs.countP (fun c => c.1 = tbl) := by
  induction cs generalizing h with
  | nil => exact ⟨fun _ => rfl, rfl⟩
  | cons c cs ih =>
    obtain ⟨hc, hcs⟩ := List.forall_mem_cons.1 hcs
    rw [← hh c.1] at hc
    obtain ⟨hcount, hsum⟩ := ih (hh.bump c.1 c.2) hcs
    refine ⟨fun sym => ?_, ?_⟩
    · rw [List.foldl_cons, hcount, Histo.getD_bump hc, List.count_cons, Nat.add_assoc, Nat.add_comm (List.count _ _)]
      simp only [beq_iff_eq]
    · rw [List.foldl_cons, hsum, Histo.sum_bump hc, List.countP_cons, Nat.add_assoc, Nat.add_comm (List.countP _ _)]
      simp only [decide_eq_true_eq]

/-! ### Counting tokens (45_histogram R222, R224) -/

section
variable {f : Fns} {xs b : Nat} {ts : List Token}

theorem Histo.bits_counting (h : Histo) (ts : List Token) : (h.counting f xs ts).bits = h.bits :=
  h.bits_foldl_bump _

theorem addToken_eq {h : Histo} {t : Token} (ht : t.Codable f xs h.bits) :
    addToken f xs h t = .ok (h.counting f xs [t]) := by
  cases t with
  | literal p => rfl
  | copy d l => rfl
  | cacheRef k =>
    have hk : 280 + k < 280 + cacheSize h.bits := ht (.combined, 280 + k) List.mem_cons_self
    exact if_neg (by omega)

theorem addTokens_eq {h : Histo} (hts : ∀ t ∈ ts, t.Codable f xs h.bits) :
    addTokens f xs h ts = .ok (h.counting f xs ts) := by
  induction ts generalizing h with
  | nil => rfl
  | cons t ts ih =>
    obtain ⟨ht, hts⟩ := List.forall_mem_cons.1 hts
    have hrest := ih (h := h.counting f xs [t]) (by rwa [h.bits_counting [t]])
    simp only [addTokens, addToken_eq ht, hrest, ← Histo.counting_cons]

/-- The histogram of a token list (45_histogram R224). -/
def streamHisto (f : Fns) (xs b : Nat) (ts : List Token) : Histo := (histoZero b).counting f xs ts

theorem histogramOf_eq (hts : ∀ t ∈ ts, t.Codable f xs b) : histogramOf f xs ts b = .ok (streamHisto f xs b ts) :=
  addTokens_eq hts

theorem getD_histoZero (b : Nat) (tbl : Table) (sym : Nat) : ((histoZero b).counts.get tbl).getD sym 0 = 0 := by
  simp [histoZero]

theorem sum_histoZero (b : Nat) (tbl : Table) : ((histoZero b).counts.get tbl).sum = 0 := by
  simp [histoZero]

/-- Symbols of the tables of a width. -/
theorem forall_symbols_lt (hts : ∀ t ∈ ts, t.Codable f xs b) :
    ∀ c ∈ ts.flatMap (Token.symbols f xs), c.2 < c.1.size b := by
  intro c hc
  obtain ⟨t, ht, hct⟩ := List.mem_flatMap.1 hc
  exact hts t ht c hct

/-- Parts with at most one element that counts have as many of them as there are parts with one. -/
theorem countP_flatMap_of_indicator {α β : Type} {g : α → List β} {p : β → Bool} {q : α → Bool}
    (h : ∀ x, (g x).countP p = if q x then 1 else 0) (l : List α) : (l.flatMap g).countP p = l.countP q := by
  induction l with
  | nil => rfl
  | cons x l ih => rw [List.flatMap_cons, List.countP_append, h, ih, List.countP_cons, Nat.add_comm]

/-- The count of a symbol is the number of the tokens that put it into the table (45_histogram R222). -/
theorem streamHisto_count (hts : ∀ t ∈ ts, t.Codable f xs b) (tbl : Table) (sym : Nat) :
    ((streamHisto f xs b ts).counts.get tbl).getD sym 0 = ts.countP (Token.counts f xs tbl sym) := by
  obtain ⟨hcount, -⟩ := (Histo.sized_zero b).counts_foldl_bump (forall_symbols_lt hts) tbl
  rw [streamHisto, Histo.counting, hcount, getD_histoZero, Nat.zero_add]
  exact countP_flatMap_of_indicator (Token.count_symbols f xs tbl sym) ts

/-- The sum of a table is the number of the tokens that put a symbol into it (45_histogram R222). -/
theorem streamHisto_sum (hts : ∀ t ∈ ts, t.Codable f xs b) (tbl : Table) :
    ((streamHisto f xs b ts).counts.get tbl).sum = ts.countP (Token.feeds tbl) := by
  obtain ⟨-, hsum⟩ := (Histo.sized_zero b).counts_foldl_bump (forall_symbols_lt hts) tbl
  rw [streamHisto, Histo.counting, hsum, sum_histoZero, Nat.zero_add]
  exact countP_flatMap_of_indicator (Token.countP_symbols f xs tbl) ts

theorem streamHisto_storable (hb : b ≤ 10) (hts : ∀ t ∈ ts, t.Codable f xs b) (hlen : ts.length < 2 ^ 32) :
    (streamHisto f xs b ts).Storable where
  bits := ((histoZero b).bits_counting ts).trans_le hb
  size := (Histo.sized_zero b).foldl_bump _
  small tbl n hn := by
    obtain ⟨sym, hsym, rfl⟩ := List.mem_iff_getElem.1 hn
    rw [← List.getD_eq_getElem _ 0 hsym, streamHisto_count hts]
    exact List.countP_le_length.trans_lt hlen

end

/-! ### The tokens of a valid stream (10_state R33, 30_encoding R104) -/

section
variable {s : State}

/-- A true token has its symbols in the tables of its width (30_encoding R104). -/
theorem State.codable_of_tokenTrue {b p : Nat} {c : CacheSlots} {t : Token} (h : s.tokenTrue b c p t = true) :
    t.Codable s.fns s.xs b := by
  cases t with
  | literal v =>
    have hchannel : ∀ k, (v.extractLsb' k 8).toNat < 256 := fun k => (v.extractLsb' k 8).isLt
    simp only [Token.Codable, Token.symbols, List.forall_mem_cons, List.not_mem_nil]
    refine ⟨(hchannel 8).trans_le ?_, hchannel 16, hchannel 0, hchannel 24, nofun⟩
    exact Nat.le_add_right_of_le (by decide)
  | cacheRef k =>
    simp only [State.tokenTrue, decide_eq_true_eq] at h
    obtain ⟨hb, -, hk, -⟩ := h
    simp only [Token.Codable, Token.symbols, List.forall_mem_cons, List.not_mem_nil, Table.size, cacheSize,
      if_neg (Nat.ne_of_gt hb)]
    exact ⟨by omega, nofun⟩
  | copy d l =>
    simp only [State.tokenTrue, Bool.and_eq_true, decide_eq_true_eq] at h
    obtain ⟨⟨hl, hl', hd, -, hd'⟩, -⟩ := h
    have hlen : (prefixEncode l).code < 24 := prefixEncode_code_lt (k := 12) (by decide) (hl'.trans (by decide))
    have hdist : (distancePrefix s.fns s.xs d).code < 40 := by
      obtain ⟨-, hcode⟩ := distanceCode_bounds s.fns s.xs hd
      exact prefixEncode_code_lt (k := 20) (by decide)
        (hcode.trans ((Nat.add_le_add_right hd' 120).trans (by decide)))
    simp only [Token.Codable, Token.symbols, List.forall_mem_cons, List.not_mem_nil, Table.size]
    exact ⟨by omega, hdist, nofun⟩

theorem State.one_le_len_of_tokenTrue {b p : Nat} {c : CacheSlots} {t : Token} (h : s.tokenTrue b c p t = true) :
    1 ≤ t.len := by
  cases t with
  | literal v => exact le_rfl
  | cacheRef k => exact le_rfl
  | copy d l =>
    simp only [State.tokenTrue, Bool.and_eq_true, decide_eq_true_eq] at h
    exact (by decide : 1 ≤ 2).trans h.1.1

/-- What every true token is, every token of a true stream is. -/
theorem State.forall_of_streamTrue {P : Token → Prop} {b : Nat}
    (hP : ∀ c p t, s.tokenTrue b c p t = true → P t) {c : CacheSlots} {p : Nat} {ts : List Token}
    (h : s.streamTrue b c p ts = true) : ∀ t ∈ ts, P t := by
  induction ts generalizing c p with
  | nil => simp
  | cons t ts ih =>
    simp only [State.streamTrue, Bool.and_eq_true] at h
    exact List.forall_mem_cons.2 ⟨hP c p t h.1, ih h.2⟩

end

end Sys2Proof.Machine
end

section
/-! SUPPORT. HIST_BUILD: the slot each token is counted in, and what the counting loop leaves (45_histogram R223,
R225). -/

namespace Sys2Proof.Machine

/-! ### Tiles (10_state R39, 45_histogram R225) -/

theorem div_lt_ceilDiv {x a b : Nat} (hx : x < a) (hb : 0 < b) : x / b < ceilDiv a b := by
  rw [ceilDiv, Nat.lt_div_iff_mul_lt hb]
  have := Nat.div_mul_le_self x b
  omega

theorem ceilDiv_le {a b : Nat} (hb : 0 < b) : ceilDiv a b ≤ a := by
  rw [ceilDiv, ← Nat.lt_succ_iff, Nat.div_lt_iff_lt_mul hb, Nat.succ_mul]
  have := Nat.le_mul_of_pos_right a hb
  omega

section
variable {s : State} {mode : SlotMode}

theorem State.tileOf_lt {p : Nat} (hp : p < s.pixelCount) : s.tileOf p < s.tileCount := by
  have hxs : 0 < s.xs := Nat.pos_of_mul_pos_right (Nat.zero_lt_of_lt hp)
  have hrow : p / s.xs / 2 ^ s.histoExp < s.tilesY :=
    div_lt_ceilDiv (Nat.div_lt_of_lt_mul hp) (Nat.two_pow_pos _)
  have hcol : p % s.xs / 2 ^ s.histoExp < s.tilesX := div_lt_ceilDiv (Nat.mod_lt p hxs) (Nat.two_pow_pos _)
  have hrows := Nat.mul_le_mul_right s.tilesX (Nat.succ_le_of_lt hrow)
  rw [Nat.succ_mul, Nat.mul_comm s.tilesY] at hrows
  simp only [State.tileOf, State.tileCount]
  omega

theorem State.tileCount_le (s : State) : s.tileCount ≤ s.pixelCount :=
  Nat.mul_le_mul (ceilDiv_le (Nat.two_pow_pos _)) (ceilDiv_le (Nat.two_pow_pos _))

/-- Check 20 keeps every group number of the image below NUM_GROUPS. -/
theorem State.slotOf_lt (hmap : s.badMap mode = false) (hin : s.pixelCount ≤ s.caps.nMax) {p : Nat}
    (hp : p < s.pixelCount) : s.slotOf mode p < s.slotCount mode := by
  have htile := s.tileOf_lt hp
  cases mode with
  | one => exact Nat.one_pos
  | perTile => exact htile
  | perGroup =>
    have hexists : s.tileOf p < s.caps.nMax := htile.trans_le (s.tileCount_le.trans hin)
    simp only [State.badMap, decide_true, Bool.true_and, List.any_eq_false, List.mem_range, lt_inf_iff,
      decide_eq_true_eq, not_le] at hmap
    exact hmap _ ⟨htile, hexists⟩

/-! ### The counting loop (45_histogram R223) -/

theorem State.tokensAt_sublist (s : State) (mode : SlotMode) (g p : Nat) (ts : List Token) :
    (s.tokensAt mode g p ts).Sublist ts := by
  induction ts generalizing p with
  | nil => exact .slnil
  | cons t ts ih =>
    simp only [State.tokensAt]
    split
    · exact (ih _).cons_cons t
    · exact (ih _).cons t

/-- Each value has the tokens that start in its slot counted. -/
def State.countingAt (s : State) (mode : SlotMode) (hs : List Histo) (p : Nat) (ts : List Token) : List Histo :=
  hs.mapIdx (fun g v => v.counting s.fns s.xs (s.tokensAt mode g p ts))

/-- The token at `p` is counted in the value of its slot, every other value waits for the rest. -/
theorem State.countingAt_cons {hs : List Histo} {p : Nat} (hp : s.slotOf mode p < hs.length) (t : Token)
    (ts : List Token) : s.countingAt mode hs p (t :: ts) =
      s.countingAt mode (hs.set (s.slotOf mode p) (hs[s.slotOf mode p].counting s.fns s.xs [t])) (p + t.len) ts := by
  refine List.ext_getElem (by simp [State.countingAt]) (fun g hg hg' => ?_)
  simp only [State.countingAt, List.getElem_mapIdx, List.getElem_set, State.tokensAt]
  by_cases hslot : s.slotOf mode p = g
  · subst hslot
    rw [if_pos rfl, if_pos rfl, Histo.counting_cons]
  · rw [if_neg hslot, if_neg hslot]

/-- Tokens that all start in the image are counted without error. -/
theorem State.countTokens_eq {b p : Nat} {ts : List Token} {hs : List Histo}
    (hslot : ∀ q, q < s.pixelCount → s.slotOf mode q < hs.length) (hbits : ∀ v ∈ hs, v.bits = b)
    (hts : ∀ t ∈ ts, t.Codable s.fns s.xs b ∧ 1 ≤ t.len) (hend : p + tokensLen ts ≤ s.pixelCount) :
    countTokens s.fns s.xs (s.slotOf mode) hs p ts = .ok (s.countingAt mode hs p ts) := by
  induction ts generalizing p hs with
  | nil =>
    have hnone : s.countingAt mode hs p [] = hs := List.mapIdx_eq_iff.2 (fun g => by cases hs[g]? <;> rfl)
    rw [hnone, countTokens]
  | cons t ts ih =>
    obtain ⟨⟨hcode, hlen⟩, hts⟩ := List.forall_mem_cons.1 hts
    simp only [tokensLen] at hend
    have hp : s.slotOf mode p < hs.length := hslot p (by omega)
    have hv : hs[s.slotOf mode p].bits = b := hbits _ (List.getElem_mem hp)
    have hadd := addToken_eq (h := hs[s.slotOf mode p]) (by rwa [hv])
    simp only [countTokens, List.getElem?_eq_getElem hp, hadd, State.countingAt_cons hp]
    refine ih (by simpa using hslot) (fun v hmem => ?_) hts (by omega)
    obtain hold | rfl := List.mem_or_eq_of_mem_set hmem
    · exact hbits v hold
    · exact (Histo.bits_counting _ _).trans hv

/-! ### The pseudocode of HIST_BUILD (45_histogram R223) -/

/-- The value HIST_BUILD leaves in slot number `g` of a mode. -/
def State.builtHisto (s : State) (mode : SlotMode) (ts : List Token) (g : Nat) : Histo :=
  streamHisto s.fns s.xs s.bufs.curBits.toNat (s.tokensAt mode g 0 ts)

/-- The values HIST_BUILD leaves. -/
def State.builtHistos (s : State) (mode : SlotMode) (ts : List Token) : List Histo :=
  (List.range (s.slotCount mode)).map (s.builtHisto mode ts)

theorem State.length_builtHistos (s : State) (mode : SlotMode) (ts : List Token) :
    (s.builtHistos mode ts).length = s.slotCount mode := by
  simp [State.builtHistos]

theorem State.getElem_builtHistos {ts : List Token} {g : Nat} (hg : g < (s.builtHistos mode ts).length) :
    (s.builtHistos mode ts)[g] = s.builtHisto mode ts g := by
  simp [State.builtHistos]

/-- Counting from zero leaves the histograms of the parts of the stream. -/
theorem State.countingAt_zero (s : State) (mode : SlotMode) (ts : List Token) :
    s.countingAt mode (List.replicate (s.slotCount mode) (histoZero s.bufs.curBits.toNat)) 0 ts =
      s.builtHistos mode ts := by
  refine List.ext_getElem (by simp [State.countingAt, State.builtHistos]) (fun g _ _ => ?_)
  simp [State.countingAt, State.builtHistos, State.builtHisto, streamHisto]

theorem histosOverflow_eq_none {hs : List Histo} (hstore : ∀ v ∈ hs, v.Storable) : histosOverflow hs = none := by
  rw [histosOverflow, List.findSome?_eq_none_iff]
  exact fun v hv => (hstore v hv).overflowAt

/-- What HIST_BUILD counts on: a valid stream in CUR, an image within its space, and groups that exist. -/
structure State.Buildable (s : State) (mode : SlotMode) (ts : List Token) : Prop extends s.Stored where
  cur : s.curTokens = .ok ts
  valid : s.tokensTrue s.bufs.curBits.toNat ts = true
  map : s.badMap mode = false
  inside : s.pixelCount ≤ s.caps.nMax

section
variable {ts : List Token}

theorem State.Buildable.tokens (h : s.Buildable mode ts) :
    ∀ t ∈ ts, t.Codable s.fns s.xs s.bufs.curBits.toNat ∧ 1 ≤ t.len :=
  State.forall_of_streamTrue
    (fun _ _ _ ht => ⟨State.codable_of_tokenTrue ht, State.one_le_len_of_tokenTrue ht⟩)
    (State.tokensTrue_iff.1 h.valid).1

/-- The tokens that start in one slot have their symbols in its tables. -/
theorem State.Buildable.codable (h : s.Buildable mode ts) (g : Nat) :
    ∀ t ∈ s.tokensAt mode g 0 ts, t.Codable s.fns s.xs s.bufs.curBits.toNat :=
  fun t ht => (h.tokens t ((s.tokensAt_sublist mode g 0 ts).subset ht)).1

/-- No count exceeds the number of pixels, so none overflows. -/
theorem State.Buildable.storable (h : s.Buildable mode ts) (g : Nat) : (s.builtHisto mode ts g).Storable := by
  refine streamHisto_storable h.curBits (h.codable g) ?_
  have hall := length_le_tokensLen (fun t ht => (h.tokens t ht).2)
  have hpart := (s.tokensAt_sublist mode g 0 ts).length_le
  have hin := h.inside
  have hcaps := h.caps
  obtain ⟨-, hsum⟩ := State.tokensTrue_iff.1 h.valid
  simp only [Caps.wf, decide_eq_true_eq] at hcaps
  omega

theorem State.Buildable.storable_of_mem (h : s.Buildable mode ts) : ∀ v ∈ s.builtHistos mode ts, v.Storable := by
  intro v hv
  obtain ⟨g, -, rfl⟩ := List.mem_map.1 hv
  exact h.storable g

/-- The pseudocode runs to its end. -/
theorem State.Buildable.body (h : s.Buildable mode ts) (base : Nat) :
    histBuildBody mode base s = .ok (s.putHistos base (s.builtHistos mode ts)) := by
  obtain ⟨-, hsum⟩ := State.tokensTrue_iff.1 h.valid
  have hcount := State.countTokens_eq (mode := mode) (p := 0) (ts := ts)
    (hs := List.replicate (s.slotCount mode) (histoZero s.bufs.curBits.toNat))
    (fun q hq => by simpa using State.slotOf_lt h.map h.inside hq)
    (fun v hv => congrArg Histo.bits (List.eq_of_mem_replicate hv)) h.tokens hsum.le
  rw [State.countingAt_zero] at hcount
  have hfits := histosOverflow_eq_none h.storable_of_mem
  simp only [histBuildBody, h.cur, hcount, hfits]

theorem State.Buildable.histTable (h : s.Buildable mode ts) (base : Nat) {g : Nat} (hg : g < s.slotCount mode)
    (tbl : Table) : (s.putHistos base (s.builtHistos mode ts)).histTable (base + g) tbl =
      (s.builtHisto mode ts g).counts.get tbl := by
  have hg' : g < (s.builtHistos mode ts).length := (s.length_builtHistos mode ts).symm ▸ hg
  rw [State.putHistos_histTable h.spaces.hist.wf h.storable_of_mem hg', State.getElem_builtHistos]

theorem State.Buildable.slotCounted (h : s.Buildable mode ts) (base : Nat) {g : Nat} (hg : g < s.slotCount mode) :
    SlotCounted s (s.putHistos base (s.builtHistos mode ts)) (base + g) s.bufs.curBits := by
  have hg' : g < (s.builtHistos mode ts).length := (s.length_builtHistos mode ts).symm ▸ hg
  refine State.putHistos_slotCounted h.spaces.hist.wf h.storable_of_mem hg' ?_
  rw [State.getElem_builtHistos]
  exact Histo.bits_counting ..

/-- Each count is the number of the tokens that put the symbol into the table. -/
theorem State.Buildable.count (h : s.Buildable mode ts) (base : Nat) {g : Nat} (hg : g < s.slotCount mode)
    (tbl : Table) (sym : Nat) : (s.putHistos base (s.builtHistos mode ts)).count (base + g) tbl sym =
      (s.tokensAt mode g 0 ts).countP (Token.counts s.fns s.xs tbl sym) := by
  rw [State.count, h.histTable base hg]
  exact streamHisto_count (h.codable g) tbl sym

/-- The sum of each table is the number of the tokens that put a symbol into it. -/
theorem State.Buildable.sum_histTable (h : s.Buildable mode ts) (base : Nat) {g : Nat} (hg : g < s.slotCount mode)
    (tbl : Table) : ((s.putHistos base (s.builtHistos mode ts)).histTable (base + g) tbl).sum =
      (s.tokensAt mode g 0 ts).countP (Token.feeds tbl) := by
  rw [h.histTable base hg]
  exact streamHisto_sum (h.codable g) tbl

theorem State.Buildable.onlyWrites (h : s.Buildable mode ts) (base : Nat) :
    OnlyWrites
      (fun sp i => sp = .hist ∧ base * Config.slotStride ≤ i ∧ i < (base + s.slotCount mode) * Config.slotStride)
      (fun k => base ≤ k ∧ k < base + s.slotCount mode) s
      (s.putHistos base (s.builtHistos mode ts)).endOk := by
  rw [← s.length_builtHistos mode ts]
  exact s.putHistos_onlyWrites base (fun v hv => (h.storable_of_mem v hv).fits)

end

/-! ### The command -/

theorem State.fails_twenty (s : State) (i : Instr) : s.fails i 20 = s.badMap i.slotMode := by
  rw [Bool.eq_iff_iff]
  simp only [State.fails, State.badMap, Bool.and_eq_true, List.any_eq_true, List.mem_range, decide_eq_true_eq,
    lt_inf_iff, and_assoc]
  exact Iff.rfl

theorem exec_histBuild_of_starts {slot : BitVec 16} (h : s.starts (.histBuild mode slot) = true) :
    exec (.histBuild mode slot) s = .next ((histBuildBody mode slot.toNat s).ended 0x41) := by
  rw [exec, execHistBuild]
  refine runCommand_of_starts h ?_ rfl
  simp only [Instr.checks, List.map_cons, List.map_nil, State.fails_four, State.fails_twenty]
  simp [State.fails, State.slotOperands, State.badHistoMode, State.badHistoBits, State.histoExp, State.badGroups,
    State.badSlot, State.badCur, Instr.slotMode, BitVec.toNat_eq]

theorem State.exists_buildable {slot : BitVec 16} (h : s.starts (.histBuild mode slot) = true)
    (hinv : s.invariant = true) (hcur : s.curTrue = true) : ∃ ts, s.Buildable mode ts := by
  obtain ⟨hstored, -, -⟩ := State.invariant_iff.1 hinv
  obtain ⟨ts, hts, htrue⟩ := State.curTokens_of_curTrue hcur
  have hvalid := State.fails_of_starts h (n := 13) (by simp [Instr.checks])
  have hmap := State.fails_of_starts h (n := 20) (by simp [Instr.checks])
  rw [State.fails_twenty] at hmap
  obtain ⟨-, hin⟩ := hstored.geometry (.inr (.inr (.inl (by simpa [State.fails] using hvalid))))
  exact ⟨ts, { hstored with cur := hts, valid := htrue, map := hmap, inside := hin }⟩

end

end Sys2Proof.Machine

open Sys2Proof Sys2Proof.Machine

/-- Settles O46: the counting loop leaves in each slot the histogram of the tokens that start in it, and a histogram
counts each token's symbols once. -/
theorem histBuildCounts : Obligations.HistBuildCounts := by
  unfold Obligations.HistBuildCounts
  intro s mode slot hstarts hinv hcur
  obtain ⟨ts, hbuild⟩ := State.exists_buildable hstarts hinv hcur
  refine ⟨_, ts, exec_histBuild_of_starts hstarts, hbuild.cur, ?_⟩
  rw [hbuild.body slot.toNat]
  refine ⟨fun g hg => ?_, rfl, rfl, ⟨rfl, rfl, rfl⟩, ⟨fun _ => rfl, fun _ _ => rfl⟩,
    hbuild.onlyWrites slot.toNat⟩
  have hsum := hbuild.sum_histTable slot.toNat hg
  refine ⟨hbuild.slotCounted slot.toNat hg, hbuild.count slot.toNat hg, ?_, fun tbl htbl => ?_, hsum .distance,
    s.builtHisto mode ts g, histogramOf_eq (hbuild.codable g), hbuild.histTable slot.toNat hg⟩
  · exact (hsum .combined).trans (congrFun List.countP_true _)
  · simp only [List.mem_cons, List.not_mem_nil, or_false] at htbl
    obtain rfl | rfl | rfl := htbl
    · exact hsum .red
    · exact hsum .blue
    · exact hsum .alpha

end

section
/-! SUPPORT. HIST_CLEAR, HIST_ADD, HIST_EST and HIST_COMBINE: how they end, and what they make of the tables of their
slots (45_histogram R221 to R232). -/

namespace Sys2Proof.Machine

section
variable {s t : State} {slot : BitVec 16}

/-! ### How the commands end (49_system R320) -/

theorem exec_histClear_of_starts (h : s.starts (.histClear slot) = true) :
    exec (.histClear slot) s = .next ((histClearBody slot.toNat s).ended 0x40) := by
  rw [exec, execHistClear]
  exact runCommand_of_starts h (by simp [Instr.checks, State.fails, State.slotOperands, State.badCacheBits,
    State.badSlot]) rfl

theorem exec_histAdd_of_starts (h : s.starts (.histAdd slot) = true) :
    exec (.histAdd slot) s = .next ((histAddBody slot.toNat s.regs.arg0.toNat s).ended 0x42) := by
  rw [exec, execHistAdd]
  exact runCommand_of_starts h (by simp [Instr.checks, State.fails, State.slotOperands, State.slotsRead,
    State.badSlot, State.badHist, State.widthMismatch, State.slotsClash]) rfl

theorem exec_histEst_of_starts (h : s.starts (.histEst slot) = true) :
    exec (.histEst slot) s = .next ((histEstBody slot.toNat s).ended 0x43) := by
  rw [exec, execHistEst]
  exact runCommand_of_starts h (by simp [Instr.checks, State.fails, State.slotOperands, State.slotsRead,
    State.badSlot, State.badHist]) rfl

theorem exec_histCombine_of_starts (h : s.starts (.histCombine slot) = true) :
    exec (.histCombine slot) s = .next ((histCombineBody slot.toNat s.regs.arg0.toNat s).ended 0x44) := by
  rw [exec, execHistCombine]
  exact runCommand_of_starts h (by simp [Instr.checks, State.fails, State.slotOperands, State.slotsRead,
    State.badSlot, State.badHist, State.widthMismatch, State.slotsClash]) rfl

/-! ### HIST_CLEAR (45_histogram R221) -/

theorem soleSymbol_replicate_zero (n : Nat) : soleSymbol (List.replicate n 0) = none := by
  refine Option.eq_none_iff_forall_ne_some.2 (fun sym hsym => ?_)
  obtain ⟨hne, -⟩ := soleSymbol_eq_some.1 hsym
  exact hne (by simp)

theorem marks_histoZero (b : Nat) : (histoZero b).marks = noMarks := by
  simp only [Histo.marks, histoZero, PerTable.get_ofFn, soleSymbol_replicate_zero]
  rfl

theorem getD_elements_histoZero (b e : Nat) : (histoZero b).elements.getD e 0 = 0 := by
  obtain he | he := Nat.lt_or_ge e (histoZero b).elements.length
  · rw [List.getD_eq_getElem _ _ he]
    obtain hzero | ⟨t, ht⟩ := Histo.mem_elements (List.getElem_mem he)
    · exact hzero
    · simp only [histoZero, PerTable.get_ofFn] at ht
      exact List.eq_of_mem_replicate ht
  · exact List.getD_eq_default _ _ he

/-- Every element of a cleared slot reads 0. -/
theorem State.readElem_putHistos_zero (k : Nat) {b e : Nat} (hb : b ≤ 10) (he : e < Config.slotStride) :
    (s.putHistos k [histoZero b]).readElem .hist (k * Config.slotStride + e) = 0 := by
  have hread := State.putHistos_read (s := s) (base := k) (g := 0) (hs := [histoZero b])
    (by simpa using Histo.fits_zero hb) Nat.one_pos he
  rw [List.getElem_cons_zero, getD_elements_histoZero] at hread
  simp only [State.readElem]
  split
  · rfl
  · exact congrArg (BitVec.setWidth 64) hread

/-! ### The elements of HIST as the host reads them (10_state R36) -/

theorem State.toNat_readElem_hist (s : State) (k : Nat) {e : Nat} (he : e < Config.slotUsed) :
    (s.readElem .hist (k * Config.slotStride + e)).toNat =
      (s.spaces.hist.read 6 (k * Config.slotStride + e)).toNat := by
  have hin : ¬ Config.slotUsed ≤ (k * Config.slotStride + e) % Config.slotStride := by
    rw [Nat.mul_add_mod_self_right, Nat.mod_eq_of_lt (he.trans (by decide))]
    exact Nat.not_le.2 he
  rw [State.readElem, if_neg hin, BitVec.toNat_setWidth]
  exact Nat.mod_eq_of_lt (by omega)

theorem State.Working.getElem_histRaw (h : s.Working) (k : Nat) {e : Nat} (he : e < (s.histRaw k).length) :
    (s.histRaw k)[e] = (s.readElem .hist (k * Config.slotStride + e)).toNat := by
  rw [State.toNat_readElem_hist s k (by rwa [h.length_histRaw] at he)]
  simp only [State.histRaw, List.getElem_map, Mem.run_eq _ _ _ h.spaces.hist.wf, List.getElem_range]

theorem State.histTable_congr (hhist : t.spaces.hist = s.spaces.hist) {k : Nat}
    (hbits : (t.slot k).hbits = (s.slot k).hbits) (tbl : Table) : t.histTable k tbl = s.histTable k tbl := by
  rw [State.histTable, hhist, hbits]
  rfl

/-! ### HIST_ADD (45_histogram R226) -/

/-- The sums HIST_ADD tests and stores. -/
def State.histSums (s : State) (dst src : Nat) : List Nat := List.zipWith (· + ·) (s.histRaw dst) (s.histRaw src)

/-- The sum of element `e` of two slots. -/
def State.elemSum (s : State) (dst src e : Nat) : Nat :=
  (s.readElem .hist (dst * Config.slotStride + e)).toNat + (s.readElem .hist (src * Config.slotStride + e)).toNat

theorem State.Working.length_histSums (h : s.Working) (dst src : Nat) :
    (s.histSums dst src).length = Config.slotUsed := by
  rw [State.histSums, List.length_zipWith, h.length_histRaw, h.length_histRaw, Nat.min_self]

theorem State.Working.getElem_histSums (h : s.Working) (dst src : Nat) {e : Nat}
    (he : e < (s.histSums dst src).length) : (s.histSums dst src)[e] = s.elemSum dst src e := by
  simp only [State.histSums, List.getElem_zipWith, h.getElem_histRaw, State.elemSum]

/-- The state with the sums stored. -/
def State.withSums (s : State) (dst src : Nat) : State :=
  { s with spaces := { s.spaces with
    hist := s.spaces.hist.put (dst * Config.slotStride) ((s.histSums dst src).map (BitVec.ofNat 32)) } }

/-- The state with the sums stored and the slot's fields brought up to date. -/
def State.histAdded (s : State) (dst src : Nat) : State :=
  (s.withSums dst src).setSlot dst { s.slot dst with
    costValid := false, lenValid := false, codeValid := false, trivialSym := (s.withSums dst src).marksOf dst }

theorem histAddBody_of_fits (h : s.Working) {dst src : Nat}
    (hfit : ∀ e, e < Config.slotUsed → s.elemSum dst src e < 2 ^ 32) :
    histAddBody dst src s = .ok (s.histAdded dst src) := by
  have hnone : overflowAt (s.histSums dst src) = none := by
    refine overflowAt_eq_none.2 (fun n hn => ?_)
    obtain ⟨e, he, rfl⟩ := List.mem_iff_getElem.1 hn
    rw [h.getElem_histSums]
    exact hfit e (by rwa [h.length_histSums] at he)
  rw [State.histSums] at hnone
  simp only [histAddBody, hnone]
  rfl

theorem histAddBody_of_overflow (h : s.Working) {dst src e : Nat} (he : e < Config.slotUsed)
    (hover : 2 ^ 32 ≤ s.elemSum dst src e) (hbefore : ∀ q, q < e → s.elemSum dst src q < 2 ^ 32) :
    histAddBody dst src s = s.failHist e := by
  have hsome : overflowAt (s.histSums dst src) = some e :=
    overflowAt_eq_some (by rwa [h.length_histSums]) (by rwa [h.getElem_histSums])
      (fun q hq => by rw [h.getElem_histSums]; exact hbefore q hq)
  rw [State.histSums] at hsome
  simp only [histAddBody, hsome]

theorem State.histAdded_slot (s : State) (dst src k : Nat) : (s.histAdded dst src).slot k =
    if k = dst then { s.slot dst with
      costValid := false, lenValid := false, codeValid := false, trivialSym := (s.withSums dst src).marksOf dst }
    else s.slot k := State.slot_setSlot ..

theorem State.Working.readElem_histAdded (h : s.Working) {dst src e : Nat} (he : e < Config.slotUsed)
    (hfit : s.elemSum dst src e < 2 ^ 32) :
    ((s.histAdded dst src).readElem .hist (dst * Config.slotStride + e)).toNat = s.elemSum dst src e := by
  have hlen := h.length_histSums dst src
  have hread := Mem.read_put_in s.spaces.hist 6 (dst * Config.slotStride) (dst * Config.slotStride + e)
    ((s.histSums dst src).map (BitVec.ofNat 32)) (Nat.le_add_right _ _) (by rw [List.length_map, hlen]; omega)
  rw [State.toNat_readElem_hist _ _ he]
  refine (congrArg BitVec.toNat hread).trans ?_
  rw [Nat.add_sub_cancel_left, List.getD_eq_getElem _ _ (by rwa [List.length_map, hlen]), List.getElem_map,
    h.getElem_histSums, BitVec.toNat_ofNat, Nat.mod_eq_of_lt hfit]

theorem State.histAdded_slotCounted {dst src : Nat} (hvalid : (s.slot dst).histValid = true) :
    SlotCounted s (s.histAdded dst src) dst (s.slot dst).hbits := by
  have hslot := s.histAdded_slot dst src dst
  rw [if_pos rfl] at hslot
  refine ⟨by rw [hslot, ← hvalid], State.marksRight_of_soleSymbol (fun tbl => ?_)⟩
  rw [State.histTable_congr (t := s.histAdded dst src) (s := s.withSums dst src) rfl (by rw [hslot]; rfl), hslot]
  exact PerTable.get_ofFn _ tbl

theorem State.Working.histAdded_sameElems (h : s.Working) (dst src : Nat) :
    SameElems (fun sp i => sp = .hist ∧ slotElems dst i) s (s.histAdded dst src) := by
  intro sp i hout
  by_cases hsp : sp = .hist
  · subst hsp
    have hlen : (s.histSums dst src).length ≤ Config.slotStride := by
      rw [h.length_histSums]
      decide
    have hi : i < dst * Config.slotStride ∨
        dst * Config.slotStride + ((s.histSums dst src).map (BitVec.ofNat 32)).length ≤ i := by
      simp only [true_and, slotElems, Nat.succ_mul] at hout
      rw [List.length_map]
      omega
    have hread := Mem.read_put_out s.spaces.hist 6 _ _ _ hi
    exact congrArg (fun v => if Config.slotUsed ≤ i % Config.slotStride then 0 else BitVec.setWidth 64 v) hread
  · exact (SpacesKept.of_hist s.spaces _).readElem (t := s.histAdded dst src) (by simpa using hsp) i

theorem State.histAdded_sameSlots (s : State) (dst src : Nat) :
    SameSlots (fun k => k = dst) s (s.histAdded dst src) :=
  fun k hout => ⟨(s.histAdded_slot dst src k).trans (if_neg hout), rfl, fun _ _ => rfl⟩

/-- A run-time raise of HIST_ADD leaves everything but HIST (60_exceptions R345, R346). -/
theorem State.failHist_raised (s : State) (op : BitVec 8) (info : Nat) :
    RaisedAtRun s ((s.failHist info).ended op) op .internal info (fun sp _ => sp = .hist) := by
  have hframe : BodyFrame s (s.failHist info).state := {}
  refine hframe.raised rfl rfl ?_ op .internal info
  have hkept : SpacesKept [.hist] s.spaces (s.failHist info).state.spaces := .of_hist _ _
  exact fun sp i hsp => hkept.readElem (by simpa using hsp) i

/-! ### HIST_EST (45_histogram R227, R229) -/

/-- The extra bits of the codes from `base` on, code by code (45_histogram R229). -/
theorem extraBitsCost_slice {l : List Nat} {base n : Nat} (h : base + n ≤ l.length) :
    extraBitsCost ((l.drop base).take n) =
      ((List.range n).map (fun c => extraBits c * l.getD (base + c) 0)).sum := by
  have hlen : ((l.drop base).take n).length = n := by
    rw [List.length_take, List.length_drop]
    omega
  refine congrArg List.sum (List.ext_getElem (by simpa using hlen) (fun c hc hc' => ?_))
  have hn : c < n := by simpa using hc'
  simp [List.getElem?_eq_getElem (show base + c < l.length by omega)]

/-- The cost of the extra bits of `n` codes of a table, its symbols from `base` on (45_histogram R229). -/
def State.extraCost (s : State) (k : Nat) (tbl : Table) (base n : Nat) : Cost :=
  Bin64.ofNat ((List.range n).map (fun c => extraBits c * s.count k tbl (base + c))).sum

theorem State.Working.extraCost_eq (h : s.Working) (k : Nat) {tbl : Table} {base n : Nat}
    (hsize : ∀ b, base + n ≤ tbl.size b) :
    Bin64.ofNat (extraBitsCost (((s.histTable k tbl).drop base).take n)) = s.extraCost k tbl base n := by
  rw [extraBitsCost_slice (by rw [h.length_histTable]; exact hsize _)]
  rfl

/-- The five table estimates of a slot added in order, then its extra bits (45_histogram R227). -/
def State.estimateSum (s : State) (k : Nat) : Cost :=
  let tc := fun tbl => estimateTable s.fns (s.histTable k tbl)
  Bin64.add (Bin64.add (Bin64.add (Bin64.add (Bin64.add (Bin64.add (tc .combined) (tc .red)) (tc .blue)) (tc .alpha))
    (tc .distance)) (s.extraCost k .combined 256 24)) (s.extraCost k .distance 0 40)

theorem State.Working.estimateBits_histo (h : s.Working) (k : Nat) :
    (s.histo k).estimateBits s.fns = s.estimateSum k := by
  rw [State.estimateSum, ← h.extraCost_eq k (fun _ => Nat.le_add_right _ _), ← h.extraCost_eq k (fun _ => le_rfl)]
  rfl

/-- The state HIST_EST leaves before its end. -/
def State.estimated (s : State) (k : Nat) : State := (histEstBody k s).state

theorem State.estimated_slot (s : State) (k j : Nat) : (s.estimated k).slot j =
    if j = k then { s.slot k with costValid := true } else s.slot j := State.slot_setSlot ..

theorem State.estimated_bitCost (s : State) (k j : Nat) : (s.estimated k).bitCostOf j =
    if j = k then (s.histo k).estimateBits s.fns else s.bitCostOf j := Mem.read_write ..

theorem State.estimated_tableCost (s : State) (k : Nat) (tbl : Table) :
    (s.estimated k).tableCostOf k tbl.index = estimateTable s.fns (s.histTable k tbl) := by
  have htbl := tbl.index_lt
  refine (Mem.read_put_in s.spaces.tableCost 13 (5 * k) (5 * k + tbl.index) _ (Nat.le_add_right _ _)
    (Nat.add_lt_add_left htbl _)).trans ?_
  rw [Nat.add_sub_cancel_left]
  cases tbl <;> rfl

theorem State.estimated_sameSlots (s : State) (k : Nat) : SameSlots (fun q => q = k) s (s.estimated k) := by
  intro q hq
  refine ⟨(s.estimated_slot k q).trans (if_neg hq), (s.estimated_bitCost k q).trans (if_neg hq), fun j hj => ?_⟩
  refine Mem.read_put_out s.spaces.tableCost 13 (5 * k) (5 * q + j) _ ?_
  simp only [List.length_cons, List.length_nil]
  omega

/-! ### HIST_COMBINE (45_histogram R232) -/

theorem getD_zipWith_add {l m : List Nat} (h : l.length = m.length) (k : Nat) :
    (List.zipWith (· + ·) l m).getD k 0 = l.getD k 0 + m.getD k 0 := by
  obtain hk | hk := Nat.lt_or_ge k l.length
  · rw [List.getD_eq_getElem _ _ (by rw [List.length_zipWith]; omega), List.getElem_zipWith,
      List.getD_eq_getElem _ _ hk, List.getD_eq_getElem _ _ (h ▸ hk)]
  · rw [List.getD_eq_default _ _ (by rw [List.length_zipWith]; omega), List.getD_eq_default _ _ hk,
      List.getD_eq_default _ _ (h ▸ hk)]

/-- The sum of the values of two slots of one width, element by element. -/
theorem State.Working.histo_sum (h : s.Working) {a b : Nat} (hsame : (s.slot a).hbits = (s.slot b).hbits)
    (tbl : Table) : (((s.histo a).sum (s.histo b)).counts.get tbl).length = tbl.size (s.slot a).hbits.toNat ∧
      ∀ sym, (((s.histo a).sum (s.histo b)).counts.get tbl).getD sym 0 = s.count a tbl sym + s.count b tbl sym := by
  have hlen : (s.histTable a tbl).length = (s.histTable b tbl).length := by
    rw [h.length_histTable, h.length_histTable, hsame]
  simp only [Histo.sum, State.histo, PerTable.get_ofFn]
  refine ⟨?_, getD_zipWith_add hlen⟩
  rw [List.length_zipWith, ← hlen, h.length_histTable, Nat.min_self]

end

end Sys2Proof.Machine

open Sys2Proof Sys2Proof.Machine

/-- Settles O45: the zero value is stored, whose elements are all zero and whose tables have no mark. -/
theorem histClearEffect : Obligations.HistClearEffect := by
  unfold Obligations.HistClearEffect
  intro s slot hstarts
  have hbits : s.regs.cacheBits.toNat ≤ 10 := by
    simpa [State.fails] using State.fails_of_starts hstarts (n := 7) (by simp [Instr.checks])
  have hslot := State.putHistos_slot s slot.toNat (hs := [histoZero s.regs.cacheBits.toNat]) Nat.one_pos
  refine ⟨_, exec_histClear_of_starts hstarts, ?_, fun e he => ?_, rfl, rfl, ⟨rfl, rfl, rfl⟩,
    ⟨fun _ => rfl, fun _ _ => rfl⟩,
    (s.putHistos_onlyWrites slot.toNat (by simpa using Histo.fits_zero hbits)).mono (fun _ _ hin => hin)
      (fun k hk => Nat.le_antisymm (Nat.le_of_lt_succ hk.2) hk.1)⟩
  · refine hslot.trans ?_
    rw [List.getElem_cons_zero, Slot.counted, marks_histoZero, histoZero, BitVec.ofNat_toNat]
    rfl
  · exact (State.readElem_endOk ..).trans (State.readElem_putHistos_zero slot.toNat hbits he)

/-- Settles O47: all sums are tested before any is stored, so a raise finds everything but HIST as it was. -/
theorem histAddSums : Obligations.HistAddSums := by
  unfold Obligations.HistAddSums
  intro s slot hstarts hinv
  have hw := State.working_of_accepts hinv (State.starts_tests hstarts).1
  obtain ⟨hvalid, -⟩ : (s.slot slot.toNat).histValid = true ∧ (s.slot s.regs.arg0.toNat).histValid = true := by
    simpa [State.fails, State.slotsRead] using State.fails_of_starts hstarts (n := 14) (by simp [Instr.checks])
  refine ⟨fun hfit => ⟨_, exec_histAdd_of_starts hstarts, ?_⟩, fun e he hover hbefore =>
    ⟨_, exec_histAdd_of_starts hstarts, ?_⟩⟩
  · rw [histAddBody_of_fits hw hfit]
    exact ⟨fun e he => hw.readElem_histAdded he (hfit e he), State.histAdded_slotCounted hvalid, rfl, rfl,
      ⟨rfl, rfl, rfl⟩, ⟨fun _ => rfl, fun _ _ => rfl⟩,
      State.endOk_onlyWrites (hw.histAdded_sameElems _ _) (s.histAdded_sameSlots _ _)⟩
  · rw [histAddBody_of_overflow hw he hover hbefore]
    exact s.failHist_raised 0x42 e

/-- Settles O48: the estimate of a slot is the sum in the order written, over the whole in-use part of its tables. -/
theorem histEstCosts : Obligations.HistEstCosts := by
  unfold Obligations.HistEstCosts
  intro s slot hstarts hinv
  have hw := State.working_of_accepts hinv (State.starts_tests hstarts).1
  have hsum := hw.estimateBits_histo slot.toNat
  refine ⟨_, exec_histEst_of_starts hstarts, ?_, s.estimated_tableCost slot.toNat, ?_, ?_, rfl, ⟨rfl, rfl, rfl⟩,
    State.endOk_onlyWrites (fun _ _ _ => rfl) (s.estimated_sameSlots slot.toNat)⟩
  · exact ((s.estimated_bitCost slot.toNat slot.toNat).trans (if_pos rfl)).trans hsum
  · exact (s.estimated_slot slot.toNat slot.toNat).trans (if_pos rfl)
  · exact congrArg
      (fun c : Cost => { s.okRegs with result0 := c.extractLsb' 0 32, result1 := c.extractLsb' 32 32 }) hsum

/-- Settles O49: the sum is only a value, so the command answers in registers and flags alone. -/
theorem histCombineCost : Obligations.HistCombineCost := by
  unfold Obligations.HistCombineCost
  intro s slot hstarts hinv
  have hw := State.working_of_accepts hinv (State.starts_tests hstarts).1
  have hsame : (s.slot slot.toNat).hbits = (s.slot s.regs.arg0.toNat).hbits := by
    simpa [State.fails, State.widthMismatch] using State.fails_of_starts hstarts (n := 18) (by simp [Instr.checks])
  exact ⟨_, (s.histo slot.toNat).sum (s.histo s.regs.arg0.toNat), exec_histCombine_of_starts hstarts, rfl,
    hw.histo_sum hsame, ⟨rfl, rfl⟩, ⟨rfl, rfl, rfl⟩, s.answered_onlyWrites _ rfl⟩

end

section
/-! SUPPORT. The contract of the grouping CLUSTER chooses: every tile in one of `K` groups, no group without a tile
(46_clustering R252 to R257). -/

namespace Sys2Proof.Machine

theorem clusterContract_iff {n : Nat} {c : Nat × List Nat} :
    clusterContract n c = true ↔ (1 ≤ c.1 ∧ c.1 ≤ n ∧ c.2.length = n) ∧ (∀ k ∈ c.2, k < c.1) ∧
      ∀ k, k < c.1 → k ∈ c.2 := by
  simp only [clusterContract, Bool.and_eq_true, decide_eq_true_eq, List.all_eq_true, List.mem_range,
    List.contains_iff_mem, and_assoc]

theorem length_mergePair (cs : List Centroid) (p : ClusterPair) : (mergePair cs p).length = cs.length := by
  simp only [mergePair]
  split <;> simp

theorem length_agglomerateLoop (f : Fns) (fuel : Nat) (cs : List Centroid) :
    (agglomerateLoop f fuel cs).length = cs.length := by
  induction fuel generalizing cs with
  | zero => rfl
  | succ fuel ih =>
    simp only [agglomerateLoop]
    split
    · rfl
    · rw [ih, length_mergePair]

theorem length_agglomerate_le (f : Fns) (tiles : List Histo) : (agglomerate f tiles).length ≤ tiles.length := by
  refine (List.length_filter_le _ _).trans_eq ?_
  rw [length_agglomerateLoop, List.length_map]

/-- The remap of a tile answers the best so far or one of the centroids still to be tried. -/
theorem remapTile_lt {f : Fns} {tile : Histo} {k : Nat} {cs : List Centroid} {best : Nat × Cost × Cost}
    (hbest : best.1 < k + cs.length) : remapTile f tile k cs best < k + cs.length := by
  induction cs generalizing k best with
  | nil => exact hbest
  | cons c rest ih =>
    rw [List.length_cons, ← Nat.add_assoc, Nat.add_right_comm] at hbest ⊢
    simp only [remapTile]
    split
    · exact ih (Nat.lt_add_right _ (Nat.lt_succ_self k))
    · exact ih hbest

theorem remapTiles_lt {f : Fns} {cs : List Centroid} {tiles : List Histo} {k n : Nat}
    (hk : k ∈ remapTiles f cs tiles) (hcs : cs.length ≤ n) (hn : 1 ≤ n) : k < n := by
  cases cs with
  | nil =>
    obtain ⟨-, -, rfl⟩ := List.mem_map.1 hk
    exact hn
  | cons c rest =>
    obtain ⟨tile, -, rfl⟩ := List.mem_map.1 hk
    rw [List.length_cons, Nat.add_comm] at hcs
    exact (remapTile_lt (Nat.lt_add_right _ Nat.one_pos)).trans_le hcs

/-- Numbers renumbered by their position among those in use are the positions, each met. -/
theorem mem_map_idxOf_iff {a used : List Nat} (hnodup : used.Nodup) (hused : ∀ u, u ∈ used ↔ u ∈ a) {k : Nat} :
    k ∈ a.map (fun u => used.idxOf u) ↔ k < used.length := by
  rw [List.mem_map]
  constructor
  · rintro ⟨u, hu, rfl⟩
    exact List.idxOf_lt_length_iff.2 ((hused u).2 hu)
  · intro hk
    exact ⟨used[k], (hused _).1 (List.getElem_mem hk), hnodup.idxOf_getElem k hk⟩

/-- The default meets the contract: the remap names centroids below the number of tiles, and those it names are
renumbered without a gap (46_clustering R252, R257). -/
theorem clusterDefault_contract (f : Fns) {tiles : List Histo} (hne : 1 ≤ tiles.length) :
    clusterContract tiles.length (clusterDefault f tiles) = true := by
  have hmem : ∀ k, k ∈ (clusterDefault f tiles).2 ↔ k < (clusterDefault f tiles).1 := by
    refine fun k => mem_map_idxOf_iff (List.nodup_range.filter _) (fun u => ?_)
    rw [List.mem_filter, List.mem_range, List.contains_iff_mem]
    exact and_iff_right_of_imp (fun hu => remapTiles_lt hu (length_agglomerate_le f tiles) hne)
  have hlen : (clusterDefault f tiles).2.length = tiles.length := by
    simp only [clusterDefault, List.length_map, length_remapTiles]
  have hle : (clusterDefault f tiles).1 ≤ tiles.length :=
    (List.length_filter_le _ _).trans_eq List.length_range
  have hfirst := (hmem _).1 (List.getElem_mem (hlen ▸ hne : 0 < (clusterDefault f tiles).2.length))
  exact clusterContract_iff.2 ⟨⟨Nat.one_le_of_lt hfirst, hle, hlen⟩, fun k => (hmem k).1, fun k => (hmem k).2⟩

theorem clusterChoice_contract (f : Fns) {tiles : List Histo} (hne : 1 ≤ tiles.length) :
    clusterContract tiles.length (clusterChoice f tiles) = true := by
  simp only [clusterChoice]
  split
  · exact clusterDefault_contract f hne
  split
  · assumption
  · exact clusterDefault_contract f hne

end Sys2Proof.Machine
end

section
/-! SUPPORT. Sums of histogram values of one width, what they count and where they overflow (46_clustering R251, R253,
45_histogram R226). -/

namespace Sys2Proof.Machine

/-! ### Sums of values of one width (46_clustering R251, R253) -/

/-- The count of a symbol, 0 outside the table. -/
def Histo.count (h : Histo) (t : Table) (sym : Nat) : Nat := (h.counts.get t).getD sym 0

theorem State.count_histo (s : State) (k : Nat) (t : Table) (sym : Nat) :
    (s.histo k).count t sym = s.count k t sym := by
  rw [Histo.count, State.histo, PerTable.get_ofFn]
  rfl

/-- Whole tables of cache width `b`. -/
structure Histo.OfWidth (h : Histo) (b : Nat) : Prop where
  bits : h.bits = b
  size : ∀ t, (h.counts.get t).length = t.size b

theorem Histo.ofWidth_zero (b : Nat) : (histoZero b).OfWidth b := ⟨rfl, Histo.sized_zero b⟩

theorem Histo.count_zero (b : Nat) (t : Table) (sym : Nat) : (histoZero b).count t sym = 0 := by
  simp [Histo.count, histoZero]

section
variable {b : Nat} {x y acc : Histo} {ts : List Histo}

theorem Histo.OfWidth.sum (hx : x.OfWidth b) (hy : y.OfWidth b) : (x.sum y).OfWidth b :=
  ⟨hx.bits, fun t => by simp [Histo.sum, hx.size, hy.size]⟩

theorem Histo.OfWidth.count_sum (hx : x.OfWidth b) (hy : y.OfWidth b) (t : Table) (sym : Nat) :
    (x.sum y).count t sym = x.count t sym + y.count t sym := by
  simp only [Histo.count, Histo.sum, PerTable.get_ofFn]
  exact getD_zipWith_add ((hx.size t).trans (hy.size t).symm) sym

theorem Histo.OfWidth.foldl_sum (hacc : acc.OfWidth b) (hts : ∀ v ∈ ts, v.OfWidth b) :
    (ts.foldl Histo.sum acc).OfWidth b := by
  induction ts generalizing acc with
  | nil => exact hacc
  | cons v ts ih =>
    obtain ⟨hv, hts⟩ := List.forall_mem_cons.1 hts
    exact ih (hacc.sum hv) hts

theorem Histo.OfWidth.count_foldl_sum (hacc : acc.OfWidth b) (hts : ∀ v ∈ ts, v.OfWidth b) (t : Table) (sym : Nat) :
    (ts.foldl Histo.sum acc).count t sym = acc.count t sym + (ts.map (fun v => v.count t sym)).sum := by
  induction ts generalizing acc with
  | nil => rfl
  | cons v ts ih =>
    obtain ⟨hv, hts⟩ := List.forall_mem_cons.1 hts
    rw [List.foldl_cons, ih (hacc.sum hv) hts, hacc.count_sum hv, List.map_cons, List.sum_cons, Nat.add_assoc]

theorem Histo.OfWidth.storable (hx : x.OfWidth b) (hb : b ≤ 10) (hsmall : ∀ t sym, x.count t sym < 2 ^ 32) :
    x.Storable := by
  refine ⟨hx.bits.trans_le hb, fun t => by rw [hx.bits, hx.size], fun t n hn => ?_⟩
  obtain ⟨sym, hsym, rfl⟩ := List.mem_iff_getElem.1 hn
  rw [← List.getD_eq_getElem _ 0 hsym]
  exact hsmall t sym

/-- The counts only grow while tiles are added, so a sum without overflow has no overflow on its way. -/
theorem addTiles_of_small (hb : b ≤ 10) (hacc : acc.OfWidth b) (hts : ∀ v ∈ ts, v.OfWidth b)
    (hsmall : ∀ t sym, (ts.foldl Histo.sum acc).count t sym < 2 ^ 32) :
    addTiles acc ts = .ok (ts.foldl Histo.sum acc) := by
  induction ts generalizing acc with
  | nil => rfl
  | cons v ts ih =>
    obtain ⟨hv, hts⟩ := List.forall_mem_cons.1 hts
    have hstep := hacc.sum hv
    have hnone : overflowAt (acc.sum v).elements = none := by
      refine (hstep.storable hb (fun t sym => ?_)).overflowAt
      have htotal := hsmall t sym
      rw [List.foldl_cons, hstep.count_foldl_sum hts] at htotal
      exact Nat.lt_of_add_right_lt htotal
    simp only [addTiles, hnone]
    exact ih hstep hts hsmall

theorem addTiles_append {h : Histo} {us : List Histo} (hts : addTiles acc ts = .ok h) :
    addTiles acc (ts ++ us) = addTiles h us := by
  induction ts generalizing acc with
  | nil =>
    cases hts
    rfl
  | cons v ts ih =>
    simp only [addTiles, List.cons_append] at hts ⊢
    split at hts
    · cases hts
    · exact ih hts

/-- Every element of the part of a slot in use belongs to a table (10_state R36). -/
theorem Table.exists_of_offset {e : Nat} (he : e < Config.slotUsed) :
    ∃ (t : Table) (q : Nat), q < t.room ∧ e = t.base + q := by
  simp only [Config.slotUsed] at he
  obtain hc | hc := Nat.lt_or_ge e 1304
  · exact ⟨.combined, e, hc, (Nat.zero_add e).symm⟩
  obtain hr | hr := Nat.lt_or_ge e 1560
  · exact ⟨.red, e - 1304, by simp only [Table.room]; omega, by simp only [Table.base]; omega⟩
  obtain hb | hb := Nat.lt_or_ge e 1816
  · exact ⟨.blue, e - 1560, by simp only [Table.room]; omega, by simp only [Table.base]; omega⟩
  obtain ha | ha := Nat.lt_or_ge e 2072
  · exact ⟨.alpha, e - 1816, by simp only [Table.room]; omega, by simp only [Table.base]; omega⟩
  · exact ⟨.distance, e - 2072, by simp only [Table.room]; omega, by simp only [Table.base]; omega⟩

theorem Histo.OfWidth.lt_room (hx : x.OfWidth b) (hb : b ≤ 10) {t : Table} {sym : Nat} (hsym : x.count t sym ≠ 0) :
    sym < t.room := by
  refine lt_of_lt_of_le (?_ : sym < t.size b) (t.size_le_room hb)
  rw [← hx.size t]
  exact not_le.1 (mt (List.getD_eq_default _ 0) hsym)

/-- The offset raised is that of the first count, table by table, that overflows. -/
theorem Histo.OfWidth.overflowAt (hx : x.OfWidth b) (hb : b ≤ 10) {t : Table} {sym : Nat}
    (hover : 2 ^ 32 ≤ x.count t sym) (hbefore : ∀ u q, Table.base u + q < t.base + sym → x.count u q < 2 ^ 32) :
    Machine.overflowAt x.elements = some (t.base + sym) := by
  have hfits : x.Fits := ⟨hx.bits.trans_le hb, fun t => by rw [hx.bits, hx.size]⟩
  have hlen := hfits.length_elements
  have hroom := hx.lt_room hb (t := t) (sym := sym) (by omega)
  have hused : t.base + t.room ≤ Config.slotUsed := by cases t <;> decide
  have hin : t.base + sym < x.elements.length := by
    rw [hlen, Config.slotStride]
    rw [Config.slotUsed] at hused
    omega
  have hat : ∀ u q, q < Table.room u → x.elements.getD (u.base + q) 0 = x.count u q :=
    fun u q hq => hfits.getD_elements u hq
  refine overflowAt_eq_some hin ?_ (fun e he => ?_)
  · rwa [← List.getD_eq_getElem _ 0, hat t sym hroom]
  · obtain ⟨u, q, hq, rfl⟩ := Table.exists_of_offset (e := e) (by omega)
    rw [← List.getD_eq_getElem _ 0, hat u q hq]
    exact hbefore u q he

end

/-! ### The values of the groups (46_clustering R251) -/

theorem groupTiles_range {n k : Nat} {map : List Nat} (tile : Nat → Histo) (hlen : map.length = n) :
    groupTiles k ((List.range n).map tile) map =
      ((List.range n).filter (fun g => map.getD g 0 == k)).map tile := by
  have hmap : map = (List.range n).map (fun g => map.getD g 0) :=
    List.ext_getElem (by simp [hlen]) (fun g hg _ => by simp [hg])
  rw [groupTiles]
  conv_lhs => rw [hmap]
  rw [List.zip_map', List.filter_map, List.map_map]
  rfl

theorem groupHistos_of_ok {bits : Nat} {tiles : List Histo} {map ks : List Nat} {value : Nat → Histo}
    (hok : ∀ k ∈ ks, addTiles (histoZero bits) (groupTiles k tiles map) = .ok (value k)) :
    groupHistos bits tiles map ks = .ok (ks.map value) := by
  induction ks with
  | nil => rfl
  | cons k ks ih =>
    obtain ⟨hk, hks⟩ := List.forall_mem_cons.1 hok
    simp only [groupHistos, hk, ih hks, List.map_cons]

theorem groupHistos_of_error {bits e k : Nat} {tiles : List Histo} {map pre post : List Nat} {value : Nat → Histo}
    (hok : ∀ j ∈ pre, addTiles (histoZero bits) (groupTiles j tiles map) = .ok (value j))
    (herr : addTiles (histoZero bits) (groupTiles k tiles map) = .error e) :
    groupHistos bits tiles map (pre ++ k :: post) = .error e := by
  induction pre with
  | nil => simp only [List.nil_append, groupHistos, herr]
  | cons j pre ih =>
    obtain ⟨hj, hpre⟩ := List.forall_mem_cons.1 hok
    simp only [List.cons_append, groupHistos, hj, ih hpre]

end Sys2Proof.Machine
end

section
/-! SUPPORT. CLUSTER: how it ends, and what it leaves in GRPMAP and the slots of the groups (46_clustering R251, R252,
60_exceptions R345, R348). -/

namespace Sys2Proof.Machine

section
variable {s : State} {slot : BitVec 16} {first group : Nat}

/-! ### What the checks of CLUSTER promise (60_exceptions R349) -/

/-- The slots from `base` on that exist, as the checks name them. -/
theorem State.any_existingSlots (s : State) (base n : Nat) (p : Nat → Bool) :
    (s.existingSlots base n).any p =
      (((List.range n).map (fun g => base + g)).filter (fun k => decide (k < s.caps.hMax))).any p := by
  rw [Bool.eq_iff_iff]
  simp only [State.existingSlots, List.any_filter, List.any_map, List.any_eq_true, List.mem_range, lt_inf_iff,
    Function.comp_apply, Bool.and_eq_true, decide_eq_true_eq, and_assoc, Nat.lt_sub_iff_add_lt']

theorem exec_cluster_of_starts (h : s.starts (.cluster slot) = true) :
    exec (.cluster slot) s = .next ((clusterBody slot.toNat s.regs.arg1.toNat s).ended 0x45) := by
  rw [exec, execCluster]
  refine runCommand_of_starts h ?_ rfl
  have hbad : s.badHist = fun k => !(s.slot k).histValid := rfl
  simp only [Instr.checks, List.map_cons, List.map_nil, State.fails_four]
  simp [State.fails, State.slotOperands, State.slotsRead, State.badHistoBits, State.histoExp, State.badSlot, hbad,
    State.widthMismatch, State.slotsClash, State.tileWidthsDiffer, State.any_existingSlots, Instr.slotMode]

theorem State.one_le_tileCount (h : 1 ≤ s.pixelCount) : 1 ≤ s.tileCount :=
  Nat.one_le_of_lt (s.tileOf_lt h)

/-- What CLUSTER counts on: tiles at one width within GRPMAP, and slots for the tiles and as many groups. -/
structure State.Clusterable (s : State) (first group : Nat) : Prop extends s.Working where
  tiles : 1 ≤ s.tileCount
  map : s.tileCount ≤ s.caps.nMax
  tileSlots : first + s.tileCount ≤ s.caps.hMax
  groupSlots : group + s.tileCount ≤ s.caps.hMax
  width : ∀ g, g < s.tileCount → (s.slot (first + g)).hbits = (s.slot first).hbits

theorem State.clusterable_of_starts (h : s.starts (.cluster slot) = true) (hinv : s.invariant = true)
    (hmap : s.tileCount ≤ s.caps.nMax) : s.Clusterable slot.toNat s.regs.arg1.toNat := by
  obtain ⟨haccepts, -, hcap⟩ := State.starts_tests h
  obtain ⟨-, hpixels⟩ := State.one_le_of_starts h (by simp [Instr.checks])
  have hwidths := State.fails_of_starts h (n := 18) (by simp [Instr.checks])
  simp only [State.overCapacity, ite_eq_right_iff, reduceCtorEq, imp_false, not_or, not_lt] at hcap
  obtain ⟨htiles, hgroups⟩ := hcap
  refine { State.working_of_accepts hinv haccepts with
    tiles := State.one_le_tileCount hpixels, map := hmap, tileSlots := htiles, groupSlots := hgroups
    width := fun g hg => ?_ }
  have hexists : slot.toNat + g < s.caps.hMax := by omega
  simp only [State.fails, State.widthMismatch, State.slotsRead, List.any_filter, List.any_map, List.any_eq_false,
    List.mem_range, Function.comp_apply, Bool.and_eq_true, decide_eq_true_eq, not_and, not_not] at hwidths
  exact hwidths g hg hexists

/-! ### The chosen grouping (46_clustering R252) -/

/-- The tiles among the first `m` that the choice puts into group `k`, in order. -/
def State.chosenTiles (s : State) (first k m : Nat) : List Histo :=
  ((List.range m).filter (fun g => (s.tileChoice first).2.getD g 0 == k)).map (fun g => s.histo (first + g))

/-- Their sum, at the width of the tiles. -/
def State.chosenHisto (s : State) (first k m : Nat) : Histo :=
  (s.chosenTiles first k m).foldl Histo.sum (histoZero (s.slot first).hbits.toNat)

theorem State.chosenTiles_succ (s : State) (first k g : Nat) : s.chosenTiles first k (g + 1) =
    s.chosenTiles first k g ++ if (s.tileChoice first).2.getD g 0 = k then [s.histo (first + g)] else [] := by
  simp only [State.chosenTiles, List.range_succ, List.filter_append, List.map_append, List.filter_singleton]
  by_cases hin : (s.tileChoice first).2.getD g 0 = k
  · rw [if_pos hin, beq_iff_eq.2 hin]
    rfl
  · rw [if_neg hin, beq_eq_false_iff_ne.2 hin]
    rfl

/-- The tiles from number `m` on stand behind those before it. -/
theorem State.exists_chosenTiles_append (s : State) (first k : Nat) {m n : Nat} (h : m ≤ n) :
    ∃ post, s.chosenTiles first k n = s.chosenTiles first k m ++ post := by
  obtain ⟨d, rfl⟩ := Nat.exists_eq_add_of_le h
  rw [State.chosenTiles, State.chosenTiles, List.range_add, List.filter_append, List.map_append]
  exact ⟨_, rfl⟩

theorem State.Clusterable.choice (h : s.Clusterable first group) :
    (1 ≤ (s.tileChoice first).1 ∧ (s.tileChoice first).1 ≤ s.tileCount ∧
      (s.tileChoice first).2.length = s.tileCount) ∧
    (∀ k ∈ (s.tileChoice first).2, k < (s.tileChoice first).1) ∧
    ∀ k, k < (s.tileChoice first).1 → k ∈ (s.tileChoice first).2 := by
  have hlen : ((List.range s.tileCount).map (fun g => s.histo (first + g))).length = s.tileCount := by simp
  have hcontract := clusterChoice_contract s.fns (hlen.symm ▸ h.tiles)
  rw [hlen] at hcontract
  exact clusterContract_iff.1 hcontract

theorem State.Clusterable.map_lt (h : s.Clusterable first group) {g : Nat} (hg : g < s.tileCount) :
    (s.tileChoice first).2.getD g 0 < (s.tileChoice first).1 := by
  obtain ⟨⟨-, -, hlen⟩, hall, -⟩ := h.choice
  rw [List.getD_eq_getElem _ _ (hlen.symm ▸ hg)]
  exact hall _ (List.getElem_mem _)

theorem State.Clusterable.exists_tile (h : s.Clusterable first group) {k : Nat} (hk : k < (s.tileChoice first).1) :
    ∃ g, g < s.tileCount ∧ (s.tileChoice first).2.getD g 0 = k := by
  obtain ⟨⟨-, -, hlen⟩, -, honto⟩ := h.choice
  obtain ⟨g, hg, rfl⟩ := List.mem_iff_getElem.1 (honto k hk)
  exact ⟨g, hlen ▸ hg, List.getD_eq_getElem _ _ hg⟩

theorem State.Clusterable.histo_ofWidth (h : s.Clusterable first group) {g : Nat} (hg : g < s.tileCount) :
    (s.histo (first + g)).OfWidth (s.slot first).hbits.toNat := by
  refine ⟨congrArg BitVec.toNat (h.width g hg), fun t => ?_⟩
  rw [State.histo, PerTable.get_ofFn, h.length_histTable, h.width g hg]

theorem State.Clusterable.tiles_ofWidth (h : s.Clusterable first group) {k m : Nat} (hm : m ≤ s.tileCount) :
    ∀ v ∈ s.chosenTiles first k m, v.OfWidth (s.slot first).hbits.toNat := by
  intro v hv
  obtain ⟨g, hg, rfl⟩ := List.mem_map.1 hv
  exact h.histo_ofWidth ((List.mem_range.1 (List.mem_of_mem_filter hg)).trans_le hm)

theorem State.Clusterable.chosen_ofWidth (h : s.Clusterable first group) {k m : Nat} (hm : m ≤ s.tileCount) :
    (s.chosenHisto first k m).OfWidth (s.slot first).hbits.toNat :=
  (Histo.ofWidth_zero _).foldl_sum (h.tiles_ofWidth hm)

/-- The value of a group counts what its tiles count. -/
theorem State.Clusterable.count_chosen (h : s.Clusterable first group) {k m : Nat} (hm : m ≤ s.tileCount)
    (t : Table) (sym : Nat) : (s.chosenHisto first k m).count t sym = s.chosenCount k first m t sym := by
  rw [State.chosenHisto, (Histo.ofWidth_zero _).count_foldl_sum (h.tiles_ofWidth hm), Histo.count_zero, Nat.zero_add,
    State.chosenTiles, List.map_map]
  simp only [Function.comp_def, State.count_histo]
  rfl

/-! ### The additions (46_clustering R251, 60_exceptions R348) -/

/-- The tiles among the first `m` of a group that are added without overflow. -/
theorem State.Clusterable.addTiles_ok (h : s.Clusterable first group) {k m : Nat} (hm : m ≤ s.tileCount)
    (hsmall : ∀ t sym, s.chosenCount k first m t sym < 2 ^ 32) :
    addTiles (histoZero (s.slot first).hbits.toNat) (s.chosenTiles first k m) = .ok (s.chosenHisto first k m) := by
  refine addTiles_of_small (h.hbits_le first) (Histo.ofWidth_zero _) (h.tiles_ofWidth hm) (fun t sym => ?_)
  exact (h.count_chosen hm t sym).trans_lt (hsmall t sym)

/-- The first tile of a group at which a count overflows raises the lowest such element. -/
theorem State.Clusterable.addTiles_error (h : s.Clusterable first group) {k g : Nat} {t : Table} {sym : Nat}
    (hg : g < s.tileCount) (hsmall : ∀ u q, s.chosenCount k first g u q < 2 ^ 32)
    (hover : 2 ^ 32 ≤ s.chosenCount k first (g + 1) t sym)
    (hbefore : ∀ u q, Table.base u + q < t.base + sym → s.chosenCount k first (g + 1) u q < 2 ^ 32) :
    addTiles (histoZero (s.slot first).hbits.toNat) (s.chosenTiles first k s.tileCount) = .error (t.base + sym) := by
  have hin : (s.tileChoice first).2.getD g 0 = k := by
    by_contra hout
    have hsame : s.chosenHisto first k (g + 1) = s.chosenHisto first k g := by
      rw [State.chosenHisto, State.chosenTiles_succ, if_neg hout, List.append_nil]
      rfl
    rw [← h.count_chosen hg, hsame, h.count_chosen hg.le] at hover
    exact absurd (hsmall t sym) hover.not_gt
  have hsum : s.chosenHisto first k (g + 1) = (s.chosenHisto first k g).sum (s.histo (first + g)) := by
    rw [State.chosenHisto, State.chosenTiles_succ, if_pos hin, List.foldl_append]
    rfl
  have hraise : overflowAt (s.chosenHisto first k (g + 1)).elements = some (t.base + sym) := by
    refine (h.chosen_ofWidth hg).overflowAt (h.hbits_le first) ?_ (fun u q hq => ?_)
    · rwa [h.count_chosen hg]
    · rw [h.count_chosen hg]
      exact hbefore u q hq
  obtain ⟨post, hpost⟩ := s.exists_chosenTiles_append first k (Nat.succ_le_of_lt hg)
  rw [hpost, State.chosenTiles_succ, if_pos hin, List.append_assoc, addTiles_append (h.addTiles_ok hg.le hsmall)]
  rw [hsum] at hraise
  simp only [List.singleton_append, addTiles, hraise]

/-! ### The pseudocode of CLUSTER (46_clustering R251) -/

theorem State.Clusterable.groupTiles_eq (h : s.Clusterable first group) (k : Nat) :
    groupTiles k ((List.range s.tileCount).map (fun g => s.histo (first + g))) (s.tileChoice first).2 =
      s.chosenTiles first k s.tileCount := by
  obtain ⟨⟨-, -, hlen⟩, -⟩ := h.choice
  exact groupTiles_range _ hlen

/-- The values of the groups as the pseudocode sums them, or the first overflow. -/
def State.groupSums (s : State) (first : Nat) : Except Nat (List Histo) :=
  groupHistos (s.slot first).hbits.toNat ((List.range s.tileCount).map (fun g => s.histo (first + g)))
    (s.tileChoice first).2 (List.range (s.tileChoice first).1)

/-- The values CLUSTER leaves in the group slots. -/
def State.groupValues (s : State) (first : Nat) : List Histo :=
  (List.range (s.tileChoice first).1).map (fun k => s.chosenHisto first k s.tileCount)

theorem State.length_groupValues (s : State) (first : Nat) :
    (s.groupValues first).length = (s.tileChoice first).1 := by
  simp [State.groupValues]

theorem State.getElem_groupValues {k : Nat} (hk : k < (s.groupValues first).length) :
    (s.groupValues first)[k] = s.chosenHisto first k s.tileCount := by
  simp [State.groupValues]

/-- The state with the values of the groups, GRPMAP and the number of groups stored. -/
def State.clustered (s : State) (first group : Nat) : State :=
  let t := s.putHistos group (s.groupValues first)
  State.setResult { t with
    spaces := { t.spaces with
      grpMap := t.spaces.grpMap.put 0 ((s.tileChoice first).2.map (BitVec.ofNat 16)) }
    regs := { t.regs with numGroups := BitVec.ofNat 32 (s.tileChoice first).1 } }
    (BitVec.ofNat 32 (s.tileChoice first).1)

theorem clusterBody_of_ok (hmap : s.tileCount ≤ s.caps.nMax) (hsums : s.groupSums first = .ok (s.groupValues first)) :
    clusterBody first group s = .ok (s.clustered first group) := by
  rw [State.groupSums, State.tileChoice] at hsums
  simp only [clusterBody, if_neg hmap.not_gt, hsums]
  rfl

theorem clusterBody_of_error {e : Nat} (hmap : s.tileCount ≤ s.caps.nMax) (hsums : s.groupSums first = .error e) :
    clusterBody first group s = s.failCluster e := by
  rw [State.groupSums, State.tileChoice] at hsums
  simp only [clusterBody, if_neg hmap.not_gt, hsums]

theorem State.Clusterable.groupSums_ok (h : s.Clusterable first group)
    (hfit : ∀ k, k < (s.tileChoice first).1 → s.GroupFits first k) :
    s.groupSums first = .ok (s.groupValues first) := by
  refine groupHistos_of_ok (fun k hk => ?_)
  rw [h.groupTiles_eq]
  exact h.addTiles_ok le_rfl (hfit k (List.mem_range.1 hk))

/-- The groups before the one that overflows are summed without a raise. -/
theorem State.Clusterable.groupSums_error (h : s.Clusterable first group) {k g : Nat} {t : Table} {sym : Nat}
    (hk : k < (s.tileChoice first).1) (hg : g < s.tileCount) (hfit : ∀ j, j < k → s.GroupFits first j)
    (hsmall : ∀ u q, s.chosenCount k first g u q < 2 ^ 32)
    (hover : 2 ^ 32 ≤ s.chosenCount k first (g + 1) t sym)
    (hbefore : ∀ u q, Table.base u + q < t.base + sym → s.chosenCount k first (g + 1) u q < 2 ^ 32) :
    s.groupSums first = .error (t.base + sym) := by
  obtain ⟨d, hd⟩ := Nat.exists_eq_add_of_lt hk
  rw [State.groupSums, hd, Nat.add_assoc, List.range_add, List.range_succ_eq_map, List.map_cons, Nat.add_zero]
  refine groupHistos_of_error (value := fun j => s.chosenHisto first j s.tileCount) (fun j hj => ?_) ?_
  · rw [h.groupTiles_eq]
    exact h.addTiles_ok le_rfl (hfit j (List.mem_range.1 hj))
  · rw [h.groupTiles_eq]
    exact h.addTiles_error hg hsmall hover hbefore

/-- A run-time raise of CLUSTER leaves everything but HIST and GRPMAP (60_exceptions R345, R346). -/
theorem State.failCluster_raised (s : State) (op : BitVec 8) (info : Nat) :
    RaisedAtRun s ((s.failCluster info).ended op) op .internal info (fun sp _ => sp = .hist ∨ sp = .grpMap) := by
  have hframe : BodyFrame s (s.failCluster info).state := {}
  refine hframe.raised rfl rfl ?_ op .internal info
  have hkept : SpacesKept [.hist, .grpMap] s.spaces (s.failCluster info).state.spaces := .of_hist_grpMap _ _ _
  exact fun sp i hsp => hkept.readElem (by simpa using hsp) i

/-! ### What CLUSTER leaves (46_clustering R251) -/

section
variable (h : s.Clusterable first group) (hfit : ∀ k, k < (s.tileChoice first).1 → s.GroupFits first k)
include h hfit

theorem State.Clusterable.storable : ∀ v ∈ s.groupValues first, v.Storable := by
  intro v hv
  obtain ⟨k, hk, rfl⟩ := List.mem_map.1 hv
  refine (h.chosen_ofWidth le_rfl).storable (h.hbits_le first) (fun t sym => ?_)
  rw [h.count_chosen le_rfl]
  exact hfit k (List.mem_range.1 hk) t sym

theorem State.Clusterable.slotCounted {k : Nat} (hk : k < (s.tileChoice first).1) :
    SlotCounted s (s.clustered first group) (group + k) (s.slot first).hbits := by
  have hk' : k < (s.groupValues first).length := (s.length_groupValues first).symm ▸ hk
  refine State.putHistos_slotCounted (s := s) h.spaces.hist.wf (h.storable hfit) hk' ?_
  rw [State.getElem_groupValues]
  exact (h.chosen_ofWidth le_rfl).bits

theorem State.Clusterable.count_clustered {k : Nat} (hk : k < (s.tileChoice first).1) (t : Table) (sym : Nat) :
    (s.clustered first group).count (group + k) t sym = s.chosenCount k first s.tileCount t sym := by
  have hk' : k < (s.groupValues first).length := (s.length_groupValues first).symm ▸ hk
  have htable := State.putHistos_histTable (base := group) h.spaces.hist.wf (h.storable hfit) hk' t
  rw [← h.count_chosen le_rfl, ← State.getElem_groupValues hk']
  exact congrArg (fun l => List.getD l sym 0) htable

theorem State.Clusterable.onlyWrites :
    OnlyWrites
      (fun sp i => (sp = .grpMap ∧ i < s.tileCount) ∨
        (sp = .hist ∧ group * Config.slotStride ≤ i ∧ i < (group + (s.tileChoice first).1) * Config.slotStride))
      (fun k => group ≤ k ∧ k < group + (s.tileChoice first).1) s (s.clustered first group).endOk := by
  obtain ⟨⟨-, -, hlen⟩, -⟩ := h.choice
  have helems := s.putHistos_sameElems group (fun v hv => (h.storable hfit v hv).fits)
  have hslots := s.putHistos_sameSlots group (s.groupValues first)
  rw [State.length_groupValues] at helems hslots
  refine State.endOk_onlyWrites (fun sp i hout => ?_) hslots
  rw [not_or] at hout
  obtain ⟨hmap, hhist⟩ := hout
  by_cases hsp : sp = .grpMap
  · subst hsp
    have hi : 0 + ((s.tileChoice first).2.map (BitVec.ofNat 16)).length ≤ i := by
      rw [List.length_map, hlen]
      simpa using hmap
    exact congrArg (BitVec.setWidth 64) (Mem.read_put_out s.spaces.grpMap 7 0 i _ (.inr hi))
  · have hkept : SpacesKept [.grpMap] (s.putHistos group (s.groupValues first)).spaces
        (s.clustered first group).spaces := .of_grpMap _ _
    exact (hkept.readElem (by simpa using hsp) i).trans (helems sp i hhist)

end

/-- GRPMAP holds the group of each tile; slot numbers are below 2^16. -/
theorem State.Clusterable.readElem_grpMap (h : s.Clusterable first group) {g : Nat} (hg : g < s.tileCount) :
    ((s.clustered first group).readElem .grpMap g).toNat = (s.tileChoice first).2.getD g 0 := by
  obtain ⟨⟨-, hle, hlen⟩, -⟩ := h.choice
  have hread := Mem.read_put_in s.spaces.grpMap 7 0 g ((s.tileChoice first).2.map (BitVec.ofNat 16)) (Nat.zero_le g)
    (by rw [List.length_map, hlen]; omega)
  have hgroup := h.map_lt hg
  have hcap := h.groupSlots
  have hcaps := h.caps
  simp only [Caps.wf, decide_eq_true_eq] at hcaps
  have hvalue : ((s.tileChoice first).2.map (BitVec.ofNat 16)).getD g 0 =
      BitVec.ofNat 16 ((s.tileChoice first).2.getD g 0) := List.getD_map _ 0 (BitVec.ofNat 16)
  refine (congrArg (fun v => (BitVec.setWidth 64 v).toNat) (hread.trans hvalue)).trans ?_
  rw [BitVec.toNat_setWidth, BitVec.toNat_ofNat, Nat.mod_eq_of_lt (by omega), Nat.mod_eq_of_lt (by omega)]

end

end Sys2Proof.Machine

open Sys2Proof Sys2Proof.Machine

/-- Settles O50: the choice meets the contract, and the additions either leave the sums of the groups or raise at the
first that overflows. -/
theorem clusterGroups : Obligations.ClusterGroups := by
  unfold Obligations.ClusterGroups
  intro s slot hstarts hinv hmap
  have hc := State.clusterable_of_starts hstarts hinv hmap
  obtain ⟨⟨hone, hle, -⟩, -⟩ := hc.choice
  refine ⟨hone, hle, fun g => hc.map_lt, fun k => hc.exists_tile, fun hfit => ⟨_, exec_cluster_of_starts hstarts, ?_⟩,
    fun k g tbl sym hk hg hfit hsmall hover hbefore => ⟨_, exec_cluster_of_starts hstarts, ?_⟩⟩
  · rw [clusterBody_of_ok hmap (hc.groupSums_ok hfit)]
    exact ⟨fun g => hc.readElem_grpMap, fun k hk => ⟨hc.slotCounted hfit hk, hc.count_clustered hfit hk⟩, rfl, rfl,
      ⟨rfl, rfl, rfl⟩, ⟨fun _ => rfl, fun _ _ => rfl⟩, hc.onlyWrites hfit⟩
  · rw [clusterBody_of_error hmap (hc.groupSums_error hk hg hfit hsmall hover hbefore)]
    exact s.failCluster_raised 0x45 (tbl.base + sym)

end

section
/-! SUPPORT. CLUSTER depends on the tiles alone: equal counts give the same choice, so the same groups and sums
(46_clustering R252, R258). -/

namespace Sys2Proof.Machine

section
variable {s u : State} {k first : Nat}

/-- A value of a slot is given by its width and its counts. -/
theorem State.Working.histo_eq (hs : s.Working) (hu : u.Working) (hbits : (s.slot k).hbits = (u.slot k).hbits)
    (hcount : ∀ t sym, s.count k t sym = u.count k t sym) : s.histo k = u.histo k := by
  have htable : ∀ t, s.histTable k t = u.histTable k t := by
    intro t
    refine List.ext_getElem (by rw [hs.length_histTable, hu.length_histTable, hbits]) (fun sym h1 h2 => ?_)
    rw [← List.getD_eq_getElem _ 0 h1, ← List.getD_eq_getElem _ 0 h2]
    exact hcount t sym
  simp only [State.histo, hbits, htable]

theorem State.tileCount_congr (hx : s.regs.xsize = u.regs.xsize) (hy : s.regs.ysize = u.regs.ysize)
    (hb : s.regs.histoBits = u.regs.histoBits) : s.tileCount = u.tileCount := by
  simp only [State.tileCount, State.tilesX, State.tilesY, State.xs, State.ys, State.histoExp, hx, hy, hb]

theorem State.tileChoice_congr (hfns : s.fns = u.fns) (hn : s.tileCount = u.tileCount)
    (hhisto : ∀ g, g < s.tileCount → s.histo (first + g) = u.histo (first + g)) :
    s.tileChoice first = u.tileChoice first := by
  rw [State.tileChoice, State.tileChoice, ← hfns, ← hn]
  exact congrArg _ (List.map_congr_left (fun g hg => hhisto g (List.mem_range.1 hg)))

theorem State.chosenCount_congr (hchoice : s.tileChoice first = u.tileChoice first) {t : Table} {sym m : Nat}
    (hcount : ∀ g, g < m → s.count (first + g) t sym = u.count (first + g) t sym) :
    s.chosenCount k first m t sym = u.chosenCount k first m t sym := by
  rw [State.chosenCount, State.chosenCount, ← hchoice]
  exact congrArg List.sum (List.map_congr_left (fun g hg => hcount g (List.mem_range.1 (List.mem_of_mem_filter hg))))

end

end Sys2Proof.Machine

open Sys2Proof Sys2Proof.Machine

/-- Settles O51: both commands complete as `clusterGroups` says, and the grouping and the sums it names are the same
for both states. -/
theorem clusterIdempotent : Obligations.ClusterIdempotent := by
  unfold Obligations.ClusterIdempotent
  intro s u slot hstarts hstarts' hinv hinv' hfns hmap hmap' hx hy hb harg hfit hsame
  have hn := State.tileCount_congr hx hy hb
  have hw := State.working_of_accepts hinv (State.starts_tests hstarts).1
  have hw' := State.working_of_accepts hinv' (State.starts_tests hstarts').1
  have hchoice : s.tileChoice slot.toNat = u.tileChoice slot.toNat :=
    State.tileChoice_congr hfns hn (fun g hg => hw.histo_eq hw' (hsame g hg).1 (hsame g hg).2)
  have hcount : ∀ k tbl sym, s.chosenCount k slot.toNat s.tileCount tbl sym =
      u.chosenCount k slot.toNat u.tileCount tbl sym := fun k tbl sym =>
    hn ▸ State.chosenCount_congr hchoice (fun g hg => (hsame g hg).2 tbl sym)
  have hfit' : ∀ k, k < (u.tileChoice slot.toNat).1 → u.GroupFits slot.toNat k := fun k hk tbl sym =>
    hcount k tbl sym ▸ hfit k (hchoice.symm ▸ hk) tbl sym
  obtain ⟨-, -, -, -, hdone, -⟩ := clusterGroups s slot hstarts hinv hmap
  obtain ⟨-, -, -, -, hdone', -⟩ := clusterGroups u slot hstarts' hinv' (hn ▸ hmap')
  obtain ⟨t, ht, hgroup, hslots, hregs, -⟩ := hdone hfit
  obtain ⟨v, hv, hgroup', hslots', hregs', -⟩ := hdone' hfit'
  refine ⟨t, v, ht, hv, ?_, fun g hg => ?_, fun k tbl sym hk => ?_⟩
  · rw [hregs, hregs', hchoice]
  · refine BitVec.eq_of_toNat_eq ?_
    rw [hgroup g hg, hgroup' g (hn ▸ hg), hchoice]
  · have hk' : k < (s.tileChoice slot.toNat).1 := by
      rw [hregs, BitVec.toNat_ofNat] at hk
      exact hk.trans_le (Nat.mod_le _ _)
    obtain ⟨-, hleft⟩ := hslots k hk'
    obtain ⟨-, hright⟩ := hslots' k (hchoice ▸ hk')
    rw [← harg] at hright
    rw [hleft, hright, hcount]

end

section
/-! SUPPORT. The code-length optimizer: every attempt's tree has the used symbols as its leaves and meets Kraft's
inequality with equality, and one of the attempts stays within the limit (47_huffman R268 to R272). -/

namespace Sys2Proof.Machine

/-! ### Trees and the depths of their leaves (47_huffman R269) -/

/-- The largest depth under the root. -/
def HuffTree.height : HuffTree → Nat
  | .leaf _ => 0
  | .node l r => max l.height r.height + 1

/-- The symbols of the leaves, left to right. -/
def HuffTree.syms : HuffTree → List Nat
  | .leaf sym => [sym]
  | .node l r => l.syms ++ r.syms

theorem map_fst_treeDepths (d : Nat) (t : HuffTree) : (treeDepths d t).map Prod.fst = t.syms := by
  induction t generalizing d with
  | leaf sym => rfl
  | node l r ihl ihr => rw [treeDepths, List.map_append, ihl, ihr, HuffTree.syms]

theorem bounds_of_mem_treeDepths {d : Nat} {t : HuffTree} {e : Nat × Nat} (he : e ∈ treeDepths d t) :
    d ≤ e.2 ∧ e.2 ≤ d + t.height := by
  induction t generalizing d with
  | leaf sym =>
    obtain rfl := List.mem_singleton.1 he
    exact ⟨le_rfl, le_rfl⟩
  | node l r ihl ihr =>
    rw [HuffTree.height]
    obtain hl | hr := List.mem_append.1 he
    · have := ihl hl
      omega
    · have := ihr hr
      omega

/-- Kraft's sum of a full binary tree, in units of `2 ^ (-L)`: each node splits its share evenly (47_huffman R272). -/
theorem sum_treeDepths {L d : Nat} {t : HuffTree} (h : ∀ e ∈ treeDepths d t, e.2 ≤ L) :
    d ≤ L ∧ ((treeDepths d t).map (fun e => 2 ^ (L - e.2))).sum = 2 ^ (L - d) := by
  induction t generalizing d with
  | leaf sym => exact ⟨h _ (List.mem_singleton_self _), by simp [treeDepths]⟩
  | node l r ihl ihr =>
    rw [treeDepths, List.forall_mem_append] at h
    obtain ⟨hd, hl⟩ := ihl h.1
    obtain ⟨-, hr⟩ := ihr h.2
    refine ⟨Nat.le_of_succ_le hd, ?_⟩
    rw [treeDepths, List.map_append, List.sum_append, hl, hr, ← Nat.two_mul, ← Nat.pow_succ']
    congr 1
    omega

/-! ### The list of trees (47_huffman R269) -/

/-- Weights ascending. -/
def Ascending (l : List WeightedTree) : Prop := l.Pairwise (fun x y => x.weight ≤ y.weight)

/-- `r` is `l` with `m` inserted, ascending if `l` is. -/
def Inserted (m : WeightedTree) (l r : List WeightedTree) : Prop := r.Perm (m :: l) ∧ (Ascending l → Ascending r)

section
variable {m x : WeightedTree} {l r : List WeightedTree}

theorem Inserted.first (hx : m.weight ≤ x.weight) : Inserted m (x :: l) (m :: x :: l) := by
  refine ⟨.refl _, fun hasc => List.pairwise_cons.2 ⟨?_, hasc⟩⟩
  obtain ⟨hhead, -⟩ := List.pairwise_cons.1 hasc
  exact List.forall_mem_cons.2 ⟨hx, fun y hy => hx.trans (hhead y hy)⟩

theorem Inserted.behind (h : Inserted m l r) (hx : x.weight ≤ m.weight) : Inserted m (x :: l) (x :: r) := by
  obtain ⟨hperm, hasc⟩ := h
  refine ⟨(hperm.cons x).trans (.swap m x l), fun hasc' => ?_⟩
  obtain ⟨hhead, htail⟩ := List.pairwise_cons.1 hasc'
  refine List.pairwise_cons.2 ⟨fun y hy => ?_, hasc htail⟩
  obtain rfl | hy := List.mem_cons.1 (hperm.mem_iff.1 hy)
  · exact hx
  · exact hhead y hy

theorem insertLeaf_inserted (w sym : Nat) (l : List WeightedTree) :
    Inserted ⟨w, .leaf sym⟩ l (insertLeaf w sym l) := by
  induction l with
  | nil => exact ⟨.refl _, fun _ => List.pairwise_singleton _ _⟩
  | cons x l ih =>
    rw [insertLeaf]
    split
    · exact .first ‹_›
    · exact ih.behind (Nat.le_of_not_ge ‹_›)

theorem insertMerged_inserted (m : WeightedTree) (l : List WeightedTree) : Inserted m l (insertMerged m l) := by
  induction l with
  | nil => exact ⟨.refl _, fun _ => List.pairwise_singleton _ _⟩
  | cons x l ih =>
    rw [insertMerged]
    split
    · exact ih.behind ‹_›
    · exact .first (Nat.le_of_not_ge ‹_›)

end

/-- The leaf of a used symbol at a floor. -/
def floorLeaf (floor : Nat) (e : Nat × Nat) : WeightedTree := ⟨max e.2 floor, .leaf e.1⟩

/-- The leaves of the used symbols as `depthsAt` lists them. -/
def floorLeaves (used : List (Nat × Nat)) (floor : Nat) : List WeightedTree :=
  used.foldl (fun l e => insertLeaf (max e.2 floor) e.1 l) []

theorem floorLeaves_perm (used : List (Nat × Nat)) (floor : Nat) :
    (floorLeaves used floor).Perm (used.map (floorLeaf floor)) ∧ Ascending (floorLeaves used floor) := by
  have hfold : ∀ acc, Ascending acc →
      (used.foldl (fun l e => insertLeaf (max e.2 floor) e.1 l) acc).Perm (used.map (floorLeaf floor) ++ acc) ∧
      Ascending (used.foldl (fun l e => insertLeaf (max e.2 floor) e.1 l) acc) := by
    induction used with
    | nil => exact fun acc hacc => ⟨.refl _, hacc⟩
    | cons e used ih =>
      intro acc hacc
      obtain ⟨hperm, hasc⟩ := insertLeaf_inserted (max e.2 floor) e.1 acc
      obtain ⟨hperm', hasc'⟩ := ih _ (hasc hacc)
      exact ⟨hperm'.trans ((hperm.append_left _).trans List.perm_middle), hasc'⟩
  simpa [floorLeaves] using hfold [] List.Pairwise.nil

/-! ### Merging (47_huffman R269) -/

/-- Two trees merged. -/
def mergedTree (a b : WeightedTree) : WeightedTree := ⟨a.weight + b.weight, .node a.tree b.tree⟩

/-- What a merge of the two smallest keeps, `mergeTrees` keeps. -/
theorem mergeTrees_keeps {P : List WeightedTree → Prop}
    (hstep : ∀ a b rest, P (a :: b :: rest) → P (insertMerged (mergedTree a b) rest)) (fuel : Nat)
    {l : List WeightedTree} (hl : P l) : P (mergeTrees fuel l) := by
  induction fuel generalizing l with
  | zero => exact hl
  | succ fuel ih =>
    match l with
    | [] => exact hl
    | [_] => exact hl
    | a :: b :: rest => exact ih (hstep a b rest hl)

/-- One tree is left. -/
theorem exists_mergeTrees (fuel : Nat) {l : List WeightedTree} (hne : l ≠ []) (hfuel : l.length ≤ fuel + 1) :
    ∃ t, mergeTrees fuel l = [t] := by
  induction fuel generalizing l with
  | zero =>
    obtain ⟨t, rfl⟩ := List.length_eq_one_iff.1 (Nat.le_antisymm hfuel (List.length_pos_of_ne_nil hne))
    exact ⟨t, rfl⟩
  | succ fuel ih =>
    match l with
    | [t] => exact ⟨t, rfl⟩
    | a :: b :: rest =>
      obtain ⟨hperm, -⟩ := insertMerged_inserted (mergedTree a b) rest
      refine ih (fun hnil => ?_) ?_
      · exact absurd (hnil ▸ hperm) (by simp)
      · exact hperm.length_eq.trans_le (Nat.le_of_succ_le_succ hfuel)

/-- A merge keeps the symbols of the leaves and the sum of the weights. -/
theorem merge_keeps_sums {a b : WeightedTree} {rest : List WeightedTree} :
    ((insertMerged (mergedTree a b) rest).flatMap (·.tree.syms)).Perm ((a :: b :: rest).flatMap (·.tree.syms)) ∧
    ((insertMerged (mergedTree a b) rest).map (·.weight)).sum = ((a :: b :: rest).map (·.weight)).sum := by
  obtain ⟨hperm, -⟩ := insertMerged_inserted (mergedTree a b) rest
  refine ⟨(hperm.flatMap_right _).trans ?_, (hperm.map _).sum_eq.trans ?_⟩
  · simp [mergedTree, HuffTree.syms]
  · simp [mergedTree, Nat.add_assoc]

/-- High trees are heavy: in units of the floor a tree of height `h` weighs at least the Fibonacci number `h + 2`, and
every tree of the list at least the number `h + 1`, as all were there when its last two parts were the smallest. -/
structure HeightBounded (floor : Nat) (l : List WeightedTree) : Prop where
  ascending : Ascending l
  own : ∀ t ∈ l, Nat.fib (t.tree.height + 2) * floor ≤ t.weight
  others : ∀ t ∈ l, ∀ u ∈ l, Nat.fib (t.tree.height + 1) * floor ≤ u.weight

theorem HeightBounded.leaves (used : List (Nat × Nat)) (floor : Nat) :
    HeightBounded floor (floorLeaves used floor) := by
  obtain ⟨hperm, hasc⟩ := floorLeaves_perm used floor
  have hleaf : ∀ t ∈ floorLeaves used floor, t.tree.height = 0 ∧ floor ≤ t.weight := by
    intro t ht
    obtain ⟨e, -, rfl⟩ := List.mem_map.1 (hperm.mem_iff.1 ht)
    exact ⟨rfl, le_max_right _ _⟩
  refine ⟨hasc, fun t ht => ?_, fun t ht u hu => ?_⟩
  · obtain ⟨hzero, hle⟩ := hleaf t ht
    simpa [hzero] using hle
  · obtain ⟨hzero, -⟩ := hleaf t ht
    obtain ⟨-, hle⟩ := hleaf u hu
    simpa [hzero] using hle

section
variable {floor : Nat} {a b : WeightedTree} {rest : List WeightedTree} (h : HeightBounded floor (a :: b :: rest))
include h

/-- The higher part of a merged tree and the other one weigh together at least the next Fibonacci number. -/
theorem HeightBounded.exists_higher : ∃ x ∈ a :: b :: rest, (mergedTree a b).tree.height = x.tree.height + 1 ∧
    x.weight ≤ b.weight ∧ Nat.fib (x.tree.height + 1 + 2) * floor ≤ (mergedTree a b).weight := by
  have hain : a ∈ a :: b :: rest := List.mem_cons_self
  have hbin : b ∈ a :: b :: rest := List.mem_cons_of_mem _ List.mem_cons_self
  obtain ⟨ha, -⟩ := List.pairwise_cons.1 h.ascending
  have hfib : ∀ n, Nat.fib (n + 1 + 2) = Nat.fib (n + 1) + Nat.fib (n + 2) := fun _ => Nat.fib_add_two
  simp only [hfib, Nat.add_mul]
  obtain hle | hle := Nat.le_total b.tree.height a.tree.height
  · refine ⟨a, hain, congrArg (· + 1) (max_eq_left hle), ha b List.mem_cons_self, ?_⟩
    exact (Nat.add_le_add (h.others a hain b hbin) (h.own a hain)).trans_eq (Nat.add_comm _ _)
  · refine ⟨b, hbin, congrArg (· + 1) (max_eq_right hle), le_rfl, ?_⟩
    exact Nat.add_le_add (h.others b hbin a hain) (h.own b hbin)

theorem HeightBounded.merge : HeightBounded floor (insertMerged (mergedTree a b) rest) := by
  obtain ⟨hperm, hasc⟩ := insertMerged_inserted (mergedTree a b) rest
  obtain ⟨-, hbrest⟩ := List.pairwise_cons.1 h.ascending
  obtain ⟨hb, hrest⟩ := List.pairwise_cons.1 hbrest
  obtain ⟨x, hx, hheight, hxb, hmerged⟩ := h.exists_higher
  have hxm : x.weight ≤ (mergedTree a b).weight := hxb.trans (Nat.le_add_left _ _)
  have hmem : ∀ t, t ∈ insertMerged (mergedTree a b) rest ↔ t = mergedTree a b ∨ t ∈ rest :=
    fun t => hperm.mem_iff.trans List.mem_cons
  have hin : ∀ t, t ∈ rest → t ∈ a :: b :: rest := fun t ht => List.mem_cons_of_mem _ (List.mem_cons_of_mem _ ht)
  refine ⟨hasc hrest, fun t ht => ?_, fun t ht u hu => ?_⟩
  · obtain rfl | ht := (hmem t).1 ht
    · exact hheight ▸ hmerged
    · exact h.own t (hin t ht)
  · obtain rfl | ht := (hmem t).1 ht <;> obtain rfl | hu := (hmem u).1 hu
    · exact hheight ▸ (h.own x hx).trans hxm
    · exact hheight ▸ (h.own x hx).trans (hxb.trans (hb u hu))
    · exact (h.others t (hin t ht) x hx).trans hxm
    · exact h.others t (hin t ht) u (hin u hu)

end

/-! ### One attempt (47_huffman R269, R271) -/

/-- The depths of an attempt are those of a tree over the used symbols. Where no count is above the floor all weights
are equal, and the tree is high only if there are many symbols. -/
theorem exists_depthsAt {used : List (Nat × Nat)} (hne : used ≠ []) (floor : Nat) :
    ∃ t : HuffTree, depthsAt used floor = treeDepths 0 t ∧ t.syms.Perm (used.map Prod.fst) ∧
      ((∀ e ∈ used, e.2 ≤ floor) → Nat.fib (t.height + 2) * floor ≤ used.length * floor) := by
  obtain ⟨hperm, -⟩ := floorLeaves_perm used floor
  have hnil : floorLeaves used floor ≠ [] := fun hnil => hne (by simpa [hnil] using hperm)
  obtain ⟨t, ht⟩ := exists_mergeTrees (floorLeaves used floor).length hnil (Nat.le_succ _)
  have hsyms := mergeTrees_keeps
    (P := fun l => (l.flatMap (·.tree.syms)).Perm ((floorLeaves used floor).flatMap (·.tree.syms)))
    (fun _ _ _ h => merge_keeps_sums.1.trans h) (floorLeaves used floor).length (.refl _)
  have hsum := mergeTrees_keeps
    (P := fun l => (l.map (·.weight)).sum = ((floorLeaves used floor).map (·.weight)).sum)
    (fun _ _ _ h => merge_keeps_sums.2.trans h) (floorLeaves used floor).length rfl
  have hheight := mergeTrees_keeps (fun _ _ _ => HeightBounded.merge) (floorLeaves used floor).length
    (HeightBounded.leaves used floor)
  rw [ht] at hsyms hsum hheight
  refine ⟨t.tree, ?_, ?_, fun hfloor => ?_⟩
  · rw [floorLeaves] at ht
    simp only [depthsAt, ht]
  · have hleaves : (used.map (floorLeaf floor)).flatMap (·.tree.syms) = used.map Prod.fst := by
      rw [List.flatMap_map, List.map_eq_flatMap]
      rfl
    rw [← hleaves]
    simpa using hsyms.trans (hperm.flatMap_right _)
  · have hequal : (used.map (floorLeaf floor)).map (·.weight) = List.replicate used.length floor := by
      rw [List.map_map, List.eq_replicate_iff]
      refine ⟨List.length_map _, fun w hw => ?_⟩
      obtain ⟨e, he, rfl⟩ := List.mem_map.1 hw
      exact max_eq_right (hfloor e he)
    rw [(hperm.map _).sum_eq, hequal, List.sum_replicate, smul_eq_mul] at hsum
    rw [← hsum]
    simpa using hheight.own t (List.mem_singleton_self t)

/-- Where no count is above the floor, the depths of at most 1304 symbols stay within the limit (47_huffman R271). -/
theorem depthsAt_le_of_floor {used : List (Nat × Nat)} {floor : Nat} (hne : used ≠ [])
    (hlen : used.length ≤ Config.combinedRoom) (hpos : 0 < floor) (hfloor : ∀ e ∈ used, e.2 ≤ floor) :
    ∀ e ∈ depthsAt used floor, e.2 ≤ Config.maxCodeLength := by
  obtain ⟨t, ht, -, hheight⟩ := exists_depthsAt hne floor
  have hfib : Nat.fib (t.height + 2) < Nat.fib 18 :=
    ((Nat.le_of_mul_le_mul_right (hheight hfloor) hpos).trans hlen).trans_lt (by decide)
  have hlow : t.height + 2 < 18 := Nat.fib_mono.reflect_lt hfib
  intro e he
  obtain ⟨-, hle⟩ := bounds_of_mem_treeDepths (ht ▸ he)
  exact hle.trans (by simp only [Config.maxCodeLength]; omega)

/-! ### The retry loop (47_huffman R268, R271) -/

/-- The loop ends with the depths of an attempt within the limit if one of its attempts is. -/
theorem exists_limitDepths {used : List (Nat × Nat)} {limit j : Nat} (fuel floor : Nat) (hj : j < fuel)
    (hgood : ∀ e ∈ depthsAt used (2 ^ j * floor), e.2 ≤ limit) :
    ∃ last, limitDepths used limit fuel floor = depthsAt used last ∧ ∀ e ∈ depthsAt used last, e.2 ≤ limit := by
  induction fuel generalizing floor j with
  | zero => cases hj
  | succ fuel ih =>
    simp only [limitDepths, List.all_eq_true, decide_eq_true_eq]
    split
    · exact ⟨floor, rfl, ‹_›⟩
    · rename_i hbad
      cases j with
      | zero => exact absurd (by simpa using hgood) hbad
      | succ j => exact ih (2 * floor) (Nat.lt_of_succ_lt_succ hj) (by rwa [← Nat.mul_assoc, ← Nat.pow_succ])

/-- Depths as HUFF_LEN stores them: of a tree over the used symbols that is not a single leaf, within the limit. -/
structure LimitedDepths (used d : List (Nat × Nat)) : Prop where
  syms : (d.map Prod.fst).Perm (used.map Prod.fst)
  bounds : ∀ e ∈ d, 1 ≤ e.2 ∧ e.2 ≤ Config.maxCodeLength
  kraft : (d.map (fun e => 2 ^ (15 - e.2))).sum = 2 ^ 15

theorem limitDepths_limited {used : List (Nat × Nat)} (htwo : 2 ≤ used.length)
    (hlen : used.length ≤ Config.combinedRoom) (hsmall : ∀ e ∈ used, e.2 < 2 ^ 32) :
    LimitedDepths used (limitDepths used Config.maxCodeLength maxRetries 1) := by
  have hne : used ≠ [] := List.ne_nil_of_length_pos (by omega)
  obtain ⟨last, hlast, hlimit⟩ := exists_limitDepths (used := used) (j := 32) maxRetries 1 (by decide)
    (depthsAt_le_of_floor hne hlen (by decide) (fun e he => (hsmall e he).le))
  obtain ⟨t, ht, hsyms, -⟩ := exists_depthsAt hne last
  rw [hlast]
  rw [ht] at hlimit ⊢
  obtain ⟨-, hkraft⟩ := sum_treeDepths hlimit
  refine ⟨by rwa [map_fst_treeDepths], fun e he => ⟨?_, hlimit e he⟩, hkraft⟩
  cases t with
  | leaf sym =>
    have hone := hsyms.length_eq
    simp only [HuffTree.syms, List.length_singleton, List.length_map] at hone
    omega
  | node l r =>
    obtain hl | hr := List.mem_append.1 he
    · exact (bounds_of_mem_treeDepths hl).1
    · exact (bounds_of_mem_treeDepths hr).1

end Sys2Proof.Machine

end

section
/-! SUPPORT. The code lengths of one table: of the symbols with a nonzero count alone, and with Kraft's sum one where
there are two or more (47_huffman R267, R268, R270, R272). -/

namespace Sys2Proof.Machine

/-! ### The used symbols (47_huffman R268) -/

theorem mem_usedSymbols {l : List Nat} {e : Nat × Nat} : e ∈ usedSymbols l ↔ l[e.1]? = some e.2 ∧ e.2 ≠ 0 := by
  obtain ⟨sym, n⟩ := e
  simp [usedSymbols, List.mem_zipIdx_iff_getElem?]

theorem mem_map_fst_usedSymbols {l : List Nat} {sym : Nat} :
    sym ∈ (usedSymbols l).map Prod.fst ↔ l.getD sym 0 ≠ 0 := by
  rw [List.getD_eq_getElem?_getD]
  simp only [List.mem_map, mem_usedSymbols, Prod.exists, exists_and_right, exists_eq_right]
  cases l[sym]? <;> simp

theorem nodup_map_fst_usedSymbols (l : List Nat) : ((usedSymbols l).map Prod.fst).Nodup := by
  rw [usedSymbols, List.map_map]
  exact (List.filter_sublist.map _).nodup (List.nodup_zipIdx_map_snd l)

theorem length_usedSymbols (l : List Nat) : (usedSymbols l).length = (nonzeroCounts l).length := by
  have hzip : nonzeroCounts l = ((l.zipIdx.map Prod.fst).filter (· != 0)) := by
    rw [List.zipIdx_map_fst]
    rfl
  rw [hzip, List.filter_map, List.length_map, usedSymbols, List.length_map]
  rfl

/-! ### Lengths looked up among the depths (47_huffman R268) -/

section
variable {α : Type} {l : List (Nat × α)} {i : Nat} {v : α}

theorem cellAt_eq_some_of_mem (hnodup : (l.map Prod.fst).Nodup) (h : (i, v) ∈ l) : cellAt l i = some v := by
  induction l with
  | nil => cases h
  | cons c l ih =>
    obtain ⟨k, w⟩ := c
    obtain ⟨hk, hrest⟩ := List.nodup_cons.1 hnodup
    rw [cellAt]
    obtain heq | h := List.mem_cons.1 h
    · cases heq
      exact if_pos rfl
    · have hne : k ≠ i := fun hki => hk (List.mem_map.2 ⟨(i, v), h, hki.symm⟩)
      rw [if_neg hne, ih hrest h]

/-- A sum over all numbers below `n` of what is listed for them is the sum over the list. -/
theorem sum_range_cellAt {n : Nat} (hnodup : (l.map Prod.fst).Nodup) (hn : ∀ k ∈ l.map Prod.fst, k < n)
    {f : Option α → Nat} (hf : f none = 0) :
    ((List.range n).map (fun k => f (cellAt l k))).sum = (l.map (fun e => f (some e.2))).sum := by
  have hsub : (l.map Prod.fst).toFinset ⊆ (List.range n).toFinset := by
    intro k hk
    simpa using hn k (List.mem_toFinset.1 hk)
  have hunlisted : ∀ k, k ∉ (l.map Prod.fst).toFinset → f (cellAt l k) = 0 := by
    intro k hk
    rw [cellAt_none (fun e he heq => hk (List.mem_toFinset.2 (List.mem_map.2 ⟨e, he, heq⟩))), hf]
  rw [← List.sum_toFinset _ List.nodup_range, ← Finset.sum_subset hsub (fun k _ => hunlisted k),
    List.sum_toFinset _ hnodup, List.map_map]
  exact congrArg List.sum (List.map_congr_left (fun e he => congrArg f (cellAt_eq_some_of_mem hnodup he)))

end

/-! ### The lengths of one table (47_huffman R268, R270, R272) -/

/-- The lengths of a table whose symbols have the depths `d`. -/
def depthLengths (n : Nat) (d : List (Nat × Nat)) : List Nat := (List.range n).map (fun sym => (cellAt d sym).getD 0)

theorem getD_depthLengths (n : Nat) (d : List (Nat × Nat)) (sym : Nat) :
    (depthLengths n d).getD sym 0 = if sym < n then (cellAt d sym).getD 0 else 0 := by
  rw [depthLengths, List.getD_eq_getElem?_getD, List.getElem?_map]
  split <;> simp [*]

section
variable {l : List Nat} {d : List (Nat × Nat)}

theorem codeLengths_of_one_le (hone : (usedSymbols l).length ≤ 1) (limit : Nat) :
    codeLengths l limit = (l.map (fun _ => 0), (usedSymbols l).head?.map Prod.fst) := by
  rw [codeLengths]
  split
  · rename_i hnil
    rw [hnil]
    rfl
  · rename_i e he
    rw [he]
    rfl
  · rename_i hnil hsingle
    obtain hzero | hone := Nat.le_one_iff_eq_zero_or_eq_one.1 hone
    · exact absurd (List.length_eq_zero_iff.1 hzero) hnil
    · obtain ⟨e, he⟩ := List.length_eq_one_iff.1 hone
      exact absurd he (hsingle e)

theorem codeLengths_of_two_le (htwo : 2 ≤ (usedSymbols l).length) (limit : Nat) :
    codeLengths l limit = (depthLengths l.length (limitDepths (usedSymbols l) limit maxRetries 1), none) := by
  rw [codeLengths]
  split
  · rename_i hnil
    simp [hnil] at htwo
  · rename_i e he
    simp [he] at htwo
  · rfl

section
variable (h : LimitedDepths (usedSymbols l) d)
include h

theorem LimitedDepths.nodup : (d.map Prod.fst).Nodup := h.syms.nodup_iff.2 (nodup_map_fst_usedSymbols l)

theorem LimitedDepths.mem_map_fst {sym : Nat} : sym ∈ d.map Prod.fst ↔ l.getD sym 0 ≠ 0 :=
  h.syms.mem_iff.trans mem_map_fst_usedSymbols

/-- The lengths are the depths of the used symbols and 0 elsewhere. -/
theorem LimitedDepths.getD_lengths (sym : Nat) :
    (depthLengths l.length d).getD sym 0 ≤ Config.maxCodeLength ∧
      ((depthLengths l.length d).getD sym 0 = 0 ↔ l.getD sym 0 = 0) := by
  by_cases hzero : l.getD sym 0 = 0
  · have hnone : cellAt d sym = none :=
      cellAt_none (fun e he heq => h.mem_map_fst.1 (List.mem_map.2 ⟨e, he, heq⟩) hzero)
    have hlength : (depthLengths l.length d).getD sym 0 = 0 := by
      rw [getD_depthLengths, hnone, Option.getD_none, ite_self]
    rw [hlength]
    exact ⟨Nat.zero_le _, iff_of_true rfl hzero⟩
  · obtain ⟨e, he, rfl⟩ := List.mem_map.1 (h.mem_map_fst.2 hzero)
    have hlen : e.1 < l.length := not_le.1 (mt (List.getD_eq_default _ 0) hzero)
    obtain ⟨hone, hlimit⟩ := h.bounds e he
    have hlength : (depthLengths l.length d).getD e.1 0 = e.2 := by
      rw [getD_depthLengths, if_pos hlen, cellAt_eq_some_of_mem h.nodup he, Option.getD_some]
    rw [hlength]
    exact ⟨hlimit, iff_of_false (Nat.ne_of_gt hone) hzero⟩

theorem LimitedDepths.kraftSum_lengths : kraftSum (depthLengths l.length d) = 2 ^ 15 := by
  have hin : ∀ sym ∈ d.map Prod.fst, sym < l.length :=
    fun sym hsym => not_le.1 (mt (List.getD_eq_default _ 0) (h.mem_map_fst.1 hsym))
  rw [← h.kraft, kraftSum, depthLengths, List.map_map]
  refine (sum_range_cellAt h.nodup hin
    (f := fun o : Option Nat => if o.getD 0 = 0 then 0 else 2 ^ (15 - o.getD 0)) rfl).trans ?_
  refine congrArg List.sum (List.map_congr_left (fun e he => if_neg ?_))
  exact Nat.ne_of_gt (h.bounds e he).1

end

/-- What HUFF_LEN leaves for a table with the counts `l` (47_huffman R270, R272). -/
structure LengthsRight (l : List Nat) (r : List Nat × Option Nat) : Prop where
  unused : ∀ sym, l.getD sym 0 = 0 → r.1.getD sym 0 = 0
  limit : ∀ len ∈ r.1, len ≤ 15
  several : 2 ≤ (nonzeroCounts l).length →
    (∀ sym, l.getD sym 0 ≠ 0 → 1 ≤ r.1.getD sym 0) ∧ kraftSum r.1 = 2 ^ 15 ∧ r.2 = none
  atMostOne : (nonzeroCounts l).length ≤ 1 →
    (∀ len ∈ r.1, len = 0) ∧ ∀ sym, r.2 = some sym ↔ l.getD sym 0 ≠ 0

theorem codeLengths_right (hlen : l.length ≤ Config.combinedRoom) (hsmall : ∀ n ∈ l, n < 2 ^ 32) :
    LengthsRight l (codeLengths l Config.maxCodeLength) := by
  obtain hone | htwo := Nat.lt_or_ge (usedSymbols l).length 2
  · rw [codeLengths_of_one_le (Nat.le_of_lt_succ hone)]
    have hzero : ∀ len ∈ l.map (fun _ => 0), len = 0 := by simp
    refine ⟨fun sym _ => ?_, fun len hmem => (hzero len hmem).trans_le (Nat.zero_le _), fun htwo => ?_,
      fun _ => ⟨hzero, fun sym => ?_⟩⟩
    · simp
    · rw [← length_usedSymbols] at htwo
      omega
    · rw [← mem_map_fst_usedSymbols]
      obtain hnil | ⟨e, he⟩ : usedSymbols l = [] ∨ ∃ e, usedSymbols l = [e] := by
        rw [← List.length_eq_zero_iff, ← List.length_eq_one_iff]
        omega
      · simp [hnil]
      · simp [he, eq_comm]
  · rw [codeLengths_of_two_le htwo]
    have hused : (usedSymbols l).length ≤ Config.combinedRoom :=
      (length_usedSymbols l).trans_le ((List.length_filter_le _ _).trans hlen)
    have hlimited := limitDepths_limited htwo hused
      (fun e he => hsmall _ (List.mem_of_getElem? (mem_usedSymbols.1 he).1))
    refine ⟨fun sym => (hlimited.getD_lengths sym).2.2, fun len hmem => ?_, fun _ => ⟨fun sym hsym => ?_,
      hlimited.kraftSum_lengths, rfl⟩, fun hone => ?_⟩
    · obtain ⟨sym, hsym, rfl⟩ := List.mem_iff_getElem.1 hmem
      rw [← List.getD_eq_getElem _ 0 hsym]
      exact (hlimited.getD_lengths sym).1
    · exact Nat.one_le_iff_ne_zero.2 (mt (hlimited.getD_lengths sym).2.1 hsym)
    · rw [← length_usedSymbols] at hone
      omega

/-! ### Smoothed counts (47_huffman R267) -/

/-- Smoothing changes no zero to another value and no other value to zero. -/
theorem rleSmooth_eq_zero (f : Fns) (l : List Nat) (sym : Nat) :
    (rleSmooth f l).getD sym 0 = 0 ↔ l.getD sym 0 = 0 := by
  rw [rleSmooth]
  split
  · rfl
  · simp only [List.getD_eq_getElem?_getD, List.getElem?_map, List.getElem?_zipIdx]
    cases l[sym]? with
    | none => simp
    | some n =>
      simp

theorem length_nonzeroCounts_rleSmooth (f : Fns) (l : List Nat) :
    (nonzeroCounts (rleSmooth f l)).length = (nonzeroCounts l).length := by
  simp only [← length_usedSymbols, ← List.length_map (f := Prod.fst)]
  refine List.Perm.length_eq ?_
  rw [List.perm_ext_iff_of_nodup (nodup_map_fst_usedSymbols _) (nodup_map_fst_usedSymbols _)]
  intro sym
  rw [mem_map_fst_usedSymbols, mem_map_fst_usedSymbols, ne_eq, rleSmooth_eq_zero]

theorem rleSmooth_lt (f : Fns) (hsmall : ∀ n ∈ l, n < 2 ^ 32) : ∀ n ∈ rleSmooth f l, n < 2 ^ 32 := by
  rw [rleSmooth]
  split
  · exact hsmall
  · intro n hn
    obtain ⟨e, -, rfl⟩ := List.mem_map.1 hn
    split <;> omega

/-- Lengths from smoothed counts are right for the counts themselves. -/
theorem LengthsRight.of_rleSmooth {f : Fns} {r : List Nat × Option Nat} (h : LengthsRight (rleSmooth f l) r) :
    LengthsRight l r where
  unused sym hsym := h.unused sym ((rleSmooth_eq_zero f l sym).2 hsym)
  limit := h.limit
  several htwo := by
    obtain ⟨hused, hrest⟩ := h.several (by rwa [length_nonzeroCounts_rleSmooth])
    exact ⟨fun sym hsym => hused sym (mt (rleSmooth_eq_zero f l sym).1 hsym), hrest⟩
  atMostOne hone := by
    obtain ⟨hzero, hsingle⟩ := h.atMostOne (by rwa [length_nonzeroCounts_rleSmooth])
    exact ⟨hzero, fun sym => (hsingle sym).trans (not_congr (rleSmooth_eq_zero f l sym))⟩

end

end Sys2Proof.Machine

end

section
/-! SUPPORT. HUFF_LEN: what the elements of an HTAB slot read after five tables were stored, and what the command leaves
(47_huffman R265, R266). -/

namespace Sys2Proof.Machine

/-! ### Code-table elements (30_encoding R101) -/

theorem codeLen_packCode {len : Nat} (hlen : len ≤ 15) (code : Nat) : codeLen (packCode len code) = len := by
  simp only [codeLen, packCode, BitVec.extractLsb'_toNat, BitVec.toNat_ofNat, Nat.shiftRight_eq_div_pow]
  omega

theorem codeBits_packCode (len : Nat) {code : Nat} (hcode : code < 2 ^ 16) : codeBits (packCode len code) = code := by
  simp only [codeBits, packCode, BitVec.extractLsb'_toNat, BitVec.toNat_ofNat, Nat.shiftRight_eq_div_pow]
  omega

/-! ### The elements of a slot (47_huffman R265) -/

theorem Histo.Fits.length_blocks {h : Histo} (hh : h.Fits) :
    (h.block .combined ++ h.block .red ++ h.block .blue ++ h.block .alpha ++ h.block .distance).length =
      Config.slotUsed := by
  simp only [List.length_append, hh.length_block]
  rfl

/-- Behind the tables every element is zero. -/
theorem Histo.Fits.getD_elements_unused {h : Histo} (hh : h.Fits) {e : Nat} (he : Config.slotUsed ≤ e) :
    h.elements.getD e 0 = 0 := by
  have helements : h.elements = (h.block .combined ++ h.block .red ++ h.block .blue ++ h.block .alpha ++
      h.block .distance) ++ List.replicate (Config.slotStride - Config.slotUsed) 0 := rfl
  rw [helements, List.getD_append_right _ _ _ _ (hh.length_blocks.trans_le he)]
  simp

/-- Code tables that fit their rooms, as numbers, are laid out like the counts of a histogram value. -/
def codeHisto (bits : Nat) (p : PerTable (List Word)) : Histo :=
  ⟨bits, PerTable.ofFn (fun t => (p.get t).map BitVec.toNat)⟩

theorem elements_codeHisto (bits : Nat) (p : PerTable (List Word)) :
    (codeHisto bits p).elements = (slotElements p).map BitVec.toNat := by
  simp [slotElements, codeHisto, Histo.elements]

section
variable {bits : Nat} {p : PerTable (List Word)}

theorem toNat_getD_slotElements (bits : Nat) (p : PerTable (List Word)) (e : Nat) :
    ((slotElements p).getD e 0).toNat = (codeHisto bits p).elements.getD e 0 := by
  rw [elements_codeHisto]
  exact (List.getD_map (slotElements p) 0 BitVec.toNat).symm

theorem codeHisto_fits (hb : bits ≤ 10) (hp : ∀ t, (p.get t).length = t.size bits) : (codeHisto bits p).Fits :=
  ⟨hb, fun t => by simp [codeHisto, hp]⟩

theorem getD_slotElements (hb : bits ≤ 10) (hp : ∀ t, (p.get t).length = t.size bits) (t : Table) {k : Nat}
    (hk : k < t.room) : (slotElements p).getD (t.base + k) 0 = (p.get t).getD k 0 := by
  refine BitVec.eq_of_toNat_eq ?_
  rw [toNat_getD_slotElements bits, (codeHisto_fits hb hp).getD_elements t hk, codeHisto, PerTable.get_ofFn]
  exact List.getD_map (p.get t) 0 BitVec.toNat

/-- An element outside every table is zero. -/
theorem getD_slotElements_outside (hb : bits ≤ 10) (hp : ∀ t, (p.get t).length = t.size bits) {e : Nat}
    (hout : ∀ t : Table, e < t.base ∨ t.base + t.size bits ≤ e) : (slotElements p).getD e 0 = 0 := by
  obtain hused | hunused := Nat.lt_or_ge e Config.slotUsed
  · obtain ⟨t, k, hk, rfl⟩ := Table.exists_of_offset hused
    have := hout t
    rw [getD_slotElements hb hp t hk, List.getD_eq_default _ _ (by rw [hp]; omega)]
  · refine BitVec.eq_of_toNat_eq ?_
    rw [toNat_getD_slotElements bits, (codeHisto_fits hb hp).getD_elements_unused hunused]
    rfl

end

/-! ### HTAB after a whole slot was stored (47_huffman R265) -/

section
variable {s : State} {k : Nat} {p : PerTable (List Word)}

theorem State.Working.read_putCodes (h : s.Working)
    (hp : ∀ t, (p.get t).length = t.size (s.slot k).hbits.toNat) {e : Nat} (he : e < Config.slotStride) :
    (s.putCodes k p).spaces.htab.read 8 (k * Config.slotStride + e) = (slotElements p).getD e 0 := by
  have hlen := length_slotElements (h.hbits_le k) (fun t => (hp t).le)
  rw [State.putCodes_spaces, Mem.read_put_in _ _ _ _ _ (Nat.le_add_right _ _) (by omega), Nat.add_sub_cancel_left]

theorem State.Working.codeTable_putCodes (h : s.Working)
    (hp : ∀ t, (p.get t).length = t.size (s.slot k).hbits.toNat) (t : Table) :
    (s.putCodes k p).codeTable k t = p.get t := by
  have hwf : (s.putCodes k p).spaces.htab.wf = true := Mem.wf_put _ _ h.spaces.htab.wf
  have hslot : (s.putCodes k p).slot k = s.slot k := rfl
  have hbits := h.hbits_le k
  rw [State.codeTable, hslot, Mem.run_eq _ _ _ hwf]
  refine List.ext_getElem (by simp [hp]) (fun sym hsym hsym' => ?_)
  have hsize : sym < t.size (s.slot k).hbits.toNat := hp t ▸ hsym'
  have hroom := t.size_le_room hbits
  have hbase := t.base_add_size_le hbits
  rw [List.getElem_map, List.getElem_range, Nat.add_assoc, h.read_putCodes hp (by omega),
    getD_slotElements hbits hp t (by omega), List.getD_eq_getElem _ _ hsym']

theorem State.Working.putCodes_sameElems (h : s.Working)
    (hp : ∀ t, (p.get t).length = t.size (s.slot k).hbits.toNat) :
    SameElems (fun sp i => sp = .htab ∧ slotElems k i) s (s.putCodes k p) := by
  intro sp i hout
  by_cases hsp : sp = .htab
  · subst hsp
    have hlen := length_slotElements (h.hbits_le k) (fun t => (hp t).le)
    have hi : i < k * Config.slotStride ∨ k * Config.slotStride + (slotElements p).length ≤ i := by
      simp only [true_and, slotElems, Nat.succ_mul] at hout
      omega
    exact congrArg (BitVec.setWidth 64) (Mem.read_put_out s.spaces.htab 8 _ _ _ hi)
  · exact (SpacesKept.of_htab s.spaces _).readElem (t := s.putCodes k p) (by simpa using hsp) i

end

/-! ### HUFF_LEN (47_huffman R266) -/

section
variable {s : State} {slot : BitVec 16} {k : Nat}

theorem exec_huffLen_of_starts (h : s.starts (.huffLen slot) = true) :
    exec (.huffLen slot) s = .next ((huffLenBody slot.toNat s).ended 0x50) := by
  rw [exec, execHuffLen]
  exact runCommand_of_starts h (by simp [Instr.checks, State.fails, State.slotOperands, State.slotsRead,
    State.badCtrl, State.badSlot, State.badHist]) rfl

/-- The elements HUFF_LEN stores: lengths with code 0. -/
def State.lengthTables (s : State) (k : Nat) : PerTable (List Word) :=
  PerTable.ofFn (fun t => (s.tableLengths k t).1.map (fun len => packCode len 0))

/-- The state with the lengths stored and the slot's fields brought up to date. -/
def State.lengthened (s : State) (k : Nat) : State :=
  (s.putCodes k (s.lengthTables k)).setSlot k { s.slot k with
    lenValid := true, codeValid := false, single := PerTable.ofFn (fun t => (s.tableLengths k t).2) }

theorem huffLenBody_eq (k : Nat) (s : State) : huffLenBody k s = .ok (s.lengthened k) := rfl

theorem State.lengthened_slot (s : State) (k j : Nat) : (s.lengthened k).slot j =
    if j = k then { s.slot k with
      lenValid := true, codeValid := false, single := PerTable.ofFn (fun t => (s.tableLengths k t).2) }
    else s.slot j := State.slot_setSlot ..

theorem State.single_lengthened (s : State) (k : Nat) (t : Table) :
    ((s.lengthened k).slot k).single.get t = (s.tableLengths k t).2 := by
  rw [State.lengthened_slot, if_pos rfl, PerTable.get_ofFn]

section
variable (h : s.Working)
include h

/-- The lengths of a table are right for its counts, smoothed or not. -/
theorem State.Working.tableLengths_right (k : Nat) (t : Table) :
    LengthsRight (s.histTable k t) (s.tableLengths k t) := by
  have hlen : (s.histTable k t).length ≤ Config.combinedRoom := by
    rw [h.length_histTable]
    refine (t.size_le_room (h.hbits_le k)).trans ?_
    cases t <;> decide
  have hsmall : ∀ n ∈ s.histTable k t, n < 2 ^ 32 := by
    intro n hn
    obtain ⟨v, -, rfl⟩ := List.mem_map.1 hn
    exact v.isLt
  rw [State.tableLengths]
  split
  · exact (codeLengths_right (by rwa [length_rleSmooth]) (rleSmooth_lt s.fns hsmall)).of_rleSmooth
  · exact codeLengths_right hlen hsmall

theorem State.Working.length_lengthTables (k : Nat) (t : Table) :
    ((s.lengthTables k).get t).length = t.size (s.slot k).hbits.toNat := by
  rw [State.lengthTables, PerTable.get_ofFn, List.length_map, h.length_tableLengths]

theorem State.Working.codeTable_lengthened (k : Nat) (t : Table) :
    (s.lengthened k).codeTable k t = (s.tableLengths k t).1.map (fun len => packCode len 0) := by
  have hbits : ((s.lengthened k).slot k).hbits = (s.slot k).hbits := by rw [State.lengthened_slot, if_pos rfl]
  have htable := h.codeTable_putCodes (h.length_lengthTables k) t
  rw [State.lengthTables, PerTable.get_ofFn] at htable
  rw [State.codeTable, hbits]
  exact htable

theorem State.Working.lengths_lengthened (k : Nat) (t : Table) :
    (s.lengthened k).lengths k t = (s.tableLengths k t).1 := by
  rw [State.lengths, h.codeTable_lengthened, List.map_map]
  refine (List.map_congr_left (fun len hlen => ?_)).trans (List.map_id _)
  exact codeLen_packCode ((h.tableLengths_right k t).limit len hlen) 0

theorem State.Working.codeBits_lengthened (k : Nat) (t : Table) :
    ∀ e ∈ (s.lengthened k).codeTable k t, codeBits e = 0 := by
  rw [h.codeTable_lengthened]
  intro e he
  obtain ⟨len, -, rfl⟩ := List.mem_map.1 he
  exact codeBits_packCode len (by decide)

theorem State.Working.readElem_lengthened_outside {e : Nat} (he : e < Config.slotStride)
    (hout : ∀ t : Table, e < t.base ∨ t.base + t.size (s.slot k).hbits.toNat ≤ e) :
    (s.lengthened k).readElem .htab (k * Config.slotStride + e) = 0 := by
  have hread := h.read_putCodes (h.length_lengthTables k) he
  rw [getD_slotElements_outside (h.hbits_le k) (h.length_lengthTables k) hout] at hread
  exact congrArg (BitVec.setWidth 64) hread

theorem State.Working.lengthened_onlyWrites (k : Nat) :
    OnlyWrites (fun sp i => sp = .htab ∧ slotElems k i) (fun q => q = k) s (s.lengthened k).endOk :=
  State.endOk_onlyWrites (h.putCodes_sameElems (h.length_lengthTables k))
    (fun j hout => ⟨(s.lengthened_slot k j).trans (if_neg hout), rfl, fun _ _ => rfl⟩)

end

end

end Sys2Proof.Machine

open Sys2Proof Sys2Proof.Machine

/-- Settles O52: each table gets the lengths of a tree over its used symbols, which meet Kraft's inequality with
equality, and they stand in the slot with zeros around them. -/
theorem huffLenLengths : Obligations.HuffLenLengths := by
  unfold Obligations.HuffLenLengths
  intro s slot hstarts hinv
  have hw := State.working_of_accepts hinv (State.starts_tests hstarts).1
  refine ⟨_, exec_huffLen_of_starts hstarts, ?_⟩
  rw [huffLenBody_eq]
  have hslot := (s.lengthened_slot slot.toNat slot.toNat).trans (if_pos rfl)
  refine ⟨hslot.trans ?_, fun tbl => ?_, fun e he hout => ?_, rfl, rfl,
    ⟨rfl, rfl, rfl⟩, ⟨fun _ => rfl, fun _ _ => rfl⟩, hw.lengthened_onlyWrites slot.toNat⟩
  · exact congrArg (fun v : Slot => { s.slot slot.toNat with
      lenValid := true, codeValid := false, single := v.single }) hslot.symm
  · have hlengths := hw.lengths_lengthened slot.toNat tbl
    have hsingle := s.single_lengthened slot.toNat tbl
    obtain ⟨hunused, hlimit, hseveral, hone⟩ := hw.tableLengths_right slot.toNat tbl
    rw [← hlengths, ← hsingle] at hseveral hone
    rw [← hlengths] at hunused hlimit
    exact ⟨hunused, hlimit, hseveral, hone, hw.codeBits_lengthened slot.toNat tbl⟩
  · exact (State.readElem_endOk ..).trans (hw.readElem_lengthened_outside he hout)

end

section
/-! SUPPORT. Canonical codewords: the codes `canonicalCodes` hands out, that they fit their lengths, and that no reversed
code begins with another (47_huffman R274 to R276). -/

namespace Sys2Proof.Machine

/-! ### Reversed codes (47_huffman R275) -/

theorem reverseBits_lt (v l : Nat) : reverseBits v l < 2 ^ l := by
  induction l generalizing v with
  | zero => exact Nat.one_pos
  | succ l ih =>
    have hbit : v % 2 * 2 ^ l ≤ 1 * 2 ^ l := Nat.mul_le_mul_right _ (by omega)
    have hrest := ih (v / 2)
    rw [reverseBits, Nat.pow_succ]
    omega

theorem testBit_reverseBits (v : Nat) {l k : Nat} (hk : k < l) :
    (reverseBits v l).testBit k = v.testBit (l - 1 - k) := by
  induction l generalizing v with
  | zero => cases hk
  | succ l ih =>
    rw [reverseBits, Nat.mul_comm, Nat.testBit_two_pow_mul_add _ (reverseBits_lt _ _)]
    split
    · rename_i hlow
      rw [ih _ hlow, Nat.testBit_div_two]
      congr 1
      omega
    · have hlast : k = l := by omega
      subst hlast
      simp [Nat.testBit_zero]

/-- A reversed code that begins a longer one is the reverse of its first bits. -/
theorem div_eq_of_reverseBits_mod {v w l m : Nat} (hlm : l ≤ m) (hv : v < 2 ^ m) (hw : w < 2 ^ l)
    (h : reverseBits v m % 2 ^ l = reverseBits w l) : v / 2 ^ (m - l) = w := by
  have hhigh : v / 2 ^ (m - l) < 2 ^ l := by
    rw [Nat.div_lt_iff_lt_mul (Nat.two_pow_pos _), ← Nat.pow_add, Nat.add_sub_cancel' hlm]
    exact hv
  refine Nat.eq_of_testBit_eq (fun i => ?_)
  obtain hi | hi := Nat.lt_or_ge i l
  · have hbit := congrArg (fun x => x.testBit (l - 1 - i)) h
    simp only [Nat.testBit_mod_two_pow] at hbit
    rw [testBit_reverseBits _ (by omega), testBit_reverseBits _ (by omega), show l - 1 - (l - 1 - i) = i by omega,
      show m - 1 - (l - 1 - i) = i + (m - l) by omega, decide_eq_true (by omega : l - 1 - i < l), Bool.true_and] at hbit
    rw [Nat.testBit_div_two_pow, hbit]
  · have hpow := Nat.pow_le_pow_right Nat.two_pos hi
    rw [Nat.testBit_lt_two_pow (hhigh.trans_le hpow), Nat.testBit_lt_two_pow (hw.trans_le hpow)]

/-! ### Canonical codewords (47_huffman R274, R276) -/

/-- Symbol `q` has a codeword, and it is handed out before that of `sym`. -/
abbrev Precedes (len : Nat → Nat) (q sym : Nat) : Prop :=
  0 < len q ∧ (len q < len sym ∨ (len q = len sym ∧ q < sym))

/-- The canonical codeword of symbol `sym` among `n`: what the symbols before it take up at its length. -/
def canonicalWord (len : Nat → Nat) (n sym : Nat) : Nat :=
  ∑ q ∈ Finset.range n with Precedes len q sym, 2 ^ (len sym - len q)

theorem canonicalWord_eq_sum (len : Nat → Nat) (n sym : Nat) : canonicalWord len n sym =
    (((List.range n).filter (fun q => decide (Precedes len q sym))).map (fun q => 2 ^ (len sym - len q))).sum := by
  rw [← List.sum_toFinset _ (List.nodup_range.filter _), List.toFinset_filter, List.toFinset_range]
  simp only [decide_eq_true_eq]
  rfl

/-- Kraft's sum over the symbols with a codeword (47_huffman R272). -/
theorem kraftSum_map_range (len : Nat → Nat) (n : Nat) :
    kraftSum ((List.range n).map len) = ∑ q ∈ Finset.range n with 0 < len q, 2 ^ (15 - len q) := by
  rw [kraftSum, List.map_map, ← List.sum_toFinset _ List.nodup_range, List.toFinset_range, Finset.sum_filter]
  refine Finset.sum_congr rfl (fun q _ => ?_)
  simp only [Function.comp_apply, Nat.pos_iff_ne_zero, ite_not]

section
variable {len : Nat → Nat} {n p q sym : Nat}

/-- A codeword, the symbols before it and itself take up no more than any set that holds them all. -/
theorem canonicalWord_succ_mul_le {T : Finset Nat} {L : Nat} (hL : len sym ≤ L) (hsym : sym ∈ T)
    (hbefore : ∀ r, r < n → Precedes len r sym → r ∈ T) :
    (canonicalWord len n sym + 1) * 2 ^ (L - len sym) ≤ ∑ r ∈ T, 2 ^ (L - len r) := by
  have hscale : canonicalWord len n sym * 2 ^ (L - len sym) =
      ∑ r ∈ Finset.range n with Precedes len r sym, 2 ^ (L - len r) := by
    rw [canonicalWord, Finset.sum_mul]
    refine Finset.sum_congr rfl (fun r hr => ?_)
    obtain ⟨-, -, hle⟩ := Finset.mem_filter.1 hr
    rw [← Nat.pow_add]
    congr 1
    omega
  have hself : sym ∉ (Finset.range n).filter (fun r => Precedes len r sym) := by
    simp only [Finset.mem_filter]
    omega
  have hsub : insert sym ((Finset.range n).filter (fun r => Precedes len r sym)) ⊆ T := by
    refine Finset.insert_subset hsym (fun r hr => ?_)
    obtain ⟨hn, hprec⟩ := Finset.mem_filter.1 hr
    exact hbefore r (Finset.mem_range.1 hn) hprec
  calc (canonicalWord len n sym + 1) * 2 ^ (L - len sym)
      = ∑ r ∈ insert sym ((Finset.range n).filter (fun r => Precedes len r sym)), 2 ^ (L - len r) := by
        rw [Finset.sum_insert hself, Nat.add_mul, hscale, Nat.one_mul, Nat.add_comm]
    _ ≤ ∑ r ∈ T, 2 ^ (L - len r) := Finset.sum_le_sum_of_subset hsub

/-- Kraft's inequality leaves room for every codeword at its length (47_huffman R274). -/
theorem canonicalWord_lt (hkraft : kraftSum ((List.range n).map len) ≤ 2 ^ 15) (hlimit : len sym ≤ 15) (hn : sym < n)
    (hpos : 0 < len sym) : canonicalWord len n sym < 2 ^ len sym := by
  rw [kraftSum_map_range] at hkraft
  have hroom := (canonicalWord_succ_mul_le (T := (Finset.range n).filter (fun q => 0 < len q)) hlimit
    (Finset.mem_filter.2 ⟨Finset.mem_range.2 hn, hpos⟩)
    (fun r hr hprec => Finset.mem_filter.2 ⟨Finset.mem_range.2 hr, hprec.1⟩)).trans hkraft
  have hsplit : 2 ^ 15 = 2 ^ len sym * 2 ^ (15 - len sym) := by rw [← Nat.pow_add, Nat.add_sub_cancel' hlimit]
  rw [hsplit] at hroom
  exact Nat.le_of_mul_le_mul_right hroom (Nat.two_pow_pos _)

/-- A codeword begins behind all words that extend an earlier one (47_huffman R276). -/
theorem Precedes.succ_mul_le (hprec : Precedes len p q) (hp : p < n) :
    (canonicalWord len n p + 1) * 2 ^ (len q - len p) ≤ canonicalWord len n q := by
  refine canonicalWord_succ_mul_le (by omega) (Finset.mem_filter.2 ⟨Finset.mem_range.2 hp, hprec⟩)
    (fun r hr hr' => Finset.mem_filter.2 ⟨Finset.mem_range.2 hr, ?_⟩)
  omega

/-- No codeword begins with another (47_huffman R276). -/
theorem canonicalWord_not_begins (hkraft : kraftSum ((List.range n).map len) ≤ 2 ^ 15) (hlimit : ∀ r, len r ≤ 15)
    (hp : p < n) (hq : q < n) (hne : p ≠ q) (hpos : 0 < len p) (hle : len p ≤ len q) :
    reverseBits (canonicalWord len n q) (len q) % 2 ^ len p ≠ reverseBits (canonicalWord len n p) (len p) := by
  intro hbegins
  have hhigh := div_eq_of_reverseBits_mod hle (canonicalWord_lt hkraft (hlimit q) hq (hpos.trans_le hle))
    (canonicalWord_lt hkraft (hlimit p) hp hpos) hbegins
  by_cases hprec : Precedes len p q
  · have hbehind := (Nat.le_div_iff_mul_le (Nat.two_pow_pos _)).2 (hprec.succ_mul_le hp)
    omega
  · have hsame : len q = len p := by omega
    have hafter : Precedes len q p := by omega
    have hbehind := hafter.succ_mul_le hq
    rw [hsame, Nat.sub_self, Nat.pow_zero] at hbehind hhigh
    omega

end

/-! ### The codes handed out (47_huffman R274) -/

theorem getElem_canonicalCodes (lens seen ls : List Nat) {k : Nat} (hk : k < ls.length) :
    (canonicalCodes lens seen ls)[k]'(by rwa [length_canonicalCodes]) =
      if ls[k] = 0 then 0 else firstCode lens ls[k] + (seen.count ls[k] + (ls.take k).count ls[k]) := by
  induction ls generalizing seen k with
  | nil => cases hk
  | cons l ls ih =>
    cases k with
    | zero => simp [canonicalCodes]
    | succ k =>
      simp only [canonicalCodes, List.getElem_cons_succ, List.take_succ_cons, ih (l :: seen) (Nat.lt_of_succ_lt_succ hk),
        List.count_cons]
      congr 2
      omega

theorem count_map_range (len : Nat → Nat) (n l : Nat) :
    ((List.range n).map len).count l = ∑ q ∈ Finset.range n, if len q = l then 1 else 0 := by
  induction n with
  | zero => rfl
  | succ n ih =>
    rw [List.range_succ, List.map_append, List.count_append, ih, Finset.sum_range_succ]
    simp [List.count_singleton]

/-- The first code of a length is what the shorter codewords take up at it. -/
theorem firstCode_map_range (len : Nat → Nat) (n l : Nat) : firstCode ((List.range n).map len) l =
    ∑ q ∈ Finset.range n, if 0 < len q ∧ len q < l then 2 ^ (l - len q) else 0 := by
  induction l with
  | zero => simp [firstCode]
  | succ l ih =>
    have hcount : lengthCount ((List.range n).map len) l =
        ∑ q ∈ Finset.range n, if 0 < len q ∧ len q = l then 1 else 0 := by
      rw [lengthCount, count_map_range]
      split
      · refine (Finset.sum_eq_zero (fun q _ => if_neg ?_)).symm
        omega
      · refine Finset.sum_congr rfl (fun q _ => if_congr ?_ rfl rfl)
        omega
    rw [firstCode, ih, hcount, ← Finset.sum_add_distrib, Finset.sum_mul]
    refine Finset.sum_congr rfl (fun q _ => ?_)
    obtain hlt | heq | hgt := Nat.lt_trichotomy (len q) l
    · have hpow : 2 ^ (l + 1 - len q) = 2 ^ (l - len q) * 2 := by rw [← Nat.pow_succ, Nat.succ_sub hlt.le]
      simp only [hlt, hlt.ne, Nat.lt_succ_of_lt hlt, and_true, and_false, if_false, Nat.add_zero, ite_mul, Nat.zero_mul,
        hpow]
    · simp [heq]
    · simp [hgt.ne', hgt.not_gt, (Nat.succ_le_of_lt hgt).not_gt]

/-- A code handed out is the canonical codeword. -/
theorem firstCode_add_count (len : Nat → Nat) {n sym : Nat} (hsym : sym < n) (hpos : 0 < len sym) :
    firstCode ((List.range n).map len) (len sym) + (((List.range n).map len).take sym).count (len sym) =
      canonicalWord len n sym := by
  have htake : ((List.range n).map len).take sym = (List.range sym).map len := by
    rw [← List.map_take, List.take_range, Nat.min_eq_left hsym.le]
  have hbelow : Finset.range sym = (Finset.range n).filter (fun q => q < sym) := by
    ext q
    simp only [Finset.mem_range, Finset.mem_filter]
    omega
  rw [htake, count_map_range, hbelow, Finset.sum_filter, firstCode_map_range, ← Finset.sum_add_distrib, canonicalWord,
    Finset.sum_filter]
  refine Finset.sum_congr rfl (fun q _ => ?_)
  obtain hlt | heq | hgt := Nat.lt_trichotomy (len q) (len sym)
  · simp [Precedes, hlt, hlt.ne]
  · simp [Precedes, heq, hpos]
  · simp [Precedes, hgt.ne', hgt.not_gt]

end Sys2Proof.Machine

end

section
/-! SUPPORT. HUFF_CODE: the elements of the five tables after their codes were stored, and what the command leaves
(47_huffman R274 to R276). -/

namespace Sys2Proof.Machine

theorem codeLen_le_limit (e : Word) : codeLen e ≤ 15 := Nat.le_of_lt_succ (e.extractLsb' 16 4).isLt

/-- The rooms of two tables do not overlap (10_state R36). -/
theorem Table.rooms_disjoint (t u : Table) : t = u ∨ t.base + t.room ≤ u.base ∨ u.base + u.room ≤ t.base := by
  cases t <;> cases u <;> decide

/-- The code of a symbol of a table with the lengths `len`, as it is stored (47_huffman R275). -/
def storedCode (len : Nat → Nat) (n sym : Nat) : Nat := reverseBits (canonicalWord len n sym) (len sym)

theorem storedCode_lt (len : Nat → Nat) (n sym : Nat) : storedCode len n sym < 2 ^ len sym := reverseBits_lt _ _

/-- An element of a coded table: the length, and the canonical codeword reversed. -/
theorem getD_codedTable (len : Nat → Nat) {n sym : Nat} (hsym : sym < n) :
    (codedTable ((List.range n).map len)).getD sym 0 = packCode (len sym) (storedCode len n sym) := by
  have hlen : sym < ((List.range n).map len).length := by simpa using hsym
  rw [List.getD_eq_getElem _ _ (by rwa [length_codedTable])]
  simp only [codedTable, List.getElem_map, List.getElem_zip, getElem_canonicalCodes _ _ _ hlen, List.getElem_range,
    List.count_nil, Nat.zero_add]
  split
  · rename_i hzero
    rw [storedCode, hzero]
    rfl
  · rename_i hne
    rw [firstCode_add_count len hsym (Nat.pos_of_ne_zero hne), storedCode]

section
variable {s : State} {slot : BitVec 16} {k : Nat} {m : Mem 32} {t : Table}

theorem exec_huffCode_of_starts (h : s.starts (.huffCode slot) = true) :
    exec (.huffCode slot) s = .next ((huffCodeBody slot.toNat s).ended 0x51) := by
  rw [exec, execHuffCode]
  exact runCommand_of_starts h (by simp [Instr.checks, State.fails, State.slotOperands, State.slotsRead,
    State.badSlot, Instr.opcode]) rfl

/-- The length of each symbol of a table. -/
def State.symbolLength (s : State) (k : Nat) (t : Table) (sym : Nat) : Nat := codeLen (s.codeElem k t sym)

theorem State.symbolLength_le (s : State) (k : Nat) (t : Table) (sym : Nat) : s.symbolLength k t sym ≤ 15 :=
  codeLen_le_limit _

/-- Element `i` belongs to table `t` of slot `k`. -/
def State.InTable (s : State) (k i : Nat) (t : Table) : Prop :=
  k * Config.slotStride + t.base ≤ i ∧ i < k * Config.slotStride + t.base + t.size (s.slot k).hbits.toNat

section
variable (h : s.Working)
include h

theorem State.Working.lengths_eq (k : Nat) (t : Table) :
    s.lengths k t = (List.range (t.size (s.slot k).hbits.toNat)).map (s.symbolLength k t) := by
  rw [State.lengths, State.codeTable, Mem.run_eq _ _ _ h.spaces.htab.wf, List.map_map]
  rfl

/-- Reading the codes of one table. -/
theorem State.Working.read_codesInto (k : Nat) (m : Mem 32) (t : Table) {sym : Nat}
    (hsym : sym < t.size (s.slot k).hbits.toNat) :
    (s.codesInto k m t).read 8 (k * Config.slotStride + t.base + sym) =
      packCode (s.symbolLength k t sym)
        (storedCode (s.symbolLength k t) (t.size (s.slot k).hbits.toNat) sym) := by
  have hlengths := h.lengths_eq k t
  rw [State.lengths] at hlengths
  rw [State.codesInto, hlengths, Mem.read_put_in _ _ _ _ _ (Nat.le_add_right _ _)
    (by simpa [length_codedTable] using hsym), Nat.add_sub_cancel_left, getD_codedTable _ hsym]

/-- Storing the codes of tables changes their elements alone. -/
theorem State.Working.read_foldl_codesInto_out {ts : List Table} {i : Nat} (hout : ∀ t ∈ ts, ¬ s.InTable k i t) :
    (ts.foldl (s.codesInto k) m).read 8 i = m.read 8 i := by
  induction ts generalizing m with
  | nil => rfl
  | cons t ts ih =>
    obtain ⟨ht, hts⟩ := List.forall_mem_cons.1 hout
    rw [List.foldl_cons, ih hts, State.codesInto]
    refine Mem.read_put_out _ _ _ _ _ ?_
    rw [length_codedTable, List.length_map, h.length_codeTable]
    simp only [State.InTable] at ht
    omega

/-- No element belongs to two tables. -/
theorem State.Working.inTable_unique {i : Nat} {u : Table} (ht : s.InTable k i t) (hu : s.InTable k i u) : t = u := by
  have htroom := t.size_le_room (h.hbits_le k)
  have huroom := u.size_le_room (h.hbits_le k)
  simp only [State.InTable] at ht hu
  refine (Table.rooms_disjoint t u).resolve_right ?_
  omega

/-- The codes of a table stay while those of the others are stored. -/
theorem State.Working.read_foldl_codesInto {ts : List Table} (ht : t ∈ ts) {sym : Nat}
    (hsym : sym < t.size (s.slot k).hbits.toNat) :
    (ts.foldl (s.codesInto k) m).read 8 (k * Config.slotStride + t.base + sym) =
      packCode (s.symbolLength k t sym)
        (storedCode (s.symbolLength k t) (t.size (s.slot k).hbits.toNat) sym) := by
  induction ts generalizing m with
  | nil => cases ht
  | cons u ts ih =>
    rw [List.foldl_cons]
    by_cases hlater : t ∈ ts
    · exact ih hlater
    · obtain rfl : t = u := (List.mem_cons.1 ht).resolve_right hlater
      have hin : s.InTable k (k * Config.slotStride + t.base + sym) t := ⟨Nat.le_add_right _ _, by omega⟩
      rw [h.read_foldl_codesInto_out (fun u hu hin' => hlater (h.inTable_unique hin hin' ▸ hu)),
        h.read_codesInto k m t hsym]

end

/-! ### HUFF_CODE (47_huffman R274) -/

/-- The state with the codes stored and the slot's fields brought up to date. -/
def State.coded (s : State) (k : Nat) : State :=
  State.setSlot { s with spaces := { s.spaces with htab := s.codedHtab k } } k { s.slot k with codeValid := true }

theorem State.coded_slot (s : State) (k j : Nat) :
    (s.coded k).slot j = if j = k then { s.slot k with codeValid := true } else s.slot j := State.slot_setSlot ..

theorem Table.mem_all (t : Table) : t ∈ Table.all := by
  cases t <;> decide

section
variable (h : s.Working)
include h

theorem State.Working.codeElem_coded (k : Nat) (t : Table) {sym : Nat}
    (hsym : sym < t.size (s.slot k).hbits.toNat) :
    (s.coded k).codeElem k t sym = packCode (s.symbolLength k t sym)
      (storedCode (s.symbolLength k t) (t.size (s.slot k).hbits.toNat) sym) :=
  h.read_foldl_codesInto t.mem_all hsym

theorem State.Working.codeLen_coded (k : Nat) (t : Table) {sym : Nat} (hsym : sym < t.size (s.slot k).hbits.toNat) :
    codeLen ((s.coded k).codeElem k t sym) = s.symbolLength k t sym := by
  rw [h.codeElem_coded k t hsym, codeLen_packCode (s.symbolLength_le k t sym)]

theorem State.Working.codeBits_coded (k : Nat) (t : Table) {sym : Nat} (hsym : sym < t.size (s.slot k).hbits.toNat) :
    codeBits ((s.coded k).codeElem k t sym) =
      storedCode (s.symbolLength k t) (t.size (s.slot k).hbits.toNat) sym := by
  have hpow := Nat.pow_le_pow_right Nat.two_pos ((s.symbolLength_le k t sym).trans (by decide : 15 ≤ 16))
  rw [h.codeElem_coded k t hsym, codeBits_packCode _ ((storedCode_lt _ _ _).trans_le hpow)]

theorem State.Working.coded_onlyWrites (k : Nat) :
    OnlyWrites (fun sp i => sp = .htab ∧ ∃ t, s.InTable k i t) (fun q => q = k) s (s.coded k).endOk := by
  refine State.endOk_onlyWrites (fun sp i hout => ?_)
    (fun j hout => ⟨(s.coded_slot k j).trans (if_neg hout), rfl, fun _ _ => rfl⟩)
  by_cases hsp : sp = .htab
  · subst hsp
    simp only [true_and, not_exists] at hout
    exact congrArg (BitVec.setWidth 64) (h.read_foldl_codesInto_out (fun t _ => hout t))
  · exact (SpacesKept.of_htab s.spaces _).readElem (t := s.coded k) (by simpa using hsp) i

end

end

end Sys2Proof.Machine

open Sys2Proof Sys2Proof.Machine

/-- Settles O53: each table holds the canonical codewords of its lengths reversed, which Kraft's inequality lets fit
and which count the words before them, so none begins with another. -/
theorem huffCodeCodes : Obligations.HuffCodeCodes := by
  unfold Obligations.HuffCodeCodes
  intro s slot hstarts hinv hkraft
  have hw := State.working_of_accepts hinv (State.starts_tests hstarts).1
  refine ⟨_, exec_huffCode_of_starts hstarts, ?_⟩
  rw [huffCodeBody_eq]
  refine ⟨(s.coded_slot slot.toNat slot.toNat).trans (if_pos rfl), fun tbl => ?_, rfl, rfl, ⟨rfl, rfl, rfl⟩,
    ⟨fun _ => rfl, fun _ _ => rfl⟩, hw.coded_onlyWrites slot.toNat⟩
  have hfits := hkraft tbl
  rw [hw.lengths_eq] at hfits
  refine ⟨fun sym hsym => ⟨hw.codeLen_coded slot.toNat tbl hsym, ?_, fun j hj => ?_⟩,
    fun p q hp hq hne hpos hle => ?_⟩
  · exact (hw.codeBits_coded slot.toNat tbl hsym).trans_lt (storedCode_lt _ _ _)
  · refine (congrArg (fun v => v.testBit j) (hw.codeBits_coded slot.toNat tbl hsym)).trans ?_
    refine (testBit_reverseBits _ hj).trans ?_
    rw [canonicalWord_eq_sum]
    rfl
  · have hfree := canonicalWord_not_begins hfits (s.symbolLength_le slot.toNat tbl) hp hq hne hpos hle
    have hcode := hw.codeBits_coded slot.toNat tbl hp
    have hcode' := hw.codeBits_coded slot.toNat tbl hq
    rw [storedCode] at hcode hcode'
    rw [← hcode, ← hcode'] at hfree
    exact hfree

end

section
/-! SUPPORT. The bits of the stream, and what a flush of bytes does to them (20_memory R60, 48_bit_writer R291, R295,
R297): both flushes of the writer, of a word and of a byte, are one operation. -/

namespace Sys2Proof.Machine

/-! ### Bits of numbers (20_memory R60) -/

@[simp] theorem length_lowBits (n v : Nat) : (lowBits n v).length = n := by simp [lowBits]

@[simp] theorem lowBits_zero (v : Nat) : lowBits 0 v = [] := rfl

@[simp] theorem getElem_lowBits {n v i : Nat} (hi : i < (lowBits n v).length) : (lowBits n v)[i] = v.testBit i := by
  simp [lowBits]

/-- The bits above the low `m` ones follow them. -/
theorem lowBits_add (m n v : Nat) : lowBits (m + n) v = lowBits m v ++ lowBits n (v / 2 ^ m) := by
  refine List.ext_getElem (by simp) (fun i _ _ => ?_)
  rw [getElem_lowBits, List.getElem_append]
  split
  · rw [getElem_lowBits]
  · rename_i hi
    rw [length_lowBits, Nat.not_lt] at hi
    simp only [getElem_lowBits, length_lowBits, Nat.testBit_div_two_pow, Nat.sub_add_cancel hi]

theorem lowBits_of_eq_zero (n : Nat) : lowBits n 0 = List.replicate n false := by
  simp [lowBits, List.map_const']

/-- Behind the bits of a number there are zeros. -/
theorem lowBits_of_lt {m v : Nat} (hv : v < 2 ^ m) (n : Nat) :
    lowBits (m + n) v = lowBits m v ++ List.replicate n false := by
  rw [lowBits_add, Nat.div_eq_of_lt hv, lowBits_of_eq_zero]

theorem drop_lowBits (n k v : Nat) : (lowBits n v).drop k = lowBits (n - k) (v / 2 ^ k) := by
  refine List.ext_getElem (by simp) (fun i _ _ => ?_)
  simp only [List.getElem_drop, getElem_lowBits, Nat.testBit_div_two_pow, Nat.add_comm]

/-! ### Bytes of the accumulator (20_memory R60) -/

/-- The low `k` bytes of an accumulator, least significant first. -/
def accBytes (k : Nat) (acc : BitVec 64) : List Byte := (List.range k).map (fun j => acc.extractLsb' (8 * j) 8)

@[simp] theorem length_accBytes (k : Nat) (acc : BitVec 64) : (accBytes k acc).length = k := by simp [accBytes]

/-- The bits of bytes, in order. -/
def byteBits (bs : List Byte) : List Bool := bs.flatMap (fun b => lowBits 8 b.toNat)

theorem byteBits_append (bs cs : List Byte) : byteBits (bs ++ cs) = byteBits bs ++ byteBits cs := List.flatMap_append

theorem byteBits_singleton (b : Byte) : byteBits [b] = lowBits 8 b.toNat := List.flatMap_singleton ..

theorem length_byteBits (bs : List Byte) : (byteBits bs).length = 8 * bs.length := by
  simp [byteBits, List.length_flatMap, Nat.mul_comm]

theorem lowBits_extractByte (acc : BitVec 64) (j : Nat) :
    lowBits 8 (acc.extractLsb' (8 * j) 8).toNat = lowBits 8 (acc.toNat / 2 ^ (8 * j)) := by
  refine List.ext_getElem (by simp) (fun i hi _ => ?_)
  rw [length_lowBits] at hi
  simp only [getElem_lowBits, BitVec.testBit_toNat, BitVec.getLsbD_extractLsb', Nat.testBit_div_two_pow, hi, decide_true,
    Bool.true_and, Nat.add_comm]

theorem byteBits_accBytes (k : Nat) (acc : BitVec 64) : byteBits (accBytes k acc) = lowBits (8 * k) acc.toNat := by
  induction k with
  | zero => rfl
  | succ k ih =>
    have hlast : accBytes (k + 1) acc = accBytes k acc ++ [acc.extractLsb' (8 * k) 8] := by
      simp [accBytes, List.range_succ]
    rw [hlast, byteBits_append, ih, Nat.mul_succ, lowBits_add, byteBits_singleton, lowBits_extractByte]

/-- The bits of the first `n` bytes of OUT. -/
def outBits (n : Nat) (m : Mem 8) : List Bool := byteBits ((List.range n).map (m.read 11))

@[simp] theorem length_outBits (n : Nat) (m : Mem 8) : (outBits n m).length = 8 * n := by
  simp [outBits, length_byteBits]

/-- Bytes stored behind the first `n`. -/
theorem outBits_put (n : Nat) (m : Mem 8) (bs : List Byte) :
    outBits (n + bs.length) (m.put n bs) = outBits n m ++ byteBits bs := by
  rw [outBits, outBits, ← byteBits_append]
  congr 1
  refine List.ext_getElem (by simp) (fun k hk _ => ?_)
  simp only [List.length_map, List.length_range] at hk
  simp only [List.getElem_map, List.getElem_range, List.getElem_append, List.length_map, List.length_range]
  split
  · rename_i hbefore
    exact Mem.read_put_out _ _ _ _ _ (.inl hbefore)
  · rename_i hbehind
    rw [Mem.read_put_in _ _ _ _ _ (Nat.not_lt.1 hbehind) hk, List.getD_eq_getElem _ _ (by omega)]

/-- The pending bits of BW_ACC. -/
def Writer.pending (w : Writer) : List Bool := lowBits w.used w.acc.toNat

@[simp] theorem Writer.length_pending (w : Writer) : w.pending.length = w.used := length_lowBits _ _

theorem State.streamBits_eq (s : State) :
    s.streamBits = outBits s.writer.pos s.spaces.out ++ s.writer.pending := by
  rw [outBits, byteBits, List.flatMap_map]
  rfl

theorem State.length_streamBits (s : State) : s.streamBits.length = 8 * s.writer.pos + s.writer.used := by
  simp [State.streamBits_eq]

end Sys2Proof.Machine
end

section
/-! SUPPORT. What the writer's operations change: the flush of bytes (48_bit_writer R295, R297), and how far a number of
bits put moves the writer (48_bit_writer R294, R295). -/

namespace Sys2Proof.Machine

/-! ### What the writer's operations change -/

/-- The state but for the writer, OUT and BW_ERR. -/
def State.written (s : State) (w : Writer) (m : Mem 8) (err : Bool) : State :=
  { s with writer := w, spaces := { s.spaces with out := m }, flags := { s.flags with bwErr := err } }

/-- Nothing but the writer, OUT and BW_ERR differs. -/
def State.Wrote (s u : State) : Prop := ∃ w m err, u = s.written w m err

section
variable {s u v : State}

theorem State.written_bwErr {err : Bool} (h : s.flags.bwErr = err) (w : Writer) (m : Mem 8) :
    { s with writer := w, spaces := { s.spaces with out := m } } = s.written w m err := by
  subst h
  rfl

theorem State.Wrote.refl (s : State) : s.Wrote s := ⟨s.writer, s.spaces.out, s.flags.bwErr, rfl⟩

theorem State.Wrote.trans (h : s.Wrote u) (h' : u.Wrote v) : s.Wrote v := by
  obtain ⟨_, _, _, rfl⟩ := h
  obtain ⟨w, m, err, rfl⟩ := h'
  exact ⟨w, m, err, rfl⟩

theorem State.Wrote.caps (h : s.Wrote u) : u.caps = s.caps := by
  obtain ⟨_, _, _, rfl⟩ := h
  rfl

/-! ### The flush of bytes (48_bit_writer R295, R297) -/

/-- The low `k` bytes of the accumulator written and shifted out, or BW_ERR set where they do not fit. -/
def State.flushBytes (s : State) (k : Nat) : State :=
  (if !s.flags.bwErr && decide (s.writer.pos + k ≤ s.caps.outCap) then s.outBytes (accBytes k s.writer.acc)
    else s.setBwErr).shiftAcc (8 * k)

theorem State.flushWord_eq (s : State) : s.flushWord = s.flushBytes 4 := rfl

theorem State.finishByte_eq (s : State) : s.finishByte = s.flushBytes 1 := rfl

/-- The accumulator without its low `k` bytes, BW_POS at `pos`. -/
def Writer.flushed (w : Writer) (k pos : Nat) : Writer := ⟨w.acc >>> (8 * k), w.used - 8 * k, pos⟩

theorem State.flushBytes_of_room {k : Nat} (herr : s.flags.bwErr = false) (hroom : s.writer.pos + k ≤ s.caps.outCap) :
    s.flushBytes k = s.written (s.writer.flushed k (s.writer.pos + k))
      (s.spaces.out.put s.writer.pos (accBytes k s.writer.acc)) false := by
  rw [State.flushBytes, if_pos (by simp [herr, hroom]), ← State.written_bwErr herr]
  simp [State.shiftAcc, State.outBytes, Writer.flushed]

theorem State.flushBytes_of_full {k : Nat} (h : s.flags.bwErr = true ∨ s.caps.outCap < s.writer.pos + k) :
    s.flushBytes k = s.written (s.writer.flushed k s.writer.pos) s.spaces.out true := by
  rw [State.flushBytes, if_neg]
  · rfl
  · simp only [Bool.and_eq_true, Bool.not_eq_true', decide_eq_true_eq, not_and, Nat.not_le]
    exact fun herr => h.resolve_left (by simp [herr])

/-- The accumulator holds nothing but its pending bits (48_bit_writer R291). -/
def Writer.AccFits (w : Writer) : Prop := w.acc.toNat < 2 ^ w.used

theorem Writer.pending_flushed (w : Writer) (k pos : Nat) : (w.flushed k pos).pending = w.pending.drop (8 * k) := by
  rw [Writer.pending, Writer.pending, drop_lowBits, Writer.flushed, BitVec.toNat_ushiftRight, Nat.shiftRight_eq_div_pow]

theorem Writer.AccFits.flushed {w : Writer} (h : w.AccFits) (k pos : Nat) : (w.flushed k pos).AccFits := by
  rw [Writer.AccFits, Writer.flushed, BitVec.toNat_ushiftRight, Nat.shiftRight_eq_div_pow]
  refine Nat.div_lt_of_lt_mul (h.trans_le ?_)
  have hused : w.used ≤ 8 * k + (w.used - 8 * k) := by omega
  rw [← Nat.pow_add]
  exact Nat.pow_le_pow_right Nat.two_pos hused

/-- The bytes written and what stays pending are the bits that were pending, zeros behind them (48_bit_writer R297). -/
theorem Writer.AccFits.byteBits_append_pending {w : Writer} (h : w.AccFits) (k pos : Nat) :
    byteBits (accBytes k w.acc) ++ (w.flushed k pos).pending =
      w.pending ++ List.replicate (8 * k - w.used) false := by
  have hlen : 8 * k + (w.used - 8 * k) = w.used + (8 * k - w.used) := by omega
  rw [byteBits_accBytes, Writer.pending_flushed, Writer.pending, drop_lowBits, ← lowBits_add, hlen, lowBits_of_lt h]

theorem State.streamBits_flushBytes {k : Nat} (herr : s.flags.bwErr = false)
    (hroom : s.writer.pos + k ≤ s.caps.outCap) (hfits : s.writer.AccFits) :
    (s.flushBytes k).streamBits = s.streamBits ++ List.replicate (8 * k - s.writer.used) false := by
  have hput := outBits_put s.writer.pos s.spaces.out (accBytes k s.writer.acc)
  rw [length_accBytes] at hput
  rw [State.flushBytes_of_room herr hroom, State.streamBits_eq, State.streamBits_eq, List.append_assoc,
    ← hfits.byteBits_append_pending k (s.writer.pos + k), ← List.append_assoc, ← hput]
  rfl

end

end Sys2Proof.Machine
end

section
/-! SUPPORT. The put of bits: it moves the writer over whole words and appends to the stream (48_bit_writer R294, R295). -/

namespace Sys2Proof.Machine

/-! ### Bits gathered in the accumulator (48_bit_writer R294) -/

/-- A value put above the pending bits. -/
def Writer.gather (w : Writer) (v : BitVec 64) (n : Nat) : Writer :=
  { w with acc := w.acc ||| (v <<< w.used), used := w.used + n }

/-- The state before the flush of a put. -/
def State.gathered (s : State) (v : BitVec 64) (n : Nat) : State := { s with writer := s.writer.gather v n }

theorem State.putBits_eq (s : State) (v : BitVec 64) (n : Nat) : s.putBits v n =
    if 32 ≤ s.writer.used + n then (s.gathered v n).flushBytes 4 else s.gathered v n := by
  rw [← State.flushWord_eq]
  rfl

theorem Writer.AccFits.pending_gather {w : Writer} (h : w.AccFits) (v : BitVec 64) {n : Nat} (hn : w.used + n ≤ 64) :
    (w.gather v n).pending = w.pending ++ lowBits n v.toNat := by
  refine List.ext_getElem (by simp [Writer.pending, Writer.gather]) (fun i hi _ => ?_)
  have hi' : i < w.used + n := by simpa [Writer.pending, Writer.gather] using hi
  have hor : ∀ j, (w.acc ||| v <<< w.used).toNat.testBit j =
      (w.acc.toNat.testBit j || (decide (j < 64) && !decide (j < w.used) && v.toNat.testBit (j - w.used))) := fun j => by
    simp only [BitVec.testBit_toNat, BitVec.getLsbD_or, BitVec.getLsbD_shiftLeft]
  have hlt : decide (i < 64) = true := decide_eq_true (by omega)
  simp only [Writer.pending, Writer.gather, getElem_lowBits, List.getElem_append, length_lowBits, hor, hlt, Bool.true_and]
  split
  · rename_i hlow
    simp [hlow]
  · rename_i hhigh
    have hzero : w.acc.toNat.testBit i = false :=
      Nat.testBit_lt_two_pow (h.trans_le (Nat.pow_le_pow_right Nat.two_pos (Nat.not_lt.1 hhigh)))
    simp [hhigh, hzero]

theorem Writer.AccFits.gather {w : Writer} (h : w.AccFits) {v : BitVec 64} {n : Nat} (hv : v.toNat < 2 ^ n) :
    (w.gather v n).AccFits := by
  simp only [Writer.AccFits, Writer.gather, BitVec.toNat_or, BitVec.toNat_shiftLeft]
  refine Nat.or_lt_two_pow (h.trans_le (Nat.pow_le_pow_right Nat.two_pos (Nat.le_add_right _ _)))
    ((Nat.mod_le _ _).trans_lt ?_)
  rw [Nat.shiftLeft_eq, Nat.add_comm, Nat.pow_add]
  exact Nat.mul_lt_mul_of_pos_right hv (Nat.two_pow_pos _)

/-! ### Where the writer stands after `n` more bits (48_bit_writer R295) -/

/-- The writer stands within its bounds (48_bit_writer R291). -/
def State.InBounds (s : State) : Prop := s.writer.used ≤ 31 ∧ s.writer.pos ≤ s.caps.outCap

/-- The writer moved over the whole words among `n` more bits, as far as they fit into OUT; BW_ERR stops it. -/
structure State.Moved (s u : State) (n : Nat) : Prop where
  used : u.writer.used = (s.writer.used + n) % 32
  stopped : s.flags.bwErr = true → u.writer.pos = s.writer.pos
  pos : s.flags.bwErr = false →
    u.writer.pos = s.writer.pos + 4 * min ((s.writer.used + n) / 32) ((s.caps.outCap - s.writer.pos) / 4)
  err : u.flags.bwErr = true ↔ s.flags.bwErr = true ∨ s.caps.outCap < s.writer.pos + 4 * ((s.writer.used + n) / 32)

section
variable {s u v : State} {n k : Nat}

theorem State.Moved.refl (hs : s.InBounds) : s.Moved s 0 := by
  obtain ⟨hused, hpos⟩ := hs
  refine { used := by omega, stopped := fun _ => rfl, pos := fun _ => by omega, err := ?_ }
  have hroom : ¬ s.caps.outCap < s.writer.pos + 4 * ((s.writer.used + 0) / 32) := by omega
  simp only [hroom, or_false]

theorem State.Moved.trans (h : s.Moved u n) (h' : u.Moved v k) (hcaps : u.caps = s.caps)
    (hpos : s.writer.pos ≤ s.caps.outCap) : s.Moved v (n + k) := by
  obtain ⟨hused, hstop, hmove, herr⟩ := h
  obtain ⟨hused', hstop', hmove', herr'⟩ := h'
  rw [hcaps] at hmove' herr'
  refine ⟨by omega, fun hs => ?_, fun hs => ?_, ?_⟩
  · rw [hstop' (herr.2 (.inl hs)), hstop hs]
  · have hfrom := hmove hs
    simp only [hs, Bool.false_eq_true, false_or] at herr
    cases hu : u.flags.bwErr
    · have hto := hmove' hu
      rw [hu] at herr
      simp only [Bool.false_eq_true, false_iff] at herr
      omega
    · have hto := hstop' hu
      have hfull := herr.1 hu
      omega
  · cases hs : s.flags.bwErr
    · have hfrom := hmove hs
      simp only [hs, Bool.false_eq_true, false_or] at herr ⊢
      rw [herr', herr]
      omega
    · simp only [herr', herr, hs, true_or]

theorem State.Moved.pos_eq_ite (h : s.Moved u n) : u.writer.pos = if s.flags.bwErr then s.writer.pos
    else s.writer.pos + 4 * min ((s.writer.used + n) / 32) ((s.caps.outCap - s.writer.pos) / 4) := by
  split
  · rename_i hs
    exact h.stopped hs
  · rename_i hs
    exact h.pos (by simpa using hs)

theorem State.Moved.pos_le (h : s.Moved u n) (hpos : s.writer.pos ≤ s.caps.outCap) : u.writer.pos ≤ s.caps.outCap := by
  cases hs : s.flags.bwErr
  · have := h.pos hs
    omega
  · rwa [h.stopped hs]

theorem State.Moved.le_pos (h : s.Moved u n) : s.writer.pos ≤ u.writer.pos := by
  cases hs : s.flags.bwErr
  · have := h.pos hs
    omega
  · exact (h.stopped hs).ge

theorem State.roomFor_iff : s.roomFor n = true ↔ s.writer.pos + 4 * ((s.writer.used + n) / 32) ≤ s.caps.outCap := by
  simp [State.roomFor]

theorem State.roomFor_eq_false_iff :
    s.roomFor n = false ↔ s.caps.outCap < s.writer.pos + 4 * ((s.writer.used + n) / 32) := by
  simp [State.roomFor]

theorem State.Moved.bwErr_eq (h : s.Moved u n) : u.flags.bwErr = (s.flags.bwErr || !s.roomFor n) := by
  rw [Bool.eq_iff_iff, h.err, Bool.or_eq_true, Bool.not_eq_true', State.roomFor_eq_false_iff]

/-! ### What a put appends to the stream -/

/-- `u` is `s` after `bits` were put: what a run of puts moves, changes and appends. The accumulator holds the bits where
every value put fits its width, which `fit` says. -/
structure State.Put (s u : State) (bits : List Bool) (fit : Bool) : Prop extends s.Moved u bits.length where
  wrote : s.Wrote u
  read_out : ∀ i, i < s.writer.pos ∨ u.writer.pos ≤ i → u.spaces.out.read 11 i = s.spaces.out.read 11 i
  accFits : fit = true → s.writer.AccFits → u.writer.AccFits
  pending : fit = true → s.writer.AccFits →
    u.writer.pending = (s.writer.pending ++ bits).drop (32 * ((s.writer.used + bits.length) / 32))
  stream : fit = true → s.writer.AccFits → u.flags.bwErr = false → u.streamBits = s.streamBits ++ bits

theorem State.Put.refl (hs : s.InBounds) : s.Put s [] true where
  toMoved := .refl hs
  wrote := .refl s
  read_out _ _ := rfl
  accFits _ h := h
  pending _ _ := by
    have hnone : s.writer.used / 32 = 0 := Nat.div_eq_of_lt (Nat.lt_succ_of_le hs.1)
    simp [hnone]
  stream _ _ _ := (List.append_nil _).symm

theorem State.Put.trans {bits cs : List Bool} {f g : Bool} (h : s.Put u bits f) (h' : u.Put v cs g)
    (hpos : s.writer.pos ≤ s.caps.outCap) : s.Put v (bits ++ cs) (f && g) where
  toMoved := List.length_append ▸ h.toMoved.trans h'.toMoved h.wrote.caps hpos
  wrote := h.wrote.trans h'.wrote
  read_out i hi := by
    have hle := h.toMoved.le_pos
    have hle' := h'.toMoved.le_pos
    rw [h'.read_out i (by omega), h.read_out i (by omega)]
  accFits hfit hs := by
    obtain ⟨hf, hg⟩ := Bool.and_eq_true_iff.1 hfit
    exact h'.accFits hg (h.accFits hf hs)
  pending hfit hs := by
    obtain ⟨hf, hg⟩ := Bool.and_eq_true_iff.1 hfit
    have hused := h.used
    have hwords : 32 * ((s.writer.used + bits.length) / 32) ≤ (s.writer.pending ++ bits).length := by
      rw [List.length_append, Writer.length_pending]
      omega
    have hsplit : 32 * ((s.writer.used + (bits ++ cs).length) / 32) =
        32 * ((s.writer.used + bits.length) / 32) + 32 * ((u.writer.used + cs.length) / 32) := by
      rw [List.length_append]
      omega
    rw [h'.pending hg (h.accFits hf hs), h.pending hf hs, ← List.append_assoc, hsplit, ← List.drop_drop,
      ← List.drop_append_of_le_length hwords]
  stream hfit hs hv := by
    obtain ⟨hf, hg⟩ := Bool.and_eq_true_iff.1 hfit
    have hu : u.flags.bwErr = false := by
      rw [← Bool.not_eq_true]
      exact fun hu => by simp [h'.err.2 (.inl hu)] at hv
    rw [h'.stream hg (h.accFits hf hs) hv, h.stream hf hs hu, List.append_assoc]

/-! ### One put (48_bit_writer R294, R295) -/

theorem State.streamBits_gathered (val : BitVec 64) (hfits : s.writer.AccFits) (hn : s.writer.used + n ≤ 64) :
    (s.gathered val n).streamBits = s.streamBits ++ lowBits n val.toNat := by
  rw [State.streamBits_eq, State.streamBits_eq, List.append_assoc, ← hfits.pending_gather val hn]
  rfl

/-- Fewer than 32 bits wait in the accumulator. -/
theorem State.put_gathered (val : BitVec 64) (hfew : s.writer.used + n ≤ 31) (hpos : s.writer.pos ≤ s.caps.outCap) :
    s.Put (s.gathered val n) (lowBits n val.toNat) (decide (val.toNat < 2 ^ n)) := by
  have hnone : (s.writer.used + n) / 32 = 0 := by omega
  have hroom : ¬ s.caps.outCap < s.writer.pos + 4 * 0 := by omega
  refine { used := ?_, stopped := fun _ => rfl, pos := fun _ => ?_, err := ?_, wrote := ⟨_, _, _, rfl⟩,
           read_out := fun _ _ => rfl, accFits := fun hfit hs => hs.gather (of_decide_eq_true hfit),
           pending := fun _ hs => ?_, stream := fun _ hs _ => s.streamBits_gathered val hs (by omega) }
  · rw [length_lowBits, Nat.mod_eq_of_lt (by omega)]
    rfl
  · rw [length_lowBits, hnone, Nat.zero_min]
    rfl
  · rw [length_lowBits, hnone]
    simp only [hroom, or_false]
    rfl
  · rw [length_lowBits, hnone]
    exact hs.pending_gather val (by omega)

section
variable (val : BitVec 64) (hfew : s.writer.used + n ≤ 63) (hword : 32 ≤ s.writer.used + n)
include hfew hword

/-- A word of bits goes to OUT. -/
theorem State.put_flushed_room (herr : s.flags.bwErr = false) (hroom : s.writer.pos + 4 ≤ s.caps.outCap) :
    s.Put ((s.gathered val n).flushBytes 4) (lowBits n val.toNat) (decide (val.toNat < 2 ^ n)) := by
  have hone : (s.writer.used + n) / 32 = 1 := by omega
  have hrest : s.writer.used + n - 8 * 4 = (s.writer.used + n) % 32 := by omega
  have hgather := fun hfit hs => Writer.AccFits.gather (w := s.writer) hs (v := val) (n := n) (of_decide_eq_true hfit)
  have hstream := fun hfit hs =>
    State.streamBits_flushBytes (s := s.gathered val n) (k := 4) herr hroom (hgather hfit hs)
  rw [State.flushBytes_of_room (s := s.gathered val n) herr hroom] at hstream ⊢
  refine { used := ?_, stopped := fun h => ?_, pos := fun _ => ?_, err := ?_, wrote := ⟨_, _, _, rfl⟩,
           read_out := fun i hi => Mem.read_put_out _ _ _ _ _ hi,
           accFits := fun hfit hs => (hgather hfit hs).flushed 4 _,
           pending := fun _ hs => ?_, stream := fun hfit hs _ => ?_ }
  · rw [length_lowBits]
    exact hrest
  · rw [herr] at h
    cases h
  · rw [length_lowBits, hone]
    show s.writer.pos + 4 = _
    omega
  · rw [length_lowBits, hone, herr]
    exact iff_of_false nofun (by simpa using hroom)
  · rw [length_lowBits, hone, ← hs.pending_gather val (by omega)]
    exact Writer.pending_flushed ..
  · have hzero : 8 * 4 - (s.gathered val n).writer.used = 0 := Nat.sub_eq_zero_of_le hword
    rw [hstream hfit hs, hzero, List.replicate_zero, List.append_nil, s.streamBits_gathered val hs (by omega)]

/-- A word of bits that does not fit, or behind BW_ERR, is lost. -/
theorem State.put_flushed_full (hfull : s.flags.bwErr = true ∨ s.caps.outCap < s.writer.pos + 4) :
    s.Put ((s.gathered val n).flushBytes 4) (lowBits n val.toNat) (decide (val.toNat < 2 ^ n)) := by
  have hone : (s.writer.used + n) / 32 = 1 := by omega
  have hrest : s.writer.used + n - 8 * 4 = (s.writer.used + n) % 32 := by omega
  rw [State.flushBytes_of_full (s := s.gathered val n) hfull]
  refine { used := ?_, stopped := fun _ => rfl, pos := fun h => ?_, err := ?_, wrote := ⟨_, _, _, rfl⟩,
           read_out := fun _ _ => rfl, accFits := fun hfit hs => (hs.gather (of_decide_eq_true hfit)).flushed 4 _,
           pending := fun _ hs => ?_, stream := nofun }
  · rw [length_lowBits]
    exact hrest
  · have hover := hfull.resolve_left (by simp [h])
    rw [length_lowBits, hone]
    show s.writer.pos = _
    omega
  · rw [length_lowBits, hone]
    exact iff_of_true rfl hfull
  · rw [length_lowBits, hone, ← hs.pending_gather val (by omega)]
    exact Writer.pending_flushed ..

end

/-- A put of up to 32 bits appends the low `n` bits of its value. -/
theorem State.put_putBits (val : BitVec 64) (hs : s.InBounds) (hn : n ≤ 32) :
    s.Put (s.putBits val n) (lowBits n val.toNat) (decide (val.toNat < 2 ^ n)) := by
  obtain ⟨hused, hpos⟩ := hs
  rw [State.putBits_eq]
  split
  · rename_i hword
    by_cases hroom : s.flags.bwErr = false ∧ s.writer.pos + 4 ≤ s.caps.outCap
    · exact State.put_flushed_room val (by omega) hword hroom.1 hroom.2
    · exact State.put_flushed_full val (by omega) hword
        ((not_and_or.1 hroom).imp eq_true_of_ne_false Nat.not_le.1)
  · exact State.put_gathered val (by omega) hpos

end

end Sys2Proof.Machine
end

section
/-! SUPPORT. How the commands of the bit writer end, and BW_INIT and BW_PUT (48_bit_writer R292, R293). -/

namespace Sys2Proof.Machine

section
variable {s u : State} {W : SpaceId → Nat → Prop}

/-! ### The ends of a command that wrote OUT alone (49_system R320, 60_exceptions R346) -/

theorem State.Wrote.endOk_flags (h : s.Wrote u) : u.endOk.flags = { s.okFlags with bwErr := u.flags.bwErr } := by
  obtain ⟨_, _, _, rfl⟩ := h
  rfl

theorem State.Wrote.endOk_flags_of_bwErr (h : s.Wrote u) (herr : u.flags.bwErr = s.flags.bwErr) :
    u.endOk.flags = s.okFlags := by
  rw [h.endOk_flags, herr]
  rfl

theorem State.Wrote.endOk_regs (h : s.Wrote u) : u.endOk.regs = s.okRegs := by
  obtain ⟨_, _, _, rfl⟩ := h
  rfl

theorem State.Wrote.bufs (h : s.Wrote u) : u.bufs = s.bufs := by
  obtain ⟨_, _, _, rfl⟩ := h
  rfl

theorem State.Wrote.ccBits (h : s.Wrote u) : u.ccBits = s.ccBits := by
  obtain ⟨_, _, _, rfl⟩ := h
  rfl

/-- An element of OUT as the host reads it (20_memory R62). -/
theorem State.readElem_out_congr {i : Nat} (h : u.spaces.out.read 11 i = s.spaces.out.read 11 i) :
    u.readElem .out i = s.readElem .out i := congrArg (BitVec.setWidth 64) h

theorem OnlyOut.sameElems (h : OnlyOut s.spaces u.spaces)
    (hout : ∀ i, ¬ W .out i → u.spaces.out.read 11 i = s.spaces.out.read 11 i) : SameElems W s u := by
  intro sp i hW
  by_cases hsp : sp = .out
  · subst hsp
    exact State.readElem_out_congr (hout i hW)
  · exact h.kept.readElem (by simpa using hsp) i

theorem State.Wrote.onlyOut (h : s.Wrote u) : OnlyOut s.spaces u.spaces := by
  obtain ⟨_, m, _, rfl⟩ := h
  exact ⟨m, rfl⟩

/-- OUT changed between the two positions of the writer alone. -/
theorem State.Wrote.onlyWrites (h : s.Wrote u)
    (hout : ∀ i, i < s.writer.pos ∨ u.writer.pos ≤ i → u.spaces.out.read 11 i = s.spaces.out.read 11 i) :
    OnlyWrites (fun sp i => sp = .out ∧ s.writer.pos ≤ i ∧ i < u.writer.pos) noSlots s u.endOk := by
  have helems := h.onlyOut.sameElems (W := fun sp i => sp = .out ∧ s.writer.pos ≤ i ∧ i < u.writer.pos)
    (fun i hi => hout i (by
      simp only [true_and] at hi
      omega))
  obtain ⟨_, _, _, rfl⟩ := h
  exact State.endOk_onlyWrites helems (fun _ _ => ⟨rfl, rfl, fun _ _ => rfl⟩)

/-! ### Puts that fit -/

theorem State.writerClean_iff : s.writerClean = true ↔
    s.writer.used ≤ 31 ∧ s.writer.AccFits ∧ s.writer.pos % 4 = 0 ∧ s.writer.pos ≤ s.caps.outCap ∧
      s.flags.bwErr = false := by
  simp only [State.writerClean, Bool.and_eq_true, decide_eq_true_eq, Bool.not_eq_true', and_assoc, Writer.AccFits]

/-- Values that fit their widths and words that fit OUT keep the writer invariant (48_bit_writer R291). -/
theorem State.Put.clean {bits : List Bool} (h : s.Put u bits true) (hclean : s.writerClean = true)
    (hroom : s.roomFor bits.length = true) :
    u.flags.bwErr = false ∧ u.writerClean = true ∧ u.streamBits = s.streamBits ++ bits := by
  obtain ⟨-, hfits, halign, hpos, herr⟩ := State.writerClean_iff.1 hclean
  have hu : u.flags.bwErr = false := by rw [h.bwErr_eq, herr, hroom]; rfl
  have hused := h.used
  have hmove := h.pos herr
  have hcap := h.pos_le hpos
  refine ⟨hu, State.writerClean_iff.2 ⟨by omega, h.accFits rfl hfits, by omega, ?_, hu⟩, h.stream rfl hfits hu⟩
  rwa [h.wrote.caps]

/-! ### The commands -/

theorem exec_bwInit_of_starts (h : s.starts .bwInit = true) :
    exec .bwInit s = .next ((bwInitBody s).ended 0x60) := by
  rw [exec, execBwInit]
  exact runCommand_of_starts h rfl rfl

theorem slotOperand_bwPut (n : BitVec 6) : (Instr.bwPut n).slotOperand = n.toNat := by
  have hlt := n.isLt
  simp only [Instr.slotOperand, Instr.immBits, BitVec.toNat_setWidth]
  omega

theorem exec_bwPut_of_starts {n : BitVec 6} (h : s.starts (.bwPut n) = true) :
    exec (.bwPut n) s = .next (s.putBits (s.regs.arg0.setWidth 64) n.toNat).endOk := by
  rw [exec, execBwPut, State.wf_of_starts h]
  refine runCommand_of_starts (body := bwPutBody n.toNat) h ?_ rfl
  simp only [Instr.checks, List.map_cons, List.map_nil, State.fails, slotOperand_bwPut]

theorem exec_bwFinish_of_starts (h : s.starts .bwFinish = true) :
    exec .bwFinish s = .next ((bwFinishBody s).ended 0x62) := by
  rw [exec, execBwFinish]
  exact runCommand_of_starts h rfl rfl

/-- BW_PUT's value fits its width by check 17. -/
theorem State.put_bwPut {n : BitVec 6} (h : s.starts (.bwPut n) = true) (hs : s.InBounds) :
    s.Put (s.putBits (s.regs.arg0.setWidth 64) n.toNat) (lowBits n.toNat s.regs.arg0.toNat) true := by
  have hn : n.toNat ≤ 32 := of_decide_eq_true (State.wf_of_starts h)
  have hput := State.put_putBits (s.regs.arg0.setWidth 64) hs hn
  have harg := s.regs.arg0.isLt
  have hvalue : (s.regs.arg0.setWidth 64).toNat = s.regs.arg0.toNat := by
    rw [BitVec.toNat_setWidth]
    omega
  have hcheck := State.fails_of_starts h (n := 17) (by simp [Instr.checks])
  simp only [State.fails, slotOperand_bwPut, decide_eq_false_iff_not, not_and, Nat.not_le] at hcheck
  have hfit : s.regs.arg0.toNat < 2 ^ n.toNat := by
    obtain hlt | heq := Nat.lt_or_eq_of_le hn
    · exact hcheck hlt
    · rwa [heq]
  rwa [hvalue, decide_eq_true hfit] at hput

end

end Sys2Proof.Machine

open Sys2Proof Sys2Proof.Machine

/-- Settles O54: the pseudocode sets the writer to its reset value and touches nothing else. -/
theorem bwInitEffect : Obligations.BwInitEffect := by
  unfold Obligations.BwInitEffect
  intro s hstarts
  have hclean : (bwInitBody s).state.writerClean = true :=
    State.writerClean_iff.2 ⟨Nat.zero_le _, Nat.one_pos, rfl, Nat.zero_le _, rfl⟩
  exact ⟨_, exec_bwInit_of_starts hstarts, rfl, rfl, rfl, hclean, rfl, rfl, rfl,
    State.endOk_onlyWrites (fun _ _ _ => State.readElem_congr rfl _ _) (fun _ _ => ⟨rfl, rfl, fun _ _ => rfl⟩)⟩

/-- Settles O55: one put of a value that fits its width, with room for the word it may fill. -/
theorem bwPutStream : Obligations.BwPutStream := by
  unfold Obligations.BwPutStream
  intro s n hstarts hclean hroom
  obtain ⟨hused, -, -, hpos, herr⟩ := State.writerClean_iff.1 hclean
  have hput := State.put_bwPut hstarts ⟨hused, hpos⟩
  have hfits := State.roomFor_iff.1 hroom
  have hmove := hput.pos herr
  have hleft := hput.used
  rw [length_lowBits] at hmove hleft
  obtain ⟨hu, hcleanu, hstream⟩ := hput.clean hclean (by rwa [length_lowBits])
  refine ⟨_, exec_bwPut_of_starts hstarts, hstream, hcleanu, ?_, hleft, hput.wrote.endOk_regs,
    hput.wrote.endOk_flags_of_bwErr (hu.trans herr.symm), hput.wrote.bufs, hput.wrote.ccBits,
    hput.wrote.onlyWrites hput.read_out⟩
  rw [State.endOk_writer, hmove]
  omega

end

section
/-! SUPPORT. BW_FINISH: the flush of the pending bits byte by byte, and the two ends of the command (48_bit_writer R297,
R298, R310). -/

namespace Sys2Proof.Machine

/-! ### The byte loop (48_bit_writer R297) -/

/-- How many bytes the pending bits take up. -/
def Writer.bytesLeft (w : Writer) : Nat := (w.used + 7) / 8

/-- `u` is `s` after the byte loop: nothing is pending, and the bytes that fit are in OUT, the last one padded with
zeros. -/
structure State.Finished (s u : State) : Prop where
  wrote : s.Wrote u
  used : u.writer.used = 0
  accFits : s.writer.AccFits → u.writer.AccFits
  stopped : s.flags.bwErr = true → u.writer.pos = s.writer.pos
  pos : s.flags.bwErr = false →
    u.writer.pos = s.writer.pos + min s.writer.bytesLeft (s.caps.outCap - s.writer.pos)
  err : u.flags.bwErr = true ↔ s.flags.bwErr = true ∨ s.caps.outCap < s.writer.pos + s.writer.bytesLeft
  read_out : ∀ i, i < s.writer.pos ∨ u.writer.pos ≤ i → u.spaces.out.read 11 i = s.spaces.out.read 11 i
  stream : s.writer.AccFits → u.flags.bwErr = false →
    u.streamBits = s.streamBits ++ List.replicate (8 * s.writer.bytesLeft - s.writer.used) false

section
variable {s u : State}

theorem State.Finished.refl (hused : s.writer.used = 0) (hpos : s.writer.pos ≤ s.caps.outCap) : s.Finished s := by
  have hnone : s.writer.bytesLeft = 0 := by simp [Writer.bytesLeft, hused]
  refine { wrote := .refl s, used := hused, accFits := id, stopped := fun _ => rfl, pos := fun _ => ?_, err := ?_,
           read_out := fun _ _ => rfl, stream := fun _ _ => ?_ }
  · rw [hnone, Nat.zero_min, Nat.add_zero]
  · rw [hnone, Nat.add_zero]
    simp only [hpos.not_gt, or_false]
  · simp [hnone]

/-- One byte less is pending. -/
theorem Writer.bytesLeft_flushed {w : Writer} (h : w.used ≠ 0) (pos : Nat) :
    (w.flushed 1 pos).bytesLeft + 1 = w.bytesLeft := by
  simp only [Writer.bytesLeft, Writer.flushed]
  omega

theorem State.Finished.of_byte_room (hused : s.writer.used ≠ 0) (herr : s.flags.bwErr = false)
    (hroom : s.writer.pos + 1 ≤ s.caps.outCap) (h : (s.flushBytes 1).Finished u) : s.Finished u := by
  have hbyte := fun hs => State.streamBits_flushBytes (s := s) (k := 1) herr hroom hs
  rw [State.flushBytes_of_room herr hroom] at h hbyte
  have hleft := Writer.bytesLeft_flushed hused (s.writer.pos + 1)
  have hpos : u.writer.pos = s.writer.pos + 1 + min (s.writer.flushed 1 (s.writer.pos + 1)).bytesLeft
    (s.caps.outCap - (s.writer.pos + 1)) := h.pos rfl
  have huerr : u.flags.bwErr = true ↔ false = true ∨
    s.caps.outCap < s.writer.pos + 1 + (s.writer.flushed 1 (s.writer.pos + 1)).bytesLeft := h.err
  refine { wrote := .trans ⟨_, _, _, rfl⟩ h.wrote, used := h.used, accFits := fun hs => h.accFits (hs.flushed 1 _),
           stopped := fun hs => ?_, pos := fun _ => ?_, err := ?_, read_out := fun i hi => ?_,
           stream := fun hs hu => ?_ }
  · rw [herr] at hs
    cases hs
  · omega
  · rw [huerr, herr]
    simp only [Bool.false_eq_true, false_or]
    omega
  · have hout : i < s.writer.pos ∨ s.writer.pos + 1 ≤ i := by omega
    refine (h.read_out i ?_).trans (Mem.read_put_out _ _ _ _ _ hout)
    show i < s.writer.pos + 1 ∨ _
    omega
  · rw [h.stream (hs.flushed 1 _) hu, hbyte hs, List.append_assoc, List.replicate_append_replicate]
    congr 2
    simp only [Writer.bytesLeft, Writer.flushed, State.written]
    omega

theorem State.Finished.of_byte_full (hused : s.writer.used ≠ 0)
    (hfull : s.flags.bwErr = true ∨ s.caps.outCap < s.writer.pos + 1) (h : (s.flushBytes 1).Finished u) :
    s.Finished u := by
  rw [State.flushBytes_of_full hfull] at h
  have hleft := Writer.bytesLeft_flushed hused s.writer.pos
  have hpos : u.writer.pos = s.writer.pos := h.stopped rfl
  have huerr : u.flags.bwErr = true := h.err.2 (.inl rfl)
  refine { wrote := .trans ⟨_, _, _, rfl⟩ h.wrote, used := h.used, accFits := fun hs => h.accFits (hs.flushed 1 _),
           stopped := fun _ => hpos, pos := fun hs => ?_, err := iff_of_true huerr (hfull.imp_right (by omega)),
           read_out := h.read_out, stream := fun _ hu => ?_ }
  · have hover := hfull.resolve_left (by simp [hs])
    omega
  · rw [huerr] at hu
    cases hu

/-- Every turn of the loop takes at least one pending bit. -/
theorem finishBytes_finished {fuel : Nat} (hfuel : s.writer.used ≤ fuel) (hpos : s.writer.pos ≤ s.caps.outCap) :
    s.Finished (finishBytes fuel s) := by
  induction fuel generalizing s with
  | zero => exact .refl (Nat.le_zero.1 hfuel) hpos
  | succ fuel ih =>
    rw [finishBytes]
    split
    · rename_i hused
      exact .refl hused hpos
    · rename_i hused
      have hless : s.writer.used - 8 * 1 ≤ fuel := by omega
      rw [State.finishByte_eq]
      by_cases hroom : s.flags.bwErr = false ∧ s.writer.pos + 1 ≤ s.caps.outCap
      · obtain ⟨herr, hroom⟩ := hroom
        refine .of_byte_room hused herr hroom (ih ?_ ?_)
        · rwa [State.flushBytes_of_room herr hroom]
        · rwa [State.flushBytes_of_room herr hroom]
      · have hfull := (not_and_or.1 hroom).imp eq_true_of_ne_false Nat.not_le.1
        refine .of_byte_full hused hfull (ih ?_ ?_)
        · rwa [State.flushBytes_of_full hfull]
        · rwa [State.flushBytes_of_full hfull]

/-- Nothing is left in the accumulator. -/
theorem State.Finished.writer_eq (h : s.Finished u) (hfits : s.writer.AccFits) : u.writer = ⟨0, 0, u.writer.pos⟩ := by
  have hused := h.used
  have hacc := h.accFits hfits
  rw [Writer.AccFits, hused, Nat.pow_zero, Nat.lt_one_iff] at hacc
  have hzero : u.writer.acc = 0 := BitVec.eq_of_toNat_eq hacc
  calc u.writer = ⟨u.writer.acc, u.writer.used, u.writer.pos⟩ := rfl
    _ = ⟨0, 0, u.writer.pos⟩ := by rw [hzero, hused]

theorem State.Finished.of_room (h : s.Finished u) (herr : s.flags.bwErr = false)
    (hroom : s.writer.pos + s.writer.bytesLeft ≤ s.caps.outCap) :
    u.flags.bwErr = false ∧ u.writer.pos = s.writer.pos + s.writer.bytesLeft := by
  have hmove := h.pos herr
  refine ⟨?_, by omega⟩
  rw [← Bool.not_eq_true, h.err, herr]
  simpa using hroom

/-- The byte count of the stream. -/
theorem State.bytes_streamBits (s : State) : (s.streamBits.length + 7) / 8 = s.writer.pos + s.writer.bytesLeft := by
  rw [State.length_streamBits, Writer.bytesLeft]
  omega

theorem State.padding_eq (s : State) : 8 * s.writer.bytesLeft - s.writer.used =
    8 * (s.writer.pos + s.writer.bytesLeft) - s.streamBits.length := by
  rw [State.length_streamBits]
  omega

/-! ### The two ends of BW_FINISH (48_bit_writer R297, R298) -/

/-- The state after the byte loop. -/
def State.finished (s : State) : State := finishBytes s.writer.used s

theorem State.finished_spec (hpos : s.writer.pos ≤ s.caps.outCap) : s.Finished s.finished :=
  finishBytes_finished le_rfl hpos

theorem bwFinishBody_of_clean (h : s.finished.flags.bwErr = false) :
    bwFinishBody s = .ok (s.finished.closed.setResult (BitVec.ofNat 32 s.finished.writer.pos)) :=
  if_neg (Bool.not_eq_true _ ▸ h)

theorem bwFinishBody_of_err (h : s.finished.flags.bwErr = true) :
    bwFinishBody s = failOut .outOfMemory 11 s s.finished.closed := if_pos h

theorem State.Wrote.closed_endOk_regs (h : s.Wrote u) (v : Word) :
    (u.closed.setResult v).endOk.regs = { s.okRegs with result0 := v, result1 := 0 } := by
  obtain ⟨_, _, _, rfl⟩ := h
  rfl

theorem State.Wrote.closed_endOk_flags (h : s.Wrote u) (herr : u.flags.bwErr = s.flags.bwErr) (v : Word) :
    (u.closed.setResult v).endOk.flags = { s.okFlags with bwOpen := false } := by
  obtain ⟨_, _, err, rfl⟩ := h
  obtain rfl : err = s.flags.bwErr := herr
  rfl

/-- The whole bytes of a stream that ends byte by byte. -/
theorem State.streamBits_of_used_zero (h : s.writer.used = 0) :
    s.streamBits = (List.range s.writer.pos).flatMap (fun k => lowBits 8 (s.readElem .out k).toNat) := by
  have hbyte : ∀ k, (s.readElem .out k).toNat = (s.spaces.out.read 11 k).toNat := fun k =>
    BitVec.toNat_setWidth_of_le (by decide)
  simp only [State.streamBits, h, lowBits_zero, List.append_nil, hbyte]

end

end Sys2Proof.Machine

open Sys2Proof Sys2Proof.Machine

/-- Settles O56: with room for every pending byte the loop leaves the stream, padded, and nothing pending. -/
theorem bwFinishStream : Obligations.BwFinishStream := by
  unfold Obligations.BwFinishStream
  intro s hstarts hclean hroom
  obtain ⟨-, hfits, -, hpos, herr⟩ := State.writerClean_iff.1 hclean
  have hfinished := State.finished_spec hpos
  obtain ⟨hu, hend⟩ := hfinished.of_room herr hroom
  have hstream := hfinished.stream hfits hu
  rw [State.streamBits_of_used_zero hfinished.used, s.padding_eq, ← hend] at hstream
  rw [s.bytes_streamBits, ← hend, exec_bwFinish_of_starts hstarts, bwFinishBody_of_clean hu]
  exact ⟨_, rfl, hstream, hfinished.writer_eq hfits, hfinished.wrote.closed_endOk_regs _,
    hfinished.wrote.closed_endOk_flags (hu.trans herr.symm) _, hfinished.wrote.bufs, hfinished.wrote.ccBits,
    hfinished.wrote.onlyWrites hfinished.read_out⟩

end

section
/-! SUPPORT. The sticky flag BW_ERR: what a put and BW_FINISH do behind it or where OUT is full, and that every command but
three keeps it (48_bit_writer R295, R297, R309, R310). -/

namespace Sys2Proof.Machine

/-! ### A run-time raise of the writer (60_exceptions R346) -/

section
variable {s u : State}

theorem State.Wrote.raise_errorEntry (h : s.Wrote u) (lo hi : Nat) (op : BitVec 8) (o : ErrorOutcome) (info : Nat) :
    ErrorEntry s ((u.redrawOut lo hi).raise op o info) op o info := by
  obtain ⟨_, _, _, rfl⟩ := h
  refine ⟨?_, rfl, rfl, rfl, State.slot_raise s op o info, ⟨fun _ => rfl, fun _ _ => rfl⟩, rfl, rfl, rfl, _, rfl⟩
  rw [State.raise_flags]
  rfl

/-- Bytes drawn anew from BW_POS on leave those before it. -/
theorem State.Wrote.raise_sameElems (h : s.Wrote u)
    (hout : ∀ i, i < s.writer.pos ∨ u.writer.pos ≤ i → u.spaces.out.read 11 i = s.spaces.out.read 11 i) (hi : Nat)
    (op : BitVec 8) (o : ErrorOutcome) (info : Nat) :
    SameElems (fun sp i => sp = .out ∧ s.writer.pos ≤ i) s ((u.redrawOut s.writer.pos hi).raise op o info) := by
  have honly : OnlyOut s.spaces ((u.redrawOut s.writer.pos hi).raise op o info).spaces :=
    h.onlyOut.trans (failOut_onlyOut o info { u with writer := s.writer } { u with writer := ⟨0, 0, hi⟩ })
  refine honly.sameElems (fun i hbefore => ?_)
  have hlt : i < s.writer.pos := by simpa using hbefore
  exact (Mem.read_put_out _ _ _ _ _ (.inl hlt)).trans (hout i (.inl hlt))

/-! ### BW_PUT and BW_FINISH without room (48_bit_writer R309, R310) -/

theorem State.writer_bounds (h : s.invariant = true) : s.InBounds := by
  obtain ⟨hstored, -, -⟩ := State.invariant_iff.1 h
  exact ⟨hstored.used, hstored.pos⟩

/-- A put that may flush one word does not move without room for it. -/
theorem State.Moved.pos_eq {n : Nat} (h : s.Moved u n) (hn : s.writer.used + n ≤ 63)
    (hfull : s.flags.bwErr = true ∨ s.roomFor n = false) : u.writer.pos = s.writer.pos := by
  cases hs : s.flags.bwErr
  · have hover := State.roomFor_eq_false_iff.1 (hfull.resolve_left (by simp [hs]))
    have hmove := h.pos hs
    omega
  · exact h.stopped hs

/-- More words than fit move the writer over those that fit. -/
theorem State.Moved.pos_of_full {n : Nat} (h : s.Moved u n) (hfull : s.flags.bwErr = true ∨ s.roomFor n = false) :
    u.writer.pos = if s.flags.bwErr then s.writer.pos
      else s.writer.pos + 4 * ((s.caps.outCap - s.writer.pos) / 4) := by
  rw [h.pos_eq_ite]
  split
  · rfl
  · rename_i hs
    have hover := State.roomFor_eq_false_iff.1 (hfull.resolve_left hs)
    omega

theorem State.Moved.bwErr_of_full {n : Nat} (h : s.Moved u n)
    (hfull : s.flags.bwErr = true ∨ s.roomFor n = false) : u.flags.bwErr = true :=
  h.err.2 (hfull.imp_right State.roomFor_eq_false_iff.1)

theorem bwPut_full {n : BitVec 6} (hstarts : s.starts (.bwPut n) = true) (hinv : s.invariant = true)
    (hfull : s.flags.bwErr = true ∨ s.roomFor n.toNat = false) :
    ∃ t, exec (.bwPut n) s = .next t ∧ t.flags = { s.okFlags with bwErr := true } ∧
      t.writer.pos = s.writer.pos ∧ t.writer.used = (s.writer.used + n.toNat) % 32 ∧ t.regs = s.okRegs ∧
      t.bufs = s.bufs ∧ t.ccBits = s.ccBits ∧ OnlyWrites noElems noSlots s t := by
  have hs := State.writer_bounds hinv
  have hused := hs.1
  have hn : n.toNat ≤ 32 := of_decide_eq_true (State.wf_of_starts hstarts)
  have hput := State.put_bwPut hstarts hs
  have hmoved := hput.toMoved
  rw [length_lowBits] at hmoved
  have hstay := hmoved.pos_eq (by omega) hfull
  refine ⟨_, exec_bwPut_of_starts hstarts, ?_, hstay, hmoved.used, hput.wrote.endOk_regs, hput.wrote.bufs,
    hput.wrote.ccBits, (hput.wrote.onlyWrites hput.read_out).mono (fun sp i hi => ?_) (fun _ => id)⟩
  · rw [hput.wrote.endOk_flags, hmoved.bwErr_of_full hfull]
  · rw [hstay] at hi
    exact absurd hi.2.2 (Nat.not_lt.2 hi.2.1)

theorem bwFinish_full (hstarts : s.starts .bwFinish = true) (hinv : s.invariant = true)
    (hfits : s.writer.AccFits)
    (hfull : s.flags.bwErr = true ∨ s.caps.outCap < s.writer.pos + s.writer.bytesLeft) :
    ∃ t, exec .bwFinish s = .next t ∧ ErrorEntry s t 0x62 .outOfMemory 11 ∧ t.flags.bwErr = true ∧
      t.writer = { acc := 0, used := 0, pos := if s.flags.bwErr then s.writer.pos else s.caps.outCap } ∧
      SameElems (fun sp i => sp = .out ∧ s.writer.pos ≤ i) s t := by
  obtain ⟨-, hpos⟩ := State.writer_bounds hinv
  have hfinished := State.finished_spec hpos
  have hu := hfinished.err.2 hfull
  have hend : s.finished.writer.pos = if s.flags.bwErr then s.writer.pos else s.caps.outCap := by
    split
    · rename_i hs
      exact hfinished.stopped hs
    · rename_i hs
      have hmove := hfinished.pos (by simpa using hs)
      have hover := hfull.resolve_left hs
      omega
  rw [exec_bwFinish_of_starts hstarts, bwFinishBody_of_err hu, ← hend]
  have hraised := hfinished.wrote.raise_sameElems hfinished.read_out s.finished.writer.pos 0x62 .outOfMemory 11
  exact ⟨_, rfl, hfinished.wrote.raise_errorEntry .., hu, hfinished.writer_eq hfits, hraised⟩

end

/-! ### BW_ERR is sticky (48_bit_writer R309) -/

section
variable {s : State}

theorem State.bwErr_flushBytes (h : s.flags.bwErr = true) (k : Nat) : (s.flushBytes k).flags.bwErr = true := by
  rw [State.flushBytes_of_full (.inl h)]
  rfl

theorem State.bwErr_putBits (h : s.flags.bwErr = true) (v : BitVec 64) (n : Nat) :
    (s.putBits v n).flags.bwErr = true := by
  rw [State.putBits_eq]
  split
  · exact State.bwErr_flushBytes (s := s.gathered v n) h 4
  · exact h

theorem bwErr_finishBytes (fuel : Nat) (h : s.flags.bwErr = true) : (finishBytes fuel s).flags.bwErr = true := by
  induction fuel generalizing s with
  | zero => exact h
  | succ fuel ih =>
    rw [finishBytes]
    split
    · exact h
    · exact ih (State.bwErr_flushBytes h 1)

theorem bwErr_bwFinishBody (h : s.flags.bwErr = true) : (bwFinishBody s).state.flags.bwErr = true := by
  have hu : s.finished.flags.bwErr = true := bwErr_finishBytes _ h
  rw [bwFinishBody_of_err hu]
  exact hu

theorem State.bwErr_emitOne {t : State} {k : Nat} {e : Emission} (h : s.flags.bwErr = true)
    (ht : s.emitOne k e = some t) : t.flags.bwErr = true := by
  cases e with
  | raw v n =>
    cases ht
    exact State.bwErr_putBits h _ _
  | symbol tbl sym =>
    simp only [State.emitOne] at ht
    split at ht
    · cases ht
      exact State.bwErr_putBits h _ _
    · split at ht <;> cases ht
      exact h

theorem bwErr_emitTokensBody (h : s.flags.bwErr = true) (mode : SlotMode) (base : Nat) :
    (emitTokensBody mode base s).state.flags.bwErr = true := by
  rw [emitTokensBody]
  split
  · exact h
  · exact emitTokensLoop_keeps (P := fun u => u.flags.bwErr = true) mode base (fun _ _ => State.bwErr_emitOne)
      (fun _ _ _ hu => hu) 0 0 h

theorem State.bwErr_endBuilder (s : State) (ts : List Token) :
    (s.endBuilder ts).state.flags.bwErr = s.flags.bwErr := by
  rw [State.endBuilder]
  split
  · rw [BodyEnd.state, State.redrawBuffer_flags]
  · simp only [BodyEnd.state, State.putTokens_flags]

theorem bwErr_brGreedyBody (sel : TableSel) (s : State) :
    (brGreedyBody sel s).state.flags.bwErr = s.flags.bwErr := by
  rw [brGreedyBody]
  split
  · rw [BodyEnd.state, State.redrawBuffer_flags]
  · exact s.bwErr_endBuilder _

theorem bwErr_cacheApplyBody (s : State) : (cacheApplyBody s).state.flags.bwErr = s.flags.bwErr := by
  have hfail : ∀ info, (s.failReplay info).state.flags.bwErr = s.flags.bwErr := fun info => by
    simp only [State.failReplay, BodyEnd.state, State.redrawBuffer_flags]
  simp only [cacheApplyBody]
  split
  · rfl
  split
  · exact hfail _
  split
  · exact hfail _
  split
  · exact hfail _
  split
  · exact hfail _
  · simp only [BodyEnd.state, State.putCache_flags, State.putTokens_flags]

theorem bwErr_cacheSearchBody (s : State) : (cacheSearchBody s).state.flags.bwErr = s.flags.bwErr := by
  simp only [cacheSearchBody]
  split
  · rfl
  split
  · rfl
  split <;> rfl

theorem State.bwErr_putSolution (s : State) (cells : List DpCell) (r : ReplayEnd) :
    (s.putSolution cells r).flags.bwErr = s.flags.bwErr := by
  simp only [State.putSolution]
  split <;> simp only [State.putCache_flags, State.putTokens_flags]

theorem State.bwErr_keepBetter (s : State) (new old : Cost) :
    (s.keepBetter new old).flags.bwErr = s.flags.bwErr := by
  rw [State.keepBetter]
  split <;> rfl

theorem bwErr_dpSolveBody (sel : TableSel) (s : State) : (dpSolveBody sel s).state.flags.bwErr = s.flags.bwErr := by
  simp only [dpSolveBody]
  split
  · rfl
  split
  · rfl
  split
  · rfl
  split
  · rfl
  split
  · rfl
  split
  · rfl
  · rw [BodyEnd.state, State.bwErr_keepBetter, State.bwErr_putSolution]

theorem bwErr_histBuildBody (mode : SlotMode) (base : Nat) (s : State) :
    (histBuildBody mode base s).state.flags.bwErr = s.flags.bwErr := by
  simp only [histBuildBody]
  split
  · rfl
  split
  · rfl
  split <;> rfl

theorem bwErr_histAddBody (dst src : Nat) (s : State) :
    (histAddBody dst src s).state.flags.bwErr = s.flags.bwErr := by
  simp only [histAddBody]
  split <;> rfl

theorem bwErr_clusterBody (first group : Nat) (s : State) :
    (clusterBody first group s).state.flags.bwErr = s.flags.bwErr := by
  simp only [clusterBody]
  split
  · rfl
  split <;> rfl

theorem bwErr_ccInitBody (b : Nat) (s : State) : (ccInitBody b s).state.flags.bwErr = s.flags.bwErr := by
  rw [ccInitBody]
  split <;> rfl

/-- No end of a command clears BW_ERR. -/
theorem runCommand_bwErr {o : Opcode} {legal : Bool} {checks : List (Nat × Bool)} {cap : Option Nat}
    {body : State → BodyEnd} {t : State} (h : runCommand o legal checks cap body s = .next t)
    (hs : s.flags.bwErr = true) (hbody : (body s).state.flags.bwErr = true) : t.flags.bwErr = true := by
  obtain ⟨e, info, rfl, -⟩ | ⟨-, -, -, -, ⟨u, hu, rfl⟩ | ⟨e, info, u, hu, rfl⟩⟩ := runCommand_cases h
  · exact hs
  · rwa [hu] at hbody
  · rwa [hu] at hbody

/-- Every command but those three keeps BW_ERR (48_bit_writer R309). -/
theorem exec_keeps_bwErr {t : State} {i : Instr} (h : exec i s = .next t) (hs : s.flags.bwErr = true)
    (hi : ¬ (i = .bwInit ∨ i = .attemptBegin ∨ i = .softReset)) : t.flags.bwErr = true := by
  cases i with
  | bwInit | attemptBegin | softReset => simp at hi
  | nop =>
    cases h
    exact hs
  | hcBuild =>
    rw [exec, execHcBuild] at h
    exact runCommand_bwErr h hs hs
  | hcBox =>
    rw [exec, execHcBox] at h
    exact runCommand_bwErr h hs hs
  | brGreedy sel =>
    rw [exec, execBrGreedy] at h
    exact runCommand_bwErr h hs ((bwErr_brGreedyBody sel s).trans hs)
  | brRle =>
    rw [exec, execBrRle] at h
    exact runCommand_bwErr h hs ((s.bwErr_endBuilder _).trans hs)
  | cacheApply =>
    rw [exec, execCacheApply] at h
    exact runCommand_bwErr h hs ((bwErr_cacheApplyBody s).trans hs)
  | cacheSearch =>
    rw [exec, execCacheSearch] at h
    exact runCommand_bwErr h hs ((bwErr_cacheSearchBody s).trans hs)
  | tokSwap =>
    rw [exec, execTokSwap] at h
    exact runCommand_bwErr h hs hs
  | dpSolve sel =>
    rw [exec, execDpSolve] at h
    exact runCommand_bwErr h hs ((bwErr_dpSolveBody sel s).trans hs)
  | histClear slot =>
    rw [exec, execHistClear] at h
    exact runCommand_bwErr h hs hs
  | histBuild mode slot =>
    rw [exec, execHistBuild] at h
    exact runCommand_bwErr h hs ((bwErr_histBuildBody mode _ s).trans hs)
  | histAdd slot =>
    rw [exec, execHistAdd] at h
    exact runCommand_bwErr h hs ((bwErr_histAddBody _ _ s).trans hs)
  | histEst slot =>
    rw [exec, execHistEst] at h
    exact runCommand_bwErr h hs hs
  | histCombine slot =>
    rw [exec, execHistCombine] at h
    exact runCommand_bwErr h hs hs
  | cluster slot =>
    rw [exec, execCluster] at h
    exact runCommand_bwErr h hs ((bwErr_clusterBody _ _ s).trans hs)
  | huffLen slot =>
    rw [exec, execHuffLen] at h
    exact runCommand_bwErr h hs hs
  | huffCode slot =>
    rw [exec, execHuffCode] at h
    exact runCommand_bwErr h hs hs
  | bwPut n =>
    rw [exec, execBwPut] at h
    exact runCommand_bwErr h hs (State.bwErr_putBits hs _ _)
  | bwFinish =>
    rw [exec, execBwFinish] at h
    exact runCommand_bwErr h hs (bwErr_bwFinishBody hs)
  | emitTokens mode slot =>
    rw [exec, execEmitTokens] at h
    exact runCommand_bwErr h hs (bwErr_emitTokensBody hs mode _)
  | ccInit bits =>
    rw [exec, execCcInit] at h
    exact runCommand_bwErr h hs ((bwErr_ccInitBody _ s).trans hs)
  | ccLookup =>
    rw [exec, execCcLookup] at h
    exact runCommand_bwErr h hs hs
  | ccInsert =>
    rw [exec, execCcInsert] at h
    exact runCommand_bwErr h hs hs

end

end Sys2Proof.Machine

open Sys2Proof Sys2Proof.Machine

/-- Settles O57: without room neither a put nor the byte loop moves on, and no other command touches BW_ERR. -/
theorem writerOverflow : Obligations.WriterOverflow := by
  unfold Obligations.WriterOverflow
  refine ⟨fun s n => bwPut_full, fun s => bwFinish_full, fun s t i h hs ht => ?_⟩
  by_contra hi
  simp [exec_keeps_bwErr h hs hi] at ht

end

section
/-! SUPPORT. EMIT_TOKENS: what the emissions of tokens put, and the three ends of the command (48_bit_writer R300 to R302,
R309, R310). -/

namespace Sys2Proof.Machine

/-! ### Emissions (48_bit_writer R300, R302) -/

theorem prefixEncode_value_lt (v : Nat) : (prefixEncode v).value < 2 ^ (prefixEncode v).nbits := by
  obtain hv | hv := Nat.lt_or_ge 2 v
  · rw [prefixEncode_of_three_le hv]
    exact Nat.mod_lt _ (Nat.two_pow_pos _)
  · rw [prefixEncode_of_le_two hv]
    exact Nat.one_pos

/-- Raw bits that fit their width, which a put has room for. -/
def Emission.Fits : Emission → Prop
  | .symbol _ _ => True
  | .raw v n => n ≤ 32 ∧ v < 2 ^ n

theorem emissionsOf_fits (f : Fns) (xs : Nat) {t : Token} (ht : t.Fits) : ∀ e ∈ emissionsOf f xs t, e.Fits := by
  have hshort := emissionsOf_short f xs ht
  cases t with
  | literal p => simp [emissionsOf, Emission.Fits]
  | cacheRef k => simp [emissionsOf, Emission.Fits]
  | copy d l =>
    simp only [emissionsOf, List.forall_mem_cons, Emission.Short, Emission.Fits] at hshort ⊢
    obtain ⟨-, hlen, -, hdist, -⟩ := hshort
    exact ⟨trivial, ⟨hlen, prefixEncode_value_lt _⟩, trivial, ⟨hdist, prefixEncode_value_lt _⟩, nofun⟩

theorem codeBits_lt (e : Word) : codeBits e < 2 ^ 32 :=
  (e.extractLsb' 0 16).isLt.trans (by decide)

/-- A symbol has a codeword or is its table's single symbol; raw bits need neither. -/
def State.HasCode (s : State) (k : Nat) : Emission → Prop
  | .symbol t sym => 0 < codeLen (s.codeElem k t sym) ∨ (s.slot k).single.get t = some sym
  | .raw _ _ => True

section
variable {s u : State} {k : Nat} {mode : SlotMode} {base : Nat}

theorem State.hasCode_of_coded {e : Emission} (h : s.emissionCoded k e = true) : s.HasCode k e := by
  cases e with
  | raw v n => trivial
  | symbol t sym =>
    simp only [State.emissionCoded, State.symbolCoded] at h
    split at h
    · exact .inr (of_decide_eq_true h)
    · rename_i hlen
      exact .inl (Nat.pos_of_ne_zero hlen)

/-! ### Code tables and slots are none of the writer's (20_memory R66) -/

theorem State.Wrote.codeElem (h : s.Wrote u) : u.codeElem = s.codeElem := by
  obtain ⟨_, _, _, rfl⟩ := h
  rfl

theorem State.Wrote.slot (h : s.Wrote u) : u.slot = s.slot := by
  obtain ⟨_, _, _, rfl⟩ := h
  rfl

theorem State.Wrote.emissionsOf (h : s.Wrote u) : emissionsOf u.fns u.xs = emissionsOf s.fns s.xs := by
  obtain ⟨_, _, _, rfl⟩ := h
  rfl

theorem State.Wrote.slotOf (h : s.Wrote u) : u.slotOf = s.slotOf := by
  obtain ⟨_, _, _, rfl⟩ := h
  rfl

theorem State.Wrote.pixelCount (h : s.Wrote u) : u.pixelCount = s.pixelCount := by
  obtain ⟨_, _, _, rfl⟩ := h
  rfl

/-! ### What is put of a token (48_bit_writer R300) -/

section
variable (hs : s.InBounds)
include hs

/-- One more put. -/
theorem State.Put.putBits {bits : List Bool} {fit : Bool} (h : s.Put u bits fit) {v n : Nat} (hn : n ≤ 32)
    (hv : v < 2 ^ 32) :
    s.Put (u.putBits (BitVec.ofNat 64 v) n) (bits ++ lowBits n v) (fit && decide (v < 2 ^ n)) := by
  have hused := h.used
  have hpos := h.pos_le hs.2
  have hvalue : (BitVec.ofNat 64 v).toNat = v := by
    rw [BitVec.toNat_ofNat]
    omega
  have hput := State.put_putBits (s := u) (BitVec.ofNat 64 v) ⟨by omega, by rwa [h.wrote.caps]⟩ hn
  rw [hvalue] at hput
  exact h.trans hput hs.2

theorem State.Put.emitOne {bits : List Bool} {fit : Bool} (h : s.Put u bits fit) {e : Emission} (hfits : e.Fits)
    (hcode : s.HasCode k e) : ∃ v, u.emitOne k e = some v ∧
      s.Put v (bits ++ s.emissionBits k e) (fit && s.emissionCoded k e) := by
  cases e with
  | raw v n =>
    obtain ⟨hn, hv⟩ := hfits
    have hput := h.putBits hs hn (hv.trans_le (Nat.pow_le_pow_right Nat.two_pos hn))
    rw [decide_eq_true hv] at hput
    exact ⟨_, rfl, hput⟩
  | symbol t sym =>
    rw [State.emitOne, h.wrote.codeElem, h.wrote.slot, State.emissionBits, State.emissionCoded, State.symbolCoded]
    by_cases hlen : 0 < codeLen (s.codeElem k t sym)
    · rw [if_pos hlen, if_neg hlen.ne']
      exact ⟨_, rfl, h.putBits hs (codeLen_le _) (codeBits_lt _)⟩
    · have hsingle := hcode.resolve_left hlen
      have hzero : codeLen (s.codeElem k t sym) = 0 := Nat.eq_zero_of_not_pos hlen
      refine ⟨u, by rw [if_neg hlen, if_pos hsingle], ?_⟩
      rwa [if_pos hzero, decide_eq_true hsingle, Bool.and_true, hzero, lowBits_zero, List.append_nil]

/-- Emissions with a code are put in order. -/
theorem State.Put.emitAll {bits : List Bool} {fit : Bool} (h : s.Put u bits fit) {es : List Emission}
    (hfits : ∀ e ∈ es, e.Fits) (hcode : ∀ e ∈ es, s.HasCode k e) (rest : List Emission) :
    ∃ v, emitAll k u (es ++ rest) = Machine.emitAll k v rest ∧
      s.Put v (bits ++ es.flatMap (s.emissionBits k)) (fit && es.all (s.emissionCoded k)) := by
  induction es generalizing u bits fit with
  | nil => exact ⟨u, rfl, by simpa using h⟩
  | cons e es ih =>
    obtain ⟨hfit, hfits⟩ := List.forall_mem_cons.1 hfits
    obtain ⟨hcod, hcode⟩ := List.forall_mem_cons.1 hcode
    obtain ⟨v, hone, hput⟩ := h.emitOne hs hfit hcod
    obtain ⟨w, hall, hputs⟩ := ih hput hfits hcode
    refine ⟨w, ?_, ?_⟩
    · rw [List.cons_append, Machine.emitAll, hone]
      exact hall
    · rwa [List.flatMap_cons, List.all_cons, ← List.append_assoc, ← Bool.and_assoc]

/-- Tokens whose symbols are coded are put in order (48_bit_writer R300, R301). -/
theorem State.Put.emitTokensLoop {bits : List Bool} (h : s.Put u bits true) {start : State} {ts : List Token}
    (hts : ∀ t ∈ ts, t.Fits) {p : Nat} (hcoded : s.tokensCoded mode base p ts = true) (k : Nat) (rest : List Token) :
    ∃ v, emitTokensLoop mode base start k p u (ts ++ rest) =
        Machine.emitTokensLoop mode base start (k + ts.length) (p + tokensLen ts) v rest ∧
      s.Put v (bits ++ s.tokenBits mode base p ts) true := by
  induction ts generalizing u bits p k with
  | nil => exact ⟨u, rfl, by simpa [State.tokenBits] using h⟩
  | cons t ts ih =>
    obtain ⟨ht, hts⟩ := List.forall_mem_cons.1 hts
    obtain ⟨hall, hrest⟩ := Bool.and_eq_true_iff.1 hcoded
    have hcode := fun e he => State.hasCode_of_coded (List.all_eq_true.1 hall e he)
    obtain ⟨v, hone, hput⟩ := h.emitAll hs (emissionsOf_fits s.fns s.xs ht) hcode []
    rw [hall, Bool.and_true] at hput
    obtain ⟨w, hloop, hputs⟩ := ih hput hts hrest (k + 1)
    refine ⟨w, ?_, ?_⟩
    · rw [List.append_nil, Machine.emitAll] at hone
      rw [List.cons_append, Machine.emitTokensLoop, h.wrote.slotOf, h.wrote.emissionsOf, hone]
      show Machine.emitTokensLoop mode base start (k + 1) (p + t.len) v (ts ++ rest) = _
      rw [hloop, List.length_cons, tokensLen]
      congr 1 <;> omega
    · rwa [State.tokenBits, ← List.append_assoc]

end

/-! ### The command (48_bit_writer R300, R309, R310) -/

theorem exec_emitTokens_of_starts {slot : BitVec 16} (h : s.starts (.emitTokens mode slot) = true) :
    exec (.emitTokens mode slot) s = .next ((emitTokensBody mode slot.toNat s).ended 0x63) := by
  rw [exec, execEmitTokens]
  refine runCommand_of_starts h ?_ rfl
  simp only [Instr.checks, List.map_cons, List.map_nil, State.fails_four, State.fails_twenty]
  simp [State.fails, State.slotOperands, State.slotsRead, State.badHistoMode, State.badHistoBits, State.histoExp,
    State.badGroups, State.badSlot, State.badCur, State.badCodes, State.badWidths, State.widthMismatch,
    State.any_existingSlots, Instr.slotMode, Instr.opcode, BitVec.toNat_eq]

/-- What EMIT_TOKENS counts on: a writer within its bounds and a stream in CUR that covers the image. -/
structure State.Emitting (s : State) (ts : List Token) : Prop where
  bounds : s.InBounds
  cur : s.curTokens = .ok ts
  fits : ∀ t ∈ ts, t.Fits
  covers : tokensLen ts = s.pixelCount

theorem State.emitting_of_curTrue {ts : List Token} (hinv : s.invariant = true) (hcur : s.curTrue = true)
    (hts : s.curTokens = .ok ts) : s.Emitting ts := by
  obtain ⟨ts', hts', htrue⟩ := State.curTokens_of_curTrue hcur
  obtain rfl : ts' = ts := Except.ok.inj (hts'.symm.trans hts)
  rw [State.tokensTrue, Bool.and_eq_true, decide_eq_true_eq] at htrue
  exact ⟨State.writer_bounds hinv, hts, fits_of_tokensOf hts, htrue.1⟩

/-- A stream whose symbols are all coded is put to its end. -/
theorem State.Emitting.body_ok {ts : List Token} (h : s.Emitting ts)
    (hcoded : s.tokensCoded mode base 0 ts = true) :
    ∃ u, emitTokensBody mode base s = .ok u ∧ s.Put u (s.tokenBits mode base 0 ts) true := by
  obtain ⟨u, hloop, hput⟩ := (State.Put.refl h.bounds).emitTokensLoop h.bounds (start := s) h.fits hcoded 0 []
  rw [List.append_nil, Nat.zero_add, Nat.zero_add, Machine.emitTokensLoop, hput.wrote.pixelCount, h.covers,
    if_neg (not_not_intro rfl)] at hloop
  refine ⟨u, ?_, hput⟩
  rw [emitTokensBody, h.cur]
  exact hloop

/-- The first symbol without a code ends the command, with all that was put before it. -/
theorem State.Emitting.body_fail {pre post : List Token} {tok : Token} (h : s.Emitting (pre ++ tok :: post))
    (hcoded : s.tokensCoded mode base 0 pre = true) {done rest : List Emission} {tbl : Table} {sym : Nat}
    (htok : emissionsOf s.fns s.xs tok = done ++ .symbol tbl sym :: rest)
    (hdone : ∀ e ∈ done, s.HasCode (base + s.slotOf mode (tokensLen pre)) e)
    (hnone : ¬ s.HasCode (base + s.slotOf mode (tokensLen pre)) (.symbol tbl sym)) :
    ∃ u, emitTokensBody mode base s = failOut .internal pre.length s u ∧
      s.Put u (s.tokenBits mode base 0 pre ++ done.flatMap (s.emissionBits (base + s.slotOf mode (tokensLen pre))))
        (done.all (s.emissionCoded (base + s.slotOf mode (tokensLen pre)))) := by
  have hfits := emissionsOf_fits s.fns s.xs (h.fits tok (by simp))
  rw [htok] at hfits
  obtain ⟨u, hloop, hput⟩ := (State.Put.refl h.bounds).emitTokensLoop h.bounds (start := s)
    (fun t ht => h.fits t (List.mem_append_left _ ht)) hcoded 0 (tok :: post)
  obtain ⟨v, hall, hputs⟩ := hput.emitAll h.bounds (fun e he => hfits e (List.mem_append_left _ he)) hdone
    (.symbol tbl sym :: rest)
  rw [Bool.true_and, List.nil_append] at hputs
  refine ⟨v, ?_, hputs⟩
  have hstop : v.emitOne (base + s.slotOf mode (tokensLen pre)) (.symbol tbl sym) = none := by
    simp only [State.HasCode, not_or] at hnone
    rw [State.emitOne, hputs.wrote.codeElem, hputs.wrote.slot, if_neg hnone.1, if_neg hnone.2]
  rw [Machine.emitAll, hstop] at hall
  rw [emitTokensBody, h.cur]
  refine hloop.trans ?_
  rw [Machine.emitTokensLoop, hput.wrote.slotOf, hput.wrote.emissionsOf, Nat.zero_add, Nat.zero_add, htok, hall]

end

end Sys2Proof.Machine

open Sys2Proof Sys2Proof.Machine

/-- Settles O58: the loop puts the bits of the tokens one after the other, up to the first symbol without a code. -/
theorem emitTokensStream : Obligations.EmitTokensStream := by
  unfold Obligations.EmitTokensStream
  intro s mode slot ts hstarts hinv hcur hts n
  have hemit := State.emitting_of_curTrue hinv hcur hts
  rw [exec_emitTokens_of_starts hstarts]
  refine ⟨fun hcoded hclean hroom => ?_, fun hcoded hfull => ?_, ?_⟩
  · obtain ⟨u, hbody, hput⟩ := hemit.body_ok hcoded
    obtain ⟨-, -, -, -, herr⟩ := State.writerClean_iff.1 hclean
    obtain ⟨hu, hcleanu, hstream⟩ := hput.clean hclean hroom
    rw [hbody]
    exact ⟨_, rfl, hstream, hcleanu, hput.wrote.endOk_regs, hput.wrote.endOk_flags_of_bwErr (hu.trans herr.symm),
      hput.wrote.bufs, hput.wrote.ccBits, hput.wrote.onlyWrites hput.read_out⟩
  · obtain ⟨u, hbody, hput⟩ := hemit.body_ok hcoded
    have hflags := hput.wrote.endOk_flags
    rw [hput.bwErr_of_full hfull] at hflags
    rw [hbody]
    exact ⟨_, rfl, hflags, hput.used, hput.pos_of_full hfull, hput.pos_le hemit.bounds.2, hput.wrote.endOk_regs,
      hput.wrote.bufs, hput.wrote.ccBits, hput.wrote.onlyWrites hput.read_out⟩
  · rintro pre tok post done tbl sym rest rfl hcoded h htok hdone hlen hsingle bits words
    have hcode : ∀ e ∈ done, s.HasCode h e := by
      rintro (⟨t, q⟩ | ⟨v, w⟩) he
      · exact hdone t q he
      · trivial
    obtain ⟨u, hbody, hput⟩ := hemit.body_fail hcoded htok hcode (not_or.2 ⟨hlen.not_gt, hsingle⟩)
    have hraised := hput.wrote.raise_sameElems hput.read_out u.writer.pos 0x63 .internal pre.length
    rw [hbody]
    refine ⟨_, rfl, hput.wrote.raise_errorEntry .., hput.bwErr_eq, hput.used, hput.pos_eq_ite,
      fun hclean hall => ?_, hraised⟩
    obtain ⟨-, hfits, -, -, -⟩ := State.writerClean_iff.1 hclean
    exact ⟨hput.accFits hall hfits, hput.pending hall hfits⟩

end

section
/-! SUPPORT. How every command ends: by one of the tests of its start, in the order of 60_exceptions R348, or by its
pseudocode; and what a command keeps on every such path (49_system R320, 60_exceptions R344, R346). -/

namespace Sys2Proof.Machine

/-! ### The numbered checks (60_exceptions R349, R350) -/

/-- The checks a command runs, each with whether it fails (60_exceptions R350). -/
def State.numberedChecks (s : State) (i : Instr) : List (Nat × Bool) := i.checks.map (fun n => (n, s.fails i n))

/-- The table of 60_exceptions R350 lists the checks of a command in numeric order. -/
theorem checks_rising (i : Instr) : i.checks.Pairwise (· < ·) := by
  cases i <;> simp [Instr.checks]

theorem checks_between {i : Instr} {n : Nat} (hn : n ∈ i.checks) : 4 ≤ n ∧ n ≤ 21 := by
  have hall : ∀ m ∈ i.checks, 4 ≤ m ∧ m ≤ 21 := by cases i <;> simp [Instr.checks]
  exact hall n hn

/-- Of numbers in rising order the lowest that fails is the one answered. -/
theorem firstFailing_map_eq_some {f : Nat → Bool} {n : Nat} {ns : List Nat} (hrising : ns.Pairwise (· < ·))
    (hn : n ∈ ns) (hfails : f n = true) (hbelow : ∀ m ∈ ns, m < n → f m = false) :
    firstFailing (ns.map (fun m => (m, f m))) = some n := by
  induction ns with
  | nil => cases hn
  | cons k ns ih =>
    obtain ⟨hk, hrising⟩ := List.pairwise_cons.1 hrising
    rw [List.map_cons, firstFailing]
    obtain rfl | hn := List.mem_cons.1 hn
    · rw [if_pos hfails]
    · rw [hbelow k List.mem_cons_self (hk n hn), if_neg Bool.false_ne_true]
      exact ih hrising hn (fun m hm => hbelow m (List.mem_cons_of_mem k hm))

section
variable {s t u v : State} {i : Instr}

theorem State.firstFailing_numberedChecks {n : Nat} (hn : n ∈ i.checks) (hfails : s.fails i n = true)
    (hbelow : ∀ m ∈ i.checks, m < n → s.fails i m = false) : firstFailing (s.numberedChecks i) = some n :=
  firstFailing_map_eq_some (checks_rising i) hn hfails hbelow

theorem State.firstFailing_of_checksPass (h : s.checksPass i = true) : firstFailing (s.numberedChecks i) = none := by
  rw [firstFailing_none]
  intro c hc
  obtain ⟨n, hn, rfl⟩ := List.mem_map.1 hc
  simpa using List.all_eq_true.1 h n hn

theorem State.mem_checks_of_firstFailing {n : Nat} (h : firstFailing (s.numberedChecks i) = some n) :
    n ∈ i.checks := by
  obtain ⟨p, q, hsplit, -⟩ := firstFailing_some h
  obtain ⟨m, hm, heq⟩ := List.mem_map.1 (show (n, true) ∈ s.numberedChecks i by simp [hsplit])
  obtain ⟨rfl, -⟩ := Prod.mk.inj heq
  exact hm

/-! ### What the pseudocode of every command keeps (49_system R320, R333) -/

/-- The pseudocode leaves alone what the end of a command counts on: `pc`, CMD_COUNT and CTRL, which holds DONE_IE. -/
structure LifeKept (s u : State) : Prop where
  pc : u.pc = s.pc := by rfl
  cmdCount : u.regs.cmdCount = s.regs.cmdCount := by rfl
  ctrl : u.regs.ctrl = s.regs.ctrl := by rfl

theorem LifeKept.refl (s : State) : LifeKept s s where

theorem LifeKept.trans (h : LifeKept s u) (h' : LifeKept u v) : LifeKept s v :=
  ⟨h'.pc.trans h.pc, h'.cmdCount.trans h.cmdCount, h'.ctrl.trans h.ctrl⟩

theorem BodyFrame.lifeKept (h : BodyFrame s u) : LifeKept s u where
  pc := h.pc
  cmdCount := by rw [h.regs]
  ctrl := by rw [h.regs]

theorem State.Wrote.lifeKept (h : s.Wrote u) : LifeKept s u := by
  obtain ⟨_, _, _, rfl⟩ := h
  exact {}

/-- How the pseudocode of a command may end: never by raising INVALID_PARAM, which only the tests of the start raise
(60_exceptions R344). -/
def BodyEnd.Regular (s : State) : BodyEnd → Prop
  | .ok u => LifeKept s u
  | .fail o _ u => o ≠ .invalidParam ∧ LifeKept s u

/-! ### The builders, the cache and the solver -/

theorem State.redrawBuffer_lifeKept (s : State) (b : Bool) : LifeKept s (s.redrawBuffer b) :=
  (BodyFrame.redrawBuffer s b).lifeKept

theorem State.putTokens_lifeKept (s : State) (b : Bool) (ts : List Token) : LifeKept s (s.putTokens b ts) :=
  (BodyFrame.putTokens s b ts).lifeKept

theorem State.endBuilder_regular (s : State) (ts : List Token) : (s.endBuilder ts).Regular s := by
  rw [State.endBuilder]
  split
  · exact ⟨nofun, s.redrawBuffer_lifeKept _⟩
  · exact (s.putTokens_lifeKept _ ts).trans {}

theorem brGreedyBody_regular (sel : TableSel) (s : State) : (brGreedyBody sel s).Regular s := by
  rw [brGreedyBody]
  split
  · exact ⟨nofun, s.redrawBuffer_lifeKept _⟩
  · exact s.endBuilder_regular _

theorem State.failReplay_regular (s : State) (info : Nat) : (s.failReplay info).Regular s :=
  ⟨nofun, (s.redrawBuffer_lifeKept _).trans {}⟩

theorem cacheApplyBody_regular (s : State) : (cacheApplyBody s).Regular s := by
  simp only [cacheApplyBody]
  split
  · exact .refl s
  split
  · exact s.failReplay_regular _
  split
  · exact s.failReplay_regular _
  split
  · exact s.failReplay_regular _
  split
  · exact s.failReplay_regular _
  · exact (s.putTokens_lifeKept _ _).trans {}

theorem cacheSearchBody_regular (s : State) : (cacheSearchBody s).Regular s := by
  simp only [cacheSearchBody]
  split
  · exact ⟨nofun, {}⟩
  split
  · exact ⟨nofun, {}⟩
  split
  · exact ⟨nofun, {}⟩
  · exact {}

theorem ccInitBody_regular (b : Nat) (s : State) : (ccInitBody b s).Regular s := by
  rw [ccInitBody]
  split <;> exact {}

theorem State.putSolution_lifeKept (s : State) (cells : List DpCell) (r : ReplayEnd) :
    LifeKept s (s.putSolution cells r) := by
  have hput := s.putTokens_lifeKept (!s.bufs.sel) r.tokens
  simp only [State.putSolution]
  split <;> exact hput.trans {}

theorem State.keepBetter_lifeKept (s : State) (new old : Cost) : LifeKept s (s.keepBetter new old) := by
  rw [State.keepBetter]
  split <;> exact {}

theorem dpSolveBody_regular (sel : TableSel) (s : State) : (dpSolveBody sel s).Regular s := by
  simp only [dpSolveBody]
  split
  · exact ⟨nofun, {}⟩
  split
  · exact ⟨nofun, {}⟩
  split
  · exact ⟨nofun, {}⟩
  split
  · exact ⟨nofun, {}⟩
  split
  · exact ⟨nofun, {}⟩
  split
  · exact ⟨nofun, {}⟩
  · exact (s.putSolution_lifeKept _ _).trans (State.keepBetter_lifeKept _ _ _)

/-! ### Histograms -/

theorem State.failHist_regular (s : State) (info : Nat) : (s.failHist info).Regular s := ⟨nofun, {}⟩

theorem histBuildBody_regular (mode : SlotMode) (base : Nat) (s : State) : (histBuildBody mode base s).Regular s := by
  rw [histBuildBody]
  split
  · exact s.failHist_regular _
  split
  · exact s.failHist_regular _
  split
  · exact s.failHist_regular _
  · exact {}

theorem histAddBody_regular (dst src : Nat) (s : State) : (histAddBody dst src s).Regular s := by
  simp only [histAddBody]
  split
  · exact s.failHist_regular _
  · exact {}

theorem clusterBody_regular (first group : Nat) (s : State) : (clusterBody first group s).Regular s := by
  simp only [clusterBody]
  split
  · exact ⟨nofun, {}⟩
  split
  · exact ⟨nofun, {}⟩
  · exact {}

/-! ### The bit writer -/

theorem State.flushBytes_wrote (s : State) (k : Nat) : s.Wrote (s.flushBytes k) := by
  by_cases hroom : s.flags.bwErr = false ∧ s.writer.pos + k ≤ s.caps.outCap
  · obtain ⟨herr, hroom⟩ := hroom
    exact ⟨_, _, _, State.flushBytes_of_room herr hroom⟩
  · have hfull := (not_and_or.1 hroom).imp eq_true_of_ne_false Nat.not_le.1
    exact ⟨_, _, _, State.flushBytes_of_full hfull⟩

theorem State.putBits_wrote (s : State) (v : BitVec 64) (n : Nat) : s.Wrote (s.putBits v n) := by
  have hgathered : s.Wrote (s.gathered v n) := ⟨_, _, _, rfl⟩
  rw [State.putBits_eq]
  split
  · exact hgathered.trans (State.flushBytes_wrote _ 4)
  · exact hgathered

theorem finishBytes_wrote (fuel : Nat) (s : State) : s.Wrote (finishBytes fuel s) := by
  induction fuel generalizing s with
  | zero => exact .refl s
  | succ fuel ih =>
    rw [finishBytes]
    split
    · exact .refl s
    · exact (s.flushBytes_wrote 1).trans (ih _)

theorem bwFinishBody_regular (s : State) : (bwFinishBody s).Regular s := by
  have hloop := (finishBytes_wrote s.writer.used s).lifeKept
  simp only [bwFinishBody]
  split
  · exact ⟨nofun, hloop.trans {}⟩
  · exact hloop.trans {}

theorem State.emitOne_lifeKept {k : Nat} {e : Emission} (h : s.emitOne k e = some t) : LifeKept s t := by
  cases e with
  | raw v n =>
    cases h
    exact (s.putBits_wrote _ _).lifeKept
  | symbol tbl sym =>
    simp only [State.emitOne] at h
    split at h
    · cases h
      exact (s.putBits_wrote _ _).lifeKept
    · split at h <;> cases h
      exact .refl s

theorem emitAll_lifeKept {k : Nat} {es : List Emission} (h : emitAll k s es = .ok t ∨ emitAll k s es = .error t) :
    LifeKept s t :=
  emitAll_keeps (P := LifeKept s) (fun _ hu hv => hu.trans (State.emitOne_lifeKept hv)) (.refl s) h

theorem emitTokensLoop_regular (mode : SlotMode) (base : Nat) {start : State} {ts : List Token} (k pos : Nat)
    (h : LifeKept s u) : (emitTokensLoop mode base start k pos u ts).Regular s := by
  induction ts generalizing k pos u with
  | nil =>
    rw [emitTokensLoop]
    split
    · exact ⟨nofun, h.trans {}⟩
    · exact h
  | cons t ts ih =>
    rw [emitTokensLoop]
    split
    · rename_i v hv
      exact ⟨nofun, (h.trans (emitAll_lifeKept (.inr hv))).trans {}⟩
    · rename_i v hv
      exact ih _ _ (h.trans (emitAll_lifeKept (.inl hv)))

theorem emitTokensBody_regular (mode : SlotMode) (base : Nat) (s : State) :
    (emitTokensBody mode base s).Regular s := by
  rw [emitTokensBody]
  split
  · exact ⟨nofun, {}⟩
  · exact emitTokensLoop_regular mode base 0 0 (.refl s)

/-! ### Every command that runs the checks, as one call of `runCommand` (60_exceptions R348 to R350) -/

/-- Command `i` runs the checks that the table of R350 lists for it and its capacity test of R343, and then the
pseudocode `body`, which ends in a regular way. -/
def State.Runs (s : State) (i : Instr) (body : State → BodyEnd) : Prop :=
  exec i s = runCommand i.opcode i.wf (s.numberedChecks i) (s.overCapacity i) body s ∧ (body s).Regular s

theorem State.Runs.intro {checks : List (Nat × Bool)} {cap : Option Nat} {body : State → BodyEnd}
    (hexec : exec i s = runCommand i.opcode i.wf checks cap body s) (hchecks : s.numberedChecks i = checks)
    (hcap : s.overCapacity i = cap) (hbody : (body s).Regular s) : s.Runs i body := by
  subst hchecks hcap
  exact ⟨hexec, hbody⟩

theorem State.numberedChecks_four (h : i.checks.head? = some 4) :
    s.numberedChecks i = (4, s.zeroDims) :: i.checks.tail.map (fun n => (n, s.fails i n)) := by
  obtain ⟨ns, hns⟩ := List.head?_eq_some_iff.1 h
  rw [State.numberedChecks, hns, List.map_cons, State.fails_four, List.tail_cons]

theorem BodyEnd.regular_ok (h : LifeKept s u) : (BodyEnd.ok u).Regular s := h

/-- The checks of R350 and the capacity tests of R343 are those that the commands run. -/
theorem State.exists_runs (s : State) (hi : i.abortable = true) : ∃ body, s.Runs i body := by
  cases i with
  | nop | softReset | attemptBegin => cases hi
  | hcBuild => exact ⟨hcBuildBody, .intro rfl (State.numberedChecks_four rfl) rfl (BodyEnd.regular_ok {})⟩
  | hcBox => exact ⟨hcBoxBody, .intro rfl (State.numberedChecks_four rfl) rfl (BodyEnd.regular_ok {})⟩
  | brGreedy sel => exact ⟨_, .intro rfl (State.numberedChecks_four rfl) rfl (brGreedyBody_regular sel s)⟩
  | brRle => exact ⟨brRleBody, .intro rfl (State.numberedChecks_four rfl) rfl (s.endBuilder_regular _)⟩
  | cacheApply => exact ⟨_, .intro rfl rfl rfl (cacheApplyBody_regular s)⟩
  | cacheSearch => exact ⟨_, .intro rfl (State.numberedChecks_four rfl) rfl (cacheSearchBody_regular s)⟩
  | tokSwap => exact ⟨fun t => .ok t.swapBuffers, .intro rfl rfl rfl (BodyEnd.regular_ok {})⟩
  | dpSolve sel => exact ⟨_, .intro rfl (State.numberedChecks_four rfl) rfl (dpSolveBody_regular sel s)⟩
  | histClear slot =>
    refine ⟨histClearBody slot.toNat, .intro rfl ?_ rfl (BodyEnd.regular_ok {})⟩
    simp [State.numberedChecks, Instr.checks, State.fails, State.slotOperands, State.badCacheBits, State.badSlot]
  | histBuild mode slot =>
    refine ⟨_, .intro rfl ?_ rfl (histBuildBody_regular mode slot.toNat s)⟩
    simp only [State.numberedChecks, Instr.checks, List.map_cons, List.map_nil, State.fails_four, State.fails_twenty]
    simp [State.fails, State.slotOperands, State.badHistoMode, State.badHistoBits, State.histoExp, State.badGroups,
      State.badSlot, State.badCur, Instr.slotMode, BitVec.toNat_eq]
  | histAdd slot =>
    refine ⟨_, .intro rfl ?_ rfl (histAddBody_regular slot.toNat s.regs.arg0.toNat s)⟩
    simp [State.numberedChecks, Instr.checks, State.fails, State.slotOperands, State.slotsRead, State.badSlot,
      State.badHist, State.widthMismatch, State.slotsClash]
  | histEst slot =>
    refine ⟨histEstBody slot.toNat, .intro rfl ?_ rfl (BodyEnd.regular_ok {})⟩
    simp [State.numberedChecks, Instr.checks, State.fails, State.slotOperands, State.slotsRead, State.badSlot,
      State.badHist]
  | histCombine slot =>
    refine ⟨histCombineBody slot.toNat s.regs.arg0.toNat, .intro rfl ?_ rfl (BodyEnd.regular_ok {})⟩
    simp [State.numberedChecks, Instr.checks, State.fails, State.slotOperands, State.slotsRead, State.badSlot,
      State.badHist, State.widthMismatch, State.slotsClash]
  | cluster slot =>
    refine ⟨_, .intro rfl ?_ rfl (clusterBody_regular slot.toNat s.regs.arg1.toNat s)⟩
    have hbad : s.badHist = fun k => !(s.slot k).histValid := rfl
    simp only [State.numberedChecks, Instr.checks, List.map_cons, List.map_nil, State.fails_four]
    simp [State.fails, State.slotOperands, State.slotsRead, State.badHistoBits, State.histoExp, State.badSlot, hbad,
      State.widthMismatch, State.slotsClash, State.tileWidthsDiffer, State.any_existingSlots, Instr.slotMode]
  | huffLen slot =>
    refine ⟨huffLenBody slot.toNat, .intro rfl ?_ rfl (BodyEnd.regular_ok {})⟩
    simp [State.numberedChecks, Instr.checks, State.fails, State.slotOperands, State.slotsRead, State.badCtrl,
      State.badSlot, State.badHist]
  | huffCode slot =>
    refine ⟨huffCodeBody slot.toNat, .intro rfl ?_ rfl (BodyEnd.regular_ok {})⟩
    simp [State.numberedChecks, Instr.checks, State.fails, State.slotOperands, State.slotsRead, State.badSlot,
      Instr.opcode]
  | bwInit => exact ⟨bwInitBody, .intro rfl rfl rfl (BodyEnd.regular_ok {})⟩
  | bwPut n =>
    refine ⟨bwPutBody n.toNat, .intro rfl ?_ rfl (BodyEnd.regular_ok (s.putBits_wrote _ _).lifeKept)⟩
    simp only [State.numberedChecks, Instr.checks, List.map_cons, List.map_nil, State.fails, slotOperand_bwPut]
  | bwFinish => exact ⟨_, .intro rfl rfl rfl (bwFinishBody_regular s)⟩
  | emitTokens mode slot =>
    refine ⟨_, .intro rfl ?_ rfl (emitTokensBody_regular mode slot.toNat s)⟩
    simp only [State.numberedChecks, Instr.checks, List.map_cons, List.map_nil, State.fails_four, State.fails_twenty]
    simp [State.fails, State.slotOperands, State.slotsRead, State.badHistoMode, State.badHistoBits, State.histoExp,
      State.badGroups, State.badSlot, State.badCur, State.badCodes, State.badWidths, State.widthMismatch,
      State.any_existingSlots, Instr.slotMode, Instr.opcode, BitVec.toNat_eq]
  | ccInit bits => exact ⟨_, .intro rfl rfl rfl (ccInitBody_regular bits.toNat s)⟩
  | ccLookup => exact ⟨ccLookupBody, .intro rfl rfl rfl (BodyEnd.regular_ok {})⟩
  | ccInsert => exact ⟨ccInsertBody, .intro rfl rfl rfl (BodyEnd.regular_ok {})⟩

/-! ### How a command ends (49_system R320, 60_exceptions R341, R344, R346, R348) -/

/-- The ends of a command but for SOFT_RESET's. INVALID_PARAM is raised on the state of the start and not where the
command `passed` the tests before its work; any other raise, and the end without error, may follow the pseudocode. -/
inductive CommandEnd (s : State) (op : BitVec 8) (passed : Prop) : State → Prop where
  | refused {n : Nat} (hlow : 2 ≤ n) (hhigh : n ≤ 21) (hpassed : ¬ passed) :
    CommandEnd s op passed (s.raise op .invalidParam n)
  | raised {u : State} {e : ErrorOutcome} (info : Nat) (he : e ≠ .invalidParam) (hkept : LifeKept s u) :
    CommandEnd s op passed (u.raise op e info)
  | completed {u : State} (hkept : LifeKept s u) : CommandEnd s op passed u.endOk

/-- Each test of the start that fails, in the order of R348, and the two ends of the pseudocode. -/
theorem runCommand_end {o : Opcode} {legal : Bool} {cap : Option Nat} {body : State → BodyEnd}
    (hbody : (body s).Regular s) (h : runCommand o legal (s.numberedChecks i) cap body s = .next t) :
    CommandEnd s o.byte (legal = true ∧ s.accepts = true ∧ s.checksPass i = true) t := by
  cases legal with
  | false =>
    rw [runCommand_illegal] at h
    cases h
    exact .refused le_rfl (by decide) (by simp)
  | true =>
  cases herr : s.flags.error with
  | true =>
    rw [runCommand_error herr] at h
    cases h
    exact .refused (by decide) (by decide) (by simp [State.accepts, herr])
  | false =>
  cases habort : s.env.abortSampled with
  | true =>
    rw [runCommand_aborted herr habort] at h
    cases h
    exact .raised 0 nofun (.refl s)
  | false =>
  have haccepts : s.accepts = true := State.accepts_iff.2 ⟨herr, habort⟩
  cases hfirst : firstFailing (s.numberedChecks i) with
  | some n =>
    rw [runCommand_check haccepts hfirst] at h
    cases h
    obtain ⟨hlow, hhigh⟩ := checks_between (State.mem_checks_of_firstFailing hfirst)
    refine .refused (by omega) hhigh (fun ⟨_, _, hpass⟩ => ?_)
    rw [State.firstFailing_of_checksPass hpass] at hfirst
    cases hfirst
  | none =>
  cases cap with
  | some space =>
    rw [runCommand_capacity haccepts hfirst] at h
    cases h
    exact .raised space nofun (.refl s)
  | none =>
    rw [runCommand_body haccepts hfirst rfl] at h
    cases hend : body s with
    | ok u =>
      rw [hend] at h hbody
      cases h
      exact .completed hbody
    | fail e info u =>
      rw [hend] at h hbody
      cases h
      obtain ⟨he, hkept⟩ := hbody
      exact .raised info he hkept

/-- The commands that run no check 3 (60_exceptions R348). -/
theorem eq_of_not_abortable (hi : i.abortable = false) : i = .nop ∨ i = .softReset ∨ i = .attemptBegin := by
  cases i with
  | nop => exact .inl rfl
  | softReset => exact .inr (.inl rfl)
  | attemptBegin => exact .inr (.inr rfl)
  | _ => cases hi

/-- Every command but SOFT_RESET ends so; NOP and ATTEMPT_BEGIN always without error (49_system R321, R323). -/
theorem exec_end (hi : i ≠ .softReset) (h : exec i s = .next t) :
    CommandEnd s i.opcode.byte (i.wf = true ∧ s.accepts = true ∧ s.checksPass i = true) t := by
  cases hab : i.abortable with
  | true =>
    obtain ⟨body, hexec, hbody⟩ := s.exists_runs hab
    exact runCommand_end hbody (hexec ▸ h)
  | false =>
    obtain rfl | rfl | rfl := eq_of_not_abortable hab
    · cases h
      exact .completed (.refl s)
    · exact absurd rfl hi
    · cases h
      exact .completed (u := s.beginAttempt) {}

/-- No command faults or is refused (70_reset R403). -/
theorem exec_answers (i : Instr) (s : State) : ∃ t, exec i s = .next t := by
  cases i <;> exact ⟨_, rfl⟩

theorem ErrorOutcome.code_eq_two {o : ErrorOutcome} : o.code = 2 ↔ o = .invalidParam := by
  cases o <;> decide

theorem ErrorOutcome.code_le (o : ErrorOutcome) : o.code.toNat ≤ 4 := by
  cases o <;> decide

end

end Sys2Proof.Machine

open Sys2Proof Sys2Proof.Machine

/-- Settles O7: every end is a raise, the end without error, or that of SOFT_RESET. -/
theorem everyCommandEnds : Obligations.EveryCommandEnds := by
  unfold Obligations.EveryCommandEnds
  intro s i
  obtain ⟨t, h⟩ := exec_answers i s
  refine ⟨t, h, ?_⟩
  by_cases hi : i = .softReset
  · subst hi
    cases h
    exact ⟨rfl, fun _ => ⟨rfl, rfl⟩, fun hcode => absurd rfl hcode, Nat.zero_le 4, rfl, rfl⟩
  rw [if_neg hi]
  cases exec_end hi h with
  | refused => exact ⟨rfl, nofun, fun _ => ⟨rfl, rfl, rfl⟩, ErrorOutcome.invalidParam.code_le, rfl, rfl⟩
  | @raised u e info _ hkept =>
    exact ⟨rfl, fun hcode => absurd hcode e.code_ne_zero, fun _ => ⟨rfl, rfl, rfl⟩, e.code_le,
      congrArg (· + 1) hkept.pc, congrArg (· + 1) hkept.cmdCount⟩
  | completed hkept =>
    exact ⟨rfl, fun _ => ⟨rfl, rfl⟩, fun hcode => absurd rfl hcode, Nat.zero_le 4,
      congrArg (· + 1) hkept.pc, congrArg (· + 1) hkept.cmdCount⟩

/-- Settles O12: a pseudocode raises no INVALID_PARAM, so one that ends a command was raised before any work. -/
theorem invalidParamDoesNoWork : Obligations.InvalidParamDoesNoWork := by
  unfold Obligations.InvalidParamDoesNoWork
  intro s t i h hcode
  by_cases hi : i = .softReset
  · subst hi
    cases h
    cases hcode
  cases exec_end hi h with
  | refused hlow hhigh => exact ⟨_, hlow, hhigh, State.raise_atStart ..⟩
  | raised _ he => exact absurd (ErrorOutcome.code_eq_two.1 hcode) he
  | completed => cases hcode

/-- Settles O10: the checks a command runs are those of its row in rising order, and where none fails only its
pseudocode or its capacity test may raise. -/
theorem checksInOrder : Obligations.ChecksInOrder := by
  unfold Obligations.ChecksInOrder
  refine ⟨fun s i n hwf hi haccepts hn hfails hbelow => ?_, fun s t i hwf hi haccepts hpass h hcode => ?_⟩
  · obtain ⟨body, hexec, -⟩ := s.exists_runs hi
    rw [hexec, hwf, runCommand_check haccepts (State.firstFailing_numberedChecks hn hfails hbelow)]
    exact ⟨_, rfl, State.raise_atStart ..⟩
  · have hsoft : i ≠ .softReset := by
      rintro rfl
      cases hi
    cases exec_end hsoft h with
    | refused _ _ hpassed => exact hpassed ⟨hwf, haccepts, hpass⟩
    | raised _ he => exact he (ErrorOutcome.code_eq_two.1 hcode)
    | completed => cases hcode

/-- Settles O11: the capacity test of a command's row comes right after its checks. -/
theorem startCapacity : Obligations.StartCapacity := by
  unfold Obligations.StartCapacity
  intro s i space hwf hi haccepts hpass hcap
  obtain ⟨body, hexec, -⟩ := s.exists_runs hi
  rw [hexec, hwf, hcap, runCommand_capacity haccepts (State.firstFailing_of_checksPass hpass)]
  exact ⟨_, rfl, State.raise_atStart ..⟩

/-- Settles O8: check 3 comes before the abort and the numbered checks. -/
theorem errorStateRefuses : Obligations.ErrorStateRefuses := by
  unfold Obligations.ErrorStateRefuses
  intro s i hwf hi herr
  obtain ⟨body, hexec, -⟩ := s.exists_runs hi
  rw [hexec, hwf, runCommand_error herr]
  exact ⟨_, rfl, State.raise_atStart ..⟩

/-- Settles O9: the abort comes before the numbered checks. -/
theorem abortTaken : Obligations.AbortTaken := by
  unfold Obligations.AbortTaken
  intro s i hwf hi herr habort
  obtain ⟨body, hexec, -⟩ := s.exists_runs hi
  rw [hexec, hwf, runCommand_aborted herr habort]
  exact ⟨_, rfl, State.raise_atStart .., rfl⟩

end

section
/-! SUPPORT. The start of a command, the completion pulse, the error state over every step, and the three system
commands (49_system R320 to R323, R333, 60_exceptions R357, R358). -/

namespace Sys2Proof.Machine

section
variable {s t : State}

/-! ### A step is a command, an operation of the host or an idle one (log 1, 2) -/

theorem runWord_ok {i : Instr} (h : decodeWord s.regs.cmd = .ok i) : runWord s = exec i s := by
  simp only [runWord, h]

theorem decodeWord_of_decodeTableWord {nbits w : Nat} {i : Instr} (h : decodeTableWord nbits w = some i) :
    decodeWord (BitVec.ofNat 32 (w % 2 ^ nbits)) = .ok i := by
  rw [decodeTableWord] at h
  cases hword : decodeWord (BitVec.ofNat 32 (w % 2 ^ nbits)) with
  | ok j =>
    rw [hword] at h
    exact congrArg _ (Option.some.inj h)
  | error e =>
    rw [hword] at h
    cases h

theorem commandNext_withFetchWord (s : State) (nbits w : Nat) : (s.withFetchWord nbits w).commandNext = true := by
  cases hhost : s.env.host <;> simp [State.commandNext, State.withFetchWord, hhost]

/-- Where no command is next, an operation of the host is, or nothing is pending and CORE is idle. -/
theorem step_of_not_commandNext (h : s.commandNext = false) :
    (s.flags.busy = false ∧ step s = .next s.quiet) ∨
    ∃ e op, s.hostNext e op = true ∧ step s = hostStep op s.popHost := by
  cases hhost : s.env.host with
  | nil =>
    have hidle : s.flags.busy = false := by simpa [State.commandNext, hhost] using h
    exact .inl ⟨hidle, by simp [step, hhost, hidle]⟩
  | cons e rest =>
    have hop : s.hostNext e.early e.op = true := by simp [State.hostNext, hhost]
    refine .inr ⟨e.early, e.op, hop, step_hostNext hop (fun hbusy => ?_)⟩
    simpa [State.commandNext, hhost, hbusy] using h

/-! ### The operations of the host -/

theorem State.hostRegRead_error (s : State) (off : BitVec 8) : (s.hostRegRead off).flags.error = s.flags.error := by
  rw [State.hostRegRead]
  split
  · rfl
  split <;> rfl

theorem State.writeReg_error (s : State) (r : Reg) (v : Word) : (s.writeReg r v).flags.error = s.flags.error := by
  cases r with
  | abort => rw [State.writeReg, State.writeAbort_flags]
  | _ => rfl

theorem State.hostRegWrite_error (s : State) (off : BitVec 8) (v : Word) :
    (s.hostRegWrite off v).flags.error = s.flags.error := by
  rw [State.hostRegWrite]
  split
  · rfl
  split
  · split
    · exact s.writeReg_error .abort v
    · rfl
  · exact s.writeReg_error _ v

theorem State.hostSpaceRead_error (s : State) (sp : SpaceId) (i : Nat) :
    (s.hostSpaceRead sp i).flags.error = s.flags.error := by
  rw [State.hostSpaceRead]
  split <;> rfl

theorem State.hostSpaceWrite_error (s : State) (sp : SpaceId) (i : Nat) (v : BitVec 64) :
    (s.hostSpaceWrite sp i v).flags.error = s.flags.error := by
  rw [State.hostSpaceWrite]
  split
  · rfl
  · cases sp <;> rfl

/-- An operation of the host other than the hardware reset leaves ERROR, and its step ends the completion pulse. -/
theorem hostStep_cases {op : HostOp} (h : hostStep op s = .next t) :
    (op = .hardReset ∧ t = s.hardReset) ∨ ∃ u : State, u.flags.error = s.flags.error ∧ t = u.quiet := by
  cases op with
  | regRead off =>
    cases h
    exact .inr ⟨_, s.hostRegRead_error off, rfl⟩
  | regWrite off v =>
    cases h
    exact .inr ⟨_, s.hostRegWrite_error off v, rfl⟩
  | spaceRead sp i =>
    rw [hostStep] at h
    split at h <;> cases h
    exact .inr ⟨_, s.hostSpaceRead_error sp i, rfl⟩
  | spaceWrite sp i v =>
    rw [hostStep] at h
    split at h <;> cases h
    exact .inr ⟨_, s.hostSpaceWrite_error sp i v, rfl⟩
  | infoRead sel =>
    cases h
    exact .inr ⟨s.hostInfoRead sel, rfl, rfl⟩
  | abortLine level =>
    cases h
    exact .inr ⟨{ s with env := { s.env with abortLine := level } }, rfl, rfl⟩
  | hardReset =>
    cases h
    exact .inl ⟨rfl, rfl⟩

/-- No operation of the host pulses (49_system R333). -/
theorem hostStep_irqPulse {op : HostOp} (h : hostStep op s = .next t) : t.env.irqPulse = false := by
  obtain ⟨-, rfl⟩ | ⟨u, -, rfl⟩ := hostStep_cases h <;> rfl

/-- Of the commands only ATTEMPT_BEGIN and SOFT_RESET leave the error state (60_exceptions R357). -/
theorem exec_error {i : Instr} (hwf : i.wf = true) (herr : s.flags.error = true) (h : exec i s = .next t)
    (hleft : t.flags.error = false) : i = .attemptBegin ∨ i = .softReset := by
  cases hab : i.abortable with
  | true =>
    obtain ⟨u, hu, ⟨hflags, -⟩, -⟩ := errorStateRefuses s i hwf hab herr
    cases hu.symm.trans h
    rw [hflags] at hleft
    cases hleft
  | false =>
    obtain rfl | rfl | rfl := eq_of_not_abortable hab
    · cases h
      cases herr.symm.trans hleft
    · exact .inr rfl
    · exact .inl rfl

end

end Sys2Proof.Machine

open Sys2Proof Sys2Proof.Machine

/-- Settles O15: the end of a command pulses as CTRL says, SOFT_RESET's and every other step do not. -/
theorem completionPulse : Obligations.CompletionPulse := by
  unfold Obligations.CompletionPulse
  refine ⟨fun s t i h => ?_, fun s t hidle h => ?_⟩
  · by_cases hi : i = .softReset
    · subst hi
      cases h
      exact (Bool.and_false _).symm
    rw [decide_eq_true hi, Bool.and_true]
    cases exec_end hi h with
    | refused => rfl
    | raised _ _ hkept => exact congrArg (BitVec.getLsbD · 2) hkept.ctrl
    | completed hkept => exact congrArg (BitVec.getLsbD · 2) hkept.ctrl
  · have hnext : s.commandNext = false := by
      cases hhost : s.env.host <;> simp [State.commandNext, hhost, hidle]
    obtain ⟨-, hstep⟩ | ⟨e, op, -, hstep⟩ := step_of_not_commandNext hnext
    · rw [hstep] at h
      cases h
      rfl
    · exact hostStep_irqPulse (hstep ▸ h)

/-- Settles O13: a command in the error state raises again, and the host's other operations leave ERROR. -/
theorem onlyResetsLeaveError : Obligations.OnlyResetsLeaveError := by
  unfold Obligations.OnlyResetsLeaveError
  intro s t herr h hleft
  cases hnext : s.commandNext with
  | true =>
    rw [step_of_commandNext hnext] at h
    cases hdecode : decodeWord s.regs.cmd with
    | ok i =>
      obtain ⟨-, hwf⟩ := decodeWord_eq_ok.1 hdecode
      rw [runWord_ok hdecode] at h
      exact .inl ⟨rfl, (exec_error hwf herr h hleft).imp (congrArg _) (congrArg _)⟩
    | error e =>
      rw [runWord_error hdecode] at h
      cases h
      cases hleft
  | false =>
    obtain ⟨-, hstep⟩ | ⟨e, op, hop, hstep⟩ := step_of_not_commandNext hnext
    · rw [hstep] at h
      cases h
      cases herr.symm.trans hleft
    · obtain ⟨rfl, -⟩ | ⟨u, hu, rfl⟩ := hostStep_cases (hstep ▸ h)
      · exact .inr ⟨e, hop⟩
      · cases herr.symm.trans (hu.symm.trans hleft)

/-- Settles O4: the word in CMD is the one decoded, and `withFetchWord` makes every operation of the host wait. -/
theorem stepRunsDecoded : Obligations.StepRunsDecoded := by
  unfold Obligations.StepRunsDecoded
  refine ⟨fun s i hnext hdecode => ?_, fun s nbits w i hdecode => ?_⟩
  · rw [step_of_commandNext hnext, runWord_ok hdecode]
  · rw [step_of_commandNext (commandNext_withFetchWord s nbits w), runWord_ok]
    exact decodeWord_of_decodeTableWord hdecode

/-- Settles O6: the write is the whole step, and its start of a command is all it changes. -/
theorem commandStart : Obligations.CommandStart := by
  unfold Obligations.CommandStart
  intro s e w hidle hop
  refine ⟨_, step_regWrite_offset (r := .cmd) hidle hop, rfl, rfl, ?_, rfl, rfl, rfl, rfl, rfl, rfl, rfl, rfl⟩
  simp [State.writeReg]

/-- Settles O27: the end of a command is all there is. -/
theorem nopEffect : Obligations.NopEffect := by
  unfold Obligations.NopEffect
  intro s
  exact ⟨s.endOk, rfl, rfl, rfl, ⟨rfl, rfl, rfl⟩, rfl, rfl, rfl, rfl, rfl, rfl⟩

/-- Settles O28: registers and hidden fields are those of reset, the spaces and the costs among them untouched. -/
theorem softResetEffect : Obligations.SoftResetEffect := by
  unfold Obligations.SoftResetEffect
  intro s
  refine ⟨s.softReset, rfl, rfl, fun r hr => ?_, rfl, rfl, rfl, rfl, fun h => ⟨rfl, rfl, rfl, rfl⟩,
    ⟨fun _ => rfl, fun _ _ => rfl⟩, fun sp i _ => State.readElem_congr rfl sp i, rfl, rfl, rfl, rfl⟩
  cases r with
  | status => exact absurd rfl hr
  | _ => rfl

/-- Settles O29: the attempt is discarded, the error state left, and the command ends. -/
theorem attemptBeginEffect : Obligations.AttemptBeginEffect := by
  unfold Obligations.AttemptBeginEffect
  intro s
  exact ⟨s.beginAttempt.endOk, rfl, rfl, rfl, rfl, rfl, rfl, State.slot_beginAttempt s,
    ⟨fun _ => rfl, fun _ _ => rfl⟩, fun sp i _ => State.readElem_congr rfl sp i, rfl, rfl, rfl, rfl⟩

end
